-- ==== Sys2Proof/Word.lean ====
section
/-! DEFINITION. The words, names and fixed-size tables the model is written in. -/

namespace Sys2Proof

abbrev Byte := BitVec 8
abbrev Half := BitVec 16
/-- A shared-space address or a target address (24 bits, 00_scope.md). -/
abbrev Addr := BitVec 24
/-- A tick count of the Time Base (R64). -/
abbrev Tick := BitVec 32
/-- A grant serial (R18: 1 to 2047). -/
abbrev Serial := BitVec 11

/-- A0 to A3. -/
abbrev Agent := Fin 4
/-- W0 to W31. -/
abbrev WindowId := Fin 32
/-- T0 to T7. -/
abbrev TargetId := Fin 8

/-- A table of exactly `n` records. -/
structure Tbl (α : Type) (n : Nat) where
  cells : List α
  size : cells.length = n
deriving DecidableEq, Repr

namespace Tbl

def fill (n : Nat) (x : α) : Tbl α n := ⟨List.replicate n x, List.length_replicate⟩

def get (t : Tbl α n) (i : Fin n) : α := t.cells[i.val]'(by rw [t.size]; exact i.isLt)

def set (t : Tbl α n) (i : Fin n) (x : α) : Tbl α n :=
  ⟨t.cells.set i.val x, by rw [List.length_set]; exact t.size⟩

def map (f : α → β) (t : Tbl α n) : Tbl β n := ⟨t.cells.map f, by rw [List.length_map]; exact t.size⟩

end Tbl

/-- The five notice kinds, in the fixed order of R159. -/
inductive NoticeKind where
  | fault | lost | closing | warning | reply
deriving DecidableEq, Repr

/-- The four attention kinds, in the order of R177. -/
inductive AttnKind where
  | targetFault | closeDone | openDone | poolRefusal
deriving DecidableEq, Repr

/-- The two questions of admission that are asked of the Window Directory and of the Target Controller: check 3 and
check 4 of R121. -/
inductive Question where
  | decode | target
deriving DecidableEq, Repr

/-- A token as an agent writes it (R180): the window byte, the zero byte and the 16-bit serial. -/
structure Token where
  window : Byte
  zero : Byte
  serial : Half
deriving DecidableEq, Repr

/-- One agent bus cycle (R119): first address, direction, size in bytes, and the data of every byte of a write. -/
structure BusCycle where
  addr : Addr
  write : Bool
  size : Nat
  data : List Byte
deriving DecidableEq, Repr

/-- A TACK (R129): which transfer it answers, by its number among those the Router has started (log 34), and what the
target presents on the data lines for each beat. -/
structure Acknowledge where
  transfer : Nat
  beats : Tbl (BitVec 32) 8
deriving DecidableEq, Repr

/-- A TERR (R129): which transfer it answers (log 34), and whether the Target Controller takes the outcome report before
the arbiter's read of the next target (R115, log 9). -/
structure TargetError where
  transfer : Nat
  reportFirst : Bool
deriving DecidableEq, Repr

end Sys2Proof
end

