-- ==== Sys2Proof/Syntax.lean ====
section
/-! DEFINITION. The commands: one constructor for each row of spec/opcode_table.json, in the table's order. -/

namespace Sys2Proof

/-- The commands. A supervisor request carries the payload fields of R182, an agent request its agent and the argument
bytes of R180 (reserved values included), an internal event the record it names. -/
inductive Instr where
  | configureDevice (refclk : Half) (fill : BitVec 32) (flags : Byte)
  | start
  | stop
  | readDevice
  | takeAttention
  | configureTarget (target : Byte) (wake park delay : Half) (limit : Byte)
  | removeTarget (target : Byte)
  | wakeTarget (target : Byte)
  | parkTarget (target : Byte)
  | recoverTarget (target : Byte)
  | readTarget (target : Byte)
  | defineWindow (window : Byte) (base : Addr) (k target attrs : Byte) (offset : Addr) (term : Half) (margin : Byte)
      (deadline : Half)
  | amendWindow (window select attrs : Byte) (term : Half) (margin : Byte) (deadline : Half)
  | openWindow (window : Byte)
  | closeWindow (window flags : Byte)
  | retireWindow (window : Byte)
  | readWindow (window : Byte)
  | readLeases (window : Byte)
  | revokeLease (window agent : Byte)
  | setQuota (agent quota : Byte)
  | readPool
  /-- A REQUEST frame with a correct CRC: its code and payload bytes. -/
  | unknownRequest (code : Byte) (payload : List Byte)
  /-- A frame, as the bits sampled on the rising edges of MSCK between the fall and the rise of MSEL (R164). -/
  | badFrame (bits : List Bool)
  /-- A frame, as the bits sampled on the rising edges of MSCK between the fall and the rise of MSEL (R164). -/
  | ignoredFrame (bits : List Bool)
  /-- A FETCH frame, with the number of rising edges of MSCK after its kind byte. -/
  | fetch (clocked : Nat)
  | acquire (agent : Agent) (window flags : Byte) (waitLimit term : Half)
  | release (agent : Agent) (token : Token)
  | downgrade (agent : Agent) (token : Token)
  | upgrade (agent : Agent) (token : Token) (waitLimit : Half)
  | renew (agent : Agent) (token : Token) (term : Half)
  | abandon (agent : Agent)
  | queryWindow (agent : Agent) (window : Byte)
  | readFault (agent : Agent)
  | takeNotice (agent : Agent)
  | setNotices (agent : Agent) (fault lost closing warning reply : Byte)
  | unknownCommit (agent : Agent) (code : Byte)
  /-- A commit of the request record as it stands. -/
  | commitRefused (agent : Agent)
  /-- A write cycle at an offset of the control aperture FF0000h to FFFFFFh. -/
  | controlApertureWrite (agent : Agent) (offset : Half) (size : Nat) (data : List Byte)
  /-- A cycle at an offset of the control aperture, read or write. -/
  | badControlCycle (agent : Agent) (offset : Half) (write : Bool) (size : Nat) (data : List Byte)
  | dataCycle (agent : Agent) (cycle : BusCycle)
  /-- The answer to one of the questions admission asks for the agent's cycle (log 8). -/
  | addressDecode (agent : Agent) (question : Question)
  | admissionClaim (agent : Agent)
  | tack (answer : Acknowledge)
  | terr (answer : TargetError)
  /-- The running-out of the response limit; `reportFirst` as for TERR (log 9). -/
  | responseLimit (reportFirst : Bool)
  | outcomeReport
  | accessDrop (agent : Agent)
  | portReset (agent : Agent)
  | prstnRise (agent : Agent)
  /-- An edge of RESETn: it falls where it is high, and rises where it is low (log 19). -/
  | deviceReset
  | busRequest
  | withdrawal
  | tick
  | expiry (window : WindowId) (agent : Agent)
  | warningTime (window : WindowId) (agent : Agent)
  | waitDeadline (window : WindowId) (agent : Agent)
  | closeDeadline (window : WindowId)
  | wakeTimeExpiry (target : TargetId)
  | parkTimeExpiry (target : TargetId)
  | parkDelayExpiry (target : TargetId)
  | emptyContextReport (window : WindowId)
  | responseHandoff (agent : Agent)
  | noticeHandoff (agent : Agent) (kind : NoticeKind)
  | attentionHandoff (kind : AttnKind)
  | microsecondStep
deriving DecidableEq, Repr

end Sys2Proof
end

