-- ==== Sys2Proof/Decode.lean ====
section
/-! DEFINITION. The bytes of management frames (chapters 10 and 11): byte order, CRC-8, the request a frame carries, and
the frame that carries a request. -/

namespace Sys2Proof

/-- The more significant byte of a 16-bit field. -/
def hiByte (x : Half) : Byte := x.extractLsb' 8 8
/-- The less significant byte of a 16-bit field. -/
def loByte (x : Half) : Byte := x.extractLsb' 0 8

def ofBytes2 (h l : Byte) : Half := h ++ l
def ofBytes3 (h m l : Byte) : Addr := h ++ m ++ l
def ofBytes4 (a b c d : Byte) : BitVec 32 := a ++ b ++ c ++ d

/-- A 16-bit field of a management frame, most significant byte first (11_record_formats_and_codes.md). -/
def be16 (x : Half) : List Byte := [hiByte x, loByte x]
def be24 (x : Addr) : List Byte := [x.extractLsb' 16 8, x.extractLsb' 8 8, x.extractLsb' 0 8]
def be32 (x : BitVec 32) : List Byte :=
  [x.extractLsb' 24 8, x.extractLsb' 16 8, x.extractLsb' 8 8, x.extractLsb' 0 8]
/-- A 16-bit field of the control aperture, least significant byte at the lowest address (R179). -/
def le16 (x : Half) : List Byte := [loByte x, hiByte x]
def le32 (x : BitVec 32) : List Byte :=
  [x.extractLsb' 0 8, x.extractLsb' 8 8, x.extractLsb' 16 8, x.extractLsb' 24 8]

/-- The bits of a byte as the SPI shifts them, most significant first (R164). -/
def bitsOfByte (b : Byte) : List Bool :=
  [b.getLsbD 7, b.getLsbD 6, b.getLsbD 5, b.getLsbD 4, b.getLsbD 3, b.getLsbD 2, b.getLsbD 1, b.getLsbD 0]

def bitsOfBytes (bytes : List Byte) : List Bool := bytes.flatMap bitsOfByte

/-- The byte that eight bits form, the first the most significant (R164). -/
def byteOfBits (b7 b6 b5 b4 b3 b2 b1 b0 : Bool) : Byte :=
  BitVec.ofBool b7 ++ BitVec.ofBool b6 ++ BitVec.ofBool b5 ++ BitVec.ofBool b4 ++ BitVec.ofBool b3 ++
    BitVec.ofBool b2 ++ BitVec.ofBool b1 ++ BitVec.ofBool b0

/-- The complete bytes of a frame: every eight bits from the fall of MSEL form one, and those left over at the rise form
none (R164). -/
def frameBytes : List Bool → List Byte
  | b7 :: b6 :: b5 :: b4 :: b3 :: b2 :: b1 :: b0 :: rest => byteOfBits b7 b6 b5 b4 b3 b2 b1 b0 :: frameBytes rest
  | _ => []

/-- One shift of the CRC register (R166). -/
def crcShift (r : Byte) : Byte := if r.msb then (r <<< 1) ^^^ 0x07#8 else r <<< 1

/-- One byte of the CRC-8 (R166): exclusive-OR, then eight shifts. -/
def crcByte (r b : Byte) : Byte :=
  crcShift (crcShift (crcShift (crcShift (crcShift (crcShift (crcShift (crcShift (r ^^^ b))))))))

/-- The CRC-8 of a byte string (R166). -/
def crc8 (bytes : List Byte) : Byte := bytes.foldl crcByte 0

/-- The payload length L that R182 gives for a request code; none for a code that names no supervisor request. -/
def requestLength (code : Byte) : Option Nat :=
  if code = 0x20 then some 7
  else if code = 0x21 ∨ code = 0x22 ∨ code = 0x23 ∨ code = 0x24 then some 0
  else if code = 0x30 then some 8
  else if code = 0x31 ∨ code = 0x32 ∨ code = 0x33 ∨ code = 0x34 ∨ code = 0x35 then some 1
  else if code = 0x40 then some 15
  else if code = 0x41 then some 8
  else if code = 0x42 ∨ code = 0x44 ∨ code = 0x45 then some 1
  else if code = 0x43 then some 2
  else if code = 0x50 then some 1
  else if code = 0x51 ∨ code = 0x52 then some 2
  else if code = 0x53 then some 0
  else none

/-- The request that a code and a payload of the right length name (R182); none for every other code or length. -/
def requestOf (code : Byte) (payload : List Byte) : Option Instr :=
  match payload with
  | [] =>
    if code = 0x21 then some .start
    else if code = 0x22 then some .stop
    else if code = 0x23 then some .readDevice
    else if code = 0x24 then some .takeAttention
    else if code = 0x53 then some .readPool
    else none
  | [a] =>
    if code = 0x31 then some (.removeTarget a)
    else if code = 0x32 then some (.wakeTarget a)
    else if code = 0x33 then some (.parkTarget a)
    else if code = 0x34 then some (.recoverTarget a)
    else if code = 0x35 then some (.readTarget a)
    else if code = 0x42 then some (.openWindow a)
    else if code = 0x44 then some (.retireWindow a)
    else if code = 0x45 then some (.readWindow a)
    else if code = 0x50 then some (.readLeases a)
    else none
  | [a, b] =>
    if code = 0x43 then some (.closeWindow a b)
    else if code = 0x51 then some (.revokeLease a b)
    else if code = 0x52 then some (.setQuota a b)
    else none
  | [a, b, c, d, e, f, g] =>
    if code = 0x20 then some (.configureDevice (ofBytes2 a b) (ofBytes4 c d e f) g) else none
  | [a, b, c, d, e, f, g, h] =>
    if code = 0x30 then some (.configureTarget a (ofBytes2 b c) (ofBytes2 d e) (ofBytes2 f g) h)
    else if code = 0x41 then some (.amendWindow a b c (ofBytes2 d e) f (ofBytes2 g h))
    else none
  | [a, b, c, d, e, f, g, h, i, j, k, l, m, n, o] =>
    if code = 0x40 then
      some (.defineWindow a (ofBytes3 b c d) e f g (ofBytes3 h i j) (ofBytes2 k l) m (ofBytes2 n o))
    else none
  | _ => none

/-- The code and payload of a supervisor request (R182); none for every other command. -/
def requestBytes (i : Instr) : Option (Byte × List Byte) :=
  match i with
  | .configureDevice refclk fill flags => some (0x20, be16 refclk ++ be32 fill ++ [flags])
  | .start => some (0x21, [])
  | .stop => some (0x22, [])
  | .readDevice => some (0x23, [])
  | .takeAttention => some (0x24, [])
  | .configureTarget t wake park delay limit => some (0x30, [t] ++ be16 wake ++ be16 park ++ be16 delay ++ [limit])
  | .removeTarget t => some (0x31, [t])
  | .wakeTarget t => some (0x32, [t])
  | .parkTarget t => some (0x33, [t])
  | .recoverTarget t => some (0x34, [t])
  | .readTarget t => some (0x35, [t])
  | .defineWindow w base k t attrs offset term margin deadline =>
    some (0x40, [w] ++ be24 base ++ [k, t, attrs] ++ be24 offset ++ be16 term ++ [margin] ++ be16 deadline)
  | .amendWindow w select attrs term margin deadline =>
    some (0x41, [w, select, attrs] ++ be16 term ++ [margin] ++ be16 deadline)
  | .openWindow w => some (0x42, [w])
  | .closeWindow w flags => some (0x43, [w, flags])
  | .retireWindow w => some (0x44, [w])
  | .readWindow w => some (0x45, [w])
  | .readLeases w => some (0x50, [w])
  | .revokeLease w a => some (0x51, [w, a])
  | .setQuota a q => some (0x52, [a, q])
  | .readPool => some (0x53, [])
  | .unknownRequest .. | .badFrame .. | .ignoredFrame .. | .fetch .. | .acquire .. | .release .. | .downgrade ..
  | .upgrade .. | .renew .. | .abandon .. | .queryWindow .. | .readFault .. | .takeNotice .. | .setNotices ..
  | .unknownCommit .. | .commitRefused .. | .controlApertureWrite .. | .badControlCycle .. | .dataCycle ..
  | .addressDecode .. | .admissionClaim .. | .tack .. | .terr .. | .responseLimit .. | .outcomeReport
  | .accessDrop .. | .portReset .. | .prstnRise .. | .deviceReset | .busRequest | .withdrawal | .tick | .expiry ..
  | .warningTime .. | .waitDeadline .. | .closeDeadline .. | .wakeTimeExpiry .. | .parkTimeExpiry ..
  | .parkDelayExpiry .. | .emptyContextReport .. | .responseHandoff .. | .noticeHandoff .. | .attentionHandoff ..
  | .microsecondStep => none

/-- The kind byte of a REQUEST frame (R182). -/
def requestKind : Byte := 0xA5
/-- The kind byte of a FETCH frame (R182). -/
def fetchKind : Byte := 0x5A

/-- A REQUEST frame: kind, code, L, payload and CRC (R165). -/
def requestFrame (code : Byte) (payload : List Byte) : List Byte :=
  let body := [requestKind, code, BitVec.ofNat 8 payload.length] ++ payload
  body ++ [crc8 body]

/-- The frame that carries a supervisor request. -/
def encodeRequest (i : Instr) : Option (List Byte) := (requestBytes i).map fun r => requestFrame r.1 r.2

/-- How the rise of MSEL settles a REQUEST frame (R165). -/
inductive FrameOutcome where
  /-- Not executed, no result is posted. -/
  | discarded
  /-- Not executed, a BAD_FRAME result echoes the code. -/
  | bad (code : Byte)
  /-- The CRC is correct: the request is executed. -/
  | request (code : Byte) (payload : List Byte)
deriving DecidableEq, Repr

/-- The table of R165, on the complete bytes received, kind byte included. -/
def settleFrame (bytes : List Byte) : FrameOutcome :=
  match bytes with
  | kind :: code :: len :: rest =>
    if 15 < len.toNat then .bad code
    else if rest.length < len.toNat + 1 then .discarded
    else
      let payload := rest.take len.toNat
      if crc8 (kind :: code :: len :: payload) = rest.getD len.toNat 0 then .request code payload else .bad code
  | _ => .discarded

/-- The command that the frame with the given bits is (R164, R165, R169). -/
def frameCommand (bits : List Bool) : Instr :=
  match frameBytes bits with
  | [] => .ignoredFrame bits
  | kind :: rest =>
    if kind = requestKind then
      match settleFrame (kind :: rest) with
      | .request code payload => (requestOf code payload).getD (.unknownRequest code payload)
      | .bad _ | .discarded => .badFrame bits
    else if kind = fetchKind then .fetch (bits.length - 8)
    else .ignoredFrame bits

/-- The opcode table gives no row any bits, so no word spells a command. -/
def decodeTableWord (_nbits _w : Nat) : Option Instr := none

end Sys2Proof
end

