-- ==== Sys2Proof/Config.lean ====
section
/-! DEFINITION. What an implementation of the part leaves free: values the manual does not fix. Nothing in Lean can evaluate them. -/

namespace Sys2Proof

/-- Free value of R65: the manual fixes the moment of a microsecond step only to within one REFCLK period when the
divisor is not a multiple of 1000. `freeMoment n` is the `n`-th fresh draw; its user keeps it inside the bound (log 15). -/
opaque Config.freeMoment : Nat → Nat

/-- Free value of R181: the manual codes the six legal sizes only, and states no size code for a recorded cycle of an
illegal size (log 16). -/
opaque Config.freeSizeCode : Nat → BitVec 3

end Sys2Proof
end

