-- ==== Sys2Proof/Machine/State.lean ====
section
/-! DEFINITION. The state of the part as plain data, block by block, and its value after device reset. -/

namespace Sys2Proof.Machine

/-- A deadline (section 4.2): a tick count, and whether the tick count has reached it while the record held it. A due
deadline is the expiry event that its owner has still to take (R67, log 13). -/
structure Deadline where
  time : Tick
  due : Bool
deriving DecidableEq, Repr

/-! ### Window Directory (chapter 1) -/

/-- The window states of R2; `opened` is OPEN. -/
inductive WindowState where
  | vacant | staged | opening | opened | closing
deriving DecidableEq, Repr

inductive AccessRule where
  | readWrite | readOnly
deriving DecidableEq, Repr

/-- The pending close of a CLOSING window (R1): kind FORCE or GENTLE, retire flag, deadline time while GENTLE. -/
structure PendingClose where
  force : Bool
  retire : Bool
  deadline : Option Deadline
deriving DecidableEq, Repr

/-- A window record (table of section 1.1). -/
structure Window where
  state : WindowState
  base : Addr
  k : Nat
  target : TargetId
  offset : Addr
  rule : AccessRule
  /-- Bit n stands for agent An. -/
  admitSet : BitVec 4
  term : Half
  margin : Byte
  closeDeadline : Half
  pending : Option PendingClose
deriving DecidableEq, Repr

/-- A VACANT slot (R1). -/
def Window.empty : Window where
  state := .vacant
  base := 0
  k := 0
  target := 0
  offset := 0
  rule := .readWrite
  admitSet := 0
  term := 0
  margin := 0
  closeDeadline := 0
  pending := none

/-! ### Lease Engine (chapters 2 to 4) -/

inductive Mode where
  | shared | exclusive
deriving DecidableEq, Repr

/-- A pool entry of kind HOLD (table of section 2.1); its window is the context that lists it. -/
structure Hold where
  agent : Agent
  mode : Mode
  once : Bool
  serial : Serial
  expiry : Deadline
  warning : Option Deadline
  warned : Bool
  upgrading : Bool
  /-- The wait deadline of a pending upgrade. -/
  deadline : Option Deadline
deriving DecidableEq, Repr

/-- A pool entry of kind WAIT (table of section 2.1); its window is the context that lists it. -/
structure Wait where
  agent : Agent
  mode : Mode
  once : Bool
  term : Option Half
  deadline : Option Deadline
deriving DecidableEq, Repr

/-- Why a hold ended (R43). -/
inductive Cause where
  | released | used | expired | revoked | closed
deriving DecidableEq, Repr

/-- A last-ending record (R43). -/
structure LastEnding where
  serial : Serial
  cause : Cause
deriving DecidableEq, Repr

/-- A lease context (R22). -/
structure LeaseCtx where
  holders : List Hold
  waiters : List Wait
  inflight : Nat
  drain : Bool
  serial : Serial
  endings : Tbl (Option LastEnding) 4
deriving DecidableEq, Repr

def LeaseCtx.reset : LeaseCtx where
  holders := []
  waiters := []
  inflight := 0
  drain := false
  serial := 1
  endings := Tbl.fill 4 none

/-! ### Target Controller (chapter 6) -/

inductive TargetState where
  | absent | parked | waking | ready | parking | faulted
deriving DecidableEq, Repr

inductive IntervalKind where
  | wake | park
deriving DecidableEq, Repr

/-- A running wake or park interval (R100): the microsecond steps remaining; at 0 it has run out and its expiry is still
to be taken (R66). -/
structure Interval where
  kind : IntervalKind
  remaining : Nat
deriving DecidableEq, Repr

/-- A target record (R100), with the level of its wake line (R101). -/
structure Target where
  state : TargetState
  wakeTime : Half
  parkTime : Half
  parkDelay : Half
  limit : Byte
  failures : Nat
  wakePending : Bool
  interval : Option Interval
  parkDeadline : Option Deadline
  useCount : Nat
  twake : Bool
deriving DecidableEq, Repr

def Target.reset : Target where
  state := .absent
  wakeTime := 0
  parkTime := 0
  parkDelay := 0
  limit := 0
  failures := 0
  wakePending := false
  interval := none
  parkDeadline := none
  useCount := 0
  twake := false

/-! ### Data Router (chapters 7 and 8) -/

/-- Refusal and failure reasons of the fault record (R133, section 11.6). -/
inductive Reason where
  | notRunning | badAlign | noWindow | targetFaulted | noLease | readOnly | sharedWrite | boundary | targetError
  | targetTimeout
deriving DecidableEq, Repr

/-- What a hit of the decode carries (R16): the window, its state, its target, its access rule as the finding READ_ONLY, its
end address, and the target address. -/
structure Hit where
  window : WindowId
  state : WindowState
  target : TargetId
  readOnly : Bool
  endAddr : Nat
  targetAddr : Addr
deriving DecidableEq, Repr

/-- Which question of admission is still to be answered (R122). -/
inductive Phase where
  /-- The decode of check 3. -/
  | decode
  /-- The target read of check 4. -/
  | target (hit : Hit)
  /-- The Lease Engine's claim, checks 5 to 8. -/
  | claim (hit : Hit)
deriving DecidableEq, Repr

/-- A data cycle whose admission is under way. `drop` says that the Router has taken a fall of PRSTn meanwhile, which it
settles after the Lease Engine's answer (R135). -/
structure Admission where
  cycle : BusCycle
  phase : Phase
  drop : Bool
deriving DecidableEq, Repr

/-- An admitted access (R120), with the cycle it came from. -/
structure Access where
  window : WindowId
  target : TargetId
  targetAddr : Addr
  cycle : BusCycle
  serial : Serial
  once : Bool
deriving DecidableEq, Repr

/-- An access slot (R120). -/
inductive Slot where
  | empty
  | queued (x : Access)
  | active (x : Access) (discard : Bool)
deriving DecidableEq, Repr

/-- What the Router keeps for one port. -/
structure Path where
  slot : Slot
  admission : Option Admission
  /-- A cycle the agent offers and the bus handshake holds (R119, R136). -/
  held : Option BusCycle
  /-- The port's reset has abandoned the cycle that the slot or the admission came from (R160, log 12). -/
  abandoned : Bool
  /-- The Router has still to take the fall of PRSTn that the port has taken (R135, log 10). -/
  dropOwed : Bool
  /-- The cycle in hand was taken after that fall, which so finds nothing of its own to drop (R136, log 10). -/
  dropStale : Bool
deriving DecidableEq, Repr

def Path.reset : Path where
  slot := .empty
  admission := none
  held := none
  abandoned := false
  dropOwed := false
  dropStale := false

/-- The bus ownership state (R126), with the port whose transfer is on the bus. -/
inductive Bus where
  | ownedIdle
  | transfer (port : Agent)
  | releasing (port : Agent)
  | lent
deriving DecidableEq, Repr

/-- What the part drives on the target bus lines (R139): idle with every TSEL low, a transfer with its target's TSEL
high, or nothing. -/
inductive Lines where
  | idle
  | transfer (target : TargetId) (addr : Addr) (write : Bool) (size : Nat) (data : List Byte)
  | floating
deriving DecidableEq, Repr

structure Router where
  paths : Tbl Path 4
  bus : Bus
  pointer : Agent
  /-- Microsecond steps remaining of the running transfer's response limit (R128). -/
  limit : Option Nat
  lines : Lines
  bgnt : Bool
  breq : Bool
deriving DecidableEq, Repr

/-- The Router after device reset (R137, R146), with the level of BREQ given. -/
def Router.reset (breq : Bool) : Router where
  paths := Tbl.fill 4 Path.reset
  bus := .ownedIdle
  pointer := 0
  limit := none
  lines := .idle
  bgnt := false
  breq := breq

/-- What a transfer outcome report says of the transfer (R113). -/
inductive Outcome where
  | success | targetError | targetTimeout
deriving DecidableEq, Repr

/-! ### Agent Port Units (chapter 9) -/

/-- Statuses of responses and results (section 11.6). -/
inductive Status where
  | nothing | ok | granted | accepted | done
  | badArgument | badState | unknown | badFrame | notRunning | noTimebase
  | inUse | overlap | noTarget | noWindow | notOpen | closing | notAdmitted | targetFaulted
  | alreadyHeld | noEntry | quota | conflict | stale | deadlock
  | timedOut | abandoned | closed | revoked | lost
deriving DecidableEq, Repr

inductive PortState where
  | idle | waiting | inReset
deriving DecidableEq, Repr

/-- The request record (R148, R180). -/
structure RequestRecord where
  code : Byte
  args : Tbl Byte 8
deriving DecidableEq, Repr

def RequestRecord.reset : RequestRecord := ⟨0, Tbl.fill 8 0⟩

/-- The response record (R153); its payload length is the length of `payload`. -/
structure ResponseRecord where
  code : Byte
  status : Status
  seq : Byte
  payload : List Byte
deriving DecidableEq, Repr

def ResponseRecord.reset : ResponseRecord := ⟨0, .nothing, 0, []⟩

inductive LostReason where
  | expired | revoked | closed
deriving DecidableEq, Repr

/-- The five notice sets (R156). -/
structure Notices where
  fault : Bool
  lost : Tbl (Option LostReason) 32
  closing : Tbl Bool 32
  warning : Tbl Bool 32
  reply : Tbl Bool 32
deriving DecidableEq, Repr

def Notices.empty : Notices where
  fault := false
  lost := Tbl.fill 32 none
  closing := Tbl.fill 32 false
  warning := Tbl.fill 32 false
  reply := Tbl.fill 32 false

/-- Enable and urgency of one notice kind (R157). -/
structure NoticeSetting where
  enable : Bool
  urgency : BitVec 2
deriving DecidableEq, Repr

/-- The notice configuration (R157). -/
structure NoticeConfig where
  fault : NoticeSetting
  lost : NoticeSetting
  closing : NoticeSetting
  warning : NoticeSetting
  reply : NoticeSetting
deriving DecidableEq, Repr

/-- The table of R157. -/
def NoticeConfig.reset : NoticeConfig where
  fault := ⟨true, 3⟩
  lost := ⟨true, 3⟩
  closing := ⟨true, 2⟩
  warning := ⟨true, 1⟩
  reply := ⟨true, 0⟩

/-- A full fault record (R133). -/
structure FaultRecord where
  reason : Reason
  addr : Addr
  write : Bool
  size : Nat
  window : Option WindowId
  further : Bool
deriving DecidableEq, Repr

/-- A notice item handed to a port by another block (R156); FAULT items come with a refusal or a completion. -/
inductive NoticeItem where
  | lost (window : WindowId) (reason : LostReason)
  | closing (window : WindowId)
  | warning (window : WindowId)
deriving DecidableEq, Repr

/-- A notice item on its way to the port; `stale` says that the port has taken a reset since it was handed (R160). -/
structure HandedNotice where
  item : NoticeItem
  stale : Bool
deriving DecidableEq, Repr

/-- A wait-ending response on its way to the port (R51); `stale` as above. -/
structure HandedResponse where
  code : Byte
  status : Status
  window : WindowId
  payload : List Byte
  stale : Bool
deriving DecidableEq, Repr

/-- How the port ended its latest bus cycle: a write or a commit, a data read with one 32-bit value for each beat, or a
control-aperture read with its bytes (log 25). -/
inductive CycleEnd where
  | write (aerr : Bool)
  | beats (aerr : Bool) (data : List (BitVec 32))
  | bytes (data : List Byte)
deriving DecidableEq, Repr

structure Port where
  state : PortState
  request : RequestRecord
  response : ResponseRecord
  commitRefused : Bool
  notices : Notices
  config : NoticeConfig
  fault : Option FaultRecord
  /-- Level of AIRQn, true for high (R158). -/
  airqn : Bool
  /-- Level of PRSTn, true for high. -/
  prstn : Bool
  /-- The port has still to take the fall of PRSTn that the Router has taken (R152, log 10). -/
  fallOwed : Bool
  ended : Option CycleEnd
  /-- Wait-ending responses handed and not yet taken, oldest first. -/
  responses : List HandedResponse
  /-- Notice items handed and not yet taken, oldest first. -/
  handed : List HandedNotice
deriving DecidableEq, Repr

/-- A port after device reset with the given level of PRSTn (R163). -/
def Port.reset (prstn : Bool) : Port where
  state := if prstn then .idle else .inReset
  request := .reset
  response := .reset
  commitRefused := false
  notices := .empty
  config := .reset
  fault := none
  airqn := true
  prstn := prstn
  fallOwed := false
  ended := none
  responses := []
  handed := []

/-! ### Management Port Unit (chapter 10) -/

/-- The result record (R167). -/
structure ResultRecord where
  status : Status
  code : Byte
  seq : BitVec 4
  overwritten : Bool
  payload : List Byte
  fetched : Bool
deriving DecidableEq, Repr

def ResultRecord.reset : ResultRecord := ⟨.nothing, 0, 0, false, [], true⟩

/-- The attention sets (R175). -/
structure Attention where
  targetFault : Tbl Bool 8
  closeDone : Tbl Bool 32
  openDone : Tbl Bool 32
  poolRefusal : Tbl Bool 4
deriving DecidableEq, Repr

def Attention.empty : Attention where
  targetFault := Tbl.fill 8 false
  closeDone := Tbl.fill 32 false
  openDone := Tbl.fill 32 false
  poolRefusal := Tbl.fill 4 false

/-- The attention enable mask (R171). -/
structure AttnMask where
  targetFault : Bool
  closeDone : Bool
  openDone : Bool
  poolRefusal : Bool
deriving DecidableEq, Repr

/-- An attention item on its way to the MP (R175). -/
inductive AttnItem where
  | targetFault (target : TargetId)
  | closeDone (window : WindowId)
  | openDone (window : WindowId)
  | poolRefusal (agent : Agent)
deriving DecidableEq, Repr

structure Mgmt where
  /-- The device state: RUNNING, otherwise CONFIGURING (R170). -/
  running : Bool
  fill : BitVec 32
  lending : Bool
  mask : AttnMask
  attention : Attention
  /-- Level of ATTN (R176). -/
  attn : Bool
  result : ResultRecord
  /-- Level of MSEL between two commands, true for high: low only where it fell while RESETn was low (R164, log 19). -/
  msel : Bool
  /-- The bits shifted out on MSO in the latest frame (log 25). -/
  mso : List Bool
  /-- Attention items handed and not yet taken, oldest first. -/
  handed : List AttnItem
deriving DecidableEq, Repr

/-- The MP after device reset, with the level of MSEL given (R178). -/
def Mgmt.reset (msel : Bool) : Mgmt where
  running := false
  fill := 0xFFFFFFFF
  lending := false
  mask := ⟨true, true, true, true⟩
  attention := .empty
  attn := false
  result := .reset
  msel := msel
  mso := []
  handed := []

/-! ### Time Base (chapter 4) -/

structure TimeBase where
  /-- REFCLK periods in a tick; none while unset (R64). -/
  divisor : Option Half
  tick : Tick
  /-- REFCLK periods counted in the current tick (R64). -/
  position : Nat
  /-- Microsecond steps given in the current tick (R65). -/
  steps : Nat
deriving DecidableEq, Repr

def TimeBase.reset : TimeBase := ⟨none, 0, 0, 0⟩

/-! ### The part -/

structure State where
  /-- Level of RESETn, true for high (R178). -/
  resetn : Bool
  windows : Tbl Window 32
  ctxs : Tbl LeaseCtx 32
  quotas : Tbl Nat 4
  /-- Pool entries in use, for each agent (R21). -/
  inUse : Tbl Nat 4
  targets : Tbl Target 8
  router : Router
  ports : Tbl Port 4
  mgmt : Mgmt
  tb : TimeBase
  /-- Outcome reports handed to the Target Controller and not yet taken, oldest first (R113). -/
  outcomes : List (TargetId × Outcome)
  /-- Empty-context reports handed to the Window Directory and not yet taken (R96). -/
  emptyReports : List WindowId
  /-- How many transfers the Router has started, which numbers the latest; the model's own field (log 34). -/
  transfers : Nat
  /-- How many free values have been drawn; the model's own field (log 15, log 16). -/
  free : Nat
  /-- The commands waiting to be taken, first in, first out. -/
  pending : List Instr
deriving DecidableEq, Repr

/-- The levels of the input pins that a device reset finds, true for high. -/
structure Pins where
  resetn : Bool
  msel : Bool
  prstn : Tbl Bool 4
  breq : Bool

/-- The part at its reset values with the given levels of its input pins (R178); the model's own counts are kept, so that a
TACK or TERR on its way across a reset answers no later transfer. -/
def State.resetWith (pins : Pins) (transfers free : Nat) (pending : List Instr) : State where
  resetn := pins.resetn
  windows := Tbl.fill 32 Window.empty
  ctxs := Tbl.fill 32 LeaseCtx.reset
  quotas := Tbl.fill 4 8
  inUse := Tbl.fill 4 0
  targets := Tbl.fill 8 Target.reset
  router := Router.reset pins.breq
  ports := pins.prstn.map Port.reset
  mgmt := Mgmt.reset pins.msel
  tb := TimeBase.reset
  outcomes := []
  emptyReports := []
  transfers := transfers
  free := free
  pending := pending

/-- The machine right after reset: RESETn, MSEL and every PRSTn high and BREQ low (log 19), no command waiting. -/
def State.reset : State :=
  State.resetWith { resetn := true, msel := true, prstn := Tbl.fill 4 true, breq := false } 0 0 []

/-- Why the part stops. The manual stops it nowhere: a refused request is a status, a refused or failed data cycle ends
with AERR. No constructor; safe, since nothing is cut short. -/
inductive Fault where
deriving DecidableEq, Repr

/-- Why the model stops without a meaning. -/
inductive Refusal where
  /-- Raised by an arm of `exec` whose command has no meaning yet; safe. No arm raises it. -/
  | notModelled (mnemonic : String)
deriving DecidableEq, Repr

end Sys2Proof.Machine
end

