-- ==== Sys2Proof/Machine/Flags.lean ====
section
/-! DEFINITION. Codes (section 11.6), the output levels that follow from state, the status word and what a control-aperture
read returns. -/

namespace Sys2Proof.Machine

/-! ### Sets -/

/-- Some element is in the set. -/
def anySet (t : Tbl Bool n) : Bool := t.cells.any id

/-- The lowest index in the set. -/
def lowest (t : Tbl Bool n) : Option (Fin n) := (List.finRange n).find? fun i => t.get i

def countSet (t : Tbl Bool n) : Nat := t.cells.count true

/-- The windows that have a LOST item. -/
def lostSet (t : Tbl (Option LostReason) 32) : Tbl Bool 32 := t.map Option.isSome

/-! ### Codes of section 11.6 -/

def bit (b : Bool) : Nat := if b then 1 else 0

def Status.code (s : Status) : Byte :=
  match s with
  | .nothing => 0x00 | .ok => 0x01 | .granted => 0x02 | .accepted => 0x03 | .done => 0x04
  | .badArgument => 0x10 | .badState => 0x11 | .unknown => 0x12 | .badFrame => 0x13
  | .notRunning => 0x14 | .noTimebase => 0x15
  | .inUse => 0x20 | .overlap => 0x21 | .noTarget => 0x22 | .noWindow => 0x23 | .notOpen => 0x24
  | .closing => 0x25 | .notAdmitted => 0x26 | .targetFaulted => 0x27
  | .alreadyHeld => 0x28 | .noEntry => 0x29 | .quota => 0x2A | .conflict => 0x2B | .stale => 0x2C
  | .deadlock => 0x2D
  | .timedOut => 0x30 | .abandoned => 0x31 | .closed => 0x32 | .revoked => 0x33 | .lost => 0x34

def Reason.code (r : Reason) : Byte :=
  match r with
  | .notRunning => 1 | .badAlign => 2 | .noWindow => 3 | .targetFaulted => 4 | .noLease => 5
  | .readOnly => 6 | .sharedWrite => 7 | .boundary => 8 | .targetError => 9 | .targetTimeout => 10

def LostReason.code (r : LostReason) : Byte :=
  match r with
  | .expired => 1 | .revoked => 2 | .closed => 3

def Cause.code (c : Cause) : Byte :=
  match c with
  | .released => 1 | .used => 2 | .expired => 3 | .revoked => 4 | .closed => 5

def noticeCode (k : NoticeKind) : Byte :=
  match k with
  | .fault => 0 | .lost => 1 | .closing => 2 | .warning => 3 | .reply => 4

def attnCode (k : AttnKind) : Byte :=
  match k with
  | .targetFault => 0 | .closeDone => 1 | .openDone => 2 | .poolRefusal => 3

def WindowState.code (s : WindowState) : Byte :=
  match s with
  | .vacant => 0 | .staged => 1 | .opening => 2 | .opened => 3 | .closing => 4

def TargetState.code (s : TargetState) : Byte :=
  match s with
  | .absent => 0 | .parked => 1 | .waking => 2 | .ready => 3 | .parking => 4 | .faulted => 5

def Bus.code (b : Bus) : Byte :=
  match b with
  | .ownedIdle => 0 | .transfer _ => 1 | .releasing _ => 2 | .lent => 3

def PortState.code (s : PortState) : Byte :=
  match s with
  | .idle => 0 | .waiting => 1 | .inReset => 2

def Mode.code (m : Mode) : Nat :=
  match m with
  | .shared => 0 | .exclusive => 1

def AccessRule.code (r : AccessRule) : Nat :=
  match r with
  | .readWrite => 0 | .readOnly => 1

/-! ### Output levels -/

/-- The set of a kind holds at least one item (R155, R159). -/
def Notices.has (n : Notices) (k : NoticeKind) : Bool :=
  match k with
  | .fault => n.fault
  | .lost => anySet (lostSet n.lost)
  | .closing => anySet n.closing
  | .warning => anySet n.warning
  | .reply => anySet n.reply

def NoticeConfig.of (c : NoticeConfig) (k : NoticeKind) : NoticeSetting :=
  match k with
  | .fault => c.fault
  | .lost => c.lost
  | .closing => c.closing
  | .warning => c.warning
  | .reply => c.reply

/-- The kinds in the fixed order of R159. -/
def noticeKinds : List NoticeKind := [.fault, .lost, .closing, .warning, .reply]

/-- AIRQn is low while an enabled kind holds an item, and high otherwise (R158). -/
def airqLevel (c : NoticeConfig) (n : Notices) : Bool := !(noticeKinds.any fun k => (c.of k).enable && n.has k)

/-- ATTN is high while an enabled kind holds an item (R176). -/
def attnLevel (m : AttnMask) (a : Attention) : Bool :=
  (m.targetFault && anySet a.targetFault) || (m.closeDone && anySet a.closeDone) ||
  (m.openDone && anySet a.openDone) || (m.poolRefusal && anySet a.poolRefusal)

/-- TWAKEn is high while the target is WAKING, READY or FAULTED (R101). -/
def twakeLevel (s : TargetState) : Bool :=
  match s with
  | .waking | .ready | .faulted => true
  | .absent | .parked | .parking => false

/-- The level of TSELn; none while the part does not drive it (R139). -/
def tselLevel (l : Lines) (t : TargetId) : Option Bool :=
  match l with
  | .idle => some false
  | .transfer u _ _ _ _ => some (u == t)
  | .floating => none

/-- The part drives MSO while MSEL is low, and never while RESETn is low (section 10.1, R178). -/
def msoDriven (s : State) : Bool := s.resetn && !s.mgmt.msel

/-- The part drives the port's data lines with the data of the read it has ended, and never while RESETn is low (R178,
log 25). -/
def dataDriven (s : State) (a : Agent) : Bool :=
  s.resetn &&
    match (s.ports.get a).ended with
    | some (.beats _ _) | some (.bytes _) => true
    | some (.write _) | none => false

/-! ### The status word and control-aperture reads -/

/-- The port status word, from bit 31 down (R155, R179). -/
def statusWord (s : State) (a : Agent) : BitVec 32 :=
  let p := s.ports.get a
  (0 : BitVec 11) ++ BitVec.ofBool (p.notices.has .reply) ++ BitVec.ofBool (p.notices.has .warning) ++
    BitVec.ofBool (p.notices.has .closing) ++ BitVec.ofBool (p.notices.has .lost) ++
    BitVec.ofBool (p.notices.has .fault) ++ p.response.seq ++ (0 : BitVec 3) ++ BitVec.ofBool p.fault.isSome ++
    BitVec.ofBool s.mgmt.running ++ BitVec.ofBool p.commitRefused ++ p.state.code.setWidth 2

/-- The response record as the bytes from FF0080h (R179). -/
def responseBytes (r : ResponseRecord) : List Byte :=
  [r.code, r.status.code, r.seq, BitVec.ofNat 8 r.payload.length] ++ r.payload

/-- What a read of one control-aperture byte returns (R147, R179); zero where no area answers, beyond the payload
included (log 21). -/
def controlByte (s : State) (a : Agent) (offset : Nat) : Byte :=
  let p := s.ports.get a
  if offset < 4 then (le32 (statusWord s a)).getD offset 0
  else if offset = 0x10 then p.request.code
  else if 0x12 ≤ offset ∧ offset < 0x1A then p.request.args.cells.getD (offset - 0x12) 0
  else if 0x80 ≤ offset ∧ offset < 0xA0 then (responseBytes p.response).getD (offset - 0x80) 0
  else 0

/-- A read of `size` bytes of the control aperture. -/
def controlRead (s : State) (a : Agent) (offset size : Nat) : List Byte :=
  (List.range size).map fun i => controlByte s a (offset + i)

end Sys2Proof.Machine
end

