-- ==== Sys2Proof/Machine/Operands.lean ====
section
/-! DEFINITION. Operand forms: the range checks of request arguments (R6, R103, R184), tokens (R29), window extents and
the legal sizes and alignments of data cycles (R119). -/

namespace Sys2Proof.Machine

/-- A window number in range (0 to 31). -/
def windowOf (b : Byte) : Option WindowId := if h : b.toNat < 32 then some ⟨b.toNat, h⟩ else none
/-- A target number in range (T0 to T7). -/
def targetOf (b : Byte) : Option TargetId := if h : b.toNat < 8 then some ⟨b.toNat, h⟩ else none
/-- An agent number in range (A0 to A3). -/
def agentOf (b : Byte) : Option Agent := if h : b.toNat < 4 then some ⟨b.toNat, h⟩ else none

def windowByte (w : WindowId) : Byte := BitVec.ofNat 8 w.val

/-- The bits of a byte from position n up are zero. -/
def clearFrom (b : Byte) (n : Nat) : Bool := b.toNat < 2 ^ n

def modeBit (b : Bool) : Mode := if b then .exclusive else .shared
def ruleBit (b : Bool) : AccessRule := if b then .readOnly else .readWrite

/-- The set of admitted agents of a window attributes byte (R182). -/
def admitOf (attrs : Byte) : BitVec 4 := attrs.extractLsb' 0 4
/-- The access rule of a window attributes byte (R182). -/
def ruleOf (attrs : Byte) : AccessRule := ruleBit (attrs.getLsbD 4)
/-- The window attributes byte of a window record (R182). -/
def attrsByte (win : Window) : Byte := BitVec.ofNat 8 (win.admitSet.toNat + 16 * win.rule.code)

/-! ### Windows -/

/-- The window size 4 KiB × 2^k. -/
def windowSize (k : Nat) : Nat := 4096 * 2 ^ k

/-- A window's end: its base plus its size (R7). -/
def Window.endAddr (win : Window) : Nat := win.base.toNat + windowSize win.k

/-- The window holds the shared-space address (R16). -/
def Window.covers (win : Window) (addr : Nat) : Bool := win.base.toNat ≤ addr && addr < win.endAddr

/-- The group of states that counts toward a target's use count (R4). -/
def WindowState.live (s : WindowState) : Bool :=
  match s with
  | .opening | .opened | .closing => true
  | .vacant | .staged => false

def Window.admits (win : Window) (a : Agent) : Bool := win.admitSet.getLsbD a.val

/-- Check 2 of DEFINE WINDOW (R6). -/
def defineArgsOk (base : Addr) (k target attrs : Byte) (offset : Addr) (term deadline : Half) : Bool :=
  k.toNat ≤ 10 && base.toNat % windowSize k.toNat == 0 && offset.toNat % windowSize k.toNat == 0 &&
  (targetOf target).isSome && clearFrom attrs 5 && term != 0 && deadline != 0

/-- Check 3 of AMEND WINDOW (R9, log 18). -/
def amendArgsOk (select attrs : Byte) (term deadline : Half) : Bool :=
  clearFrom select 5 &&
  (!(select.getLsbD 0 || select.getLsbD 4) || clearFrom attrs 5) &&
  (!select.getLsbD 1 || term != 0) &&
  (!select.getLsbD 3 || deadline != 0)

/-- Two windows overlap when each one's base is below the other's end (R7). -/
def overlaps (base₁ end₁ base₂ end₂ : Nat) : Bool := base₁ < end₂ && base₂ < end₁

/-- Check 1 of CONFIGURE TARGET, the target number apart (R103). -/
def timesOk (wake park : Half) (limit : Byte) : Bool :=
  1 ≤ wake.toNat && wake.toNat ≤ 4095 && 1 ≤ park.toNat && park.toNat ≤ 4095 && limit != 0

/-! ### Leases -/

def LeaseCtx.holdOf (c : LeaseCtx) (a : Agent) : Option Hold := c.holders.find? fun h => h.agent == a
def LeaseCtx.waitOf (c : LeaseCtx) (a : Agent) : Option Wait := c.waiters.find? fun x => x.agent == a
/-- The pending upgrade: the holder whose upgrading flag is set (R22). -/
def LeaseCtx.upgrader (c : LeaseCtx) : Option Hold := c.holders.find? fun h => h.upgrading
def LeaseCtx.hasExclusive (c : LeaseCtx) : Bool := c.holders.any fun h => h.mode == .exclusive
/-- No holders and nothing in flight. -/
def LeaseCtx.idle (c : LeaseCtx) : Bool := c.holders.isEmpty && c.inflight == 0

/-- The hold that a token of the agent matches (R29, R184). -/
def matchToken (s : State) (a : Agent) (t : Token) : Option (WindowId × Hold) :=
  match windowOf t.window with
  | none => none
  | some w =>
    match (s.ctxs.get w).holdOf a with
    | none => none
    | some h => if t.zero = 0 ∧ t.serial = h.serial.setWidth 16 then some (w, h) else none

/-- The time limit of a wait: none for 65535 (R47, R57). -/
def limitOf (waitLimit : Half) : Option Nat := if waitLimit = 0xFFFF then none else some waitLimit.toNat
/-- An asked term: none for 0 (R47, R69). -/
def askedTerm (term : Half) : Option Half := if term = 0 then none else some term

/-! ### Data cycles -/

/-- The legal sizes of R119. -/
def legalSize (size : Nat) : Bool := size == 1 || size == 2 || size == 4 || size == 8 || size == 16 || size == 32

/-- Legal size and alignment (R119): a single access to its size, a burst to its beat of 4 bytes. -/
def alignedCycle (c : BusCycle) : Bool := legalSize c.size && c.addr.toNat % min c.size 4 == 0

/-- The number of 32-bit beats of a cycle; at least one (log 17). -/
def beatsOf (size : Nat) : Nat := max 1 ((size + 3) / 4)

/-- The size code of R181 for a legal size. -/
def sizeCode (size : Nat) : Option (BitVec 3) :=
  if size = 1 then some 0 else if size = 2 then some 1 else if size = 4 then some 2
  else if size = 8 then some 3 else if size = 16 then some 4 else if size = 32 then some 5 else none

/-- A control-aperture cycle the port answers normally (R147). -/
def goodControl (offset : Half) (size : Nat) : Bool :=
  (size == 1 || size == 2 || size == 4) && offset.toNat % size == 0

/-- A first address in the control region FF0000h to FFFFFFh (R119). -/
def inControlRegion (addr : Addr) : Bool := 0xFF0000 ≤ addr.toNat

end Sys2Proof.Machine
end

