-- ==== Sys2Proof/Machine/Ops.lean ====
section
/-! DEFINITION. The shared operations: reading and updating records, deadlines, posting and handing over, the lease pool,
grants and the grant evaluation, the ending of holds and waits, and the transitions of windows and targets. -/

namespace Sys2Proof.Machine

/-! ### Updating one record -/

def State.updWindow (s : State) (w : WindowId) (f : Window → Window) : State :=
  { s with windows := s.windows.set w (f (s.windows.get w)) }

def State.updCtx (s : State) (w : WindowId) (f : LeaseCtx → LeaseCtx) : State :=
  { s with ctxs := s.ctxs.set w (f (s.ctxs.get w)) }

def State.updTarget (s : State) (t : TargetId) (f : Target → Target) : State :=
  { s with targets := s.targets.set t (f (s.targets.get t)) }

def State.updPort (s : State) (a : Agent) (f : Port → Port) : State :=
  { s with ports := s.ports.set a (f (s.ports.get a)) }

def State.updMgmt (s : State) (f : Mgmt → Mgmt) : State := { s with mgmt := f s.mgmt }

def State.updRouter (s : State) (f : Router → Router) : State := { s with router := f s.router }

def State.updPath (s : State) (a : Agent) (f : Path → Path) : State :=
  s.updRouter fun r => { r with paths := r.paths.set a (f (r.paths.get a)) }

def allAgents : List Agent := [0, 1, 2, 3]
def allWindows : List WindowId := List.finRange 32
def allTargets : List TargetId := List.finRange 8

/-! ### Deadlines (section 4.2) -/

/-- A deadline `n` ticks after the current tick count (R68). -/
def Deadline.after (now : Tick) (n : Nat) : Deadline := ⟨now + BitVec.ofNat 32 n, false⟩

/-- The ticks remaining to a deadline: 0 once it is due (R68). -/
def Deadline.remaining (d : Deadline) (now : Tick) : Half := if d.due then 0 else (d.time - now).setWidth 16

/-- A deadline whose value equals the new tick count becomes due (R67). -/
def Deadline.reach (now : Tick) (d : Deadline) : Deadline := if d.time = now then { d with due := true } else d

def isDue (d : Option Deadline) : Bool :=
  match d with
  | some d => d.due
  | none => false

/-- The ticks remaining to an optional deadline, with the value that stands for none. -/
def remainingOr (d : Option Deadline) (now : Tick) (absent : Half) : Half :=
  match d with
  | some d => d.remaining now
  | none => absent

/-! ### The management port: results and attention -/

/-- Posting a result (R167). -/
def ResultRecord.post (r : ResultRecord) (code : Byte) (status : Status) (payload : List Byte) : ResultRecord where
  status := status
  code := code
  seq := r.seq + 1
  overwritten := !r.fetched
  payload := payload
  fetched := false

def State.postResult (s : State) (code : Byte) (status : Status) (payload : List Byte) : State :=
  s.updMgmt fun m => { m with result := m.result.post code status payload }

/-- What carrying out a supervisor request leaves: the state, the status and the payload of its result. -/
structure Reply where
  state : State
  status : Status
  payload : List Byte

/-- The part has shifted out 0 on each of `n` edges of MSCK (R164). -/
def State.shiftZeros (s : State) (n : Nat) : State := s.updMgmt fun m => { m with mso := List.replicate n false }

/-- The step that settles a REQUEST frame of `bits` bits whose request is carried out: the result is posted (R167), and
00h has been shifted out during each of the frame's bytes (R164). -/
def settle (code : Byte) (bits : Nat) (r : Reply) : State :=
  (r.state.postResult code r.status r.payload).shiftZeros bits

/-- A frame of the management port. None is taken while RESETn is low (R178), nor by a MSEL that was low when RESETn
rose, up to its rise (R164); such a command is one edge of MSEL and no more (log 19). -/
def State.onFrame (s : State) (f : State → State) : State :=
  if s.resetn && s.mgmt.msel then f s else s.updMgmt fun m => { m with msel := !m.msel, mso := [] }

/-- The bits of a REQUEST frame with `len` payload bytes: kind, code, length and CRC beside them (R165). -/
def requestBits (len : Nat) : Nat := 8 * (4 + len)

/-- The meaning of a supervisor request: its REQUEST frame is taken and settled (R165, R169). -/
def carryOut (code : Byte) (len : Nat) (f : State → Reply) (s : State) : Host.Outcome State Fault Refusal :=
  .next (s.onFrame fun s => settle code (requestBits len) (f s))

/-- The MP drives ATTN after a change of a set or of the mask (R176). -/
def Mgmt.drive (m : Mgmt) : Mgmt := { m with attn := attnLevel m.mask m.attention }

/-- An index joins the set of its kind (R175). -/
def Attention.join (a : Attention) (i : AttnItem) : Attention :=
  match i with
  | .targetFault t => { a with targetFault := a.targetFault.set t true }
  | .closeDone w => { a with closeDone := a.closeDone.set w true }
  | .openDone w => { a with openDone := a.openDone.set w true }
  | .poolRefusal g => { a with poolRefusal := a.poolRefusal.set g true }

/-- A block hands an attention item to the MP (R175); the MP takes it by ATTENTION_HANDOFF (log 3). -/
def State.handAttention (s : State) (i : AttnItem) : State := s.updMgmt fun m => { m with handed := m.handed ++ [i] }

/-! ### The agent ports: responses and notices -/

/-- The port drives AIRQn after a change of a notice set or of the configuration (R158). -/
def Port.drive (p : Port) : Port := { p with airqn := airqLevel p.config p.notices }

/-- Posting a response (R153). -/
def Port.post (p : Port) (code : Byte) (status : Status) (payload : List Byte) : Port :=
  { p with response := ⟨code, status, p.response.seq + 1, payload⟩ }

/-- A notice item joins its set (R156). -/
def Notices.join (n : Notices) (i : NoticeItem) : Notices :=
  match i with
  | .lost w r => { n with lost := n.lost.set w (some r) }
  | .closing w => { n with closing := n.closing.set w true }
  | .warning w => { n with warning := n.warning.set w true }

def NoticeItem.kind (i : NoticeItem) : NoticeKind :=
  match i with
  | .lost _ _ => .lost
  | .closing _ => .closing
  | .warning _ => .warning

/-- Posting a response that ends a wait: a REPLY item is raised and the port goes IDLE (R153). -/
def Port.postEnding (p : Port) (code : Byte) (status : Status) (w : WindowId) (payload : List Byte) : Port :=
  { p.post code status payload with
    state := .idle, notices := { p.notices with reply := p.notices.reply.set w true } }.drive

/-- The port takes a handed response: posted, or discarded in IN_RESET or when handed before a reset (R153, R154,
R160). -/
def Port.takeResponse (p : Port) (r : HandedResponse) : Port :=
  if r.stale ∨ p.state = .inReset then p else p.postEnding r.code r.status r.window r.payload

/-- The port takes every response that has been handed to it, oldest first. -/
def Port.takeResponses (p : Port) : Port := p.responses.foldl Port.takeResponse { p with responses := [] }

/-- The port takes no commit, no write and no data cycle: it is IN_RESET (R147, R151, R161), or its PRSTn is low and it
has still to take the fall (R44). -/
def Port.down (p : Port) : Bool := p.state == .inReset || !p.prstn

/-- The port takes a handed notice item: joined, or discarded in IN_RESET or when handed before a reset (R156, R160). -/
def Port.takeNotice (p : Port) (n : HandedNotice) : Port :=
  if n.stale ∨ p.state = .inReset then p else { p with notices := p.notices.join n.item }.drive

/-- The answer to a commit, posted by the port (R150). -/
def State.answer (s : State) (a : Agent) (code : Byte) (status : Status) (payload : List Byte) : State :=
  s.updPort a fun p => p.post code status payload

/-- The Lease Engine hands a wait-ending response to the port (R51); the port takes it by RESPONSE_HANDOFF (log 3). -/
def State.handResponse (s : State) (a : Agent) (code : Byte) (status : Status) (w : WindowId) (payload : List Byte) :
    State :=
  s.updPort a fun p => { p with responses := p.responses ++ [⟨code, status, w, payload, false⟩] }

/-- A block hands a notice item to the port (R156); the port takes it by NOTICE_HANDOFF (log 3). -/
def State.handNotice (s : State) (a : Agent) (i : NoticeItem) : State :=
  s.updPort a fun p => { p with handed := p.handed ++ [⟨i, false⟩] }

/-- The codes of ACQUIRE and UPGRADE (R180), echoed by the responses that end waits. -/
def acquireCode : Byte := 0x01
def upgradeCode : Byte := 0x04

/-! ### The lease pool (R20, R21) -/

def State.takeEntry (s : State) (a : Agent) : State := { s with inUse := s.inUse.set a (s.inUse.get a + 1) }
def State.freeEntry (s : State) (a : Agent) : State := { s with inUse := s.inUse.set a (s.inUse.get a - 1) }
/-- Entries in use over all agents. -/
def State.poolUse (s : State) : Nat := s.inUse.get 0 + s.inUse.get 1 + s.inUse.get 2 + s.inUse.get 3

/-! ### Terms and grants (R33, R59, R69) -/

/-- The term of a grant or a renewal: the window's, or the asked one when it is shorter (R69). -/
def termUsed (win : Window) (asked : Option Half) : Half :=
  match asked with
  | none => win.term
  | some t => if t.toNat < win.term.toNat then t else win.term

/-- The warning time: the expiry time less the margin, absent when the margin is 0 or the term does not exceed it
(R33). -/
def warningAt (now : Tick) (term : Half) (margin : Byte) : Option Deadline :=
  if margin = 0 ∨ term.toNat ≤ margin.toNat then none else some (.after now (term.toNat - margin.toNat))

/-- The expiry time, the warning time and the warned flag of a hold are set from a term (R69). -/
def Hold.setTerm (h : Hold) (now : Tick) (win : Window) (term : Half) : Hold :=
  { h with expiry := .after now term.toNat, warning := warningAt now term win.margin, warned := false }

/-- The serial after a grant: 2047 is followed by 1 (R18). -/
def nextSerial (n : Serial) : Serial := if n = 2047 then 1 else n + 1

def wideSerial (n : Serial) : Half := n.setWidth 16

/-- The hold a grant makes (R33). -/
def newHold (c : LeaseCtx) (now : Tick) (win : Window) (a : Agent) (m : Mode) (once : Bool) (asked : Option Half) :
    Hold :=
  Hold.setTerm
    { agent := a, mode := m, once := once, serial := c.serial, expiry := ⟨0, false⟩, warning := none,
      warned := false, upgrading := false, deadline := none }
    now win (termUsed win asked)

/-- A grant in the context: the hold joins the end of the holders, the serial advances, the agent's last-ending record
goes (R33). -/
def LeaseCtx.addHold (c : LeaseCtx) (h : Hold) : LeaseCtx :=
  { c with holders := c.holders ++ [h], serial := nextSerial c.serial, endings := c.endings.set h.agent none }

/-- The payload of GRANTED and of the OK to RENEW (R181). -/
def grantedPayload (w : WindowId) (h : Hold) (term : Half) : List Byte :=
  [windowByte w, BitVec.ofNat 8 (h.mode.code + 2 * bit h.once)] ++ le16 (wideSerial h.serial) ++ le16 term

/-- The payload of an ending that keeps an upgrader's hold: the window and the unchanged serial (R181). -/
def keptPayload (w : WindowId) (h : Hold) : List Byte := [windowByte w, 0] ++ le16 (wideSerial h.serial)

/-- Rule of R32 step 2 for a head of the given mode. -/
def LeaseCtx.grantable (c : LeaseCtx) (m : Mode) : Bool :=
  match m with
  | .exclusive => c.idle
  | .shared => !c.hasExclusive && !c.drain

/-- A hold changed in place; its position is kept (R22). -/
def LeaseCtx.mapHold (c : LeaseCtx) (a : Agent) (f : Hold → Hold) : LeaseCtx :=
  { c with holders := c.holders.map fun h => if h.agent = a then f h else h }

/-- The hold after the grant of its upgrade (R59). -/
def Hold.upgrade (h : Hold) (c : LeaseCtx) (now : Tick) (win : Window) : Hold :=
  { h.setTerm now win win.term with mode := .exclusive, serial := c.serial, upgrading := false, deadline := none }

/-- The grant of an upgrade in the context (R59). -/
def LeaseCtx.grantUpgrade (c : LeaseCtx) (now : Tick) (win : Window) (a : Agent) : LeaseCtx :=
  { c.mapHold a (fun h => h.upgrade c now win) with serial := nextSerial c.serial }

/-- An upgrade can be granted: its holder is the window's only one and nothing is in flight (R32 step 1, R57). -/
def LeaseCtx.upgradeFree (c : LeaseCtx) : Bool := c.holders.length == 1 && c.inflight == 0

/-- R32 step 2: heads are granted while they can be. Answers the context and the holds granted with their terms. -/
def LeaseCtx.grantHeads (now : Tick) (win : Window) : List Wait → LeaseCtx → LeaseCtx × List (Hold × Half)
  | [], c => ({ c with waiters := [] }, [])
  | x :: xs, c =>
    if c.grantable x.mode then
      let h := newHold c now win x.agent x.mode x.once x.term
      let r := LeaseCtx.grantHeads now win xs (c.addHold h)
      (r.1, (h, termUsed win x.term) :: r.2)
    else ({ c with waiters := x :: xs }, [])

/-- Each grant from the queue hands its GRANTED response to the port (R33). -/
def State.handGrants (s : State) (w : WindowId) (grants : List (Hold × Half)) : State :=
  grants.foldl (fun s g => s.handResponse g.1.agent acquireCode .granted w (grantedPayload w g.1 g.2)) s

/-- The grant evaluation (R31, R32). -/
def State.evaluate (s : State) (w : WindowId) : State :=
  let win := s.windows.get w
  let c := s.ctxs.get w
  if win.state = .opened then
    match c.upgrader with
    | some h =>
      if c.upgradeFree then
        (s.updCtx w fun c => c.grantUpgrade s.tb.tick win h.agent).handResponse h.agent upgradeCode .granted w
          (grantedPayload w (h.upgrade c s.tb.tick win) win.term)
      else s
    | none =>
      let r := LeaseCtx.grantHeads s.tb.tick win c.waiters c
      (s.updCtx w fun _ => r.1).handGrants w r.2
  else s

/-! ### The ending of holds and waits (R36, R51) -/

/-- Steps 1 to 3 of R36 in the context. -/
def LeaseCtx.dropHold (c : LeaseCtx) (h : Hold) (cause : Cause) : LeaseCtx :=
  { c with
    holders := c.holders.eraseP fun g => g.agent == h.agent
    drain := c.drain || (h.mode == .exclusive && c.inflight != 0)
    endings := c.endings.set h.agent (some ⟨h.serial, cause⟩) }

/-- The window's context is empty: no holders and nothing in flight (R96). -/
def State.emptyContext (s : State) (w : WindowId) : Bool := (s.ctxs.get w).idle

/-- Step 6 of R36 and the end of R34: the report of an empty context to the Window Directory. -/
def State.reportIfEmpty (s : State) (w : WindowId) : State :=
  if (s.windows.get w).state = .closing ∧ s.emptyContext w then { s with emptyReports := s.emptyReports ++ [w] } else s

/-- The grant evaluation and the empty-context report that close a step on a window (R36 steps 5 and 6). -/
def State.settleWindow (s : State) (w : WindowId) : State := (s.evaluate w).reportIfEmpty w

/-- A hold ends (R36 steps 1 to 4): the entry is freed and the notice of the cause is handed over; a pending upgrade that
the cause ends with status LOST is answered (R60). Without a reason nothing is told (R80). -/
def State.endHold (s : State) (w : WindowId) (h : Hold) (cause : Cause) (reason : Option LostReason) : State :=
  let s := (s.updCtx w fun c => c.dropHold h cause).freeEntry h.agent
  match reason with
  | none => s
  | some r =>
    let s := s.handNotice h.agent (.lost w r)
    if h.upgrading then s.handResponse h.agent upgradeCode .lost w [windowByte w] else s

/-- A WAIT entry leaves the queue and is freed (R48). -/
def State.dropWait (s : State) (w : WindowId) (a : Agent) : State :=
  (s.updCtx w fun c => { c with waiters := c.waiters.eraseP fun x => x.agent == a }).freeEntry a

/-- An ACQUIRE wait ends without a grant: removed, and its response handed over (R51). -/
def State.endWait (s : State) (w : WindowId) (a : Agent) (status : Status) : State :=
  (s.dropWait w a).handResponse a acquireCode status w [windowByte w]

/-- A pending upgrade is taken back; the hold stays SHARED (R53, R60). -/
def State.clearUpgrade (s : State) (w : WindowId) (a : Agent) : State :=
  s.updCtx w fun c => c.mapHold a fun h => { h with upgrading := false, deadline := none }

/-- A pending upgrade ends with its hold kept, its response handed over with the unchanged token (R51, R60). -/
def State.endUpgrade (s : State) (w : WindowId) (h : Hold) (status : Status) : State :=
  (s.clearUpgrade w h.agent).handResponse h.agent upgradeCode status w (keptPayload w h)

/-- Several holds end in one step, before its one evaluation. -/
def State.endHolds (s : State) (w : WindowId) (hs : List Hold) (cause : Cause) (reason : Option LostReason) : State :=
  hs.foldl (fun s h => s.endHold w h cause reason) s

/-- Several ACQUIRE waits end in one step. -/
def State.endWaits (s : State) (w : WindowId) (xs : List Wait) (status : Status) : State :=
  xs.foldl (fun s x => s.endWait w x.agent status) s

/-! ### Targets (chapter 6) -/

/-- A target enters a state; TWAKE follows in the step (R101). -/
def Target.enter (t : Target) (st : TargetState) : Target := { t with state := st, twake := twakeLevel st }

/-- The target goes WAKING and its wake time starts (R105, R108, R82). -/
def Target.startWake (t : Target) : Target :=
  { t.enter .waking with
    wakePending := false, parkDeadline := none, interval := some ⟨.wake, t.wakeTime.toNat⟩ }

/-- The target goes PARKING and its park time starts; the failure count is set to 0 (R107, R111). -/
def Target.startPark (t : Target) : Target :=
  { t.enter .parking with
    wakePending := false, failures := 0, parkDeadline := none, interval := some ⟨.park, t.parkTime.toNat⟩ }

/-- The park-delay deadline of a target that stands READY and unused (R110). -/
def Target.startDelay (t : Target) (now : Tick) : Target :=
  if t.useCount = 0 ∧ t.parkDelay ≠ 0 then { t with parkDeadline := some (.after now t.parkDelay.toNat) } else t

/-- The target goes READY with failure count 0 (R106, R116). -/
def Target.becomeReady (t : Target) : Target := { t.enter .ready with failures := 0, interval := none }

/-- A window leaves the group OPENING, OPEN and CLOSING (R109). -/
def Target.leave (t : Target) (now : Tick) : Target :=
  let t := { t with useCount := t.useCount - 1 }
  if t.state = .ready then t.startDelay now else t

/-! ### Windows becoming OPEN (R83, R85) -/

def State.openNow (s : State) (w : WindowId) : State :=
  ((s.updWindow w fun win => { win with state := .opened }).handAttention (.openDone w)).evaluate w

/-- The Window Directory's part of a READY report: every OPENING window on the target goes OPEN (R85). That the
windows go in ascending order, and their OPEN_DONE items are handed so, is the model's choice (log 35). -/
def State.readyReport (s : State) (t : TargetId) : State :=
  allWindows.foldl
    (fun s w =>
      if (s.windows.get w).state = .opening ∧ (s.windows.get w).target = t then s.openNow w else s)
    s

/-- The target goes READY, the READY report is handled, and the park delay starts where no window uses the target
(R106, R116). -/
def State.targetReady (s : State) (t : TargetId) : State :=
  ((s.updTarget t Target.becomeReady).readyReport t).updTarget t fun tg => tg.startDelay s.tb.tick

/-! ### Closing (chapter 5) -/

/-- The completion of a close (R96). -/
def State.completeClose (s : State) (w : WindowId) : State :=
  let win := s.windows.get w
  let retire := match win.pending with
    | some p => p.retire
    | none => false
  ((s.updWindow w fun win => if retire then Window.empty else { win with state := .staged, pending := none }).updTarget
      win.target fun t => t.leave s.tb.tick).handAttention (.closeDone w)

/-- A close completes in the step when the window is CLOSING, without holders and with nothing in flight (R86, R94). -/
def State.closeIfEmpty (s : State) (w : WindowId) : State :=
  if (s.windows.get w).state = .closing ∧ s.emptyContext w then s.completeClose w else s

/-- The sweep of a gentle close: every wait ends CLOSED, a pending upgrade ends CLOSED with its hold kept, and each
holder is handed a CLOSING item (R88). -/
def State.gentleSweep (s : State) (w : WindowId) : State :=
  let c := s.ctxs.get w
  let s := s.endWaits w c.waiters .closed
  let s := match c.upgrader with
    | some h => s.endUpgrade w h .closed
    | none => s
  c.holders.foldl (fun s h => s.handNotice h.agent (.closing w)) s

/-- The sweep of a forced close or of a close deadline: every wait and every hold ends CLOSED (R89, R94). -/
def State.forceSweep (s : State) (w : WindowId) : State :=
  let c := s.ctxs.get w
  (s.endWaits w c.waiters .closed).endHolds w c.holders .closed (some .closed)

/-! ### Waits of an agent (R46) -/

/-- The window on which the agent waits, as a queued WAIT or as a pending upgrade. -/
def State.waitWindow (s : State) (a : Agent) : Option WindowId :=
  allWindows.find? fun w =>
    ((s.ctxs.get w).waitOf a).isSome || (s.ctxs.get w).holders.any fun h => h.agent == a && h.upgrading

/-- The port takes what has been handed to it before its own answer is posted (R63, R151, log 28). -/
def State.takeResponses (s : State) (a : Agent) : State := s.updPort a Port.takeResponses

/-- Every WAITING port takes the responses that have been handed to it (R149, R173, log 31). -/
def State.settleWaits (s : State) : State :=
  { s with ports := s.ports.map fun p => if p.state = .waiting then p.takeResponses else p }

end Sys2Proof.Machine
end

