-- ==== Sys2Proof/Machine/Transfers.lean ====
section
/-! DEFINITION. The shared operations of the data path: ending and refusing cycles, taking a cycle, completion, the arbiter,
outcome reports, and the Router's step at a port reset (chapters 7 and 8). -/

namespace Sys2Proof.Machine

/-! ### The port's end of a cycle -/

/-- The port ends its bus cycle. -/
def State.endCycle (s : State) (a : Agent) (e : CycleEnd) : State := s.updPort a fun p => { p with ended := some e }

/-- A cycle ended with AERR: a read returns the fill value on every byte lane of every beat (R123, R124). -/
def aerrEnd (fill : BitVec 32) (write : Bool) (size : Nat) : CycleEnd :=
  if write then .write true else .beats true (List.replicate (beatsOf size) fill)

/-- The port takes a fault entry and raises FAULT (R133, R156). -/
def Port.takeFault (p : Port) (r : Reason) (c : BusCycle) (w : Option WindowId) : Port :=
  { p with
    fault := match p.fault with
      | none => some ⟨r, c.addr, c.write, c.size, w, false⟩
      | some f => some { f with further := true }
    notices := { p.notices with fault := true } }.drive

/-- A refused or failed cycle at the port: AERR, fault entry and FAULT notice in one step (R123, R131). -/
def State.failCycle (s : State) (a : Agent) (r : Reason) (c : BusCycle) (w : Option WindowId) : State :=
  s.updPort a fun p => { p.takeFault r c w with ended := some (aerrEnd s.mgmt.fill c.write c.size) }

/-- The port no longer waits for the cycle the Router works on: it is IN_RESET, or a reset has abandoned the cycle
(R123, R136, R161). -/
def State.cycleGone (s : State) (a : Agent) : Bool :=
  (s.ports.get a).state == .inReset || (s.router.paths.get a).abandoned

/-! ### Admission (section 7.2) -/

/-- The admission of the port's cycle is over. -/
def State.endAdmission (s : State) (a : Agent) : State :=
  s.updPath a fun p => { p with admission := none, abandoned := false }

/-- A refusal at admission that the port takes (R123). -/
def State.refuseCycle (s : State) (a : Agent) (r : Reason) (c : BusCycle) (w : Option WindowId) : State :=
  (s.endAdmission a).failCycle a r c w

/-- The Router takes a data cycle and makes checks 1 and 2 (R121). A fall of PRSTn it still owes came before the cycle and
so does not concern it (R136, log 10). -/
def State.takeCycle (s : State) (a : Agent) (c : BusCycle) : State :=
  if !s.mgmt.running then s.refuseCycle a .notRunning c none
  else if !alignedCycle c then s.refuseCycle a .badAlign c none
  else
    s.updPath a fun p =>
      { p with admission := some ⟨c, .decode, false⟩, abandoned := false, dropStale := p.dropOwed }

/-- The data path of the port can take a new cycle: its slot is EMPTY and no admission is under way (R119, R136). -/
def Path.free (p : Path) : Bool := p.slot == .empty && p.admission.isNone

/-- A cycle that the bus handshake held is taken once the data path is free (R119, R136, log 7). -/
def State.takeHeld (s : State) (a : Agent) : State :=
  let p := s.router.paths.get a
  match p.held with
  | none => s
  | some c =>
    if p.free ∧ !(s.ports.get a).down then (s.updPath a fun p => { p with held := none }).takeCycle a c else s

/-- A refusal at admission (R123); one for a cycle that is gone is discarded. A cycle the handshake holds is then
taken. -/
def State.refuse (s : State) (a : Agent) (r : Reason) (c : BusCycle) (w : Option WindowId) : State :=
  (if s.cycleGone a then s.endAdmission a else s.refuseCycle a r c w).takeHeld a

/-- The port's bus carries a data cycle that has not been ended (R119). -/
def Path.outstanding (p : Path) : Bool :=
  p.held.isSome ||
  (!p.abandoned &&
    (p.admission.isSome ||
      match p.slot with
      | .empty => false
      | .queued _ => true
      | .active _ discard => !discard))

/-- The agent can make no cycle on the port's bus: RESETn is low (R178), or a data cycle is outstanding (R119, R150,
log 6). -/
def State.busShut (s : State) (a : Agent) : Bool := !s.resetn || (s.router.paths.get a).outstanding

/-- An agent's data cycle in the data aperture reaches the Router (R119): not answered while the port is down (R44, R161),
held while the data path is not free. -/
def State.offerCycle (s : State) (a : Agent) (c : BusCycle) : State :=
  let p := s.router.paths.get a
  if s.busShut a ∨ (s.ports.get a).down then s
  else if p.free then s.takeCycle a c
  else s.updPath a fun p => { p with held := some c }

/-- The window that the decode finds for a shared-space address: a non-VACANT one that covers it (R16). -/
def State.coveringWindow (s : State) (addr : Addr) : Option WindowId :=
  allWindows.find? fun w => (s.windows.get w).state != .vacant && (s.windows.get w).covers addr.toNat

/-- The answer of the decode (R16): a hit on an OPEN or CLOSING window, otherwise none. -/
def State.decodeAddr (s : State) (addr : Addr) : Option Hit :=
  match s.coveringWindow addr with
  | none => none
  | some w =>
    let win := s.windows.get w
    match win.state with
    | .opened | .closing =>
      some { window := w, state := win.state, target := win.target, readOnly := win.rule == .readOnly, endAddr := win.endAddr,
             targetAddr := win.offset + (addr - win.base) }
    | .vacant | .staged | .opening => none

/-! ### Completion (section 7.4) -/

/-- A completion or a drop in the context: the in-flight count falls, the drain flag is cleared at 0 (R34, R35). -/
def LeaseCtx.complete (c : LeaseCtx) : LeaseCtx :=
  { c with inflight := c.inflight - 1, drain := c.drain && c.inflight - 1 != 0 }

/-- The Lease Engine takes a completion with its once marker (R42): the marker matches a once-hold by its serial
(log 23). -/
def State.leCompletion (s : State) (a : Agent) (w : WindowId) (serial : Serial) (once : Bool) : State :=
  let s := s.updCtx w LeaseCtx.complete
  let s := match (s.ctxs.get w).holdOf a with
    | some h => if once ∧ h.once ∧ h.serial = serial then s.endHold w h .used none else s
    | none => s
  s.settleWindow w

/-- The bus after a transfer ends: back to the part, or to the borrower when it was RELEASING (R130, R141). -/
def Router.afterTransfer (r : Router) : Router :=
  match r.bus with
  | .transfer _ => { r with bus := .ownedIdle, lines := .idle, limit := none }
  | .releasing _ => { r with bus := .lent, lines := .floating, bgnt := true, limit := none }
  | .ownedIdle | .lent => r

/-- The reason of the fault entry of a transfer that failed. -/
def Outcome.reason (o : Outcome) : Option Reason :=
  match o with
  | .success => none
  | .targetError => some .targetError
  | .targetTimeout => some .targetTimeout

/-- What the agent sees of a completed access (R131); `outcome` is none for one refused TARGET_FAULTED at its turn. -/
def State.finishCycle (s : State) (a : Agent) (x : Access) (outcome : Option Outcome) (beats : Tbl (BitVec 32) 8) :
    State :=
  match outcome with
  | none => s.failCycle a .targetFaulted x.cycle (some x.window)
  | some o =>
    match o.reason with
    | some r => s.failCycle a r x.cycle (some x.window)
    | none =>
      s.endCycle a (if x.cycle.write then .write false else .beats false (beats.cells.take (beatsOf x.cycle.size)))

/-- The completion of an access, steps 1 to 4 of R130 (R136 where the cycle is gone); a cycle held by the handshake is
then taken. -/
def State.complete (s : State) (a : Agent) (x : Access) (discard : Bool) (outcome : Option Outcome)
    (beats : Tbl (BitVec 32) 8) : State :=
  let gone := discard || s.cycleGone a
  let s := (s.updRouter Router.afterTransfer).updPath a fun p => { p with slot := .empty, abandoned := false }
  let s := s.leCompletion a x.window x.serial x.once
  let s := if gone then s else s.finishCycle a x outcome beats
  let s := match outcome with
    | none => s
    | some o => { s with outcomes := s.outcomes ++ [(x.target, o)] }
  s.takeHeld a

/-! ### The arbiter (section 7.3) -/

/-- The first QUEUED slot from the pointer onward (R127). -/
def State.nextQueued (s : State) : Option (Agent × Access) :=
  let p := s.router.pointer
  [p, p + 1, p + 2, p + 3].findSome? fun a =>
    match (s.router.paths.get a).slot with
    | .queued x => some (a, x)
    | .empty | .active _ _ => none

/-- The start of a granted transfer on a READY target (R128); it has the next number (log 34). -/
def State.startTransfer (s : State) (a : Agent) (x : Access) : State :=
  ({ s with transfers := s.transfers + 1 }.updRouter fun r =>
    { r with
      bus := .transfer a
      limit := some (s.targets.get x.target).limit.toNat
      lines := .transfer x.target x.targetAddr x.cycle.write x.cycle.size x.cycle.data }).updPath a fun p =>
    { p with slot := .active x false }

/-- Arbiter decisions until a transfer starts or no slot is QUEUED (R127, R128): at most one for each of `n` slots. -/
def State.arbitrate : Nat → State → State
  | 0, s => s
  | n + 1, s =>
    if s.router.bus = .ownedIdle then
      match s.nextQueued with
      | none => s
      | some (a, x) =>
        let s := s.updRouter fun r => { r with pointer := a + 1 }
        match (s.targets.get x.target).state with
        | .faulted => State.arbitrate n (s.complete a x false none (Tbl.fill 8 0))
        | .ready => s.startTransfer a x
        | .absent | .parked | .waking | .parking => s
    else s

/-! ### Outcome reports (section 6.5) -/

/-- The Target Controller takes an outcome report (R113, R114). -/
def State.takeOutcome (s : State) (t : TargetId) (o : Outcome) : State :=
  let tg := s.targets.get t
  if tg.state = .ready then
    match o with
    | .success => s.updTarget t fun tg => { tg with failures := 0 }
    | .targetError | .targetTimeout =>
      if tg.failures + 1 < 3 then s.updTarget t fun tg => { tg with failures := tg.failures + 1 }
      else
        (s.updTarget t fun tg => { tg.enter .faulted with failures := 3, parkDeadline := none }).handAttention
          (.targetFault t)
  else s

/-- The Target Controller takes every report handed so far, in the order the transfers ended (R113, log 9). -/
def State.takeOutcomes (s : State) : State :=
  s.outcomes.foldl (fun s r => s.takeOutcome r.1 r.2) { s with outcomes := [] }

/-- The target answers the latest transfer, and so none that has ended while another runs (R129, log 34). -/
def State.inTime (s : State) (transfer : Nat) : Bool := transfer == s.transfers

/-- The end of the running transfer (R129): completion, and an arbiter decision where the bus is back; a TACK, TERR or
limit that finds no transfer is ignored. -/
def State.endTransfer (s : State) (o : Outcome) (beats : Tbl (BitVec 32) 8) (reportFirst : Bool) : State :=
  match s.router.bus with
  | .ownedIdle | .lent => s
  | .transfer a | .releasing a =>
    match (s.router.paths.get a).slot with
    | .empty | .queued _ => s
    | .active x discard =>
      let s := s.complete a x discard (some o) beats
      State.arbitrate 4 (if reportFirst then s.takeOutcomes else s)

/-! ### The Router's step at a port reset (R135) -/

/-- A QUEUED access is dropped: the slot empties and the drop report lowers the in-flight count. A cycle the handshake
holds is then taken. -/
def State.dropQueued (s : State) (a : Agent) (x : Access) : State :=
  (((s.updPath a fun p => { p with slot := .empty, abandoned := false }).updCtx x.window LeaseCtx.complete).settleWindow
    x.window).takeHeld a

/-- The Router takes the fall of PRSTn for the port's slot; an admission under way is settled after its answer. -/
def State.routerFall (s : State) (a : Agent) : State :=
  let p := s.router.paths.get a
  match p.admission with
  | some _ => s.updPath a fun p => { p with admission := p.admission.map fun d => { d with drop := true } }
  | none =>
    match p.slot with
    | .empty => s
    | .queued x => s.dropQueued a x
    | .active x _ => s.updPath a fun p => { p with slot := .active x true }

end Sys2Proof.Machine
end

