-- ==== Sys2Proof/Machine/Lending.lean ====
section
/-! DEFINITION. Bus lending (chapter 8): BUS_REQUEST and WITHDRAWAL. -/

namespace Sys2Proof.Machine

/-- A bus request taken while lending is enabled (R140). -/
def Router.request (r : Router) : Router :=
  match r.bus with
  | .ownedIdle => { r with bus := .lent, lines := .floating, bgnt := true }
  | .transfer a => { r with bus := .releasing a }
  | .releasing _ | .lent => r

/-- A withdrawal taken while lending is enabled (R142, R143). -/
def Router.withdraw (r : Router) : Router :=
  match r.bus with
  | .releasing a => { r with bus := .transfer a }
  | .lent => { r with bus := .ownedIdle, lines := .idle, bgnt := false }
  | .ownedIdle | .transfer _ => r

/-- BUS_REQUEST: a rise of BREQ; ignored while lending is disabled (R138, R140), as it is while RESETn is low (R178). -/
def execBusRequest (s : State) : Host.Outcome State Fault Refusal :=
  .next <|
    if s.router.breq then s
    else
      let t := s.updRouter fun r => { r with breq := true }
      if s.mgmt.lending then t.updRouter Router.request else t

/-- WITHDRAWAL: a fall of BREQ; it cancels a release or ends a loan, after which the arbiter decides (R142, R143). -/
def execWithdrawal (s : State) : Host.Outcome State Fault Refusal :=
  .next <|
    if !s.router.breq then s
    else
      let t := s.updRouter fun r => { r with breq := false }
      if s.mgmt.lending then
        let u := t.updRouter Router.withdraw
        if s.router.bus = .lent then State.arbitrate 4 u else u
      else t

end Sys2Proof.Machine
end

