-- ==== Sys2Proof/Machine/Management.lean ====
section
/-! DEFINITION. The requests the Management Port Unit carries out itself (chapter 10): CONFIGURE DEVICE, START, STOP, READ
DEVICE, TAKE ATTENTION. -/

namespace Sys2Proof.Machine

/-- A request refused or answered without a change and without a payload. -/
def replyOnly (s : State) (status : Status) : Reply := ⟨s, status, []⟩

/-- The attention enable mask in bits 4:1 of the flags byte (R182). -/
def maskOf (flags : Byte) : AttnMask := ⟨flags.getLsbD 1, flags.getLsbD 2, flags.getLsbD 3, flags.getLsbD 4⟩

/-- The Time Base takes a divisor: a new tick starts unless the value is the one held (R64, R171). -/
def TimeBase.setDivisor (t : TimeBase) (d : Half) : TimeBase :=
  if t.divisor = some d then t else { divisor := some d, tick := t.tick, position := 0, steps := 0 }

def Bus.owned (b : Bus) : Bool :=
  match b with
  | .ownedIdle | .transfer _ => true
  | .releasing _ | .lent => false

/-- CONFIGURE DEVICE (R171). -/
def configureDevice (refclk : Half) (fill : BitVec 32) (flags : Byte) (s : State) : Reply :=
  if s.mgmt.running then replyOnly s .badState
  else if ¬(1000 ≤ refclk.toNat ∧ refclk.toNat ≤ 50000 ∧ clearFrom flags 5) then replyOnly s .badArgument
  else if ¬(flags.getLsbD 0 ∨ s.router.bus.owned) then replyOnly s .badState
  else
    let t := s.updMgmt fun m => { m with fill := fill, lending := flags.getLsbD 0, mask := maskOf flags }.drive
    let t := { t with tb := t.tb.setDivisor refclk }
    -- R138: an enable that changes from clear to set reads BREQ at once
    let t := if !s.mgmt.lending ∧ flags.getLsbD 0 ∧ s.router.breq then t.updRouter Router.request else t
    ⟨t, .ok, be16 refclk ++ be32 fill ++ [flags]⟩

/-- START (R172). -/
def startDevice (s : State) : Reply :=
  if s.mgmt.running then replyOnly s .badState
  else if s.tb.divisor.isNone then replyOnly s .noTimebase
  else replyOnly (s.updMgmt fun m => { m with running := true }) .ok

/-- Some window is OPENING, OPEN or CLOSING, as the Window Directory answers (R173). -/
def State.anyLive (s : State) : Bool := allWindows.any fun w => (s.windows.get w).state.live

/-- STOP (R173). It leaves no port WAITING: an ending handed to a port before it is taken before it (R149, log 31). -/
def stopDevice (s : State) : Reply :=
  if !s.mgmt.running then replyOnly s .badState
  else if s.anyLive then replyOnly s .inUse
  else replyOnly (s.settleWaits.updMgmt fun m => { m with running := false }) .ok

/-- The port states of A0 to A3, two bits each (R183). -/
def portStates (s : State) : Byte :=
  BitVec.ofNat 8 ((s.ports.get 0).state.code.toNat + 4 * (s.ports.get 1).state.code.toNat +
    16 * (s.ports.get 2).state.code.toNat + 64 * (s.ports.get 3).state.code.toNat)

/-- The payload of READ DEVICE (R174, R183). -/
def devicePayload (s : State) : List Byte :=
  let m := s.mgmt
  [BitVec.ofNat 8 (bit m.running + 2 * bit s.tb.divisor.isSome + 4 * bit m.lending + 16 * bit m.mask.targetFault +
      32 * bit m.mask.closeDone + 64 * bit m.mask.openDone + 128 * bit m.mask.poolRefusal),
    s.router.bus.code] ++
  be16 (s.tb.divisor.getD 0) ++ be32 s.tb.tick ++ be32 m.fill ++
  [BitVec.ofNat 8 (countSet m.attention.targetFault), BitVec.ofNat 8 (countSet m.attention.closeDone),
    BitVec.ofNat 8 (countSet m.attention.openDone), BitVec.ofNat 8 (countSet m.attention.poolRefusal), portStates s]

/-- READ DEVICE (R174). -/
def readDevice (s : State) : Reply := ⟨s, .ok, devicePayload s⟩

/-- Items in all four attention sets together (R177). -/
def Attention.count (a : Attention) : Nat :=
  countSet a.targetFault + countSet a.closeDone + countSet a.openDone + countSet a.poolRefusal

/-- The item TAKE ATTENTION picks (R177), as its kind and index, and the sets without it. -/
def Attention.pick (a : Attention) : Option (AttnKind × Nat × Attention) :=
  match lowest a.targetFault with
  | some t => some (.targetFault, t.val, { a with targetFault := a.targetFault.set t false })
  | none =>
    match lowest a.closeDone with
    | some w => some (.closeDone, w.val, { a with closeDone := a.closeDone.set w false })
    | none =>
      match lowest a.openDone with
      | some w => some (.openDone, w.val, { a with openDone := a.openDone.set w false })
      | none =>
        match lowest a.poolRefusal with
        | some g => some (.poolRefusal, g.val, { a with poolRefusal := a.poolRefusal.set g false })
        | none => none

/-- TAKE ATTENTION (R177). -/
def takeAttention (s : State) : Reply :=
  match s.mgmt.attention.pick with
  | none => replyOnly s .nothing
  | some (kind, index, rest) =>
    ⟨s.updMgmt fun m => { m with attention := rest }.drive, .ok,
      [attnCode kind, BitVec.ofNat 8 index, BitVec.ofNat 8 rest.count]⟩

/-- CONFIGURE_DEVICE (R171). -/
def execConfigureDevice (refclk : Half) (fill : BitVec 32) (flags : Byte) (s : State) :
    Host.Outcome State Fault Refusal :=
  carryOut 0x20 7 (configureDevice refclk fill flags) s

/-- START (R172). -/
def execStart (s : State) : Host.Outcome State Fault Refusal := carryOut 0x21 0 startDevice s

/-- STOP (R173). -/
def execStop (s : State) : Host.Outcome State Fault Refusal := carryOut 0x22 0 stopDevice s

/-- READ_DEVICE (R174). -/
def execReadDevice (s : State) : Host.Outcome State Fault Refusal := carryOut 0x23 0 readDevice s

/-- TAKE_ATTENTION (R177). -/
def execTakeAttention (s : State) : Host.Outcome State Fault Refusal := carryOut 0x24 0 takeAttention s

end Sys2Proof.Machine
end

