-- ==== Sys2Proof/Machine/Targets.lean ====
section
/-! DEFINITION. The target requests (chapter 6): CONFIGURE, REMOVE, WAKE, PARK, RECOVER and READ TARGET. -/

namespace Sys2Proof.Machine

/-- The OK of a target request: the payload gives the state after the step (R183). -/
def targetReply (s : State) (t : TargetId) : Reply := ⟨s, .ok, [(s.targets.get t).state.code]⟩

/-- CONFIGURE TARGET (R103). -/
def configureTarget (target : Byte) (wake park delay : Half) (limit : Byte) (s : State) : Reply :=
  match targetOf target with
  | none => replyOnly s .badArgument
  | some t =>
    if !timesOk wake park limit then replyOnly s .badArgument
    else if (s.targets.get t).useCount ≠ 0 then replyOnly s .inUse
    else
      match (s.targets.get t).state with
      | .absent | .parked =>
        targetReply
          (s.updTarget t fun tg =>
            { tg.enter .parked with
              wakeTime := wake, parkTime := park, parkDelay := delay, limit := limit, failures := 0 })
          t
      | .waking | .ready | .parking | .faulted => replyOnly s .badState

/-- How many non-VACANT windows name the target (R4, R117). -/
def State.naming (s : State) (t : TargetId) : Nat :=
  allWindows.countP fun w => (s.windows.get w).state != .vacant && (s.windows.get w).target == t

/-- REMOVE TARGET (R104). -/
def removeTarget (target : Byte) (s : State) : Reply :=
  match targetOf target with
  | none => replyOnly s .badArgument
  | some t =>
    if s.naming t ≠ 0 then replyOnly s .inUse
    else
      match (s.targets.get t).state with
      | .parked =>
        targetReply
          (s.updTarget t fun tg =>
            { tg.enter .absent with wakeTime := 0, parkTime := 0, parkDelay := 0, limit := 0 })
          t
      | .absent => targetReply s t
      | .waking | .ready | .parking | .faulted => replyOnly s .badState

/-- WAKE TARGET (R105). -/
def wakeTarget (target : Byte) (s : State) : Reply :=
  match targetOf target with
  | none => replyOnly s .badArgument
  | some t =>
    match (s.targets.get t).state with
    | .absent => replyOnly s .noTarget
    | .faulted => replyOnly s .badState
    | .parked => targetReply (s.updTarget t Target.startWake) t
    | .parking => targetReply (s.updTarget t fun tg => { tg with wakePending := true }) t
    | .waking | .ready => targetReply s t

/-- PARK TARGET (R107). -/
def parkTarget (target : Byte) (s : State) : Reply :=
  match targetOf target with
  | none => replyOnly s .badArgument
  | some t =>
    if (s.targets.get t).state = .absent then replyOnly s .noTarget
    else if (s.targets.get t).useCount ≠ 0 then replyOnly s .inUse
    else
      match (s.targets.get t).state with
      | .ready | .waking | .faulted => targetReply (s.updTarget t Target.startPark) t
      | .parking => targetReply (s.updTarget t fun tg => { tg with wakePending := false }) t
      | .parked | .absent => targetReply s t

/-- RECOVER TARGET (R116). -/
def recoverTarget (target : Byte) (s : State) : Reply :=
  match targetOf target with
  | none => replyOnly s .badArgument
  | some t =>
    if (s.targets.get t).state = .faulted then targetReply (s.targetReady t) t else replyOnly s .badState

def intervalCode (i : Option Interval) : Nat :=
  match i with
  | none => 0
  | some ⟨.wake, _⟩ => 1
  | some ⟨.park, _⟩ => 2

/-- The payload of READ TARGET (R117, R183). -/
def targetPayload (s : State) (t : TargetId) : List Byte :=
  let tg := s.targets.get t
  [BitVec.ofNat 8 (tg.state.code.toNat + 128 * bit tg.twake)] ++
  be16 tg.wakeTime ++ be16 tg.parkTime ++ be16 tg.parkDelay ++
  [tg.limit,
    BitVec.ofNat 8 (tg.failures + 4 * bit (tg.wakePending && tg.state == .parking) + 8 * intervalCode tg.interval +
      32 * bit tg.parkDeadline.isSome)] ++
  be16 (BitVec.ofNat 16 (match tg.interval with
    | some i => i.remaining
    | none => 0)) ++
  be16 (remainingOr tg.parkDeadline s.tb.tick 0) ++
  [BitVec.ofNat 8 tg.useCount, BitVec.ofNat 8 (s.naming t)]

/-- READ TARGET (R117). -/
def readTarget (target : Byte) (s : State) : Reply :=
  match targetOf target with
  | none => replyOnly s .badArgument
  | some t => ⟨s, .ok, targetPayload s t⟩

/-- CONFIGURE_TARGET (R103). -/
def execConfigureTarget (target : Byte) (wake park delay : Half) (limit : Byte) (s : State) :
    Host.Outcome State Fault Refusal :=
  carryOut 0x30 8 (configureTarget target wake park delay limit) s

/-- REMOVE_TARGET (R104). -/
def execRemoveTarget (target : Byte) (s : State) : Host.Outcome State Fault Refusal :=
  carryOut 0x31 1 (removeTarget target) s

/-- WAKE_TARGET (R105). -/
def execWakeTarget (target : Byte) (s : State) : Host.Outcome State Fault Refusal :=
  carryOut 0x32 1 (wakeTarget target) s

/-- PARK_TARGET (R107). -/
def execParkTarget (target : Byte) (s : State) : Host.Outcome State Fault Refusal :=
  carryOut 0x33 1 (parkTarget target) s

/-- RECOVER_TARGET (R116). -/
def execRecoverTarget (target : Byte) (s : State) : Host.Outcome State Fault Refusal :=
  carryOut 0x34 1 (recoverTarget target) s

/-- READ_TARGET (R117). -/
def execReadTarget (target : Byte) (s : State) : Host.Outcome State Fault Refusal :=
  carryOut 0x35 1 (readTarget target) s

end Sys2Proof.Machine
end

