-- ==== Sys2Proof/Machine/Windows.lean ====
section
/-! DEFINITION. The window requests (chapters 1 and 5): DEFINE, AMEND, OPEN, CLOSE, RETIRE and READ WINDOW. -/

namespace Sys2Proof.Machine

/-! ### DEFINE WINDOW -/

/-- Some window that is not VACANT shares an address with the range (R5 check 4, R7). -/
def State.overlapsAny (s : State) (base stop : Nat) : Bool :=
  allWindows.any fun w =>
    (s.windows.get w).state != .vacant &&
      overlaps base stop (s.windows.get w).base.toNat (s.windows.get w).endAddr

/-- DEFINE WINDOW (R5, R6). -/
def defineWindow (window : Byte) (base : Addr) (k target attrs : Byte) (offset : Addr) (term : Half) (margin : Byte)
    (deadline : Half) (s : State) : Reply :=
  match windowOf window with
  | none => replyOnly s .badArgument
  | some w =>
    if (s.windows.get w).state ≠ .vacant then replyOnly s .inUse
    else if !defineArgsOk base k target attrs offset term deadline then replyOnly s .badArgument
    else
      match targetOf target with
      | none => replyOnly s .badArgument
      | some t =>
        let stop := base.toNat + windowSize k.toNat
        if 0xFF0000 < stop then replyOnly s .overlap
        else if s.overlapsAny base.toNat stop then replyOnly s .overlap
        else if (s.targets.get t).state = .absent then replyOnly s .noTarget
        else
          replyOnly
            (s.updWindow w fun _ =>
              { state := .staged, base := base, k := k.toNat, target := t, offset := offset, rule := ruleOf attrs,
                admitSet := admitOf attrs, term := term, margin := margin, closeDeadline := deadline,
                pending := none })
            .ok

/-! ### AMEND WINDOW -/

/-- The window record with the named fields written (R9). -/
def Window.amend (win : Window) (select attrs : Byte) (term : Half) (margin : Byte) (deadline : Half) : Window :=
  { win with
    admitSet := if select.getLsbD 0 then admitOf attrs else win.admitSet
    term := if select.getLsbD 1 then term else win.term
    margin := if select.getLsbD 2 then margin else win.margin
    closeDeadline := if select.getLsbD 3 then deadline else win.closeDeadline
    rule := if select.getLsbD 4 then ruleOf attrs else win.rule }

/-- The leases of an agent removed from the set of admitted agents end on the window (R12). -/
def State.removeAgent (s : State) (w : WindowId) (a : Agent) : State :=
  match (s.ctxs.get w).holdOf a with
  | some h => s.endHold w h .revoked (some .revoked)
  | none =>
    match (s.ctxs.get w).waitOf a with
    | some _ => s.endWait w a .notAdmitted
    | none => s

/-- AMEND WINDOW (R9 to R12). -/
def amendWindow (window select attrs : Byte) (term : Half) (margin : Byte) (deadline : Half) (s : State) : Reply :=
  match windowOf window with
  | none => replyOnly s .badArgument
  | some w =>
    let win := s.windows.get w
    if win.state = .vacant then replyOnly s .badState
    else if !amendArgsOk select attrs term deadline then replyOnly s .badArgument
    else if select.getLsbD 4 ∧ win.state ≠ .staged then replyOnly s .badState
    else
      let new := win.amend select attrs term margin deadline
      let removed := allAgents.filter fun a => win.admits a && !new.admits a
      let t := s.updWindow w fun _ => new
      if removed.isEmpty then replyOnly t .ok
      else replyOnly ((removed.foldl (fun s a => s.removeAgent w a) t).settleWindow w) .ok

/-! ### OPEN WINDOW -/

/-- The result of an accepted OPEN WINDOW: the state entered and the target state after the Target Controller's part
(R82). -/
def openReply (s : State) (w : WindowId) (t : TargetId) : Reply :=
  ⟨s, .accepted, [(s.windows.get w).state.code, (s.targets.get t).state.code]⟩

/-- The window goes OPENING (R82). -/
def State.openLater (s : State) (w : WindowId) : State := s.updWindow w fun win => { win with state := .opening }

/-- OPEN WINDOW (R81, R82). -/
def openWindow (window : Byte) (s : State) : Reply :=
  if !s.mgmt.running then replyOnly s .notRunning
  else
    match windowOf window with
    | none => replyOnly s .badArgument
    | some w =>
      if (s.windows.get w).state ≠ .staged then replyOnly s .badState
      else
        let t := (s.windows.get w).target
        let u := s.updTarget t fun tg => { tg with useCount := tg.useCount + 1 }
        match (s.targets.get t).state with
        | .faulted => replyOnly s .targetFaulted
        | .ready => openReply ((u.updTarget t fun tg => { tg with parkDeadline := none }).openNow w) w t
        | .waking => openReply (u.openLater w) w t
        | .parked => openReply ((u.updTarget t Target.startWake).openLater w) w t
        | .parking => openReply ((u.updTarget t fun tg => { tg with wakePending := true }).openLater w) w t
        -- no non-VACANT window names an ABSENT target (R8, log 23)
        | .absent => replyOnly s .badState

/-! ### CLOSE WINDOW and RETIRE WINDOW -/

/-- The payload of every result of CLOSE WINDOW and RETIRE WINDOW (R91, R183). -/
def closePayload (state : WindowState) (waits holds : Nat) (completed : Bool) : List Byte :=
  [state.code, BitVec.ofNat 8 waits, BitVec.ofNat 8 holds, BitVec.ofNat 8 (bit completed)]

/-- A close request that is refused reports the unchanged state (R91). -/
def closeRefused (s : State) (w : WindowId) (status : Status) : Reply :=
  ⟨s, status, closePayload (s.windows.get w).state 0 0 false⟩

/-- A close of an OPENING window completes at once (R87). -/
def closeOpening (w : WindowId) (retire : Bool) (s : State) : Reply :=
  let win := s.windows.get w
  let waiters := (s.ctxs.get w).waiters
  let t := s.endWaits w waiters .closed
  let t := t.updWindow w fun win => if retire then Window.empty else { win with state := .staged }
  let t := t.updTarget win.target fun tg => tg.leave s.tb.tick
  let t := t.evaluate w
  ⟨t, .done, closePayload (t.windows.get w).state waiters.length 0 true⟩

/-- The reply of a close step that ran a sweep: it completed when the window has left CLOSING (R91). -/
def closeReply (t : State) (w : WindowId) (status : Status) (waits holds : Nat) : Reply :=
  ⟨t, status, closePayload (t.windows.get w).state waits holds ((t.windows.get w).state != .closing)⟩

/-- A close of an OPEN window (R88, R89). A gentle one ends a pending upgrade CLOSED, which counts as a wait (R88, R91). -/
def closeOpen (w : WindowId) (force retire : Bool) (s : State) : Reply :=
  let win := s.windows.get w
  let c := s.ctxs.get w
  let deadline := if force then none else some (Deadline.after s.tb.tick win.closeDeadline.toNat)
  let t := s.updWindow w fun win => { win with state := .closing, pending := some ⟨force, retire, deadline⟩ }
  let t := if force then t.forceSweep w else t.gentleSweep w
  closeReply ((t.evaluate w).closeIfEmpty w) w .accepted
    (if force then c.waiters.length else c.waiters.length + bit c.upgrader.isSome)
    (if force then c.holders.length else 0)

/-- The retire flag of a pending close is set, or stays set (R90, R98). -/
def State.setRetire (s : State) (w : WindowId) (retire : Bool) : State :=
  s.updWindow w fun win =>
    { win with pending := win.pending.map fun p => { p with retire := p.retire || retire } }

/-- The pending close becomes FORCE and its deadline time is removed (R90, R94). -/
def State.forcePending (s : State) (w : WindowId) : State :=
  s.updWindow w fun win =>
    { win with pending := win.pending.map fun p => { p with force := true, deadline := none } }

/-- The step that turns a close to FORCE: the remaining holders end CLOSED, and the close completes when the window is
left empty (R90, R94). -/
def State.forceClose (s : State) (w : WindowId) : State :=
  (((s.forcePending w).forceSweep w).evaluate w).closeIfEmpty w

/-- A close of a CLOSING window (R90). -/
def closeClosing (w : WindowId) (force retire : Bool) (s : State) : Reply :=
  if force then
    let c := s.ctxs.get w
    closeReply ((s.setRetire w retire).forceClose w) w .ok c.waiters.length c.holders.length
  else if retire then closeReply (s.setRetire w true) w .ok 0 0
  else closeRefused s w .badState

/-- CLOSE WINDOW on a window in range (R86). -/
def closeLive (w : WindowId) (force retire : Bool) (s : State) : Reply :=
  match (s.windows.get w).state with
  | .vacant | .staged => closeRefused s w .badState
  | .opening => closeOpening w retire s
  | .opened => closeOpen w force retire s
  | .closing => closeClosing w force retire s

/-- The result for a window number out of range (R183). -/
def closeOutOfRange (s : State) : Reply := ⟨s, .badArgument, [0xFF, 0, 0, 0]⟩

/-- CLOSE WINDOW (R86). -/
def closeWindow (window flags : Byte) (s : State) : Reply :=
  match windowOf window with
  | none => closeOutOfRange s
  | some w =>
    if !clearFrom flags 2 then closeRefused s w .badArgument
    else closeLive w (flags.getLsbD 0) (flags.getLsbD 1) s

/-- RETIRE WINDOW (R14, R98). -/
def retireWindow (window : Byte) (s : State) : Reply :=
  match windowOf window with
  | none => closeOutOfRange s
  | some w =>
    match (s.windows.get w).state with
    | .vacant => closeRefused s w .badState
    | .staged => ⟨s.updWindow w fun _ => Window.empty, .ok, closePayload .vacant 0 0 true⟩
    | .opening | .opened | .closing => closeLive w false true s

/-! ### READ WINDOW -/

/-- The deadline time of a pending close, when it has one. -/
def Window.closeTime (win : Window) : Option Deadline :=
  match win.pending with
  | some p => p.deadline
  | none => none

/-- The payload of READ WINDOW (R15, R183). -/
def windowPayload (s : State) (w : WindowId) : List Byte :=
  let win := s.windows.get w
  let c := s.ctxs.get w
  [BitVec.ofNat 8 (win.state.code.toNat + 8 * bit win.pending.isSome +
      16 * bit (win.pending.any fun p => p.force) + 32 * bit (win.pending.any fun p => p.retire))] ++
  be24 win.base ++ [BitVec.ofNat 8 win.k, BitVec.ofNat 8 win.target.val, attrsByte win] ++ be24 win.offset ++
  be16 win.term ++ [win.margin] ++ be16 win.closeDeadline ++ be16 (remainingOr win.closeTime s.tb.tick 0) ++
  [BitVec.ofNat 8 (c.holders.length + 8 * c.waiters.length + 64 * bit c.drain + 128 * bit c.upgrader.isSome),
    BitVec.ofNat 8 c.inflight] ++
  be16 (wideSerial c.serial)

/-- READ WINDOW (R15). -/
def readWindow (window : Byte) (s : State) : Reply :=
  match windowOf window with
  | none => replyOnly s .badArgument
  | some w => ⟨s, .ok, windowPayload s w⟩

/-- DEFINE_WINDOW (R5). -/
def execDefineWindow (window : Byte) (base : Addr) (k target attrs : Byte) (offset : Addr) (term : Half)
    (margin : Byte) (deadline : Half) (s : State) : Host.Outcome State Fault Refusal :=
  carryOut 0x40 15 (defineWindow window base k target attrs offset term margin deadline) s

/-- AMEND_WINDOW (R9). -/
def execAmendWindow (window select attrs : Byte) (term : Half) (margin : Byte) (deadline : Half) (s : State) :
    Host.Outcome State Fault Refusal :=
  carryOut 0x41 8 (amendWindow window select attrs term margin deadline) s

/-- OPEN_WINDOW (R81). -/
def execOpenWindow (window : Byte) (s : State) : Host.Outcome State Fault Refusal :=
  carryOut 0x42 1 (openWindow window) s

/-- CLOSE_WINDOW (R86). -/
def execCloseWindow (window flags : Byte) (s : State) : Host.Outcome State Fault Refusal :=
  carryOut 0x43 2 (closeWindow window flags) s

/-- RETIRE_WINDOW (R14). -/
def execRetireWindow (window : Byte) (s : State) : Host.Outcome State Fault Refusal :=
  carryOut 0x44 1 (retireWindow window) s

/-- READ_WINDOW (R15). -/
def execReadWindow (window : Byte) (s : State) : Host.Outcome State Fault Refusal :=
  carryOut 0x45 1 (readWindow window) s

end Sys2Proof.Machine
end

