-- ==== Sys2Proof/Machine/Leases.lean ====
section
/-! DEFINITION. The supervisor's lease requests (chapters 2 and 4): READ LEASES, REVOKE LEASE, SET QUOTA, READ POOL. -/

namespace Sys2Proof.Machine

/-- One HOLD of the list of READ LEASES (section 11.4). -/
def holdEntry (now : Tick) (h : Hold) : List Byte :=
  [BitVec.ofNat 8 (h.agent.val + 8 * h.mode.code + 16 * bit h.once + 32 * bit h.warned + 64 * bit h.upgrading)] ++
  be16 (wideSerial h.serial) ++ be16 (h.expiry.remaining now)

/-- One WAIT of the list of READ LEASES (section 11.4). -/
def waitEntry (now : Tick) (x : Wait) : List Byte :=
  [BitVec.ofNat 8 (x.agent.val + 4 + 8 * x.mode.code + 16 * bit x.once)] ++
  be16 (remainingOr x.deadline now 0xFFFF) ++ be16 (x.term.getD 0)

/-- The payload of READ LEASES (R28, section 11.4). -/
def leasesPayload (s : State) (w : WindowId) : List Byte :=
  let c := s.ctxs.get w
  let now := s.tb.tick
  [BitVec.ofNat 8 (c.holders.length + c.waiters.length)] ++
  be16 (match c.upgrader with
    | some h => remainingOr h.deadline now 0xFFFF
    | none => 0xFFFF) ++
  c.holders.flatMap (holdEntry now) ++ c.waiters.flatMap (waitEntry now)

/-- READ LEASES (R28). -/
def readLeases (window : Byte) (s : State) : Reply :=
  match windowOf window with
  | none => replyOnly s .badArgument
  | some w => ⟨s, .ok, leasesPayload s w⟩

/-- REVOKE LEASE (R78). -/
def revokeLease (window agent : Byte) (s : State) : Reply :=
  match windowOf window, agentOf agent with
  | some w, some a =>
    match (s.ctxs.get w).holdOf a with
    | some h =>
      ⟨(s.endHold w h .revoked (some .revoked)).settleWindow w, .ok,
        [0, BitVec.ofNat 8 h.mode.code] ++ be16 (wideSerial h.serial)⟩
    | none =>
      match (s.ctxs.get w).waitOf a with
      | some x => ⟨(s.endWait w a .revoked).settleWindow w, .ok, [1, BitVec.ofNat 8 x.mode.code, 0, 0]⟩
      | none => replyOnly s .nothing
  | _, _ => replyOnly s .badArgument

/-- SET QUOTA (R25). -/
def setQuota (agent quota : Byte) (s : State) : Reply :=
  match agentOf agent with
  | none => replyOnly s .badArgument
  | some a =>
    if ¬(1 ≤ quota.toNat ∧ quota.toNat ≤ 24) then replyOnly s .badArgument
    else if quota.toNat < s.inUse.get a then replyOnly s .badState
    else replyOnly { s with quotas := s.quotas.set a quota.toNat } .ok

/-- The payload of READ POOL (R27, R183). -/
def poolPayload (s : State) : List Byte :=
  [BitVec.ofNat 8 s.poolUse] ++
  allAgents.flatMap fun a => [BitVec.ofNat 8 (s.inUse.get a), BitVec.ofNat 8 (s.quotas.get a)]

/-- READ POOL (R27). -/
def readPool (s : State) : Reply := ⟨s, .ok, poolPayload s⟩

/-- READ_LEASES (R28). -/
def execReadLeases (window : Byte) (s : State) : Host.Outcome State Fault Refusal :=
  carryOut 0x50 1 (readLeases window) s

/-- REVOKE_LEASE (R78). -/
def execRevokeLease (window agent : Byte) (s : State) : Host.Outcome State Fault Refusal :=
  carryOut 0x51 2 (revokeLease window agent) s

/-- SET_QUOTA (R25). -/
def execSetQuota (agent quota : Byte) (s : State) : Host.Outcome State Fault Refusal :=
  carryOut 0x52 2 (setQuota agent quota) s

/-- READ_POOL (R27). -/
def execReadPool (s : State) : Host.Outcome State Fault Refusal := carryOut 0x53 0 readPool s

end Sys2Proof.Machine
end

