-- ==== Sys2Proof/Machine/Frames.lean ====
section
/-! DEFINITION. Frames of the management port (section 10.1 to 10.3): FETCH, and the frames that carry no request the part
carries out. -/

namespace Sys2Proof.Machine

/-- The result frame of a FETCH (R168, R182). -/
def resultFrame (r : ResultRecord) : List Byte :=
  let body :=
    [r.status.code, r.code, BitVec.ofNat 8 (r.seq.toNat + 128 * bit r.overwritten), BitVec.ofNat 8 r.payload.length] ++
      r.payload
  body ++ [crc8 body]

/-- A FETCH frame with `clocked` bits shifted after its kind byte (R168): 00h during the kind byte and after the result
frame; the fetched flag is set when the whole result frame was shifted out. -/
def State.fetchFrame (s : State) (clocked : Nat) : State :=
  let frame := bitsOfBytes (resultFrame s.mgmt.result)
  s.updMgmt fun m =>
    { m with
      mso := List.replicate 8 false ++ frame.take clocked ++ List.replicate (clocked - frame.length) false
      result := { m.result with fetched := m.result.fetched || frame.length ≤ clocked } }

/-- The request of a REQUEST frame at its owner (R169); none for a command that is no supervisor request. -/
def performRequest (i : Instr) (s : State) : Option Reply :=
  match i with
  | .configureDevice refclk fill flags => some (configureDevice refclk fill flags s)
  | .start => some (startDevice s)
  | .stop => some (stopDevice s)
  | .readDevice => some (readDevice s)
  | .takeAttention => some (takeAttention s)
  | .configureTarget t wake park delay limit => some (configureTarget t wake park delay limit s)
  | .removeTarget t => some (removeTarget t s)
  | .wakeTarget t => some (wakeTarget t s)
  | .parkTarget t => some (parkTarget t s)
  | .recoverTarget t => some (recoverTarget t s)
  | .readTarget t => some (readTarget t s)
  | .defineWindow w base k t attrs offset term margin deadline =>
    some (defineWindow w base k t attrs offset term margin deadline s)
  | .amendWindow w select attrs term margin deadline => some (amendWindow w select attrs term margin deadline s)
  | .openWindow w => some (openWindow w s)
  | .closeWindow w flags => some (closeWindow w flags s)
  | .retireWindow w => some (retireWindow w s)
  | .readWindow w => some (readWindow w s)
  | .readLeases w => some (readLeases w s)
  | .revokeLease w a => some (revokeLease w a s)
  | .setQuota a q => some (setQuota a q s)
  | .readPool => some (readPool s)
  | .unknownRequest .. | .badFrame .. | .ignoredFrame .. | .fetch .. | .acquire .. | .release .. | .downgrade ..
  | .upgrade .. | .renew .. | .abandon .. | .queryWindow .. | .readFault .. | .takeNotice .. | .setNotices ..
  | .unknownCommit .. | .commitRefused .. | .controlApertureWrite .. | .badControlCycle .. | .dataCycle ..
  | .addressDecode .. | .admissionClaim .. | .tack .. | .terr .. | .responseLimit .. | .outcomeReport
  | .accessDrop .. | .portReset .. | .prstnRise .. | .deviceReset | .busRequest | .withdrawal | .tick | .expiry ..
  | .warningTime .. | .waitDeadline .. | .closeDeadline .. | .wakeTimeExpiry .. | .parkTimeExpiry ..
  | .parkDelayExpiry .. | .emptyContextReport .. | .responseHandoff .. | .noticeHandoff .. | .attentionHandoff ..
  | .microsecondStep => none

/-- The execution of a REQUEST frame with a correct CRC (R169): UNKNOWN for a code that names no request, BAD_ARGUMENT for
a known code with the wrong length, otherwise the request at its owner. -/
def executeRequest (code : Byte) (payload : List Byte) (s : State) : Reply :=
  match (requestOf code payload).bind fun i => performRequest i s with
  | some r => r
  | none => replyOnly s (if (requestLength code).isSome then .badArgument else .unknown)

/-- The MP settles a frame by its complete bytes at the rise of MSEL (R164, R165, R168). -/
def State.takeFrame (s : State) (bits : List Bool) : State :=
  match frameBytes bits with
  | [] => s.shiftZeros bits.length
  | kind :: rest =>
    if kind = requestKind then
      match settleFrame (kind :: rest) with
      | .discarded => s.shiftZeros bits.length
      | .bad code => (s.postResult code .badFrame []).shiftZeros bits.length
      | .request code payload => settle code bits.length (executeRequest code payload s)
    else if kind = fetchKind then s.fetchFrame (bits.length - 8)
    else s.shiftZeros bits.length

/-- UNKNOWN_REQUEST (R169). -/
def execUnknownRequest (code : Byte) (payload : List Byte) (s : State) : Host.Outcome State Fault Refusal :=
  carryOut code payload.length (executeRequest code payload) s

/-- BAD_FRAME (R165). -/
def execBadFrame (bits : List Bool) (s : State) : Host.Outcome State Fault Refusal :=
  .next (s.onFrame fun s => s.takeFrame bits)

/-- IGNORED_FRAME (R164). -/
def execIgnoredFrame (bits : List Bool) (s : State) : Host.Outcome State Fault Refusal :=
  .next (s.onFrame fun s => s.takeFrame bits)

/-- FETCH (R168). -/
def execFetch (clocked : Nat) (s : State) : Host.Outcome State Fault Refusal :=
  .next (s.onFrame fun s => s.fetchFrame clocked)

end Sys2Proof.Machine
end

