-- ==== Sys2Proof/Machine/Agents.lean ====
section
/-! DEFINITION. The agent requests at their owners (chapters 2, 3, 4, 7 and 9): what each does once its commit has been taken
in a port that may make it. -/

namespace Sys2Proof.Machine

/-! ### ACQUIRE -/

/-- A refusal for want of room: the agent is handed to the POOL_REFUSAL set (R26). -/
def State.poolRefused (s : State) (a : Agent) (status : Status) : State :=
  (s.handAttention (.poolRefusal a)).answer a acquireCode status []

/-- A grant is possible now (R38). -/
def LeaseCtx.grantNow (c : LeaseCtx) (win : Window) (m : Mode) : Bool :=
  win.state == .opened && c.waiters.isEmpty && c.upgrader.isNone && c.grantable m

/-- An ACQUIRE granted at once (R33, R38). -/
def State.grantAcquire (s : State) (a : Agent) (w : WindowId) (m : Mode) (once : Bool) (asked : Option Half) : State :=
  let win := s.windows.get w
  let h := newHold (s.ctxs.get w) s.tb.tick win a m once asked
  ((s.updCtx w fun c => c.addHold h).takeEntry a).answer a acquireCode .granted
    (grantedPayload w h (termUsed win asked))

/-- An ACQUIRE that queues (R47): the entry joins the tail, the last-ending record goes, the port goes WAITING. -/
def State.queueAcquire (s : State) (a : Agent) (w : WindowId) (m : Mode) (once : Bool) (asked : Option Half)
    (limit : Option Nat) : State :=
  let x : Wait := { agent := a, mode := m, once := once, term := asked, deadline := limit.map (.after s.tb.tick) }
  ((s.updCtx w fun c => { c with waiters := c.waiters ++ [x], endings := c.endings.set a none }).takeEntry a).updPort a
    fun p => { p with state := .waiting }

/-- ACQUIRE past checks 1 to 8 (R38). -/
def settleAcquire (a : Agent) (w : WindowId) (m : Mode) (once : Bool) (waitLimit term : Half) (s : State) : State :=
  let win := s.windows.get w
  if (s.ctxs.get w).grantNow win m then s.grantAcquire a w m once (askedTerm term)
  else if waitLimit = 0 then
    s.answer a acquireCode (if win.state = .opening then .notOpen else .conflict) []
  else s.queueAcquire a w m once (askedTerm term) (limitOf waitLimit)

/-- ACQUIRE (R37, R26). -/
def acquire (a : Agent) (window flags : Byte) (waitLimit term : Half) (s : State) : State :=
  if !s.mgmt.running then s.answer a acquireCode .notRunning []
  else
    match windowOf window with
    | none => s.answer a acquireCode .badArgument []
    | some w =>
      let win := s.windows.get w
      let c := s.ctxs.get w
      if !clearFrom flags 2 then s.answer a acquireCode .badArgument []
      else if win.state = .vacant ∨ win.state = .staged then s.answer a acquireCode .noWindow []
      else if win.state = .closing then s.answer a acquireCode .closing []
      else if !win.admits a then s.answer a acquireCode .notAdmitted []
      else if (s.targets.get win.target).state = .faulted then s.answer a acquireCode .targetFaulted []
      else if (c.holdOf a).isSome ∨ (c.waitOf a).isSome then s.answer a acquireCode .alreadyHeld []
      else if 24 ≤ s.poolUse then s.poolRefused a .noEntry
      else if s.quotas.get a ≤ s.inUse.get a then s.poolRefused a .quota
      else settleAcquire a w (modeBit (flags.getLsbD 0)) (flags.getLsbD 1) waitLimit term s

/-! ### RELEASE, DOWNGRADE, UPGRADE, RENEW -/

/-- RELEASE (R39). -/
def release (a : Agent) (t : Token) (s : State) : State :=
  if !s.mgmt.running then s.answer a 0x02 .notRunning []
  else
    match matchToken s a t with
    | none => s.answer a 0x02 .stale []
    | some (w, h) => ((s.endHold w h .released none).answer a 0x02 .ok []).settleWindow w

/-- DOWNGRADE (R40). -/
def downgrade (a : Agent) (t : Token) (s : State) : State :=
  if !s.mgmt.running then s.answer a 0x03 .notRunning []
  else
    match matchToken s a t with
    | none => s.answer a 0x03 .stale []
    | some (w, h) =>
      if h.mode ≠ .exclusive then s.answer a 0x03 .badState []
      else
        ((s.updCtx w fun c => c.mapHold a fun h => { h with mode := .shared }).answer a 0x03 .ok []).evaluate w

/-- An UPGRADE granted at once (R57, R59). -/
def State.grantUpgradeNow (s : State) (a : Agent) (w : WindowId) (h : Hold) : State :=
  let win := s.windows.get w
  (s.updCtx w fun c => c.grantUpgrade s.tb.tick win a).answer a upgradeCode .granted
    (grantedPayload w (h.upgrade (s.ctxs.get w) s.tb.tick win) win.term)

/-- An UPGRADE that becomes pending (R57). -/
def State.pendUpgrade (s : State) (a : Agent) (w : WindowId) (limit : Option Nat) : State :=
  (s.updCtx w fun c =>
    c.mapHold a fun h => { h with upgrading := true, deadline := limit.map (.after s.tb.tick) }).updPort a
    fun p => { p with state := .waiting }

/-- UPGRADE past its checks (R57, R58). -/
def settleUpgrade (a : Agent) (w : WindowId) (h : Hold) (waitLimit : Half) (s : State) : State :=
  let c := s.ctxs.get w
  if c.upgradeFree then s.grantUpgradeNow a w h
  else if waitLimit = 0 then s.answer a upgradeCode .conflict []
  else if c.holders.any fun g => g.agent != a && g.upgrading then s.answer a upgradeCode .deadlock []
  else s.pendUpgrade a w (limitOf waitLimit)

/-- UPGRADE (R56). -/
def upgrade (a : Agent) (t : Token) (waitLimit : Half) (s : State) : State :=
  if !s.mgmt.running then s.answer a upgradeCode .notRunning []
  else
    match matchToken s a t with
    | none => s.answer a upgradeCode .stale []
    | some (w, h) =>
      if h.once then s.answer a upgradeCode .badArgument []
      else if h.mode ≠ .shared then s.answer a upgradeCode .badState []
      else if (s.windows.get w).state = .closing then s.answer a upgradeCode .closing []
      else settleUpgrade a w h waitLimit s

/-- RENEW (R70). -/
def renew (a : Agent) (t : Token) (term : Half) (s : State) : State :=
  if !s.mgmt.running then s.answer a 0x05 .notRunning []
  else
    match matchToken s a t with
    | none => s.answer a 0x05 .stale []
    | some (w, h) =>
      let win := s.windows.get w
      if win.state ≠ .opened then s.answer a 0x05 .closing []
      else
        let used := termUsed win (askedTerm term)
        (s.updCtx w fun c => c.mapHold a fun h => h.setTerm s.tb.tick win used).answer a 0x05 .ok
          (grantedPayload w h used)

/-! ### ABANDON -/

/-- The port posts a wait's own ABANDONED response (R62). -/
def State.postAbandoned (s : State) (a : Agent) (code : Byte) (w : WindowId) (payload : List Byte) : State :=
  s.updPort a fun p => p.postEnding code .abandoned w payload

/-- The agent's wait on the window is taken back and its ABANDONED response posted (R62). -/
def State.endAbandoned (s : State) (a : Agent) (w : WindowId) : State :=
  match (s.ctxs.get w).waitOf a with
  | some _ => (s.dropWait w a).postAbandoned a acquireCode w [windowByte w]
  | none =>
    match (s.ctxs.get w).holdOf a with
    | some h => (s.clearUpgrade w a).postAbandoned a upgradeCode w (keptPayload w h)
    | none => s

/-- ABANDON at the Lease Engine (R62, R63). -/
def settleAbandon (a : Agent) (s : State) : State :=
  if !s.mgmt.running then s.answer a 0x06 .notRunning []
  else
    match s.waitWindow a with
    | none => s.answer a 0x06 .nothing []
    | some w => ((s.endAbandoned a w).answer a 0x06 .ok [windowByte w]).evaluate w

/-- ABANDON (R62, R63). An ending handed to the port before it is posted first, whatever the answer: R151's table has the
ending's response first, and the model's choice is that this holds in both device states (log 28). -/
def abandon (a : Agent) (s : State) : State := settleAbandon a (s.takeResponses a)

/-! ### QUERY WINDOW -/

/-- The agent's own part of the QUERY WINDOW payload: flags, cause, serial and ticks (R41, R181). A hold with a pending
upgrade is reported as a hold with bit 5 set and bit 1 clear, the model's choice (log 32). -/
def queryLease (s : State) (a : Agent) (w : WindowId) : List Byte :=
  let c := s.ctxs.get w
  let now := s.tb.tick
  match c.holdOf a with
  | some h =>
    [BitVec.ofNat 8 (1 + 4 * h.mode.code + 8 * bit h.once + 16 * bit h.warned + 32 * bit h.upgrading), 0] ++
      le16 (wideSerial h.serial) ++ le16 (h.expiry.remaining now)
  | none =>
    match c.waitOf a with
    | some x =>
      [BitVec.ofNat 8 (2 + 4 * x.mode.code + 8 * bit x.once), 0] ++ le16 0 ++
        le16 (remainingOr x.deadline now 0xFFFF)
    | none =>
      match c.endings.get a with
      | some e => [0, e.cause.code] ++ le16 (wideSerial e.serial) ++ le16 0
      | none => [0, 0] ++ le16 0 ++ le16 0

/-- The payload of QUERY WINDOW (R41, R181). -/
def queryPayload (s : State) (a : Agent) (w : WindowId) : List Byte :=
  let win := s.windows.get w
  let c := s.ctxs.get w
  [win.state.code, BitVec.ofNat 8 win.k, BitVec.ofNat 8 (win.rule.code + 2 * bit (win.admits a)),
    BitVec.ofNat 8 (c.holders.length + 16 * c.waiters.length)] ++
  le32 (win.base.setWidth 32) ++ queryLease s a w

/-- QUERY WINDOW (R41). -/
def queryWindow (a : Agent) (window : Byte) (s : State) : State :=
  match windowOf window with
  | none => s.answer a 0x08 .badArgument []
  | some w => s.answer a 0x08 .ok (queryPayload s a w)

/-! ### READ FAULT, TAKE NOTICE, SET NOTICES -/

/-- The payload of READ FAULT (R181), with the size code given. -/
def faultPayload (f : FaultRecord) (size : BitVec 3) : List Byte :=
  [f.reason.code,
    BitVec.ofNat 8 (bit f.write + 2 * size.toNat + 16 * bit f.window.isSome + 32 * bit f.further),
    (match f.window with
     | some w => windowByte w
     | none => 0), 0] ++
  le32 (f.addr.setWidth 32)

/-- READ FAULT (R134); the size code of an illegal size is a free value (log 16). -/
def readFault (a : Agent) (s : State) : State :=
  match (s.ports.get a).fault with
  | none => s.answer a 0x09 .nothing []
  | some f =>
    let t := s.updPort a fun p => { p with fault := none }
    match sizeCode f.size with
    | some n => t.answer a 0x09 .ok (faultPayload f n)
    | none => { t.answer a 0x09 .ok (faultPayload f (Config.freeSizeCode s.free)) with free := s.free + 1 }

/-- The better of the kind chosen so far and a later one: only a higher urgency displaces an earlier kind (R159). -/
def betterKind (p : Port) (best : Option NoticeKind) (k : NoticeKind) : Option NoticeKind :=
  if !p.notices.has k then best
  else
    match best with
    | none => some k
    | some b => if (p.config.of b).urgency.toNat < (p.config.of k).urgency.toNat then some k else some b

/-- The kind TAKE NOTICE picks (R159). -/
def Port.pickKind (p : Port) : Option NoticeKind := noticeKinds.foldl (betterKind p) none

/-- The item of the picked kind with the lowest window: the sets without it, and the payload (R159, R181). -/
def Notices.takeKind (n : Notices) (k : NoticeKind) : Notices × List Byte :=
  match k with
  | .fault => ({ n with fault := false }, [noticeCode .fault])
  | .lost =>
    match lowest (lostSet n.lost) with
    | some w =>
      ({ n with lost := n.lost.set w none },
        [noticeCode .lost, windowByte w] ++
          (match n.lost.get w with
           | some r => [r.code]
           | none => []))
    | none => (n, [])
  | .closing =>
    match lowest n.closing with
    | some w => ({ n with closing := n.closing.set w false }, [noticeCode .closing, windowByte w])
    | none => (n, [])
  | .warning =>
    match lowest n.warning with
    | some w => ({ n with warning := n.warning.set w false }, [noticeCode .warning, windowByte w])
    | none => (n, [])
  | .reply =>
    match lowest n.reply with
    | some w => ({ n with reply := n.reply.set w false }, [noticeCode .reply, windowByte w])
    | none => (n, [])

/-- TAKE NOTICE (R159). -/
def takeNotice (a : Agent) (s : State) : State :=
  match (s.ports.get a).pickKind with
  | none => s.answer a 0x0A .nothing []
  | some k =>
    let r := (s.ports.get a).notices.takeKind k
    (s.updPort a fun p => { p with notices := r.1 }.drive).answer a 0x0A .ok r.2

/-- A configuration byte of SET NOTICES: bits 6:2 are zero (R180). -/
def settingOk (b : Byte) : Bool := b.extractLsb' 2 5 == 0
def settingOf (b : Byte) : NoticeSetting := ⟨b.getLsbD 7, b.extractLsb' 0 2⟩

/-- SET NOTICES (R157). -/
def setNotices (a : Agent) (fault lost closing warning reply : Byte) (s : State) : State :=
  if [fault, lost, closing, warning, reply].all settingOk then
    (s.updPort a fun p =>
      { p with
        config := ⟨settingOf fault, settingOf lost, settingOf closing, settingOf warning, settingOf reply⟩ }.drive).answer
      a 0x0B .ok [fault, lost, closing, warning, reply]
  else s.answer a 0x0B .badArgument []

end Sys2Proof.Machine
end

