-- ==== Sys2Proof/Machine/Commits.lean ====
section
/-! DEFINITION. The agent port (chapter 9): request record, commits, control-aperture cycles, and the meanings of the commands
an agent makes through them. -/

namespace Sys2Proof.Machine

/-! ### The request record and the commit -/

/-- The argument bytes from the first on are written; the others keep what they hold (R148). -/
def writeArgs (args : Tbl Byte 8) (bytes : List Byte) : Tbl Byte 8 :=
  ⟨(bytes ++ args.cells.drop bytes.length).take 8, by
    rw [List.length_take, List.length_append, List.length_drop, args.size]; omega⟩

/-- The agent writes a request code and its arguments into the record (R148); ignored while the port is down (R147). -/
def State.writeRequest (s : State) (a : Agent) (code : Byte) (bytes : List Byte) : State :=
  s.updPort a fun p =>
    if p.down then p else { p with request := ⟨code, writeArgs p.request.args bytes⟩ }

def RequestRecord.byte (r : RequestRecord) (i : Fin 8) : Byte := r.args.get i
/-- A 16-bit field of the record, least significant byte first (R179). -/
def RequestRecord.half (r : RequestRecord) (lo hi : Fin 8) : Half := ofBytes2 (r.args.get hi) (r.args.get lo)
/-- The token at the start of the arguments (R180). -/
def RequestRecord.token (r : RequestRecord) : Token := ⟨r.byte 0, r.byte 1, r.half 2 3⟩

/-- A commit taken in IDLE is dispatched on the record's code (R150, R180). -/
def dispatch (a : Agent) (r : RequestRecord) (s : State) : State :=
  if r.code = 0x01 then acquire a (r.byte 0) (r.byte 1) (r.half 2 3) (r.half 4 5) s
  else if r.code = 0x02 then release a r.token s
  else if r.code = 0x03 then downgrade a r.token s
  else if r.code = 0x04 then upgrade a r.token (r.half 4 5) s
  else if r.code = 0x05 then renew a r.token (r.half 4 5) s
  else if r.code = 0x06 then abandon a s
  else if r.code = 0x08 then queryWindow a (r.byte 0) s
  else if r.code = 0x09 then readFault a s
  else if r.code = 0x0A then takeNotice a s
  else if r.code = 0x0B then setNotices a (r.byte 0) (r.byte 1) (r.byte 2) (r.byte 3) (r.byte 4) s
  else s.answer a r.code .unknown []

def State.setRefused (s : State) (a : Agent) (b : Bool) : State := s.updPort a fun p => { p with commitRefused := b }

/-- A commit (R150, R151): dispatched in IDLE, only ABANDON in WAITING, ignored while the port is down (R44). -/
def State.commit (s : State) (a : Agent) : State :=
  let p := s.ports.get a
  if p.down then s
  else
    match p.state with
    | .inReset => s
    | .waiting => if p.request.code = 0x06 then abandon a (s.setRefused a false) else s.setRefused a true
    | .idle => dispatch a p.request (s.setRefused a false)

/-- The commit cycle: it ends normally in the step that answers the request or lets it wait (R150, R151). -/
def State.commitCycle (s : State) (a : Agent) : State :=
  if s.busShut a then s else (s.endCycle a (.write false)).commit a

/-- An agent request as its row has it: the record is written with the request, then committed (log 2). -/
def State.request (s : State) (a : Agent) (code : Byte) (bytes : List Byte) : State :=
  if s.busShut a then s else (s.writeRequest a code bytes).commitCycle a

def tokenBytes (t : Token) : List Byte := [t.window, t.zero] ++ le16 t.serial

/-! ### Control-aperture cycles (R147, R179) -/

/-- One byte of the request record is written; a byte of a read-only area or of none is ignored. -/
def Port.writeByte (p : Port) (offset : Nat) (b : Byte) : Port :=
  if offset = 0x10 then { p with request := { p.request with code := b } }
  else if h : 0x12 ≤ offset ∧ offset < 0x1A then
    { p with request := { p.request with args := p.request.args.set ⟨offset - 0x12, by omega⟩ b } }
  else p

/-- The bytes of a write, at rising offsets. -/
def Port.writeBytes : Port → Nat → List Byte → Port
  | p, _, [] => p
  | p, offset, b :: bs => Port.writeBytes (p.writeByte offset b) (offset + 1) bs

/-- An offset of the commit location FF0040h to FF0043h (R179). -/
def isCommit (offset : Half) : Bool := 0x40 ≤ offset.toNat && offset.toNat < 0x44

/-- A write the port answers normally: a commit, or bytes of the request record; ignored while the port is down (R147). -/
def State.controlWrite (s : State) (a : Agent) (offset : Half) (size : Nat) (data : List Byte) : State :=
  let s := s.endCycle a (.write false)
  if isCommit offset then s.commit a
  else
    s.updPort a fun p =>
      if p.down then p else p.writeBytes offset.toNat (data.take size)

/-- A control-aperture cycle (R147): AERR and the fill value for a burst or a misaligned access, which changes nothing;
otherwise the write is taken, or the bytes read are returned. A burst or misaligned write at a port IN_RESET ends with
AERR as well, the model's choice between R147's two sentences (log 33). -/
def State.controlCycle (s : State) (a : Agent) (offset : Half) (write : Bool) (size : Nat) (data : List Byte) : State :=
  if s.busShut a then s
  else if !goodControl offset size then s.endCycle a (aerrEnd s.mgmt.fill write size)
  else if write then s.controlWrite a offset size data
  else s.endCycle a (.bytes (controlRead s a offset.toNat size))

/-! ### Meanings -/

/-- ACQUIRE (R37). -/
def execAcquire (a : Agent) (window flags : Byte) (waitLimit term : Half) (s : State) :
    Host.Outcome State Fault Refusal :=
  .next (s.request a 0x01 ([window, flags] ++ le16 waitLimit ++ le16 term))

/-- RELEASE (R39). -/
def execRelease (a : Agent) (t : Token) (s : State) : Host.Outcome State Fault Refusal :=
  .next (s.request a 0x02 (tokenBytes t))

/-- DOWNGRADE (R40). -/
def execDowngrade (a : Agent) (t : Token) (s : State) : Host.Outcome State Fault Refusal :=
  .next (s.request a 0x03 (tokenBytes t))

/-- UPGRADE (R56). -/
def execUpgrade (a : Agent) (t : Token) (waitLimit : Half) (s : State) : Host.Outcome State Fault Refusal :=
  .next (s.request a 0x04 (tokenBytes t ++ le16 waitLimit))

/-- RENEW (R70). -/
def execRenew (a : Agent) (t : Token) (term : Half) (s : State) : Host.Outcome State Fault Refusal :=
  .next (s.request a 0x05 (tokenBytes t ++ le16 term))

/-- ABANDON (R62). -/
def execAbandon (a : Agent) (s : State) : Host.Outcome State Fault Refusal := .next (s.request a 0x06 [])

/-- QUERY_WINDOW (R41). -/
def execQueryWindow (a : Agent) (window : Byte) (s : State) : Host.Outcome State Fault Refusal :=
  .next (s.request a 0x08 [window])

/-- READ_FAULT (R134). -/
def execReadFault (a : Agent) (s : State) : Host.Outcome State Fault Refusal := .next (s.request a 0x09 [])

/-- TAKE_NOTICE (R159). -/
def execTakeNotice (a : Agent) (s : State) : Host.Outcome State Fault Refusal := .next (s.request a 0x0A [])

/-- SET_NOTICES (R157). -/
def execSetNotices (a : Agent) (fault lost closing warning reply : Byte) (s : State) :
    Host.Outcome State Fault Refusal :=
  .next (s.request a 0x0B [fault, lost, closing, warning, reply])

/-- UNKNOWN_COMMIT (R150). -/
def execUnknownCommit (a : Agent) (code : Byte) (s : State) : Host.Outcome State Fault Refusal :=
  .next (s.request a code [])

/-- COMMIT_REFUSED (R151): a commit of the record as it stands. -/
def execCommitRefused (a : Agent) (s : State) : Host.Outcome State Fault Refusal := .next (s.commitCycle a)

/-- CONTROL_APERTURE_WRITE (R147). -/
def execControlApertureWrite (a : Agent) (offset : Half) (size : Nat) (data : List Byte) (s : State) :
    Host.Outcome State Fault Refusal :=
  .next (s.controlCycle a offset true size data)

/-- BAD_CONTROL_CYCLE (R147). -/
def execBadControlCycle (a : Agent) (offset : Half) (write : Bool) (size : Nat) (data : List Byte) (s : State) :
    Host.Outcome State Fault Refusal :=
  .next (s.controlCycle a offset write size data)

end Sys2Proof.Machine
end

