-- ==== Sys2Proof/Machine/DataPath.lean ====
section
/-! DEFINITION. The commands of the data path (chapters 6 and 7): DATA_CYCLE, ADDRESS_DECODE, ADMISSION_CLAIM, TACK, TERR,
RESPONSE_LIMIT, OUTCOME_REPORT. -/

namespace Sys2Proof.Machine

/-- DATA_CYCLE (R119, R121 checks 1 and 2); a cycle whose first address lies in the control region is the port's own
(R119). -/
def execDataCycle (a : Agent) (c : BusCycle) (s : State) : Host.Outcome State Fault Refusal :=
  .next <|
    if inControlRegion c.addr then s.controlCycle a (c.addr.setWidth 16) c.write c.size c.data else s.offerCycle a c

/-- Check 3 of admission (R121): the decode. -/
def State.answerDecode (s : State) (a : Agent) (d : Admission) : State :=
  match s.decodeAddr d.cycle.addr with
  | none => s.refuse a .noWindow d.cycle none
  | some hit => s.updPath a fun p => { p with admission := some { d with phase := .target hit } }

/-- Check 4 of admission (R121): the target read. -/
def State.answerTarget (s : State) (a : Agent) (d : Admission) (hit : Hit) : State :=
  if (s.targets.get hit.target).state = .faulted then s.refuse a .targetFaulted d.cycle (some hit.window)
  else s.updPath a fun p => { p with admission := some { d with phase := .claim hit } }

/-- ADDRESS_DECODE (R16, R17, R122): the Window Directory answers the decode of the agent's cycle, or, as the question
asked after a hit, the Target Controller the target read (log 8). -/
def execAddressDecode (a : Agent) (q : Question) (s : State) : Host.Outcome State Fault Refusal :=
  .next <|
    match (s.router.paths.get a).admission with
    | none => s
    | some d =>
      match q, d.phase with
      | .decode, .decode => s.answerDecode a d
      | .target, .target hit => s.answerTarget a d hit
      | .decode, .target _ | .decode, .claim _ | .target, .decode | .target, .claim _ => s

/-- The last byte of the cycle lies at or above the window end (R121). -/
def pastEnd (c : BusCycle) (hit : Hit) : Bool := hit.endAddr < c.addr.toNat + c.size

/-- Checks 5 to 8 of admission, made by the Lease Engine (R34, R121): the hold under which the cycle is admitted, or the
reason of the refusal. -/
def claimCheck (s : State) (a : Agent) (c : BusCycle) (hit : Hit) : Except Reason Hold :=
  match (s.ctxs.get hit.window).holdOf a with
  | none => .error .noLease
  | some h =>
    if c.write ∧ hit.readOnly then .error .readOnly
    else if c.write ∧ h.mode ≠ .exclusive then .error .sharedWrite
    else if pastEnd c hit then .error .boundary
    else .ok h

/-- An admitted access (R125): counted, queued, and offered to the arbiter; where the Router has taken a fall of PRSTn
meanwhile, it is dropped (R135, log 11). -/
def State.admitAccess (s : State) (a : Agent) (d : Admission) (hit : Hit) (h : Hold) : State :=
  let x : Access :=
    { window := hit.window, target := hit.target, targetAddr := hit.targetAddr, cycle := d.cycle, serial := h.serial,
      once := h.once }
  let s := s.updCtx hit.window fun c => { c with inflight := c.inflight + 1 }
  let s := s.updPath a fun p => { p with slot := .queued x, admission := none }
  if d.drop then s.dropQueued a x else State.arbitrate 4 s

/-- The Lease Engine takes the admission claim (R34). -/
def State.takeClaim (s : State) (a : Agent) (d : Admission) (hit : Hit) : State :=
  match claimCheck s a d.cycle hit with
  | .error r => s.refuse a r d.cycle (some hit.window)
  | .ok h => s.admitAccess a d hit h

/-- ADMISSION_CLAIM (R34, R121 checks 5 to 8); a target read not yet taken is taken first (log 8). -/
def execAdmissionClaim (a : Agent) (s : State) : Host.Outcome State Fault Refusal :=
  .next <|
    match (s.router.paths.get a).admission with
    | none => s
    | some d =>
      match d.phase with
      | .decode => s
      | .target hit =>
        if (s.targets.get hit.target).state = .faulted then s.refuse a .targetFaulted d.cycle (some hit.window)
        else s.takeClaim a d hit
      | .claim hit => s.takeClaim a d hit

/-- TACK (R129); ignored once the transfer it answered has ended. -/
def execTack (answer : Acknowledge) (s : State) : Host.Outcome State Fault Refusal :=
  .next (if s.inTime answer.transfer then s.endTransfer .success answer.beats false else s)

/-- TERR (R129); ignored once the transfer it answered has ended. -/
def execTerr (answer : TargetError) (s : State) : Host.Outcome State Fault Refusal :=
  .next (if s.inTime answer.transfer then s.endTransfer .targetError (Tbl.fill 8 0) answer.reportFirst else s)

/-- RESPONSE_LIMIT (R129): acts only when the running transfer's interval has run out (R66). -/
def execResponseLimit (reportFirst : Bool) (s : State) : Host.Outcome State Fault Refusal :=
  .next (if s.router.limit = some 0 then s.endTransfer .targetTimeout (Tbl.fill 8 0) reportFirst else s)

/-- OUTCOME_REPORT (R113): the oldest report is taken. -/
def execOutcomeReport (s : State) : Host.Outcome State Fault Refusal :=
  .next <|
    match s.outcomes with
    | [] => s
    | (t, o) :: rest => { s with outcomes := rest }.takeOutcome t o

end Sys2Proof.Machine
end

