-- ==== Sys2Proof/Machine/Resets.lean ====
section
/-! DEFINITION. Resets (chapters 2, 7, 9 and 10): ACCESS_DROP, PORT_RESET, PRSTN_RISE, DEVICE_RESET. -/

namespace Sys2Proof.Machine

/-- The Lease Engine's port-reset step on one window (R44). -/
def State.releaseLeases (s : State) (a : Agent) (w : WindowId) : State :=
  match (s.ctxs.get w).holdOf a with
  | some h => (s.endHold w h .released none).settleWindow w
  | none =>
    match (s.ctxs.get w).waitOf a with
    | some _ => (s.dropWait w a).settleWindow w
    | none => s

/-- The Lease Engine's port-reset step (R44). -/
def State.leasePortReset (s : State) (a : Agent) : State := allWindows.foldl (fun s w => s.releaseLeases a w) s

/-- The records of a port that takes the fall of PRSTn (R160); what was handed to it before is discarded when it
arrives (log 5). -/
def Port.takeFall (p : Port) : Port :=
  { Port.reset false with
    prstn := p.prstn
    ended := p.ended
    responses := p.responses.map fun r => { r with stale := true }
    handed := p.handed.map fun n => { n with stale := true } }

/-- The port takes the fall of PRSTn (R160), and the Lease Engine's step is joined to it. An outstanding data cycle is
abandoned, and one that the handshake still holds, which the Router has not taken, is withdrawn: the model's choice
(log 12). -/
def State.portFall (s : State) (a : Agent) : State :=
  ((s.updPort a Port.takeFall).updPath a fun p =>
    { p with held := none, abandoned := p.admission.isSome || p.slot != .empty }).leasePortReset a

/-- A level of PRSTn while RESETn is low: all blocks are reset together, so the port has only to show the level (R163). -/
def State.setPrstn (s : State) (a : Agent) (prstn : Bool) : State := s.updPort a fun _ => Port.reset prstn

/-- PORT_RESET (R160): a new fall of PRSTn, or the fall that the Router took first (log 10). -/
def execPortReset (a : Agent) (s : State) : Host.Outcome State Fault Refusal :=
  .next <|
    let p := s.ports.get a
    if !s.resetn then s.setPrstn a false
    else if p.prstn then
      ((s.updPort a fun p => { p with prstn := false }).updPath a fun q =>
        { q with dropOwed := true, dropStale := false }).portFall a
    else if p.fallOwed then s.portFall a
    else s

/-- ACCESS_DROP (R135): the Router's step for the fall the port took first, or for a new fall of PRSTn (log 10). -/
def execAccessDrop (a : Agent) (s : State) : Host.Outcome State Fault Refusal :=
  .next <|
    let q := s.router.paths.get a
    if !s.resetn then s.setPrstn a false
    else if q.dropOwed then
      let t := s.updPath a fun q => { q with dropOwed := false, dropStale := false }
      if q.dropStale then t else t.routerFall a
    else if (s.ports.get a).prstn then
      (s.updPort a fun p => { p with prstn := false, fallOwed := true }).routerFall a
    else s

/-- PRSTN_RISE (R162): the port takes a fall it still owes first (R152). -/
def execPrstnRise (a : Agent) (s : State) : Host.Outcome State Fault Refusal :=
  .next <|
    let p := s.ports.get a
    if !s.resetn then s.setPrstn a true
    else if p.prstn then s
    else
      (if p.fallOwed then s.portFall a else s).updPort a fun p => { p with state := .idle, prstn := true }

/-- The part at its reset values, with RESETn at the given level and the other input pins at theirs (log 19). -/
def State.deviceReset (s : State) (resetn : Bool) : State :=
  State.resetWith
    { resetn := resetn, msel := s.mgmt.msel, prstn := s.ports.map fun p => p.prstn, breq := s.router.breq }
    s.transfers s.free s.pending

/-- DEVICE_RESET (R178): RESETn falls and puts every block at its reset values, where it holds them until its next edge,
and each block starts from them when it rises (log 19). -/
def execDeviceReset (s : State) : Host.Outcome State Fault Refusal := .next (s.deviceReset !s.resetn)

end Sys2Proof.Machine
end

