-- ==== Sys2Proof/Machine/Time.lean ====
section
/-! DEFINITION. The Time Base and the expiry events (chapters 4 to 6): TICK, MICROSECOND_STEP, EXPIRY, WARNING_TIME,
WAIT_DEADLINE, CLOSE_DEADLINE, WAKE_TIME_EXPIRY, PARK_TIME_EXPIRY, PARK_DELAY_EXPIRY. -/

namespace Sys2Proof.Machine

/-! ### Deadlines becoming due (R67) -/

def Hold.reach (now : Tick) (h : Hold) : Hold :=
  { h with
    expiry := h.expiry.reach now
    warning := h.warning.map (Deadline.reach now)
    deadline := h.deadline.map (Deadline.reach now) }

def Wait.reach (now : Tick) (x : Wait) : Wait := { x with deadline := x.deadline.map (Deadline.reach now) }

def LeaseCtx.reach (now : Tick) (c : LeaseCtx) : LeaseCtx :=
  { c with holders := c.holders.map (Hold.reach now), waiters := c.waiters.map (Wait.reach now) }

def Window.reach (now : Tick) (win : Window) : Window :=
  { win with pending := win.pending.map fun p => { p with deadline := p.deadline.map (Deadline.reach now) } }

def Target.reach (now : Tick) (t : Target) : Target :=
  { t with parkDeadline := t.parkDeadline.map (Deadline.reach now) }

/-- The tick count advances by 1 and every deadline with the new value becomes due (R65, R67). -/
def State.advance (s : State) : State :=
  let now := s.tb.tick + 1
  { s with
    tb := { s.tb with tick := now, position := 0, steps := 0 }
    windows := s.windows.map (Window.reach now)
    ctxs := s.ctxs.map (LeaseCtx.reach now)
    targets := s.targets.map (Target.reach now) }

/-- TICK (R65): due once the 1000 microsecond steps of the tick have been given, the last of which falls at the tick
itself; none while the divisor is unset (R64, log 14). -/
def execTick (s : State) : Host.Outcome State Fault Refusal :=
  .next (if s.tb.divisor.isSome ∧ 1000 ≤ s.tb.steps then s.advance else s)

/-! ### Microsecond steps (R65, R66) -/

/-- Where in the tick the `k`-th microsecond step falls, in REFCLK periods: exact when the divisor is a multiple of 1000
and for the last step, otherwise a value within one period of the exact moment and not before `from_` (R65, log 15). -/
def stepMoment (divisor k from_ draw : Nat) : Nat :=
  if divisor % 1000 = 0 ∨ k = 1000 then k * divisor / 1000
  else
    let low := max from_ ((k * divisor - 1) / 1000)
    let high := (k * divisor + 1000) / 1000
    low + Config.freeMoment draw % (high + 1 - low)

def Target.countDown (t : Target) : Target :=
  { t with interval := t.interval.map fun i => { i with remaining := i.remaining - 1 } }

/-- One microsecond step: the running intervals of the Target Controller and of the Data Router count down (R65, R66). -/
def State.countStep (s : State) (divisor : Half) : State :=
  { s with
    tb :=
      { s.tb with
        steps := s.tb.steps + 1
        position := stepMoment divisor.toNat (s.tb.steps + 1) s.tb.position s.free }
    targets := s.targets.map Target.countDown
    router := { s.router with limit := s.router.limit.map fun n => n - 1 }
    free := s.free + 1 }

/-- MICROSECOND_STEP (R65): none while the divisor is unset, and exactly 1000 within a tick (log 14). -/
def execMicrosecondStep (s : State) : Host.Outcome State Fault Refusal :=
  .next <|
    match s.tb.divisor with
    | none => s
    | some d => if s.tb.steps < 1000 then s.countStep d else s

/-! ### Expiry events of the Lease Engine -/

/-- EXPIRY (R75): the hold's expiry time is due. -/
def execExpiry (w : WindowId) (a : Agent) (s : State) : Host.Outcome State Fault Refusal :=
  .next <|
    match (s.ctxs.get w).holdOf a with
    | none => s
    | some h => if h.expiry.due then (s.endHold w h .expired (some .expired)).settleWindow w else s

/-- WARNING_TIME (R73): the hold's warning time is due and its warned flag clear. -/
def execWarningTime (w : WindowId) (a : Agent) (s : State) : Host.Outcome State Fault Refusal :=
  .next <|
    match (s.ctxs.get w).holdOf a with
    | none => s
    | some h =>
      if isDue h.warning ∧ !h.warned then
        (s.updCtx w fun c => c.mapHold a fun h => { h with warned := true }).handNotice a (.warning w)
      else s

/-- WAIT_DEADLINE (R53): the deadline of an ACQUIRE wait or of a pending upgrade is due. -/
def execWaitDeadline (w : WindowId) (a : Agent) (s : State) : Host.Outcome State Fault Refusal :=
  .next <|
    match (s.ctxs.get w).waitOf a with
    | some x => if isDue x.deadline then (s.endWait w a .timedOut).settleWindow w else s
    | none =>
      match (s.ctxs.get w).holdOf a with
      | none => s
      | some h => if h.upgrading ∧ isDue h.deadline then (s.endUpgrade w h .timedOut).settleWindow w else s

/-! ### Expiry events of the Window Directory and the Target Controller -/

/-- CLOSE_DEADLINE (R94): the window is CLOSING with a GENTLE pending close whose deadline time is due. -/
def execCloseDeadline (w : WindowId) (s : State) : Host.Outcome State Fault Refusal :=
  .next <|
    let win := s.windows.get w
    if win.state = .closing ∧ (win.pending.any fun p => !p.force && isDue p.deadline) then s.forceClose w else s

/-- The target's interval of the given kind has run out (R66). -/
def Target.ranOut (t : Target) (k : IntervalKind) : Bool := t.interval == some ⟨k, 0⟩

/-- WAKE_TIME_EXPIRY (R106). -/
def execWakeTimeExpiry (t : TargetId) (s : State) : Host.Outcome State Fault Refusal :=
  .next <|
    if (s.targets.get t).state = .waking ∧ (s.targets.get t).ranOut .wake then s.targetReady t else s

/-- The end of a park interval (R108). -/
def Target.parkEnded (t : Target) : Target :=
  if t.wakePending then t.startWake else { t.enter .parked with interval := none }

/-- PARK_TIME_EXPIRY (R108). -/
def execParkTimeExpiry (t : TargetId) (s : State) : Host.Outcome State Fault Refusal :=
  .next <|
    if (s.targets.get t).state = .parking ∧ (s.targets.get t).ranOut .park then s.updTarget t Target.parkEnded else s

/-- PARK_DELAY_EXPIRY (R111). -/
def execParkDelayExpiry (t : TargetId) (s : State) : Host.Outcome State Fault Refusal :=
  .next <|
    if (s.targets.get t).state = .ready ∧ isDue (s.targets.get t).parkDeadline then s.updTarget t Target.startPark
    else s

end Sys2Proof.Machine
end

