-- ==== Sys2Proof/Machine/Handoffs.lean ====
section
/-! DEFINITION. Hand-offs between blocks, each taken as an event of its own (log 3): EMPTY_CONTEXT_REPORT, RESPONSE_HANDOFF,
NOTICE_HANDOFF, ATTENTION_HANDOFF. -/

namespace Sys2Proof.Machine

/-- EMPTY_CONTEXT_REPORT (R96, R97): the Window Directory takes a report of the window, and completes the close when the
window and its context stand so at that moment. -/
def execEmptyContextReport (w : WindowId) (s : State) : Host.Outcome State Fault Refusal :=
  .next <|
    if w ∈ s.emptyReports then { s with emptyReports := s.emptyReports.erase w }.closeIfEmpty w else s

/-- RESPONSE_HANDOFF (R51, R153): the port takes the oldest response handed to it. -/
def execResponseHandoff (a : Agent) (s : State) : Host.Outcome State Fault Refusal :=
  .next <|
    match (s.ports.get a).responses with
    | [] => s
    | r :: rest => s.updPort a fun p => { p with responses := rest }.takeResponse r

/-- NOTICE_HANDOFF (R156): the port takes the oldest item of the kind handed to it. -/
def execNoticeHandoff (a : Agent) (k : NoticeKind) (s : State) : Host.Outcome State Fault Refusal :=
  .next <|
    match (s.ports.get a).handed.find? fun n => n.item.kind == k with
    | none => s
    | some n =>
      s.updPort a fun p => { p with handed := p.handed.eraseP fun n => n.item.kind == k }.takeNotice n

def AttnItem.kind (i : AttnItem) : AttnKind :=
  match i with
  | .targetFault _ => .targetFault
  | .closeDone _ => .closeDone
  | .openDone _ => .openDone
  | .poolRefusal _ => .poolRefusal

/-- The MP takes an attention item: its index joins the set, and ATTN follows (R175, R176). -/
def Mgmt.takeItem (m : Mgmt) (i : AttnItem) : Mgmt := { m with attention := m.attention.join i }.drive

/-- ATTENTION_HANDOFF (R175): the MP takes the oldest item of the kind handed to it. -/
def execAttentionHandoff (k : AttnKind) (s : State) : Host.Outcome State Fault Refusal :=
  .next <|
    match s.mgmt.handed.find? fun i => i.kind == k with
    | none => s
    | some i => s.updMgmt fun m => { m with handed := m.handed.eraseP fun i => i.kind == k }.takeItem i

end Sys2Proof.Machine
end

