-- ==== Sys2Proof/Machine/Dispatch.lean ====
section
/-! DEFINITION. One arm per command: the meaning each row has. -/

namespace Sys2Proof.Machine

def exec (i : Instr) (s : State) : Host.Outcome State Fault Refusal :=
  match i with
  | .configureDevice refclk fill flags => Sys2Proof.Machine.execConfigureDevice refclk fill flags s
  | .start => Sys2Proof.Machine.execStart s
  | .stop => Sys2Proof.Machine.execStop s
  | .readDevice => Sys2Proof.Machine.execReadDevice s
  | .takeAttention => Sys2Proof.Machine.execTakeAttention s
  | .configureTarget target wake park delay limit => Sys2Proof.Machine.execConfigureTarget target wake park delay limit s
  | .removeTarget target => Sys2Proof.Machine.execRemoveTarget target s
  | .wakeTarget target => Sys2Proof.Machine.execWakeTarget target s
  | .parkTarget target => Sys2Proof.Machine.execParkTarget target s
  | .recoverTarget target => Sys2Proof.Machine.execRecoverTarget target s
  | .readTarget target => Sys2Proof.Machine.execReadTarget target s
  | .defineWindow window base k target attrs offset term margin deadline => Sys2Proof.Machine.execDefineWindow window base k target attrs offset term margin deadline s
  | .amendWindow window select attrs term margin deadline => Sys2Proof.Machine.execAmendWindow window select attrs term margin deadline s
  | .openWindow window => Sys2Proof.Machine.execOpenWindow window s
  | .closeWindow window flags => Sys2Proof.Machine.execCloseWindow window flags s
  | .retireWindow window => Sys2Proof.Machine.execRetireWindow window s
  | .readWindow window => Sys2Proof.Machine.execReadWindow window s
  | .readLeases window => Sys2Proof.Machine.execReadLeases window s
  | .revokeLease window agent => Sys2Proof.Machine.execRevokeLease window agent s
  | .setQuota agent quota => Sys2Proof.Machine.execSetQuota agent quota s
  | .readPool => Sys2Proof.Machine.execReadPool s
  | .unknownRequest code payload => Sys2Proof.Machine.execUnknownRequest code payload s
  | .badFrame bytes => Sys2Proof.Machine.execBadFrame bytes s
  | .ignoredFrame bytes => Sys2Proof.Machine.execIgnoredFrame bytes s
  | .fetch clocked => Sys2Proof.Machine.execFetch clocked s
  | .acquire agent window flags waitLimit term => Sys2Proof.Machine.execAcquire agent window flags waitLimit term s
  | .release agent token => Sys2Proof.Machine.execRelease agent token s
  | .downgrade agent token => Sys2Proof.Machine.execDowngrade agent token s
  | .upgrade agent token waitLimit => Sys2Proof.Machine.execUpgrade agent token waitLimit s
  | .renew agent token term => Sys2Proof.Machine.execRenew agent token term s
  | .abandon agent => Sys2Proof.Machine.execAbandon agent s
  | .queryWindow agent window => Sys2Proof.Machine.execQueryWindow agent window s
  | .readFault agent => Sys2Proof.Machine.execReadFault agent s
  | .takeNotice agent => Sys2Proof.Machine.execTakeNotice agent s
  | .setNotices agent fault lost closing warning reply => Sys2Proof.Machine.execSetNotices agent fault lost closing warning reply s
  | .unknownCommit agent code => Sys2Proof.Machine.execUnknownCommit agent code s
  | .commitRefused agent => Sys2Proof.Machine.execCommitRefused agent s
  | .controlApertureWrite agent offset size data => Sys2Proof.Machine.execControlApertureWrite agent offset size data s
  | .badControlCycle agent offset write size data => Sys2Proof.Machine.execBadControlCycle agent offset write size data s
  | .dataCycle agent cycle => Sys2Proof.Machine.execDataCycle agent cycle s
  | .addressDecode agent question => Sys2Proof.Machine.execAddressDecode agent question s
  | .admissionClaim agent => Sys2Proof.Machine.execAdmissionClaim agent s
  | .tack answer => Sys2Proof.Machine.execTack answer s
  | .terr answer => Sys2Proof.Machine.execTerr answer s
  | .responseLimit reportFirst => Sys2Proof.Machine.execResponseLimit reportFirst s
  | .outcomeReport => Sys2Proof.Machine.execOutcomeReport s
  | .accessDrop agent => Sys2Proof.Machine.execAccessDrop agent s
  | .portReset agent => Sys2Proof.Machine.execPortReset agent s
  | .prstnRise agent => Sys2Proof.Machine.execPrstnRise agent s
  | .deviceReset => Sys2Proof.Machine.execDeviceReset s
  | .busRequest => Sys2Proof.Machine.execBusRequest s
  | .withdrawal => Sys2Proof.Machine.execWithdrawal s
  | .tick => Sys2Proof.Machine.execTick s
  | .expiry window agent => Sys2Proof.Machine.execExpiry window agent s
  | .warningTime window agent => Sys2Proof.Machine.execWarningTime window agent s
  | .waitDeadline window agent => Sys2Proof.Machine.execWaitDeadline window agent s
  | .closeDeadline window => Sys2Proof.Machine.execCloseDeadline window s
  | .wakeTimeExpiry target => Sys2Proof.Machine.execWakeTimeExpiry target s
  | .parkTimeExpiry target => Sys2Proof.Machine.execParkTimeExpiry target s
  | .parkDelayExpiry target => Sys2Proof.Machine.execParkDelayExpiry target s
  | .emptyContextReport window => Sys2Proof.Machine.execEmptyContextReport window s
  | .responseHandoff agent => Sys2Proof.Machine.execResponseHandoff agent s
  | .noticeHandoff agent kind => Sys2Proof.Machine.execNoticeHandoff agent kind s
  | .attentionHandoff kind => Sys2Proof.Machine.execAttentionHandoff kind s
  | .microsecondStep => Sys2Proof.Machine.execMicrosecondStep s

end Sys2Proof.Machine
end

