-- ==== Sys2Proof/Safety.lean ====
section
/-! DEFINITION. The words the statements are written in: what a request leaves in the records, the steps of chapters 2 and 6
as plain records, and the laws of the part. -/

namespace Sys2Proof.Safety

open Sys2Proof.Machine

/-! ### The management port -/

/-- The MP takes a frame: RESETn is high, and MSEL has been high since it rose (R164, R178). -/
def takesFrames (s : State) : Prop := s.resetn = true ∧ s.mgmt.msel = true

/-- A command is a frame of the management port (R164, R165, R168). -/
def isFrame (i : Instr) : Bool :=
  (requestBytes i).isSome ||
    match i with
    | .unknownRequest _ _ | .badFrame _ | .ignoredFrame _ | .fetch _ => true
    | _ => false

/-- The agent whose bus cycle a command is. -/
def cycleAgent (i : Instr) : Option Agent :=
  match i with
  | .acquire a _ _ _ _ | .release a _ | .downgrade a _ | .upgrade a _ _ | .renew a _ _ | .abandon a | .queryWindow a _
  | .readFault a | .takeNotice a | .setNotices a _ _ _ _ _ | .unknownCommit a _ | .commitRefused a
  | .controlApertureWrite a _ _ _ | .badControlCycle a _ _ _ _ | .dataCycle a _ => some a
  | _ => none

/-- A result is posted (R167) at the end of a frame of `bits` bits, on each of which 0 was shifted out (R164). -/
def posted (s : State) (code : Byte) (status : Status) (payload : List Byte) (bits : Nat) : State :=
  { s with
    mgmt :=
      { s.mgmt with
        result :=
          { status := status, code := code, seq := s.mgmt.result.seq + 1, overwritten := !s.mgmt.result.fetched,
            payload := payload, fetched := false }
        mso := List.replicate bits false } }

/-- The result of a REQUEST frame with `n` payload bytes is posted. -/
def afterResult (s : State) (code : Byte) (n : Nat) (status : Status) (payload : List Byte) : State :=
  posted s code status payload (8 * (4 + n))

/-- A frame that posts no result. -/
def unposted (s : State) (bits : Nat) : State := { s with mgmt := { s.mgmt with mso := List.replicate bits false } }

/-- The attention sets become those given, and ATTN takes its level (R176). -/
def withAttention (s : State) (a : Attention) : State :=
  { s with mgmt := { s.mgmt with attention := a, attn := attnLevel s.mgmt.mask a } }

/-- A target record is replaced. -/
def withTarget (s : State) (t : TargetId) (x : Target) : State := { s with targets := s.targets.set t x }

/-- A window record is replaced. -/
def withWindow (s : State) (w : WindowId) (x : Window) : State := { s with windows := s.windows.set w x }

/-- A lease context is replaced. -/
def withCtx (s : State) (w : WindowId) (c : LeaseCtx) : State := { s with ctxs := s.ctxs.set w c }

/-- A port is replaced. -/
def withPort (s : State) (a : Agent) (p : Port) : State := { s with ports := s.ports.set a p }

/-- What the Router keeps for one port is replaced. -/
def withPath (s : State) (a : Agent) (p : Path) : State :=
  { s with router := { s.router with paths := s.router.paths.set a p } }

/-! ### Commits -/

/-- The port is IDLE with PRSTn high and its bus is free, so the agent can commit a request (R44, R119, R150). -/
def canCommit (s : State) (a : Agent) : Prop :=
  (s.ports.get a).state = .idle ∧ (s.ports.get a).prstn = true ∧ s.busShut a = false

/-- The agent has written the code and argument bytes of a request, and its commit is taken: the commit-refused flag is
clear and the commit cycle ends normally (R148, R150). -/
def asked (s : State) (a : Agent) (code : Byte) (args : List Byte) : State :=
  withPort s a
    { s.ports.get a with
      request := ⟨code, writeArgs (s.ports.get a).request.args args⟩
      commitRefused := false
      ended := some (.write false) }

/-- A response is posted that ends no wait (R153). -/
def afterResponse (s : State) (a : Agent) (code : Byte) (status : Status) (payload : List Byte) : State :=
  withPort s a
    { s.ports.get a with
      response :=
        { code := code, status := status, seq := (s.ports.get a).response.seq + 1, payload := payload } }

/-- A request is committed and answered at once, and nothing else happens. -/
def afterAnswer (s : State) (a : Agent) (code : Byte) (args : List Byte) (status : Status) (payload : List Byte) :
    State :=
  afterResponse (asked s a code args) a code status payload

/-- The port posts a response that ends a wait: REPLY is raised and it goes IDLE (R153). -/
def endingPosted (p : Port) (r : HandedResponse) : Port :=
  let replied : Notices := { p.notices with reply := p.notices.reply.set r.window true }
  { p with
    state := .idle, notices := replied, airqn := airqLevel p.config replied
    response := { code := r.code, status := r.status, seq := p.response.seq + 1, payload := r.payload } }

/-- A request is committed and the port goes WAITING (R149). -/
def nowWaiting (s : State) (a : Agent) : State := withPort s a { s.ports.get a with state := .waiting }

/-- The argument bytes of an ACQUIRE (R180). -/
def acquireArgs (window flags : Byte) (waitLimit term : Half) : List Byte := [window, flags] ++ le16 waitLimit ++ le16 term

/-! ### Leases -/

/-- Steps 1 to 3 of R36: the hold leaves the holders, its entry is freed, the drain flag is set for an EXCLUSIVE hold with
accesses in flight, the last-ending record is written. -/
def holdEnded (s : State) (w : WindowId) (h : Hold) (cause : Cause) : State :=
  let c := s.ctxs.get w
  { withCtx s w
      { c with
        holders := c.holders.eraseP fun g => g.agent == h.agent
        drain := c.drain || (h.mode == .exclusive && c.inflight != 0)
        endings := c.endings.set h.agent (some ⟨h.serial, cause⟩) } with
    inUse := s.inUse.set h.agent (s.inUse.get h.agent - 1) }

/-- A hold ends by a cause its agent did not choose: LOST is handed to its port, and a pending upgrade is answered LOST
(R36, R60, R80). -/
def holdLost (s : State) (w : WindowId) (h : Hold) (cause : Cause) (reason : LostReason) : State :=
  let s := (holdEnded s w h cause).handNotice h.agent (.lost w reason)
  if h.upgrading then s.handResponse h.agent 0x04 .lost w [windowByte w] else s

/-- A WAIT entry leaves its queue and is freed (R48). -/
def waitRemoved (s : State) (w : WindowId) (a : Agent) : State :=
  let c := s.ctxs.get w
  { withCtx s w { c with waiters := c.waiters.eraseP fun x => x.agent == a } with
    inUse := s.inUse.set a (s.inUse.get a - 1) }

/-- The hold of the agent is changed where it stands (R22). -/
def holdChanged (s : State) (w : WindowId) (a : Agent) (f : Hold → Hold) : State :=
  let c := s.ctxs.get w
  withCtx s w { c with holders := c.holders.map fun h => if h.agent = a then f h else h }

/-- A pending upgrade is taken back; the hold stays (R53). -/
def upgradeCleared (s : State) (w : WindowId) (a : Agent) : State :=
  holdChanged s w a fun h => { h with upgrading := false, deadline := none }

/-- The expiry time, warning time and warned flag that a term gives a hold (R69). -/
def timed (h : Hold) (now : Tick) (term : Half) (margin : Byte) : Hold :=
  { h with
    expiry := ⟨now + BitVec.ofNat 32 term.toNat, false⟩
    warning :=
      if margin = 0 ∨ term.toNat ≤ margin.toNat then none
      else some ⟨now + BitVec.ofNat 32 (term.toNat - margin.toNat), false⟩
    warned := false }

/-- The term of a grant or a renewal (R69): the window's, or the asked one where it is shorter. -/
def selectedTerm (win : Window) (asked : Option Half) : Half :=
  match asked with
  | none => win.term
  | some t => if t.toNat < win.term.toNat then t else win.term

/-- The serial that follows (R18). -/
def serialAfter (n : Serial) : Serial := if n = 2047 then 1 else n + 1

/-- The hold that a grant makes on the window (R33). -/
def grantedHold (s : State) (w : WindowId) (a : Agent) (m : Mode) (once : Bool) (askedTerm : Option Half) : Hold :=
  timed
    { agent := a, mode := m, once := once, serial := (s.ctxs.get w).serial, expiry := ⟨0, false⟩, warning := none,
      warned := false, upgrading := false, deadline := none }
    s.tb.tick (selectedTerm (s.windows.get w) askedTerm) (s.windows.get w).margin

/-- The context after a grant: the hold at the end of the holders, the serial advanced, the agent's last-ending record
gone (R33). -/
def grantedCtx (c : LeaseCtx) (h : Hold) : LeaseCtx :=
  { c with holders := c.holders ++ [h], serial := serialAfter c.serial, endings := c.endings.set h.agent none }

/-- The hold after the grant of its upgrade (R59). -/
def upgradedHold (s : State) (w : WindowId) (h : Hold) : Hold :=
  { timed h s.tb.tick (s.windows.get w).term (s.windows.get w).margin with
    mode := .exclusive, serial := (s.ctxs.get w).serial, upgrading := false, deadline := none }

/-- The grant of an upgrade (R59). -/
def upgradeGranted (s : State) (w : WindowId) (h : Hold) : State :=
  let c := s.ctxs.get w
  withCtx s w
    { c with
      holders := c.holders.map fun g => if g.agent = h.agent then upgradedHold s w g else g
      serial := serialAfter c.serial }

/-- The payload of a GRANTED response (R181). -/
def tokenPayload (w : WindowId) (h : Hold) (term : Half) : List Byte :=
  [BitVec.ofNat 8 w.val, BitVec.ofNat 8 (h.mode.code + 2 * bit h.once)] ++ le16 (h.serial.setWidth 16) ++ le16 term

/-- The token that names a hold (R29). -/
def names (t : Token) (w : WindowId) (h : Hold) : Prop :=
  t.window = BitVec.ofNat 8 w.val ∧ t.zero = 0 ∧ t.serial = h.serial.setWidth 16

/-- The token matches no hold of the agent (R29). -/
def stale (s : State) (a : Agent) (t : Token) : Prop :=
  ∀ w h, (s.ctxs.get w).holdOf a = some h → ¬names t w h

/-! ### Closing -/

/-- A window leaves the group OPENING, OPEN and CLOSING: the use count falls, and the park delay starts on an unused READY
target (R109). -/
def left (t : Target) (now : Tick) : Target :=
  { t with
    useCount := t.useCount - 1
    parkDeadline :=
      if t.state = .ready ∧ t.useCount - 1 = 0 ∧ t.parkDelay ≠ 0 then
        some ⟨now + BitVec.ofNat 32 t.parkDelay.toNat, false⟩
      else t.parkDeadline }

/-- Every wait on the window ends CLOSED (R87, R88, R89). -/
def waitsClosed (s : State) (w : WindowId) : State :=
  (s.ctxs.get w).waiters.foldl
    (fun u x => (waitRemoved u w x.agent).handResponse x.agent 0x01 .closed w [windowByte w]) s

/-- Every hold on the window ends CLOSED (R89, R94). -/
def holdsClosed (s : State) (w : WindowId) : State :=
  (s.ctxs.get w).holders.foldl (fun u h => holdLost u w h .closed .closed) s

/-- A pending upgrade ends CLOSED with its hold and token kept (R88, R60). -/
def upgradeClosed (s : State) (w : WindowId) : State :=
  match (s.ctxs.get w).holders.find? fun h => h.upgrading with
  | none => s
  | some h =>
    (upgradeCleared s w h.agent).handResponse h.agent 0x04 .closed w
      ([windowByte w, 0] ++ le16 (h.serial.setWidth 16))

/-- A CLOSING item is handed to the port of each holder (R88). -/
def closingHanded (s : State) (w : WindowId) : State :=
  (s.ctxs.get w).holders.foldl (fun u h => u.handNotice h.agent (.closing w)) s

/-- The completion of a close (R96): STAGED, or VACANT with the fields of R1; the target's use count; CLOSE_DONE. -/
def closeCompleted (s : State) (w : WindowId) : State :=
  let win := s.windows.get w
  let u :=
    withTarget
      (withWindow s w
        (if win.pending.any fun p => p.retire then Window.empty else { win with state := .staged, pending := none }))
      win.target (left (s.targets.get win.target) s.tb.tick)
  { u with mgmt := { u.mgmt with handed := u.mgmt.handed ++ [.closeDone w] } }

/-- The window's pending close is FORCE without a deadline time, and its retire flag set where one is asked (R90, R94). -/
def nowForced (s : State) (w : WindowId) (retire : Bool) : State :=
  let win := s.windows.get w
  withWindow s w { win with pending := win.pending.map fun p => ⟨true, p.retire || retire, none⟩ }

/-- The waits on a window: its WAIT entries and its one pending upgrade (00_scope.md, Terms; R58). -/
def waitCount (c : LeaseCtx) : Nat := c.waiters.length + if c.holders.any fun h => h.upgrading then 1 else 0

/-- The state code after a close step: the window completed its close, or stays CLOSING (R91, section 11.6). -/
def closedCode (completed retire : Bool) : Byte := if completed then (if retire then 0 else 1) else 4

/-! ### The data path -/

/-- The port ends a refused or failed cycle: AERR and the fill value, fault entry, FAULT notice, AIRQn (R123, R124, R133). -/
def cycleFailed (s : State) (a : Agent) (r : Reason) (c : BusCycle) (w : Option WindowId) : State :=
  let p := s.ports.get a
  withPort s a
    { p with
      fault :=
        match p.fault with
        | none => some { reason := r, addr := c.addr, write := c.write, size := c.size, window := w, further := false }
        | some f => some { f with further := true }
      notices := { p.notices with fault := true }
      airqn := airqLevel p.config { p.notices with fault := true }
      ended :=
        some
          (if c.write then .write true
           else .beats true (List.replicate (max 1 ((c.size + 3) / 4)) s.mgmt.fill)) }

/-- The sizes and alignments of R119. -/
abbrev aligned (c : BusCycle) : Prop :=
  (c.size = 1 ∨ c.size = 2 ∧ c.addr.toNat % 2 = 0 ∨ c.size = 4 ∧ c.addr.toNat % 4 = 0) ∨
  (c.size = 8 ∨ c.size = 16 ∨ c.size = 32) ∧ c.addr.toNat % 4 = 0

/-- The port takes no commit and no data cycle: it is IN_RESET, or its PRSTn is low (R44, R161). -/
abbrev portDown (p : Port) : Prop := p.state = .inReset ∨ p.prstn = false

/-- The admission of the port's cycle is over at the Router. -/
def admissionOver (s : State) (a : Agent) : State :=
  withPath s a { s.router.paths.get a with admission := none, abandoned := false }

/-- A refusal at admission: nothing but the port and the Router's record of the admission changes (R123). -/
def cycleRefused (s : State) (a : Agent) (r : Reason) (c : BusCycle) (w : Option WindowId) : State :=
  cycleFailed (admissionOver s a) a r c w

/-- The Router takes a data cycle: checks 1 and 2, then the decode is asked for (R119, R121). A fall of PRSTn that it still
owes does not concern the cycle (R136, log 10). -/
def cycleTaken (s : State) (a : Agent) (c : BusCycle) : State :=
  if s.mgmt.running = false then cycleRefused s a .notRunning c none
  else if ¬aligned c then cycleRefused s a .badAlign c none
  else
    withPath s a
      { s.router.paths.get a with
        admission := some ⟨c, .decode, false⟩, abandoned := false, dropStale := (s.router.paths.get a).dropOwed }

/-- A cycle that the bus handshake holds is taken once nothing of the port's is in the Router's hands (R119, R136, log 7). -/
def heldTaken (s : State) (a : Agent) : State :=
  let path := s.router.paths.get a
  match path.held with
  | none => s
  | some c =>
    if path.slot = .empty ∧ path.admission = none ∧ ¬portDown (s.ports.get a) then
      cycleTaken (withPath s a { path with held := none }) a c
    else s

/-- The port's cycle in the Router's hands is gone: the port is IN_RESET, or a reset has abandoned the cycle (R123, R136,
R160, log 12). -/
abbrev cycleLost (s : State) (a : Agent) : Prop :=
  (s.ports.get a).state = .inReset ∨ (s.router.paths.get a).abandoned = true

/-- The end of a refused admission: the port takes the refusal, or discards one for a cycle that is gone, and a held cycle
is taken (R123). -/
def refusalSettled (s : State) (a : Agent) (r : Reason) (c : BusCycle) (w : Option WindowId) : State :=
  heldTaken (if cycleLost s a then admissionOver s a else cycleRefused s a r c w) a

/-- A QUEUED access is dropped: the slot empties, the in-flight count falls, one evaluation runs, an empty context is
reported and a held cycle is taken (R34, R35, R135). -/
def accessDropped (s : State) (a : Agent) (x : Access) : State :=
  let u := withPath s a { s.router.paths.get a with slot := .empty, abandoned := false }
  let c := u.ctxs.get x.window
  heldTaken
    ((withCtx u x.window { c with inflight := c.inflight - 1, drain := c.drain && c.inflight - 1 != 0 }).settleWindow
      x.window)
    a

/-- The end of a transfer at the Router: the slot empties, the interval goes, and the bus is idle again, or lent where it was
RELEASING (R129, R130, R141). -/
def transferOver (s : State) (a : Agent) : State :=
  let r := s.router
  let paths := r.paths.set a { r.paths.get a with slot := .empty, abandoned := false }
  { s with
    router :=
      match r.bus with
      | .releasing _ => { r with paths := paths, bus := .lent, lines := .floating, bgnt := true, limit := none }
      | .transfer _ => { r with paths := paths, bus := .ownedIdle, lines := .idle, limit := none }
      | .ownedIdle | .lent => { r with paths := paths } }

/-- The completion at the Lease Engine (R34, R35, R42): the in-flight count falls, a matching once-hold ends USED, one
evaluation runs and the empty context is reported. -/
def accessCounted (s : State) (x : Access) (a : Agent) : State :=
  let c := s.ctxs.get x.window
  let u := withCtx s x.window { c with inflight := c.inflight - 1, drain := c.drain && c.inflight - 1 != 0 }
  let v :=
    match (u.ctxs.get x.window).holdOf a with
    | none => u
    | some h => if x.once = true ∧ h.once = true ∧ h.serial = x.serial then holdEnded u x.window h .used else u
  v.settleWindow x.window

/-- What the agent sees of a transfer that ran (R131). -/
def cycleEnded (s : State) (a : Agent) (x : Access) (o : Outcome) (beats : Tbl (BitVec 32) 8) : State :=
  match o with
  | .success =>
    withPort s a
      { s.ports.get a with
        ended :=
          some
            (if x.cycle.write then .write false
             else .beats false (beats.cells.take (max 1 ((x.cycle.size + 3) / 4)))) }
  | .targetError => cycleFailed s a .targetError x.cycle (some x.window)
  | .targetTimeout => cycleFailed s a .targetTimeout x.cycle (some x.window)

/-- A transfer is on the bus for the port, with its access and discard flag (R126). -/
def carrying (s : State) (a : Agent) (x : Access) (discard : Bool) : Prop :=
  (s.router.bus = .transfer a ∨ s.router.bus = .releasing a) ∧ (s.router.paths.get a).slot = .active x discard

/-- Steps 1 to 4 of R130 for a transfer that ran; with the discard flag set, or for a cycle that is gone, the cycle is not
ended (R136). A held cycle is then taken. -/
def transferDone (s : State) (a : Agent) (x : Access) (discard : Bool) (o : Outcome) (beats : Tbl (BitVec 32) 8) :
    State :=
  let u := accessCounted (transferOver s a) x a
  let v := if discard = true ∨ cycleLost s a then u else cycleEnded u a x o beats
  heldTaken { v with outcomes := v.outcomes ++ [(x.target, o)] } a

/-! ### The openings of a READY target -/

/-- A window becomes OPEN: its OPEN_DONE item is handed over and one grant evaluation runs (R83). -/
def windowOpened (s : State) (w : WindowId) : State :=
  let u := withWindow s w { s.windows.get w with state := .opened }
  State.evaluate { u with mgmt := { u.mgmt with handed := u.mgmt.handed ++ [AttnItem.openDone w] } } w

/-- Every OPENING window on the target becomes OPEN (R85). -/
def windowsOpened (s : State) (t : TargetId) : State :=
  (allWindows.filter fun w => (s.windows.get w).state == .opening && (s.windows.get w).target == t).foldl windowOpened s

/-! ### Port reset -/

/-- The lease of the reset agent on one window ends (R44). -/
def leaseReleased (s : State) (a : Agent) (w : WindowId) : State :=
  match (s.ctxs.get w).holdOf a with
  | some h => (holdEnded s w h .released).settleWindow w
  | none =>
    match (s.ctxs.get w).waitOf a with
    | some _ => (waitRemoved s w a).settleWindow w
    | none => s

/-- The fall of PRSTn at the port (R160): its records and the Router's mark, then the Lease Engine's step (R44). What was
handed before is discarded when it arrives (log 5). -/
def portFallen (s : State) (a : Agent) : State :=
  let p := s.ports.get a
  let path := s.router.paths.get a
  let port : Port :=
    { state := .inReset, request := ⟨0, Tbl.fill 8 0⟩, response := ⟨0, .nothing, 0, []⟩, commitRefused := false,
      notices := .empty, config := .reset, fault := none, airqn := true, prstn := false, fallOwed := false,
      ended := p.ended, responses := p.responses.map fun r => { r with stale := true },
      handed := p.handed.map fun n => { n with stale := true } }
  let u :=
    withPath (withPort s a port) a
      { path with held := none, abandoned := path.admission.isSome || path.slot != .empty }
  allWindows.foldl (fun u w => leaseReleased u a w) u

/-- The leases of an agent removed from the set of admitted agents end on the window (R12). -/
def leaseRevoked (s : State) (w : WindowId) (a : Agent) : State :=
  match (s.ctxs.get w).holdOf a with
  | some h => holdLost s w h .revoked .revoked
  | none =>
    match (s.ctxs.get w).waitOf a with
    | some _ => (waitRemoved s w a).handResponse a 0x01 .notAdmitted w [windowByte w]
    | none => s

/-! ### Time -/

/-- A deadline becomes due when the count reaches it (R67). -/
def dueAt (now : Tick) (d : Deadline) : Deadline := if d.time = now then { d with due := true } else d

/-! ### Reset -/

/-- The values that device reset gives all state, the input pins apart (R178 and the rules it names). -/
def resetValues (s : State) : Prop :=
  (∀ w, s.windows.get w =
    { state := .vacant, base := 0, k := 0, target := 0, offset := 0, rule := .readWrite, admitSet := 0, term := 0,
      margin := 0, closeDeadline := 0, pending := none }) ∧
  (∀ w, s.ctxs.get w =
    { holders := [], waiters := [], inflight := 0, drain := false, serial := 1, endings := Tbl.fill 4 none }) ∧
  (∀ a, s.quotas.get a = 8 ∧ s.inUse.get a = 0) ∧
  (∀ t, s.targets.get t =
    { state := .absent, wakeTime := 0, parkTime := 0, parkDelay := 0, limit := 0, failures := 0, wakePending := false,
      interval := none, parkDeadline := none, useCount := 0, twake := false }) ∧
  s.router.bus = .ownedIdle ∧ s.router.pointer = 0 ∧ s.router.limit = none ∧ s.router.lines = .idle ∧
  s.router.bgnt = false ∧
  (∀ a, s.router.paths.get a = Path.reset) ∧
  (∀ a, (s.ports.get a).request = ⟨0, Tbl.fill 8 0⟩ ∧ (s.ports.get a).response = ⟨0, .nothing, 0, []⟩ ∧
    (s.ports.get a).commitRefused = false ∧ (s.ports.get a).notices = .empty ∧
    (s.ports.get a).config = ⟨⟨true, 3⟩, ⟨true, 3⟩, ⟨true, 2⟩, ⟨true, 1⟩, ⟨true, 0⟩⟩ ∧
    (s.ports.get a).fault = none ∧ (s.ports.get a).airqn = true ∧ (s.ports.get a).responses = [] ∧
    (s.ports.get a).handed = [] ∧ (s.ports.get a).ended = none ∧ (s.ports.get a).fallOwed = false ∧
    (s.ports.get a).state = if (s.ports.get a).prstn then .idle else .inReset) ∧
  s.mgmt.running = false ∧ s.mgmt.fill = 0xFFFFFFFF ∧ s.mgmt.lending = false ∧
  s.mgmt.mask = ⟨true, true, true, true⟩ ∧ s.mgmt.attention = .empty ∧ s.mgmt.attn = false ∧
  s.mgmt.result = ⟨.nothing, 0, 0, false, [], true⟩ ∧ s.mgmt.handed = [] ∧ s.mgmt.mso = [] ∧
  s.tb = ⟨none, 0, 0, 0⟩ ∧ s.outcomes = [] ∧ s.emptyReports = []

/-! ### Laws -/

def attnSet (a : Attention) (k : AttnKind) : Bool :=
  match k with
  | .targetFault => anySet a.targetFault
  | .closeDone => anySet a.closeDone
  | .openDone => anySet a.openDone
  | .poolRefusal => anySet a.poolRefusal

def attnEnabled (m : AttnMask) (k : AttnKind) : Bool :=
  match k with
  | .targetFault => m.targetFault
  | .closeDone => m.closeDone
  | .openDone => m.openDone
  | .poolRefusal => m.poolRefusal

/-- Output pins follow the state: AIRQn (R158), ATTN (R176), TWAKEn (R101), BGNT (R139). -/
def PinLaw (s : State) : Prop :=
  (∀ a, (s.ports.get a).airqn = false ↔
    ∃ k, ((s.ports.get a).config.of k).enable = true ∧ (s.ports.get a).notices.has k = true) ∧
  (s.mgmt.attn = true ↔ ∃ k, attnEnabled s.mgmt.mask k = true ∧ attnSet s.mgmt.attention k = true) ∧
  (∀ t, (s.targets.get t).twake = true ↔
    (s.targets.get t).state = .waking ∨ (s.targets.get t).state = .ready ∨ (s.targets.get t).state = .faulted) ∧
  (s.router.bgnt = true ↔ s.router.bus = .lent)

/-- The window table (R1, R6, R7, R8). -/
def WindowLaw (s : State) : Prop :=
  (∀ w, (s.windows.get w).state = .vacant → s.windows.get w = Window.empty) ∧
  (∀ w, (s.windows.get w).pending.isSome = true ↔ (s.windows.get w).state = .closing) ∧
  (∀ w p, (s.windows.get w).pending = some p → (p.deadline.isSome = true ↔ p.force = false)) ∧
  (∀ w, (s.windows.get w).state ≠ .vacant →
    (s.windows.get w).k ≤ 10 ∧ (s.windows.get w).base.toNat % windowSize (s.windows.get w).k = 0 ∧
    (s.windows.get w).offset.toNat % windowSize (s.windows.get w).k = 0 ∧ (s.windows.get w).term ≠ 0 ∧
    (s.windows.get w).closeDeadline ≠ 0 ∧ (s.windows.get w).endAddr ≤ 0xFF0000 ∧
    (s.targets.get (s.windows.get w).target).state ≠ .absent) ∧
  (∀ w v, w ≠ v → (s.windows.get w).state ≠ .vacant → (s.windows.get v).state ≠ .vacant →
    (s.windows.get w).endAddr ≤ (s.windows.get v).base.toNat ∨ (s.windows.get v).endAddr ≤ (s.windows.get w).base.toNat)

/-- One target record (R100, R107, R110, R114). -/
def targetOk (t : Target) : Prop :=
  (t.state = .faulted ↔ t.failures = 3) ∧
  t.failures ≤ 3 ∧
  (t.state ≠ .ready → t.state ≠ .faulted → t.failures = 0) ∧
  (t.state = .waking ↔ ∃ n, t.interval = some ⟨.wake, n⟩) ∧
  (t.state = .parking ↔ ∃ n, t.interval = some ⟨.park, n⟩) ∧
  (t.parkDeadline.isSome = true → t.state = .ready ∧ t.useCount = 0 ∧ t.parkDelay ≠ 0) ∧
  (t.wakePending = true → t.state = .parking) ∧
  (t.state = .absent → t.wakeTime = 0 ∧ t.parkTime = 0 ∧ t.parkDelay = 0 ∧ t.limit = 0) ∧
  (t.state ≠ .absent → 1 ≤ t.wakeTime.toNat ∧ t.wakeTime.toNat ≤ 4095 ∧ 1 ≤ t.parkTime.toNat ∧
    t.parkTime.toNat ≤ 4095 ∧ t.limit ≠ 0)

def TargetLaw (s : State) : Prop := ∀ t, targetOk (s.targets.get t)

/-- Windows of the group OPENING, OPEN and CLOSING that name the target. -/
def liveNaming (s : State) (t : TargetId) : Nat :=
  allWindows.countP fun w => (s.windows.get w).state.live && (s.windows.get w).target == t

/-- Windows and their targets (R4, R82, R109). -/
def UseLaw (s : State) : Prop :=
  (∀ t, (s.targets.get t).useCount = liveNaming s t) ∧
  (∀ w, (s.windows.get w).state = .opening →
    (s.targets.get (s.windows.get w).target).state = .waking ∨
    (s.targets.get (s.windows.get w).target).state = .parking) ∧
  (∀ w, (s.windows.get w).state = .opened ∨ (s.windows.get w).state = .closing →
    (s.targets.get (s.windows.get w).target).state = .ready ∨
    (s.targets.get (s.windows.get w).target).state = .faulted) ∧
  (∀ t, (s.targets.get t).state = .parking → (s.targets.get t).useCount ≠ 0 → (s.targets.get t).wakePending = true)

/-- One lease context beside the state of its window (R18, R22, R23, R30, R35, R56, R58). -/
def ctxOk (st : WindowState) (c : LeaseCtx) : Prop :=
  (c.holders.map Hold.agent ++ c.waiters.map Wait.agent).Nodup ∧
  ((∃ h ∈ c.holders, h.mode = .exclusive) → c.holders.length = 1) ∧
  (c.holders.countP fun h => h.upgrading) ≤ 1 ∧
  (∀ h ∈ c.holders, h.upgrading = true → h.mode = .shared ∧ h.once = false ∧ st = .opened) ∧
  (∀ h ∈ c.holders, h.upgrading = false → h.deadline = none) ∧
  (∀ h ∈ c.holders, h.serial ≠ 0) ∧
  c.serial ≠ 0 ∧
  (c.holders ≠ [] → st = .opened ∨ st = .closing) ∧
  (c.waiters ≠ [] → st = .opening ∨ st = .opened) ∧
  (c.drain = true → c.inflight ≠ 0)

def LeaseLaw (s : State) : Prop := ∀ w, ctxOk (s.windows.get w).state (s.ctxs.get w)

/-- Holds and waits of an agent over all windows. -/
def leasesOf (s : State) (a : Agent) : Nat :=
  (allWindows.map fun w =>
    (s.ctxs.get w).holders.countP (fun h => h.agent == a) + (s.ctxs.get w).waiters.countP fun x => x.agent == a).sum

/-- The lease pool and the quotas (R21, R24). -/
def PoolLaw (s : State) : Prop :=
  (∀ a, s.inUse.get a = leasesOf s a ∧ s.inUse.get a ≤ s.quotas.get a ∧ 1 ≤ s.quotas.get a ∧ s.quotas.get a ≤ 24) ∧
  s.poolUse ≤ 24

/-- The waits of an agent: WAIT entries and pending upgrades. -/
def waitsOf (s : State) (a : Agent) : Nat :=
  (allWindows.map fun w =>
    (s.ctxs.get w).waiters.countP (fun x => x.agent == a) +
      (s.ctxs.get w).holders.countP fun h => h.agent == a && h.upgrading).sum

/-- Wait-ending responses handed to a port that the port has still to post. -/
def endingsHanded (p : Port) : Nat := p.responses.countP fun r => !r.stale

/-- A port is WAITING exactly when it has one wait, or one whose ending response it has still to take (R46, R149); in
CONFIGURING it is IDLE or IN_RESET (R149, R173). -/
def PortLaw (s : State) : Prop :=
  ∀ a,
    (s.mgmt.running = false → (s.ports.get a).state ≠ .waiting) ∧
    waitsOf s a + endingsHanded (s.ports.get a) ≤ 1 ∧
    ((s.ports.get a).state = .waiting ↔ waitsOf s a + endingsHanded (s.ports.get a) = 1) ∧
    ((s.ports.get a).state = .inReset ↔ (s.ports.get a).prstn = false ∧ (s.ports.get a).fallOwed = false) ∧
    ((s.ports.get a).state = .inReset → (s.ports.get a).notices = .empty)

/-- The window of an access slot. -/
def slotWindow (x : Slot) : Option WindowId :=
  match x with
  | .empty => none
  | .queued x | .active x _ => some x.window

def isActive (x : Slot) : Bool :=
  match x with
  | .active _ _ => true
  | .empty | .queued _ => false

/-- The bus state and what it drives, beside the slots (R126, R128, R139). -/
def busOk (r : Router) : Prop :=
  match r.bus with
  | .ownedIdle => r.lines = .idle ∧ r.limit = none ∧ ∀ a, isActive (r.paths.get a).slot = false
  | .lent => r.lines = .floating ∧ r.limit = none ∧ ∀ a, isActive (r.paths.get a).slot = false
  | .transfer a | .releasing a =>
    (∃ x d, (r.paths.get a).slot = .active x d ∧
      r.lines = .transfer x.target x.targetAddr x.cycle.write x.cycle.size x.cycle.data) ∧
    r.limit.isSome = true ∧ ∀ b, b ≠ a → isActive (r.paths.get b).slot = false

/-- The data path (R34, R120, R126): in-flight counts, one cycle to a port, one transfer on the bus. -/
def DataPathLaw (s : State) : Prop :=
  (∀ w, (s.ctxs.get w).inflight = allAgents.countP fun a => slotWindow (s.router.paths.get a).slot == some w) ∧
  (∀ a, (s.router.paths.get a).admission.isSome = true → (s.router.paths.get a).slot = .empty) ∧
  busOk s.router

/-- The Time Base (R64, R65): the divisor in range, at most 1000 steps in a tick, their moments within one REFCLK period
of an exact series, and the last of them at the tick. -/
def TimeLaw (s : State) : Prop :=
  s.tb.steps ≤ 1000 ∧
  (s.tb.divisor = none → s.tb.tick = 0 ∧ s.tb.steps = 0 ∧ s.tb.position = 0) ∧
  ∀ d, s.tb.divisor = some d →
    1000 ≤ d.toNat ∧ d.toNat ≤ 50000 ∧ (s.tb.steps = 1000 → s.tb.position = d.toNat) ∧
    1000 * s.tb.position ≤ s.tb.steps * d.toNat + 1000 ∧ s.tb.steps * d.toNat ≤ 1000 * s.tb.position + 1000

/-- While RESETn is low, everything but the input pins stands at its reset value (R178). -/
def ResetLaw (s : State) : Prop := s.resetn = false → resetValues s

end Sys2Proof.Safety
end

