-- ==== Sys2Proof/Certificates/Slice0/Obligations.lean ====
section
/-! DEFINITION. The statements about the part, for the provers. -/

section

open Sys2Proof Sys2Proof.Machine Sys2Proof.Safety

/-! ### The queue and the resets -/

/-- The command at the front of the queue is taken, as one event in one whole step, with the rest of the queue left
waiting; an empty queue idles. Both clauses are the model's choice (log 1). -/
def Obligations.StepTakesFrontCommand : Prop :=
  (∀ (c : Instr) (rest : List Instr) (s : State),
    step { s with pending := c :: rest } = exec c { s with pending := rest }) ∧
  ∀ s : State, s.pending = [] → step s = .next s

/-- R178: RESETn low puts the part at its reset values, and it starts from them when RESETn rises; the levels of the
other input pins are kept. That the command is one edge of RESETn, and that State.reset has RESETn, MSEL and every PRSTn
high and BREQ low, is the model's choice (log 19); so are the values of what the spec gives no reset value, the position
and the step count in the tick (log 26) and the records of what left the part (log 25), and that the model's own counts
and queue are kept. -/
def Obligations.ResetGivesResetValues : Prop :=
  (∀ s : State,
     ∃ t, exec .deviceReset s = .next t ∧ resetValues t ∧ (t.resetn = true ↔ s.resetn = false) ∧
       t.mgmt.msel = s.mgmt.msel ∧
       (∀ a, (t.ports.get a).prstn = (s.ports.get a).prstn ∧
         (t.ports.get a).state = if (s.ports.get a).prstn then .idle else .inReset) ∧
       t.router.breq = s.router.breq ∧ t.pending = s.pending ∧ t.transfers = s.transfers ∧ t.free = s.free) ∧
  (resetValues State.reset ∧ State.reset.resetn = true ∧ State.reset.mgmt.msel = true ∧
    (∀ a, (State.reset.ports.get a).state = .idle) ∧ State.reset.router.breq = false ∧ State.reset.pending = [])

/-! ### The management port -/

/-- R172, R173. R173 leaves every port IDLE or IN_RESET; a STOP that finds an ending handed to a WAITING port is in
HandoffsJoinOrDiscard. -/
def Obligations.StartAndStopCheckThenSwitch : Prop :=
  (∀ s : State, takesFrames s →
     (s.mgmt.running = true → exec .start s = .next (afterResult s 0x21 0 .badState [])) ∧
     (s.mgmt.running = false → s.tb.divisor = none → exec .start s = .next (afterResult s 0x21 0 .noTimebase [])) ∧
     (s.mgmt.running = false → s.tb.divisor ≠ none →
       exec .start s = .next (afterResult { s with mgmt := { s.mgmt with running := true } } 0x21 0 .ok []))) ∧
  (∀ s : State, takesFrames s →
     (s.mgmt.running = false → exec .stop s = .next (afterResult s 0x22 0 .badState [])) ∧
     (s.mgmt.running = true → (∃ w, (s.windows.get w).state.live = true) →
       exec .stop s = .next (afterResult s 0x22 0 .inUse [])) ∧
     (s.mgmt.running = true → (∀ w, (s.windows.get w).state.live = false) →
       (∀ a, (s.ports.get a).state ≠ .waiting) →
       exec .stop s = .next (afterResult { s with mgmt := { s.mgmt with running := false } } 0x22 0 .ok [])))

/-- R171, R64, R138, R145. -/
def Obligations.ConfigureDeviceChecksThenWrites : Prop :=
  ∀ (refclk : Half) (fill : BitVec 32) (flags : Byte) (s : State), takesFrames s →
    let inRange := 1000 ≤ refclk.toNat ∧ refclk.toNat ≤ 50000 ∧ flags.toNat < 32
    let owned := s.router.bus = .ownedIdle ∨ ∃ a, s.router.bus = .transfer a
    let mask : AttnMask := ⟨flags.getLsbD 1, flags.getLsbD 2, flags.getLsbD 3, flags.getLsbD 4⟩
    let written : State :=
      { s with
        mgmt :=
          { s.mgmt with
            fill := fill, lending := flags.getLsbD 0, mask := mask, attn := attnLevel mask s.mgmt.attention }
        tb := if s.tb.divisor = some refclk then s.tb else ⟨some refclk, s.tb.tick, 0, 0⟩ }
    let result := exec (.configureDevice refclk fill flags) s
    (s.mgmt.running = true → result = .next (afterResult s 0x20 7 .badState [])) ∧
    (s.mgmt.running = false → ¬inRange → result = .next (afterResult s 0x20 7 .badArgument [])) ∧
    (s.mgmt.running = false → inRange → flags.getLsbD 0 = false → ¬owned →
      result = .next (afterResult s 0x20 7 .badState [])) ∧
    (s.mgmt.running = false → inRange → (flags.getLsbD 0 = true ∨ owned) →
      (s.mgmt.lending = true ∨ flags.getLsbD 0 = false ∨ s.router.breq = false) →
      result = .next (afterResult written 0x20 7 .ok (be16 refclk ++ be32 fill ++ [flags]))) ∧
    (s.mgmt.running = false → inRange → s.mgmt.lending = false → flags.getLsbD 0 = true → s.router.breq = true →
      s.router.bus = .ownedIdle →
      result =
        .next
          (afterResult
            { written with router := { s.router with bus := .lent, lines := .floating, bgnt := true } }
            0x20 7 .ok (be16 refclk ++ be32 fill ++ [flags])))

/-- R177: the first non-empty set in the order of the kinds, its lowest index; NOTHING when all four are empty. -/
def Obligations.TakeAttentionPicksFirstKindLowestIndex : Prop :=
  ∀ s : State, takesFrames s →
    let a := s.mgmt.attention
    let took (rest : Attention) (kind : Byte) (index : Nat) : Prop :=
      exec .takeAttention s =
        .next
          (afterResult (withAttention s rest) 0x24 0 .ok
            [kind, BitVec.ofNat 8 index,
              BitVec.ofNat 8
                (countSet rest.targetFault + countSet rest.closeDone + countSet rest.openDone +
                  countSet rest.poolRefusal)])
    let none1 := ∀ i, a.targetFault.get i = false
    let none2 := ∀ i, a.closeDone.get i = false
    let none3 := ∀ i, a.openDone.get i = false
    let none4 := ∀ i, a.poolRefusal.get i = false
    (∀ i, a.targetFault.get i = true → (∀ j, j < i → a.targetFault.get j = false) →
      took { a with targetFault := a.targetFault.set i false } 0 i.val) ∧
    (none1 → ∀ i, a.closeDone.get i = true → (∀ j, j < i → a.closeDone.get j = false) →
      took { a with closeDone := a.closeDone.set i false } 1 i.val) ∧
    (none1 → none2 → ∀ i, a.openDone.get i = true → (∀ j, j < i → a.openDone.get j = false) →
      took { a with openDone := a.openDone.set i false } 2 i.val) ∧
    (none1 → none2 → none3 → ∀ i, a.poolRefusal.get i = true → (∀ j, j < i → a.poolRefusal.get j = false) →
      took { a with poolRefusal := a.poolRefusal.set i false } 3 i.val) ∧
    (none1 → none2 → none3 → none4 → exec .takeAttention s = .next (afterResult s 0x24 0 .nothing []))

/-- R168, R182: a FETCH shifts out the result frame, most significant bit first (R164), and marks the result fetched when
all of it was shifted out; the operand counts the bits clocked after the kind byte. The status codes are those of section
11.6. -/
def Obligations.FetchShiftsOutResultFrame : Prop :=
  (∀ (n : Nat) (s : State), takesFrames s →
     let r := s.mgmt.result
     let body :=
       [r.status.code, r.code, BitVec.ofNat 8 (r.seq.toNat + 128 * bit r.overwritten),
         BitVec.ofNat 8 r.payload.length] ++ r.payload
     let frame := (body ++ [crc8 body]).flatMap fun b => (List.range 8).map fun i => b.getLsbD (7 - i)
     exec (.fetch n) s =
       .next
         { s with
           mgmt :=
             { s.mgmt with
               mso := List.replicate 8 false ++ frame.take n ++ List.replicate (n - frame.length) false
               result := { r with fetched := r.fetched || decide (frame.length ≤ n) } } }) ∧
  (∀ p ∈
     ([(.nothing, 0x00), (.ok, 0x01), (.granted, 0x02), (.accepted, 0x03), (.done, 0x04), (.badArgument, 0x10),
        (.badState, 0x11), (.unknown, 0x12), (.badFrame, 0x13), (.notRunning, 0x14), (.noTimebase, 0x15),
        (.inUse, 0x20), (.overlap, 0x21), (.noTarget, 0x22), (.noWindow, 0x23), (.notOpen, 0x24), (.closing, 0x25),
        (.notAdmitted, 0x26), (.targetFaulted, 0x27), (.alreadyHeld, 0x28), (.noEntry, 0x29), (.quota, 0x2A),
        (.conflict, 0x2B), (.stale, 0x2C), (.deadlock, 0x2D), (.timedOut, 0x30), (.abandoned, 0x31), (.closed, 0x32),
        (.revoked, 0x33), (.lost, 0x34)] : List (Status × Byte)),
     p.1.code = p.2) ∧
  (bit false = 0 ∧ bit true = 1)

/-- R164, R165: every eight bits, most significant first, form a byte and those left over form none; frames that carry no
request the part executes. R169, R182: a correct frame whose code names no supervisor request is answered UNKNOWN, a
known code with the wrong payload length BAD_ARGUMENT; neither is carried out. R165, R169: the frame that carries a
supervisor request executes that request. R165: the bytes beyond the first 4 + L of a frame with a correct CRC, and bits
left over, are ignored; the frame is its command, but for the bits clocked on MSO. That BAD_FRAME settles frames with a
correct CRC too, which its row leaves out, is the model's choice (log 20). -/
def Obligations.FramesByContent : Prop :=
  ((∀ b : Byte, bitsOfBytes [b] = (List.range 8).map fun i => b.getLsbD (7 - i)) ∧
   (∀ bs cs : List Byte, bitsOfBytes (bs ++ cs) = bitsOfBytes bs ++ bitsOfBytes cs) ∧
   ∀ bits : List Bool, ∃ part, part.length < 8 ∧ bits = bitsOfBytes (frameBytes bits) ++ part) ∧
  (∀ (s : State) (bits : List Bool), takesFrames s →
     let bytes := frameBytes bits
     (bytes.head? ≠ some 0xA5 → bytes.head? ≠ some 0x5A →
       exec (.ignoredFrame bits) s = .next (unposted s bits.length)) ∧
     (∀ rest : List Byte, bytes = 0xA5 :: rest → rest.length < 2 →
       exec (.badFrame bits) s = .next (unposted s bits.length)) ∧
     (∀ (code len : Byte) (rest : List Byte), bytes = 0xA5 :: code :: len :: rest → 15 < len.toNat →
       exec (.badFrame bits) s = .next (posted s code .badFrame [] bits.length)) ∧
     (∀ (code len : Byte) (rest : List Byte), bytes = 0xA5 :: code :: len :: rest → len.toNat ≤ 15 →
       rest.length < len.toNat + 1 → exec (.badFrame bits) s = .next (unposted s bits.length)) ∧
     (∀ (code len : Byte) (payload : List Byte) (crc : Byte) (extra : List Byte),
       bytes = 0xA5 :: code :: len :: (payload ++ crc :: extra) → len.toNat ≤ 15 → payload.length = len.toNat →
       crc ≠ crc8 (0xA5 :: code :: len :: payload) →
       exec (.badFrame bits) s = .next (posted s code .badFrame [] bits.length))) ∧
  (∀ (code : Byte) (payload : List Byte) (s : State), takesFrames s →
     (requestLength code = none →
       exec (.unknownRequest code payload) s = .next (afterResult s code payload.length .unknown [])) ∧
     (∀ n, requestLength code = some n → payload.length ≠ n →
       exec (.unknownRequest code payload) s = .next (afterResult s code payload.length .badArgument []))) ∧
  (∀ (i : Instr) (bytes : List Byte) (s : State),
     encodeRequest i = some bytes → exec (.badFrame (bitsOfBytes bytes)) s = exec i s) ∧
  (∀ (i : Instr) (code : Byte) (payload extra : List Byte) (part : List Bool) (s : State), takesFrames s →
     payload.length ≤ 15 → part.length < 8 →
     requestBytes i = some (code, payload) ∨
       requestLength code ≠ some payload.length ∧ i = .unknownRequest code payload →
     let bits := bitsOfBytes (requestFrame code payload ++ extra) ++ part
     frameCommand bits = i ∧
       ∃ t, exec i s = .next t ∧
         exec (.badFrame bits) s = .next { t with mgmt := { t.mgmt with mso := List.replicate bits.length false } })

/-- R164, R165, R182: the frame that carries a supervisor request is read back from its bits as that request with every
field, whatever bytes and left-over bits follow it. -/
def Obligations.RequestFrameReadsBack : Prop :=
  ∀ (i : Instr) (bytes extra : List Byte) (part : List Bool), encodeRequest i = some bytes → part.length < 8 →
    frameCommand (bitsOfBytes (bytes ++ extra) ++ part) = i

/-- R166: the CRC register, and the two strings whose CRC the rule gives. -/
def Obligations.CrcRegister : Prop :=
  crc8 [] = 0 ∧
  (∀ (bytes : List Byte) (b : Byte),
    crc8 (bytes ++ [b]) =
      (List.range 8).foldl (fun r _ => if r.getLsbD 7 then (r <<< 1) ^^^ 0x07 else r <<< 1) (crc8 bytes ^^^ b)) ∧
  crc8 [0x01] = 0x07 ∧
  crc8 [0x31, 0x32, 0x33, 0x34, 0x35, 0x36, 0x37, 0x38, 0x39] = 0xF4

/-! ### Targets -/

/-- R103: the checks in order, then the four values, PARKED, failure count 0 and TWAKE low. R104: no non-VACANT window
may name the target, and it must be PARKED or ABSENT. -/
def Obligations.ConfigureAndRemoveTarget : Prop :=
  (∀ (target : Byte) (wake park delay : Half) (limit : Byte) (s : State), takesFrames s →
     let result := exec (.configureTarget target wake park delay limit) s
     let timesOk := 1 ≤ wake.toNat ∧ wake.toNat ≤ 4095 ∧ 1 ≤ park.toNat ∧ park.toNat ≤ 4095 ∧ limit ≠ 0
     (8 ≤ target.toNat ∨ ¬timesOk → result = .next (afterResult s 0x30 8 .badArgument [])) ∧
     ∀ t : TargetId, t.val = target.toNat → timesOk →
       let x := s.targets.get t
       (x.useCount ≠ 0 → result = .next (afterResult s 0x30 8 .inUse [])) ∧
       (x.useCount = 0 → x.state ≠ .absent → x.state ≠ .parked →
         result = .next (afterResult s 0x30 8 .badState [])) ∧
       (x.useCount = 0 → x.state = .absent ∨ x.state = .parked →
         result =
           .next
             (afterResult
               (withTarget s t
                 { x with
                   state := .parked, twake := false, wakeTime := wake, parkTime := park, parkDelay := delay,
                   limit := limit, failures := 0 })
               0x30 8 .ok [1]))) ∧
  (∀ (target : Byte) (s : State), takesFrames s →
     let result := exec (.removeTarget target) s
     (8 ≤ target.toNat → result = .next (afterResult s 0x31 1 .badArgument [])) ∧
     ∀ t : TargetId, t.val = target.toNat →
       let x := s.targets.get t
       let named := ∃ w, (s.windows.get w).state ≠ .vacant ∧ (s.windows.get w).target = t
       (named → result = .next (afterResult s 0x31 1 .inUse [])) ∧
       (¬named → x.state ≠ .absent → x.state ≠ .parked → result = .next (afterResult s 0x31 1 .badState [])) ∧
       (¬named → x.state = .absent → result = .next (afterResult s 0x31 1 .ok [0])) ∧
       (¬named → x.state = .parked →
         result =
           .next
             (afterResult
               (withTarget s t
                 { x with
                   state := .absent, twake := false, wakeTime := 0, parkTime := 0, parkDelay := 0, limit := 0 })
               0x31 1 .ok [0])))

/-- R105, R107, and R116 in a state where no OPENING window names the FAULTED target, which the law of R82 gives (UseLaw,
kept by StepKeepsUseLaw). -/
def Obligations.WakeParkAndRecoverTarget : Prop :=
  (∀ (target : Byte) (s : State), takesFrames s →
     let result := exec (.wakeTarget target) s
     (8 ≤ target.toNat → result = .next (afterResult s 0x32 1 .badArgument [])) ∧
     ∀ t : TargetId, t.val = target.toNat →
       let x := s.targets.get t
       (x.state = .absent → result = .next (afterResult s 0x32 1 .noTarget [])) ∧
       (x.state = .faulted → result = .next (afterResult s 0x32 1 .badState [])) ∧
       (x.state = .parked →
         result =
           .next
             (afterResult
               (withTarget s t
                 { x with
                   state := .waking, twake := true, wakePending := false, parkDeadline := none,
                   interval := some ⟨.wake, x.wakeTime.toNat⟩ })
               0x32 1 .ok [2])) ∧
       (x.state = .parking →
         result = .next (afterResult (withTarget s t { x with wakePending := true }) 0x32 1 .ok [4])) ∧
       (x.state = .waking → result = .next (afterResult s 0x32 1 .ok [2])) ∧
       (x.state = .ready → result = .next (afterResult s 0x32 1 .ok [3]))) ∧
  (∀ (target : Byte) (s : State), takesFrames s →
     let result := exec (.parkTarget target) s
     (8 ≤ target.toNat → result = .next (afterResult s 0x33 1 .badArgument [])) ∧
     ∀ t : TargetId, t.val = target.toNat →
       let x := s.targets.get t
       (x.state = .absent → result = .next (afterResult s 0x33 1 .noTarget [])) ∧
       (x.state ≠ .absent → x.useCount ≠ 0 → result = .next (afterResult s 0x33 1 .inUse [])) ∧
       (x.useCount = 0 → x.state = .ready ∨ x.state = .waking ∨ x.state = .faulted →
         result =
           .next
             (afterResult
               (withTarget s t
                 { x with
                   state := .parking, twake := false, wakePending := false, failures := 0, parkDeadline := none,
                   interval := some ⟨.park, x.parkTime.toNat⟩ })
               0x33 1 .ok [4])) ∧
       (x.useCount = 0 → x.state = .parking →
         result = .next (afterResult (withTarget s t { x with wakePending := false }) 0x33 1 .ok [4])) ∧
       (x.useCount = 0 → x.state = .parked → result = .next (afterResult s 0x33 1 .ok [1]))) ∧
  (∀ (target : Byte) (s : State), takesFrames s →
     let result := exec (.recoverTarget target) s
     (8 ≤ target.toNat → result = .next (afterResult s 0x34 1 .badArgument [])) ∧
     ∀ t : TargetId, t.val = target.toNat →
       let x := s.targets.get t
       (x.state ≠ .faulted → result = .next (afterResult s 0x34 1 .badState [])) ∧
       (x.state = .faulted → (∀ w, (s.windows.get w).state = .opening → (s.windows.get w).target ≠ t) →
         result =
           .next
             (afterResult
               (withTarget s t
                 { x with
                   state := .ready, twake := true, failures := 0, interval := none,
                   parkDeadline :=
                     if x.useCount = 0 ∧ x.parkDelay ≠ 0 then
                       some ⟨s.tb.tick + BitVec.ofNat 32 x.parkDelay.toNat, false⟩
                     else x.parkDeadline })
               0x34 1 .ok [3])))

/-- R106, R85, R83: the end of a wake interval makes the target READY and every OPENING window on it OPEN, each with its
OPEN_DONE item and its grant evaluation, in ascending order, which is the model's choice (log 35); an expiry that finds no
such interval changes nothing. R108, R111: the end of a park interval, and the park by delay. -/
def Obligations.TargetExpiriesAct : Prop :=
  (∀ (t : TargetId) (s : State),
     let x := s.targets.get t
     (¬(x.state = .waking ∧ x.interval = some ⟨.wake, 0⟩) → exec (.wakeTimeExpiry t) s = .next s) ∧
     (x.state = .waking → x.interval = some ⟨.wake, 0⟩ →
       let ready :=
         withTarget s t
           { x with
             state := .ready, twake := true, failures := 0, interval := none,
             parkDeadline :=
               if x.useCount = 0 ∧ x.parkDelay ≠ 0 then
                 some ⟨s.tb.tick + BitVec.ofNat 32 x.parkDelay.toNat, false⟩
               else x.parkDeadline }
       let u := windowsOpened ready t
       exec (.wakeTimeExpiry t) s = .next u ∧
         u.targets = ready.targets ∧
         (∀ w, u.windows.get w =
           if (s.windows.get w).state = .opening ∧ (s.windows.get w).target = t then
             { s.windows.get w with state := .opened }
           else s.windows.get w) ∧
         u.mgmt =
           { s.mgmt with
             handed :=
               s.mgmt.handed ++
                 ((allWindows.filter fun w =>
                     (s.windows.get w).state == .opening && (s.windows.get w).target == t).map AttnItem.openDone) } ∧
         (∀ w, ¬((s.windows.get w).state = .opening ∧ (s.windows.get w).target = t) → u.ctxs.get w = s.ctxs.get w) ∧
         (∀ w, (s.windows.get w).state = .opening → (s.windows.get w).target = t →
           u.ctxs.get w = (State.evaluate (withWindow s w { s.windows.get w with state := .opened }) w).ctxs.get w) ∧
         (∀ a, ∃ more, u.ports.get a =
           { s.ports.get a with responses := (s.ports.get a).responses ++ more }) ∧
         u.resetn = s.resetn ∧ u.transfers = s.transfers ∧ u.quotas = s.quotas ∧ u.inUse = s.inUse ∧ u.router = s.router ∧ u.tb = s.tb ∧
         u.outcomes = s.outcomes ∧ u.emptyReports = s.emptyReports ∧ u.pending = s.pending)) ∧
  (∀ (t : TargetId) (s : State),
     let x := s.targets.get t
     let ended := x.state = .parking ∧ x.interval = some ⟨.park, 0⟩
     let overdue := x.state = .ready ∧ ∃ d, x.parkDeadline = some d ∧ d.due = true
     (¬ended → exec (.parkTimeExpiry t) s = .next s) ∧
     (ended → x.wakePending = false →
       exec (.parkTimeExpiry t) s =
         .next (withTarget s t { x with state := .parked, twake := false, interval := none })) ∧
     (ended → x.wakePending = true →
       exec (.parkTimeExpiry t) s =
         .next
           (withTarget s t
             { x with
               state := .waking, twake := true, wakePending := false, parkDeadline := none,
               interval := some ⟨.wake, x.wakeTime.toNat⟩ })) ∧
     (¬overdue → exec (.parkDelayExpiry t) s = .next s) ∧
     (overdue →
       exec (.parkDelayExpiry t) s =
         .next
           (withTarget s t
             { x with
               state := .parking, twake := false, wakePending := false, failures := 0, parkDeadline := none,
               interval := some ⟨.park, x.parkTime.toNat⟩ })))

/-- R113, R114: reports are taken in the order handed; only a READY target counts; the third failure makes it FAULTED
and hands TARGET_FAULT over. Taking all reports handed so far (log 9) is taking the oldest again and again. -/
def Obligations.OutcomeReportCounts : Prop :=
  ∀ s : State,
    (s.outcomes = [] → exec .outcomeReport s = .next s ∧ s.takeOutcomes = s) ∧
    ∀ t o later, s.outcomes = (t, o) :: later →
      let x := s.targets.get t
      let u : State := { s with outcomes := later }
      (∃ v, exec .outcomeReport s = .next v ∧ v.outcomes = later ∧ s.takeOutcomes = v.takeOutcomes) ∧
      (x.state ≠ .ready → exec .outcomeReport s = .next u) ∧
      (x.state = .ready → o = .success → exec .outcomeReport s = .next (withTarget u t { x with failures := 0 })) ∧
      (x.state = .ready → o ≠ .success → x.failures < 2 →
        exec .outcomeReport s = .next (withTarget u t { x with failures := x.failures + 1 })) ∧
      (x.state = .ready → o ≠ .success → x.failures = 2 →
        exec .outcomeReport s =
          .next
            (withTarget
              { u with mgmt := { u.mgmt with handed := u.mgmt.handed ++ [.targetFault t] } } t
              { x with state := .faulted, twake := true, failures := 3, parkDeadline := none }))

/-! ### Windows -/

/-- R5, R6: the checks of DEFINE WINDOW in order, then every argument in the record and the window STAGED. -/
def Obligations.DefineWindowChecksThenStages : Prop :=
  ∀ (window : Byte) (base : Addr) (k target attrs : Byte) (offset : Addr) (term : Half) (margin : Byte)
    (deadline : Half) (s : State), takesFrames s →
    let result := exec (.defineWindow window base k target attrs offset term margin deadline) s
    let size := 4096 * 2 ^ k.toNat
    let argsOk :=
      k.toNat ≤ 10 ∧ base.toNat % size = 0 ∧ offset.toNat % size = 0 ∧ target.toNat < 8 ∧ attrs.toNat < 32 ∧
      term ≠ 0 ∧ deadline ≠ 0
    let inControl := 0xFF0000 < base.toNat + size
    let overlap :=
      ∃ v, (s.windows.get v).state ≠ .vacant ∧ base.toNat < (s.windows.get v).endAddr ∧
        (s.windows.get v).base.toNat < base.toNat + size
    (32 ≤ window.toNat → result = .next (afterResult s 0x40 15 .badArgument [])) ∧
    ∀ w : WindowId, w.val = window.toNat →
      ((s.windows.get w).state ≠ .vacant → result = .next (afterResult s 0x40 15 .inUse [])) ∧
      ((s.windows.get w).state = .vacant → ¬argsOk → result = .next (afterResult s 0x40 15 .badArgument [])) ∧
      ((s.windows.get w).state = .vacant → argsOk → inControl ∨ overlap →
        result = .next (afterResult s 0x40 15 .overlap [])) ∧
      ∀ t : TargetId, t.val = target.toNat → (s.windows.get w).state = .vacant → argsOk → ¬inControl → ¬overlap →
        ((s.targets.get t).state = .absent → result = .next (afterResult s 0x40 15 .noTarget [])) ∧
        ((s.targets.get t).state ≠ .absent →
          result =
            .next
              (afterResult
                (withWindow s w
                  { state := .staged, base := base, k := k.toNat, target := t, offset := offset,
                    rule := if attrs.getLsbD 4 then .readOnly else .readWrite, admitSet := attrs.extractLsb' 0 4,
                    term := term, margin := margin, closeDeadline := deadline, pending := none })
                0x40 15 .ok []))

/-- R9: the checks of AMEND WINDOW in order, and an amend that removes no agent from the set of admitted agents writes the
named fields and nothing else. That the reserved bits of the attributes byte are checked where either field of that byte
is selected, and only there, is the model's inference (log 18). -/
def Obligations.AmendWindowChecksThenWrites : Prop :=
  ∀ (window select attrs : Byte) (term : Half) (margin : Byte) (deadline : Half) (s : State), takesFrames s →
    let result := exec (.amendWindow window select attrs term margin deadline) s
    let argsOk :=
      select.toNat < 32 ∧ (select.getLsbD 0 = true ∨ select.getLsbD 4 = true → attrs.toNat < 32) ∧
      (select.getLsbD 1 = true → term ≠ 0) ∧ (select.getLsbD 3 = true → deadline ≠ 0)
    (32 ≤ window.toNat → result = .next (afterResult s 0x41 8 .badArgument [])) ∧
    ∀ w : WindowId, w.val = window.toNat →
      let win := s.windows.get w
      let admitSet := if select.getLsbD 0 then attrs.extractLsb' 0 4 else win.admitSet
      (win.state = .vacant → result = .next (afterResult s 0x41 8 .badState [])) ∧
      (win.state ≠ .vacant → ¬argsOk → result = .next (afterResult s 0x41 8 .badArgument [])) ∧
      (win.state ≠ .vacant → argsOk → select.getLsbD 4 = true → win.state ≠ .staged →
        result = .next (afterResult s 0x41 8 .badState [])) ∧
      (win.state ≠ .vacant → argsOk → (select.getLsbD 4 = true → win.state = .staged) →
        (∀ a : Agent, win.admitSet.getLsbD a.val = true → admitSet.getLsbD a.val = true) →
        result =
          .next
            (afterResult
              (withWindow s w
                { win with
                  admitSet := admitSet
                  term := if select.getLsbD 1 then term else win.term
                  margin := if select.getLsbD 2 then margin else win.margin
                  closeDeadline := if select.getLsbD 3 then deadline else win.closeDeadline
                  rule := if select.getLsbD 4 then (if attrs.getLsbD 4 then .readOnly else .readWrite) else win.rule })
              0x41 8 .ok []))

/-- R9, R12: an accepted amend that removes agents writes every named field, ends the leases of the removed agents on the
window, in agent order, runs one grant evaluation on it and reports an empty context. What that leaves: the fields, the
freed entries, the answers and notices of the removed agents, and the leases of the others. -/
def Obligations.AmendWindowEndsRemovedLeases : Prop :=
  ∀ (window select attrs : Byte) (term : Half) (margin : Byte) (deadline : Half) (s : State) (w : WindowId),
    takesFrames s → w.val = window.toNat → (s.windows.get w).state ≠ .vacant → select.toNat < 32 →
    select.getLsbD 0 = true → attrs.toNat < 32 → (select.getLsbD 1 = true → term ≠ 0) →
    (select.getLsbD 3 = true → deadline ≠ 0) → (select.getLsbD 4 = true → (s.windows.get w).state = .staged) →
    let win := s.windows.get w
    let c := s.ctxs.get w
    let removes (a : Agent) : Bool := win.admitSet.getLsbD a.val && !attrs.getLsbD a.val
    let removed := allAgents.filter removes
    removed ≠ [] →
    let written : Window :=
      { win with
        admitSet := attrs.extractLsb' 0 4
        term := if select.getLsbD 1 then term else win.term
        margin := if select.getLsbD 2 then margin else win.margin
        closeDeadline := if select.getLsbD 3 then deadline else win.closeDeadline
        rule := if select.getLsbD 4 then (if attrs.getLsbD 4 then .readOnly else .readWrite) else win.rule }
    let t := (removed.foldl (fun u a => leaseRevoked u w a) (withWindow s w written)).settleWindow w
    exec (.amendWindow window select attrs term margin deadline) s = .next (afterResult t 0x41 8 .ok []) ∧
    t.windows = s.windows.set w written ∧
    (∀ v, v ≠ w → t.ctxs.get v = s.ctxs.get v) ∧
    t.resetn = s.resetn ∧ t.transfers = s.transfers ∧ t.targets = s.targets ∧ t.router = s.router ∧ t.quotas = s.quotas ∧ t.mgmt = s.mgmt ∧
    t.tb = s.tb ∧ t.outcomes = s.outcomes ∧ t.pending = s.pending ∧
    (LeaseLaw s →
      (∀ a, t.inUse.get a =
        s.inUse.get a - if removes a = true ∧ (c.holdOf a ≠ none ∨ c.waitOf a ≠ none) then 1 else 0) ∧
      ∀ a, removes a = true →
        (t.ctxs.get w).holdOf a = none ∧ (t.ctxs.get w).waitOf a = none ∧
        (∀ h, c.holdOf a = some h →
          ⟨.lost w .revoked, false⟩ ∈ (t.ports.get a).handed ∧
          (t.ctxs.get w).endings.get a = some ⟨h.serial, .revoked⟩ ∧
          (h.upgrading = true → ⟨0x04, .lost, w, [windowByte w], false⟩ ∈ (t.ports.get a).responses)) ∧
        ∀ x, c.waitOf a = some x → ⟨0x01, .notAdmitted, w, [windowByte w], false⟩ ∈ (t.ports.get a).responses)

/-- R81, R82: the checks of OPEN WINDOW in order, the claim on a READY target (OPEN at once, with OPEN_DONE and the
grant evaluation of R83), and on a WAKING, PARKED or PARKING one (OPENING). -/
def Obligations.OpenWindowClaimsTarget : Prop :=
  ∀ (window : Byte) (s : State), takesFrames s →
    let result := exec (.openWindow window) s
    (s.mgmt.running = false → result = .next (afterResult s 0x42 1 .notRunning [])) ∧
    (s.mgmt.running = true → 32 ≤ window.toNat → result = .next (afterResult s 0x42 1 .badArgument [])) ∧
    ∀ w : WindowId, w.val = window.toNat → s.mgmt.running = true →
      let win := s.windows.get w
      let x := s.targets.get win.target
      let counted := { x with useCount := x.useCount + 1 }
      (win.state ≠ .staged → result = .next (afterResult s 0x42 1 .badState [])) ∧
      (win.state = .staged → x.state = .faulted → result = .next (afterResult s 0x42 1 .targetFaulted [])) ∧
      (win.state = .staged → x.state = .ready →
        let u := withWindow (withTarget s win.target { counted with parkDeadline := none }) w { win with state := .opened }
        result =
          .next
            (afterResult
              (State.evaluate { u with mgmt := { u.mgmt with handed := u.mgmt.handed ++ [.openDone w] } } w)
              0x42 1 .accepted [3, 3])) ∧
      (win.state = .staged → x.state = .waking →
        result =
          .next
            (afterResult (withWindow (withTarget s win.target counted) w { win with state := .opening })
              0x42 1 .accepted [2, 2])) ∧
      (win.state = .staged → x.state = .parked →
        result =
          .next
            (afterResult
              (withWindow
                (withTarget s win.target
                  { counted with
                    state := .waking, twake := true, wakePending := false, parkDeadline := none,
                    interval := some ⟨.wake, x.wakeTime.toNat⟩ })
                w { win with state := .opening })
              0x42 1 .accepted [2, 2])) ∧
      (win.state = .staged → x.state = .parking →
        result =
          .next
            (afterResult
              (withWindow (withTarget s win.target { counted with wakePending := true }) w { win with state := .opening })
              0x42 1 .accepted [2, 4]))

/-- R86, R90, R91: a close that is refused changes nothing and reports the unchanged state with zero counts (reserved
flag bits likewise, log 27); a gentle close of a CLOSING window sets the retire flag. R14, R98: RETIRE WINDOW empties a
STAGED slot, and on a live window is CLOSE WINDOW GENTLE with the retire flag. -/
def Obligations.CloseRefusedAndRetireWindow : Prop :=
  (∀ (window flags : Byte) (s : State), takesFrames s →
     let result := exec (.closeWindow window flags) s
     (32 ≤ window.toNat → result = .next (afterResult s 0x43 2 .badArgument [0xFF, 0, 0, 0])) ∧
     ∀ w : WindowId, w.val = window.toNat →
       let win := s.windows.get w
       (4 ≤ flags.toNat → result = .next (afterResult s 0x43 2 .badArgument [win.state.code, 0, 0, 0])) ∧
       (flags.toNat < 4 → win.state = .vacant ∨ win.state = .staged →
         result = .next (afterResult s 0x43 2 .badState [win.state.code, 0, 0, 0])) ∧
       (flags = 0 → win.state = .closing → result = .next (afterResult s 0x43 2 .badState [4, 0, 0, 0])) ∧
       (flags = 2 → win.state = .closing →
         result =
           .next
             (afterResult
               (withWindow s w { win with pending := win.pending.map fun p => { p with retire := true } })
               0x43 2 .ok [4, 0, 0, 0]))) ∧
  (∀ (window : Byte) (s : State), takesFrames s →
     let result := exec (.retireWindow window) s
     (32 ≤ window.toNat → result = .next (afterResult s 0x44 1 .badArgument [0xFF, 0, 0, 0])) ∧
     ∀ w : WindowId, w.val = window.toNat →
       ((s.windows.get w).state = .vacant → result = .next (afterResult s 0x44 1 .badState [0, 0, 0, 0])) ∧
       ((s.windows.get w).state = .staged →
         result = .next (afterResult (withWindow s w Window.empty) 0x44 1 .ok [0, 0, 0, 1])) ∧
       ((s.windows.get w).state.live = true →
         ∃ t status payload,
           exec (.closeWindow window 2) s = .next (afterResult t 0x43 2 status payload) ∧
           result = .next (afterResult t 0x44 1 status payload)))

/-- R87: a close of an OPENING window, of either kind, completes at once. -/
def Obligations.CloseOfOpeningWindowCompletesAtOnce : Prop :=
  ∀ (window flags : Byte) (s : State) (w : WindowId), takesFrames s → w.val = window.toNat → flags.toNat < 4 →
    (s.windows.get w).state = .opening →
    let win := s.windows.get w
    let retire := flags.getLsbD 1
    exec (.closeWindow window flags) s =
      .next
        (afterResult
          (withTarget
            (withWindow (waitsClosed s w) w (if retire then Window.empty else { win with state := .staged }))
            win.target (left (s.targets.get win.target) s.tb.tick))
          0x43 2 .done
          [if retire then 0 else 1, BitVec.ofNat 8 (s.ctxs.get w).waiters.length, 0, 1])

/-- R88, R91, R96: a gentle close of an OPEN window ends its waits and its pending upgrade, each counted in the result,
tells each holder, keeps the holds, and completes in the step where the window has no holder and nothing in flight. R89,
R96: a forced close of an OPEN window ends its waits and its holds, and completes in the step where nothing is in flight. -/
def Obligations.CloseOfOpenWindow : Prop :=
  (∀ (window flags : Byte) (s : State) (w : WindowId), takesFrames s → w.val = window.toNat → flags = 0 ∨ flags = 2 →
     (s.windows.get w).state = .opened →
     let win := s.windows.get w
     let c := s.ctxs.get w
     let retire := flags.getLsbD 1
     let deadline : Deadline := ⟨s.tb.tick + BitVec.ofNat 32 win.closeDeadline.toNat, false⟩
     let begun := withWindow s w { win with state := .closing, pending := some ⟨false, retire, some deadline⟩ }
     let swept := closingHanded (upgradeClosed (waitsClosed begun w) w) w
     let empty := c.holders.isEmpty && c.inflight == 0
     exec (.closeWindow window flags) s =
       .next
         (afterResult (if empty then closeCompleted swept w else swept) 0x43 2 .accepted
           [closedCode empty retire, BitVec.ofNat 8 (waitCount c), 0, BitVec.ofNat 8 (bit empty)])) ∧
  (∀ (window flags : Byte) (s : State) (w : WindowId), takesFrames s → w.val = window.toNat → flags = 1 ∨ flags = 3 →
     (s.windows.get w).state = .opened →
     let win := s.windows.get w
     let c := s.ctxs.get w
     let retire := flags.getLsbD 1
     let begun := withWindow s w { win with state := .closing, pending := some ⟨true, retire, none⟩ }
     let swept := holdsClosed (waitsClosed begun w) w
     let empty := c.inflight == 0
     exec (.closeWindow window flags) s =
       .next
         (afterResult (if empty then closeCompleted swept w else swept) 0x43 2 .accepted
           [closedCode empty retire, BitVec.ofNat 8 c.waiters.length, BitVec.ofNat 8 c.holders.length,
             BitVec.ofNat 8 (bit empty)]))

/-- R90, R94, R96, on a CLOSING window, which has no waiter and no pending upgrade (R23, R90): a FORCE close and a due
close deadline turn a gentle close to FORCE, end the remaining holds, and complete it where nothing is in flight. -/
def Obligations.CloseTurnsToForce : Prop :=
  ∀ (s : State) (w : WindowId),
    let win := s.windows.get w
    let c := s.ctxs.get w
    let empty := c.inflight == 0
    let forced (retire : Bool) : State :=
      let swept := holdsClosed (nowForced s w retire) w
      if empty then closeCompleted swept w else swept
    (win.state = .closing → c.waiters = [] → ∀ p, win.pending = some p →
      (∀ window flags : Byte, takesFrames s → w.val = window.toNat → flags = 1 ∨ flags = 3 →
        exec (.closeWindow window flags) s =
          .next
            (afterResult (forced (flags.getLsbD 1)) 0x43 2 .ok
              [closedCode empty (p.retire || flags.getLsbD 1), 0, BitVec.ofNat 8 c.holders.length,
                BitVec.ofNat 8 (bit empty)])) ∧
      (p.force = false → (∃ d, p.deadline = some d ∧ d.due = true) →
        exec (.closeDeadline w) s = .next (forced false))) ∧
    (¬(win.state = .closing ∧ ∃ p d, win.pending = some p ∧ p.force = false ∧ p.deadline = some d ∧ d.due = true) →
      exec (.closeDeadline w) s = .next s)

/-- R96, R97: a report of an empty context completes the close when the window and its context stand so, and otherwise
has no effect; with no report handed nothing happens. -/
def Obligations.EmptyContextReportCompletesClose : Prop :=
  ∀ (w : WindowId) (s : State),
    let u : State := { s with emptyReports := s.emptyReports.erase w }
    let empty := (s.windows.get w).state = .closing ∧ (s.ctxs.get w).holders = [] ∧ (s.ctxs.get w).inflight = 0
    (w ∉ s.emptyReports → exec (.emptyContextReport w) s = .next s) ∧
    (w ∈ s.emptyReports → ¬empty → exec (.emptyContextReport w) s = .next u) ∧
    (w ∈ s.emptyReports → empty → exec (.emptyContextReport w) s = .next (closeCompleted u w))

/-- R174, R27, R117, R15, R28, R183: READ DEVICE, READ POOL, READ TARGET, READ WINDOW and READ LEASES post their
payloads and change nothing else. The codes of states, modes and access rules are those of section 11.6. -/
def Obligations.ReadRequestsReport : Prop :=
  (∀ s : State, takesFrames s →
     exec .readDevice s =
       .next
         (afterResult s 0x23 0 .ok
           ([BitVec.ofNat 8
               (bit s.mgmt.running + 2 * bit s.tb.divisor.isSome + 4 * bit s.mgmt.lending +
                 16 * bit s.mgmt.mask.targetFault + 32 * bit s.mgmt.mask.closeDone + 64 * bit s.mgmt.mask.openDone +
                 128 * bit s.mgmt.mask.poolRefusal),
               s.router.bus.code] ++
             be16 (s.tb.divisor.getD 0) ++ be32 s.tb.tick ++ be32 s.mgmt.fill ++
             [BitVec.ofNat 8 (countSet s.mgmt.attention.targetFault),
               BitVec.ofNat 8 (countSet s.mgmt.attention.closeDone),
               BitVec.ofNat 8 (countSet s.mgmt.attention.openDone),
               BitVec.ofNat 8 (countSet s.mgmt.attention.poolRefusal),
               BitVec.ofNat 8
                 ((s.ports.get 0).state.code.toNat + 4 * (s.ports.get 1).state.code.toNat +
                   16 * (s.ports.get 2).state.code.toNat + 64 * (s.ports.get 3).state.code.toNat)])) ∧
     exec .readPool s =
       .next
         (afterResult s 0x53 0 .ok
           [BitVec.ofNat 8 (s.inUse.get 0 + s.inUse.get 1 + s.inUse.get 2 + s.inUse.get 3),
             BitVec.ofNat 8 (s.inUse.get 0), BitVec.ofNat 8 (s.quotas.get 0),
             BitVec.ofNat 8 (s.inUse.get 1), BitVec.ofNat 8 (s.quotas.get 1),
             BitVec.ofNat 8 (s.inUse.get 2), BitVec.ofNat 8 (s.quotas.get 2),
             BitVec.ofNat 8 (s.inUse.get 3), BitVec.ofNat 8 (s.quotas.get 3)])) ∧
  (∀ (target : Byte) (s : State), takesFrames s →
     (8 ≤ target.toNat → exec (.readTarget target) s = .next (afterResult s 0x35 1 .badArgument [])) ∧
     ∀ t : TargetId, t.val = target.toNat →
       let x := s.targets.get t
       exec (.readTarget target) s =
         .next
           (afterResult s 0x35 1 .ok
             ([BitVec.ofNat 8 (x.state.code.toNat + 128 * bit x.twake)] ++
               be16 x.wakeTime ++ be16 x.parkTime ++ be16 x.parkDelay ++
               [x.limit,
                 BitVec.ofNat 8
                   (x.failures + 4 * bit (x.wakePending && x.state == .parking) +
                     8 * (match x.interval with
                       | none => 0
                       | some ⟨.wake, _⟩ => 1
                       | some ⟨.park, _⟩ => 2) +
                     32 * bit x.parkDeadline.isSome)] ++
               be16 (BitVec.ofNat 16 (match x.interval with
                 | none => 0
                 | some i => i.remaining)) ++
               be16 (match x.parkDeadline with
                 | none => 0
                 | some d => if d.due then 0 else (d.time - s.tb.tick).setWidth 16) ++
               [BitVec.ofNat 8 x.useCount,
                 BitVec.ofNat 8 (allWindows.countP fun w =>
                   (s.windows.get w).state != .vacant && (s.windows.get w).target == t)]))) ∧
  (∀ (window : Byte) (s : State), takesFrames s →
     (32 ≤ window.toNat →
       exec (.readWindow window) s = .next (afterResult s 0x45 1 .badArgument []) ∧
       exec (.readLeases window) s = .next (afterResult s 0x50 1 .badArgument [])) ∧
     ∀ w : WindowId, w.val = window.toNat →
       let win := s.windows.get w
       let c := s.ctxs.get w
       let upgrader := c.holders.find? fun h => h.upgrading
       let ticks (d : Option Deadline) (absent : Half) : Half :=
         match d with
         | none => absent
         | some d => if d.due then 0 else (d.time - s.tb.tick).setWidth 16
       exec (.readWindow window) s =
         .next
           (afterResult s 0x45 1 .ok
             ([BitVec.ofNat 8
                 (win.state.code.toNat + 8 * bit win.pending.isSome + 16 * bit (win.pending.any fun p => p.force) +
                   32 * bit (win.pending.any fun p => p.retire))] ++
               be24 win.base ++
               [BitVec.ofNat 8 win.k, BitVec.ofNat 8 win.target.val,
                 BitVec.ofNat 8 (win.admitSet.toNat + 16 * win.rule.code)] ++
               be24 win.offset ++ be16 win.term ++ [win.margin] ++ be16 win.closeDeadline ++
               be16 (ticks (win.pending.bind fun p => p.deadline) 0) ++
               [BitVec.ofNat 8 (c.holders.length + 8 * c.waiters.length + 64 * bit c.drain + 128 * bit upgrader.isSome),
                 BitVec.ofNat 8 c.inflight] ++
               be16 (c.serial.setWidth 16))) ∧
       exec (.readLeases window) s =
         .next
           (afterResult s 0x50 1 .ok
             ([BitVec.ofNat 8 (c.holders.length + c.waiters.length)] ++
               be16 (ticks (upgrader.bind fun h => h.deadline) 0xFFFF) ++
               (c.holders.flatMap fun h =>
                 [BitVec.ofNat 8
                     (h.agent.val + 8 * h.mode.code + 16 * bit h.once + 32 * bit h.warned + 64 * bit h.upgrading)] ++
                   be16 (h.serial.setWidth 16) ++ be16 (ticks (some h.expiry) 0)) ++
               (c.waiters.flatMap fun x =>
                 [BitVec.ofNat 8 (x.agent.val + 4 + 8 * x.mode.code + 16 * bit x.once)] ++
                   be16 (ticks x.deadline 0xFFFF) ++ be16 (x.term.getD 0))))) ∧
  (WindowState.vacant.code = 0 ∧ WindowState.staged.code = 1 ∧ WindowState.opening.code = 2 ∧
    WindowState.opened.code = 3 ∧ WindowState.closing.code = 4) ∧
  (TargetState.absent.code = 0 ∧ TargetState.parked.code = 1 ∧ TargetState.waking.code = 2 ∧
    TargetState.ready.code = 3 ∧ TargetState.parking.code = 4 ∧ TargetState.faulted.code = 5) ∧
  (Bus.ownedIdle.code = 0 ∧ (∀ a, (Bus.transfer a).code = 1) ∧ (∀ a, (Bus.releasing a).code = 2) ∧ Bus.lent.code = 3) ∧
  (PortState.idle.code = 0 ∧ PortState.waiting.code = 1 ∧ PortState.inReset.code = 2) ∧
  (Mode.shared.code = 0 ∧ Mode.exclusive.code = 1) ∧ (AccessRule.readWrite.code = 0 ∧ AccessRule.readOnly.code = 1)

/-! ### Leases -/

/-- R78: REVOKE LEASE ends the agent's hold with LOST, or its wait with REVOKED, or finds neither. -/
def Obligations.RevokeLeaseEndsHoldOrWait : Prop :=
  ∀ (window agent : Byte) (s : State), takesFrames s →
    let result := exec (.revokeLease window agent) s
    (32 ≤ window.toNat ∨ 4 ≤ agent.toNat → result = .next (afterResult s 0x51 2 .badArgument [])) ∧
    ∀ (w : WindowId) (a : Agent), w.val = window.toNat → a.val = agent.toNat →
      let c := s.ctxs.get w
      (∀ h, c.holdOf a = some h →
        result =
          .next
            (afterResult ((holdLost s w h .revoked .revoked).settleWindow w) 0x51 2 .ok
              ([0, BitVec.ofNat 8 h.mode.code] ++ be16 (h.serial.setWidth 16)))) ∧
      (∀ x, c.holdOf a = none → c.waitOf a = some x →
        result =
          .next
            (afterResult
              (((waitRemoved s w a).handResponse a 0x01 .revoked w [windowByte w]).settleWindow w) 0x51 2 .ok
              [1, BitVec.ofNat 8 x.mode.code, 0, 0])) ∧
      (c.holdOf a = none → c.waitOf a = none → result = .next (afterResult s 0x51 2 .nothing []))

/-- R25. -/
def Obligations.SetQuotaChecksThenWrites : Prop :=
  ∀ (agent quota : Byte) (s : State), takesFrames s →
    let result := exec (.setQuota agent quota) s
    let inRange := 1 ≤ quota.toNat ∧ quota.toNat ≤ 24
    (4 ≤ agent.toNat ∨ ¬inRange → result = .next (afterResult s 0x52 2 .badArgument [])) ∧
    ∀ a : Agent, a.val = agent.toNat → inRange →
      (quota.toNat < s.inUse.get a → result = .next (afterResult s 0x52 2 .badState [])) ∧
      (s.inUse.get a ≤ quota.toNat →
        result = .next (afterResult { s with quotas := s.quotas.set a quota.toNat } 0x52 2 .ok []))

/-- R31, R32, R33, R59: the grant evaluation. Nothing on a window that is not OPEN; a pending upgrade is granted when
its holder is alone and nothing is in flight, and ends the evaluation; otherwise heads are granted in order while they
can be. R36 steps 5 and 6, R96: what closes a step on a window runs one evaluation, then reports an empty context of a
CLOSING window; an evaluation changes nothing but the window's context and the responses handed to ports. -/
def Obligations.GrantEvaluation : Prop :=
  (∀ (s : State) (w : WindowId),
     let win := s.windows.get w
     let c := s.ctxs.get w
     (win.state ≠ .opened → s.evaluate w = s) ∧
     (win.state = .opened → ∀ h, (c.holders.find? fun g => g.upgrading) = some h →
       (c.holders.length = 1 → c.inflight = 0 →
         s.evaluate w =
           (upgradeGranted s w h).handResponse h.agent 0x04 .granted w
             (tokenPayload w (upgradedHold s w h) win.term)) ∧
       (c.holders.length ≠ 1 ∨ c.inflight ≠ 0 → s.evaluate w = s)) ∧
     (win.state = .opened → (∀ h ∈ c.holders, h.upgrading = false) →
       (c.waiters = [] → s.evaluate w = s) ∧
       ∀ x xs, c.waiters = x :: xs →
         let fits :=
           (x.mode = .exclusive ∧ c.holders = [] ∧ c.inflight = 0) ∨
           (x.mode = .shared ∧ (∀ h ∈ c.holders, h.mode = .shared) ∧ c.drain = false)
         let h := grantedHold s w x.agent x.mode x.once x.term
         (¬fits → s.evaluate w = s) ∧
         (fits →
           s.evaluate w =
             State.evaluate
               ((withCtx s w (grantedCtx { c with waiters := xs } h)).handResponse x.agent 0x01 .granted w
                 (tokenPayload w h (selectedTerm win x.term)))
               w))) ∧
  (∀ (s : State) (w : WindowId),
     let t := s.evaluate w
     (((s.windows.get w).state = .closing ∧ (t.ctxs.get w).holders = [] ∧ (t.ctxs.get w).inflight = 0 →
         s.settleWindow w = { t with emptyReports := t.emptyReports ++ [w] }) ∧
       (¬((s.windows.get w).state = .closing ∧ (t.ctxs.get w).holders = [] ∧ (t.ctxs.get w).inflight = 0) →
         s.settleWindow w = t)) ∧
     t = { s with ctxs := t.ctxs, ports := t.ports } ∧
     (∀ v, v ≠ w → t.ctxs.get v = s.ctxs.get v) ∧
     (t.ctxs.get w).inflight = (s.ctxs.get w).inflight ∧ (t.ctxs.get w).drain = (s.ctxs.get w).drain ∧
     (∀ a, t.ports.get a = { s.ports.get a with responses := (t.ports.get a).responses }) ∧
     (∀ a, ∃ more, (t.ports.get a).responses = (s.ports.get a).responses ++ more))

/-! ### Agent requests -/

/-- R37, R26: the checks of ACQUIRE in order; a refusal for want of room also hands POOL_REFUSAL over. -/
def Obligations.AcquireChecksInOrder : Prop :=
  ∀ (a : Agent) (window flags : Byte) (waitLimit term : Half) (s : State), canCommit s a →
    let refused (s : State) (status : Status) : Prop :=
      exec (.acquire a window flags waitLimit term) s =
        .next (afterAnswer s a 0x01 (acquireArgs window flags waitLimit term) status [])
    let noRoom (status : Status) : Prop :=
      exec (.acquire a window flags waitLimit term) s =
        .next
          (afterAnswer { s with mgmt := { s.mgmt with handed := s.mgmt.handed ++ [.poolRefusal a] } } a 0x01
            (acquireArgs window flags waitLimit term) status [])
    (s.mgmt.running = false → refused s .notRunning) ∧
    (s.mgmt.running = true → 32 ≤ window.toNat ∨ 4 ≤ flags.toNat → refused s .badArgument) ∧
    ∀ w : WindowId, w.val = window.toNat → flags.toNat < 4 → s.mgmt.running = true →
      let win := s.windows.get w
      let c := s.ctxs.get w
      (win.state = .vacant ∨ win.state = .staged → refused s .noWindow) ∧
      (win.state = .closing → refused s .closing) ∧
      (win.state = .opening ∨ win.state = .opened →
        (win.admitSet.getLsbD a.val = false → refused s .notAdmitted) ∧
        (win.admitSet.getLsbD a.val = true →
          ((s.targets.get win.target).state = .faulted → refused s .targetFaulted) ∧
          ((s.targets.get win.target).state ≠ .faulted →
            (c.holdOf a ≠ none ∨ c.waitOf a ≠ none → refused s .alreadyHeld) ∧
            (c.holdOf a = none → c.waitOf a = none →
              (24 ≤ s.poolUse → noRoom .noEntry) ∧
              (s.poolUse < 24 → s.quotas.get a ≤ s.inUse.get a → noRoom .quota)))))

/-- R38, R33, R47: an ACQUIRE that passes its checks is granted at once, refused for wait limit 0, or queued at the tail
with its port WAITING. -/
def Obligations.AcquireGrantsRefusesOrQueues : Prop :=
  ∀ (a : Agent) (window flags : Byte) (waitLimit term : Half) (s : State) (w : WindowId), canCommit s a →
    s.mgmt.running = true → w.val = window.toNat → flags.toNat < 4 →
    (s.windows.get w).state = .opening ∨ (s.windows.get w).state = .opened →
    (s.windows.get w).admitSet.getLsbD a.val = true →
    (s.targets.get (s.windows.get w).target).state ≠ .faulted →
    (s.ctxs.get w).holdOf a = none → (s.ctxs.get w).waitOf a = none → s.poolUse < 24 →
    s.inUse.get a < s.quotas.get a →
    let win := s.windows.get w
    let c := s.ctxs.get w
    let args := acquireArgs window flags waitLimit term
    let u := asked s a 0x01 args
    let mode : Mode := if flags.getLsbD 0 then .exclusive else .shared
    let once := flags.getLsbD 1
    let askedTerm : Option Half := if term = 0 then none else some term
    let now :=
      win.state = .opened ∧ c.waiters = [] ∧ (∀ h ∈ c.holders, h.upgrading = false) ∧
      (mode = .exclusive ∧ c.holders = [] ∧ c.inflight = 0 ∨
        mode = .shared ∧ (∀ h ∈ c.holders, h.mode = .shared) ∧ c.drain = false)
    let h := grantedHold s w a mode once askedTerm
    let wait : Wait :=
      { agent := a, mode := mode, once := once, term := askedTerm
        deadline :=
          if waitLimit = 0xFFFF then none else some ⟨s.tb.tick + BitVec.ofNat 32 waitLimit.toNat, false⟩ }
    let result := exec (.acquire a window flags waitLimit term) s
    (now →
      result =
        .next
          (afterResponse
            { withCtx u w (grantedCtx c h) with inUse := s.inUse.set a (s.inUse.get a + 1) } a 0x01 .granted
            (tokenPayload w h (selectedTerm win askedTerm)))) ∧
    (¬now → waitLimit = 0 →
      result = .next (afterAnswer s a 0x01 args (if win.state = .opening then .notOpen else .conflict) [])) ∧
    (¬now → waitLimit ≠ 0 →
      result =
        .next
          (nowWaiting
            { withCtx u w { c with waiters := c.waiters ++ [wait], endings := c.endings.set a none } with
              inUse := s.inUse.set a (s.inUse.get a + 1) }
            a))

/-- R39, R40: RELEASE ends the hold its token names, without a notice; DOWNGRADE makes it SHARED where it stands; each
is then followed by the grant evaluation. -/
def Obligations.ReleaseAndDowngradeActOnNamedHold : Prop :=
  ∀ (a : Agent) (tok : Token) (s : State), canCommit s a →
    let released := exec (.release a tok) s
    let downgraded := exec (.downgrade a tok) s
    (s.mgmt.running = false →
      released = .next (afterAnswer s a 0x02 (tokenBytes tok) .notRunning []) ∧
      downgraded = .next (afterAnswer s a 0x03 (tokenBytes tok) .notRunning [])) ∧
    (s.mgmt.running = true → stale s a tok →
      released = .next (afterAnswer s a 0x02 (tokenBytes tok) .stale []) ∧
      downgraded = .next (afterAnswer s a 0x03 (tokenBytes tok) .stale [])) ∧
    ∀ w h, s.mgmt.running = true → (s.ctxs.get w).holdOf a = some h → names tok w h →
      released =
        .next
          ((afterResponse (holdEnded (asked s a 0x02 (tokenBytes tok)) w h .released) a 0x02 .ok []).settleWindow w) ∧
      (h.mode = .shared → downgraded = .next (afterAnswer s a 0x03 (tokenBytes tok) .badState [])) ∧
      (h.mode = .exclusive →
        downgraded =
          .next
            ((afterResponse
                (holdChanged (asked s a 0x03 (tokenBytes tok)) w a fun h => { h with mode := .shared })
                a 0x03 .ok []).evaluate w))

/-- R56, R57, R59. -/
def Obligations.UpgradeGrantsRefusesOrPends : Prop :=
  ∀ (a : Agent) (tok : Token) (waitLimit : Half) (s : State), canCommit s a →
    let args := tokenBytes tok ++ le16 waitLimit
    let result := exec (.upgrade a tok waitLimit) s
    let refused (status : Status) : Prop := result = .next (afterAnswer s a 0x04 args status [])
    (s.mgmt.running = false → refused .notRunning) ∧
    (s.mgmt.running = true → stale s a tok → refused .stale) ∧
    ∀ w h, s.mgmt.running = true → (s.ctxs.get w).holdOf a = some h → names tok w h →
      let win := s.windows.get w
      let c := s.ctxs.get w
      let alone := c.holders.length = 1 ∧ c.inflight = 0
      (h.once = true → refused .badArgument) ∧
      (h.once = false → h.mode = .exclusive → refused .badState) ∧
      (h.once = false → h.mode = .shared → win.state = .closing → refused .closing) ∧
      (h.once = false → h.mode = .shared → win.state ≠ .closing →
        (alone →
          result =
            .next
              (afterResponse (upgradeGranted (asked s a 0x04 args) w h) a 0x04 .granted
                (tokenPayload w (upgradedHold s w h) win.term))) ∧
        (¬alone → waitLimit = 0 → refused .conflict) ∧
        (¬alone → waitLimit ≠ 0 → (∃ g ∈ c.holders, g.agent ≠ a ∧ g.upgrading = true) → refused .deadlock) ∧
        (¬alone → waitLimit ≠ 0 → (∀ g ∈ c.holders, g.agent ≠ a → g.upgrading = false) →
          result =
            .next
              (nowWaiting
                (holdChanged (asked s a 0x04 args) w a fun g =>
                  { g with
                    upgrading := true
                    deadline :=
                      if waitLimit = 0xFFFF then none
                      else some ⟨s.tb.tick + BitVec.ofNat 32 waitLimit.toNat, false⟩ })
                a)))

/-- R70, R69. -/
def Obligations.RenewMovesExpiry : Prop :=
  ∀ (a : Agent) (tok : Token) (term : Half) (s : State), canCommit s a →
    let args := tokenBytes tok ++ le16 term
    let result := exec (.renew a tok term) s
    let refused (status : Status) : Prop := result = .next (afterAnswer s a 0x05 args status [])
    (s.mgmt.running = false → refused .notRunning) ∧
    (s.mgmt.running = true → stale s a tok → refused .stale) ∧
    ∀ w h, s.mgmt.running = true → (s.ctxs.get w).holdOf a = some h → names tok w h →
      let win := s.windows.get w
      let used := selectedTerm win (if term = 0 then none else some term)
      (win.state ≠ .opened → refused .closing) ∧
      (win.state = .opened →
        result =
          .next
            (afterResponse
              (holdChanged (asked s a 0x05 args) w a fun g => timed g s.tb.tick used win.margin) a 0x05 .ok
              (tokenPayload w h used)))

/-- R62, R63, R151: ABANDON takes back the agent's one wait and posts its ABANDONED response and then its own OK; with no
wait it answers NOTHING. An ending handed to the port before it is posted first whatever the answer, in both device
states (log 28: R151's table has the ending's response first, and the rest is the model's choice). -/
def Obligations.AbandonEndsTheWait : Prop :=
  ∀ (a : Agent) (s : State), ¬portDown (s.ports.get a) → s.busShut a = false →
    let u := asked s a 0x06 []
    let p := u.ports.get a
    let q : Port := (p.responses.filter fun r => !r.stale).foldl endingPosted { p with responses := [] }
    let result := exec (.abandon a) s
    let noWaitBut (w : WindowId) : Prop :=
      ∀ v, v ≠ w → (s.ctxs.get v).waitOf a = none ∧ ∀ h ∈ (s.ctxs.get v).holders, ¬(h.agent = a ∧ h.upgrading = true)
    let noWait : Prop :=
      ∀ v, (s.ctxs.get v).waitOf a = none ∧ ∀ h ∈ (s.ctxs.get v).holders, ¬(h.agent = a ∧ h.upgrading = true)
    let replied (w : WindowId) : Notices := { q.notices with reply := q.notices.reply.set w true }
    let ended (v : State) (w : WindowId) : State :=
      State.evaluate
        (withPort v a
          { q with
            state := .idle, notices := replied w, airqn := airqLevel q.config (replied w)
            response := { code := 0x06, status := .ok, seq := q.response.seq + 1 + 1, payload := [windowByte w] } })
        w
    (s.mgmt.running = false → result = .next (afterResponse (withPort u a q) a 0x06 .notRunning [])) ∧
    (s.mgmt.running = true → noWait → result = .next (afterResponse (withPort u a q) a 0x06 .nothing [])) ∧
    (s.mgmt.running = true → ∀ w, noWaitBut w →
      (∀ x, (s.ctxs.get w).waitOf a = some x → result = .next (ended (waitRemoved u w a) w)) ∧
      (∀ h, (s.ctxs.get w).waitOf a = none → (s.ctxs.get w).holdOf a = some h → h.upgrading = true →
        result = .next (ended (upgradeCleared u w a) w)))

/-- R41, R181: QUERY WINDOW answers in both device states and changes nothing but the port's records. A hold with a pending
upgrade is reported as a hold alone, the model's choice (log 32). The last-ending causes are those of section 11.6. -/
def Obligations.QueryWindowReports : Prop :=
  ∀ (a : Agent) (window : Byte) (s : State), canCommit s a →
    let result := exec (.queryWindow a window) s
    (32 ≤ window.toNat → result = .next (afterAnswer s a 0x08 [window] .badArgument [])) ∧
    ∀ w : WindowId, w.val = window.toNat →
      let win := s.windows.get w
      let c := s.ctxs.get w
      let ticks (d : Deadline) : Half := if d.due then 0 else (d.time - s.tb.tick).setWidth 16
      let answers (lease : List Byte) : Prop :=
        result =
          .next
            (afterAnswer s a 0x08 [window] .ok
              ([win.state.code, BitVec.ofNat 8 win.k,
                  BitVec.ofNat 8 (win.rule.code + 2 * bit (win.admitSet.getLsbD a.val)),
                  BitVec.ofNat 8 (c.holders.length + 16 * c.waiters.length)] ++
                le32 (win.base.setWidth 32) ++ lease))
      (∀ h, c.holdOf a = some h →
        answers
          ([BitVec.ofNat 8 (1 + 4 * h.mode.code + 8 * bit h.once + 16 * bit h.warned + 32 * bit h.upgrading), 0] ++
            le16 (h.serial.setWidth 16) ++ le16 (ticks h.expiry))) ∧
      (∀ x, c.holdOf a = none → c.waitOf a = some x →
        answers
          ([BitVec.ofNat 8 (2 + 4 * x.mode.code + 8 * bit x.once), 0, 0, 0] ++
            le16 (match x.deadline with
              | none => 0xFFFF
              | some d => ticks d))) ∧
      (∀ e, c.holdOf a = none → c.waitOf a = none → c.endings.get a = some e →
        answers ([0, e.cause.code] ++ le16 (e.serial.setWidth 16) ++ [0, 0])) ∧
      (c.holdOf a = none → c.waitOf a = none → c.endings.get a = none → answers [0, 0, 0, 0, 0, 0]) ∧
      (Cause.released.code = 1 ∧ Cause.used.code = 2 ∧ Cause.expired.code = 3 ∧ Cause.revoked.code = 4 ∧
        Cause.closed.code = 5)

/-- R134, R181: READ FAULT answers the full record and empties it, and NOTHING when it is empty; for a recorded size
that is not legal the size code is a free value (log 16). The reasons are those of section 11.6. -/
def Obligations.ReadFaultEmptiesTheRecord : Prop :=
  ∀ (a : Agent) (s : State), canCommit s a →
    let u := asked s a 0x09 []
    ((s.ports.get a).fault = none → exec (.readFault a) s = .next (afterAnswer s a 0x09 [] .nothing [])) ∧
    ∀ f, (s.ports.get a).fault = some f →
      let payload (size : BitVec 3) : List Byte :=
        [f.reason.code,
          BitVec.ofNat 8 (bit f.write + 2 * size.toNat + 16 * bit f.window.isSome + 32 * bit f.further),
          (match f.window with
           | none => 0
           | some w => windowByte w), 0] ++ le32 (f.addr.setWidth 32)
      let answered (size : BitVec 3) : State :=
        afterResponse (withPort u a { u.ports.get a with fault := none }) a 0x09 .ok (payload size)
      (∀ i : Fin 6, f.size = 2 ^ i.val →
        exec (.readFault a) s = .next (answered (BitVec.ofNat 3 i.val))) ∧
      ((∀ i : Fin 6, f.size ≠ 2 ^ i.val) →
        ∃ size, exec (.readFault a) s = .next { answered size with free := s.free + 1 }) ∧
      (∀ r ∈
        ([(.notRunning, 1), (.badAlign, 2), (.noWindow, 3), (.targetFaulted, 4), (.noLease, 5), (.readOnly, 6),
           (.sharedWrite, 7), (.boundary, 8), (.targetError, 9), (.targetTimeout, 10)] : List (Reason × Byte)),
        r.1.code = r.2)

/-- R159, R158, R181: the non-empty kind of the highest urgency, the first in the fixed order among equals, and in it
the lowest window. R157, R180, R184: SET NOTICES writes the whole configuration, or nothing where a byte has a reserved
bit set. The LOST reasons and notice kinds are those of section 11.6. -/
def Obligations.TakeAndSetNotices : Prop :=
  (∀ (a : Agent) (s : State), canCommit s a →
     let u := asked s a 0x0A []
     let p := u.ports.get a
     let n := p.notices
     let picked (k : NoticeKind) : Prop :=
       n.has k = true ∧
       ∀ j, n.has j = true →
         (p.config.of j).urgency.toNat < (p.config.of k).urgency.toNat ∨
         (p.config.of j).urgency = (p.config.of k).urgency ∧ (noticeCode k).toNat ≤ (noticeCode j).toNat
     let took (rest : Notices) (payload : List Byte) : Prop :=
       exec (.takeNotice a) s =
         .next
           (afterResponse (withPort u a { p with notices := rest, airqn := airqLevel p.config rest }) a 0x0A .ok payload)
     ((∀ k, n.has k = false) → exec (.takeNotice a) s = .next (afterAnswer s a 0x0A [] .nothing [])) ∧
     (picked .fault → took { n with fault := false } [0]) ∧
     (picked .lost → ∀ w r, n.lost.get w = some r → (∀ v, v < w → n.lost.get v = none) →
       took { n with lost := n.lost.set w none } [1, windowByte w, r.code]) ∧
     (picked .closing → ∀ w, n.closing.get w = true → (∀ v, v < w → n.closing.get v = false) →
       took { n with closing := n.closing.set w false } [2, windowByte w]) ∧
     (picked .warning → ∀ w, n.warning.get w = true → (∀ v, v < w → n.warning.get v = false) →
       took { n with warning := n.warning.set w false } [3, windowByte w]) ∧
     (picked .reply → ∀ w, n.reply.get w = true → (∀ v, v < w → n.reply.get v = false) →
       took { n with reply := n.reply.set w false } [4, windowByte w])) ∧
  (∀ (a : Agent) (b1 b2 b3 b4 b5 : Byte) (s : State), canCommit s a →
     let args := [b1, b2, b3, b4, b5]
     let u := asked s a 0x0B args
     let p := u.ports.get a
     let legal (b : Byte) : Prop := b.extractLsb' 2 5 = 0
     let read (b : Byte) : NoticeSetting := ⟨b.getLsbD 7, b.extractLsb' 0 2⟩
     let config : NoticeConfig := ⟨read b1, read b2, read b3, read b4, read b5⟩
     let result := exec (.setNotices a b1 b2 b3 b4 b5) s
     ((∃ b ∈ args, ¬legal b) → result = .next (afterAnswer s a 0x0B args .badArgument [])) ∧
     ((∀ b ∈ args, legal b) →
       result =
         .next
           (afterResponse (withPort u a { p with config := config, airqn := airqLevel config p.notices }) a 0x0B .ok args))) ∧
  (LostReason.expired.code = 1 ∧ LostReason.revoked.code = 2 ∧ LostReason.closed.code = 3) ∧
  (noticeCode .fault = 0 ∧ noticeCode .lost = 1 ∧ noticeCode .closing = 2 ∧ noticeCode .warning = 3 ∧
    noticeCode .reply = 4)

/-- R148, R150, R151, R161, R147: a commit of a code that names no request is answered UNKNOWN; a WAITING port takes no
commit but ABANDON and sets the commit-refused flag; a commit of the record as it stands is the request that the record
holds, in every port state; a port IN_RESET, or whose PRSTn is low (R44), ignores writes and commits; while the agent's
data cycle is outstanding, or RESETn low, it makes no other cycle (log 6). -/
def Obligations.CommitsByPortState : Prop :=
  ∀ (a : Agent) (s : State) (b1 b2 b3 b4 b5 : Byte) (h1 h2 : Half) (tok : Token) (code : Byte),
    let p := s.ports.get a
    let rows : List (Instr × Byte × List Byte) :=
      [(.acquire a b1 b2 h1 h2, 0x01, acquireArgs b1 b2 h1 h2), (.release a tok, 0x02, tokenBytes tok),
        (.downgrade a tok, 0x03, tokenBytes tok), (.upgrade a tok h1, 0x04, tokenBytes tok ++ le16 h1),
        (.renew a tok h1, 0x05, tokenBytes tok ++ le16 h1), (.queryWindow a b1, 0x08, [b1]),
        (.readFault a, 0x09, []), (.takeNotice a, 0x0A, []),
        (.setNotices a b1 b2 b3 b4 b5, 0x0B, [b1, b2, b3, b4, b5]), (.unknownCommit a code, code, [])]
    let none1 := code.toNat = 0 ∨ code.toNat = 7 ∨ 12 ≤ code.toNat
    (canCommit s a → none1 → exec (.unknownCommit a code) s = .next (afterAnswer s a code [] .unknown [])) ∧
    (s.busShut a = false → ¬portDown p → p.state = .waiting → none1 → ∀ r ∈ rows,
      exec r.1 s =
        .next
          (withPort s a
            { p with
              request := ⟨r.2.1, writeArgs p.request.args r.2.2⟩, commitRefused := true, ended := some (.write false) })) ∧
    (s.busShut a = false → ¬portDown p → p.state = .waiting → p.request.code ≠ 0x06 →
      exec (.commitRefused a) s = .next (withPort s a { p with commitRefused := true, ended := some (.write false) })) ∧
    (∀ r ∈ (.abandon a, 0x06, []) :: rows, p.request = ⟨r.2.1, writeArgs p.request.args r.2.2⟩ →
      exec (.commitRefused a) s = exec r.1 s) ∧
    (s.busShut a = false → portDown p → ∀ i ∈ .commitRefused a :: .abandon a :: rows.map Prod.fst,
      exec i s = .next (withPort s a { p with ended := some (.write false) })) ∧
    (s.busShut a = true → ∀ i ∈ .commitRefused a :: .abandon a :: rows.map Prod.fst, exec i s = .next s)

/-- R147, R148, R155, R179: a write in the control aperture changes the request-record bytes it covers and nothing else;
at the commit location it is a commit; a burst or a misaligned access ends with AERR and the fill value and changes
nothing, in every port state (log 33, and log 17 for the beats of an illegal size); a read returns the bytes of the
status word, of the two records and zero elsewhere, as they stand (log 20: through BAD_CONTROL_CYCLE; log 21: zero beyond
the response's payload). -/
def Obligations.ControlApertureCycles : Prop :=
  (∀ (a : Agent) (offset : Half) (size : Nat) (data : List Byte) (s : State), s.busShut a = false →
     let p := s.ports.get a
     let good := (size = 1 ∨ size = 2 ∨ size = 4) ∧ offset.toNat % size = 0
     let atCommit := 0x40 ≤ offset.toNat ∧ offset.toNat < 0x44
     let written (at_ : Nat) (old : Byte) : Byte :=
       if offset.toNat ≤ at_ ∧ at_ < offset.toNat + size then data.getD (at_ - offset.toNat) 0 else old
     (good → ¬atCommit → data.length = size → ¬portDown p →
       ∃ args : Tbl Byte 8, (∀ i, args.get i = written (0x12 + i.val) (p.request.args.get i)) ∧
         exec (.controlApertureWrite a offset size data) s =
           .next
             (withPort s a
               { p with request := ⟨written 0x10 p.request.code, args⟩, ended := some (.write false) })) ∧
     (good → ¬atCommit → portDown p →
       exec (.controlApertureWrite a offset size data) s =
         .next (withPort s a { p with ended := some (.write false) })) ∧
     (good → atCommit → exec (.controlApertureWrite a offset size data) s = exec (.commitRefused a) s) ∧
     (∀ write, ¬good →
       exec (.badControlCycle a offset write size data) s =
         .next
           (withPort s a
             { p with
               ended :=
                 some
                   (if write then .write true
                    else .beats true (List.replicate (max 1 ((size + 3) / 4)) s.mgmt.fill)) })) ∧
     (good →
       exec (.badControlCycle a offset false size data) s =
         .next
           (withPort s a
             { p with ended := some (.bytes ((List.range size).map fun i => controlByte s a (offset.toNat + i))) })) ∧
     exec (.badControlCycle a offset true size data) s = exec (.controlApertureWrite a offset size data) s) ∧
  (∀ (a : Agent) (s : State),
     let p := s.ports.get a
     let byte := controlByte s a
     let word := statusWord s a
     (word.extractLsb' 0 2 =
         (match p.state with
          | .idle => 0
          | .waiting => 1
          | .inReset => 2) ∧
       word.getLsbD 2 = p.commitRefused ∧ word.getLsbD 3 = s.mgmt.running ∧ word.getLsbD 4 = p.fault.isSome ∧
       word.extractLsb' 5 3 = 0 ∧ word.extractLsb' 8 8 = p.response.seq ∧
       word.getLsbD 16 = p.notices.fault ∧ (word.getLsbD 17 = true ↔ ∃ w, p.notices.lost.get w ≠ none) ∧
       (word.getLsbD 18 = true ↔ ∃ w, p.notices.closing.get w = true) ∧
       (word.getLsbD 19 = true ↔ ∃ w, p.notices.warning.get w = true) ∧
       (word.getLsbD 20 = true ↔ ∃ w, p.notices.reply.get w = true) ∧ word.extractLsb' 21 11 = 0) ∧
     (∀ i, i < 4 → byte i = word.extractLsb' (8 * i) 8) ∧
     byte 0x10 = p.request.code ∧ (∀ i : Fin 8, byte (0x12 + i.val) = p.request.args.get i) ∧
     (byte 0x80 = p.response.code ∧ byte 0x81 = p.response.status.code ∧ byte 0x82 = p.response.seq ∧
       byte 0x83 = BitVec.ofNat 8 p.response.payload.length ∧
       ∀ i, i < 28 → byte (0x84 + i) = p.response.payload.getD i 0) ∧
     ∀ i, 4 ≤ i → i ≠ 0x10 → ¬(0x12 ≤ i ∧ i < 0x1A) → ¬(0x80 ≤ i ∧ i < 0xA0) → byte i = 0)

/-! ### The data path -/

/-- R119, R121 checks 1 and 2, R123, R136: the Router takes a cycle of the data aperture and refuses it NOT_RUNNING or
BAD_ALIGN, or asks for the decode; a port IN_RESET, or whose PRSTn is low (R44), answers none; a cycle offered while the
Router still works on one that a reset abandoned is held (log 12). The beats of a refused read of an illegal size are the
model's choice (log 17), and so is that a fall of PRSTn the Router still owes does not concern a cycle taken after it (log
10). An agent makes no cycle while RESETn is low or its own data cycle is outstanding (log 6). -/
def Obligations.DataCycleTakenOrRefused : Prop :=
  ∀ (a : Agent) (c : BusCycle) (s : State), c.addr.toNat < 0xFF0000 →
    let result := exec (.dataCycle a c) s
    let path := s.router.paths.get a
    let idle := path.slot = .empty ∧ path.admission = none
    (s.busShut a = true ↔
      s.resetn = false ∨ path.held ≠ none ∨
        path.abandoned = false ∧
          (path.admission ≠ none ∨ (∃ x, path.slot = .queued x) ∨ ∃ x, path.slot = .active x false)) ∧
    (s.busShut a = true ∨ portDown (s.ports.get a) → result = .next s) ∧
    (s.busShut a = false → ¬portDown (s.ports.get a) →
      (idle → s.mgmt.running = false → result = .next (cycleRefused s a .notRunning c none)) ∧
      (idle → s.mgmt.running = true → ¬aligned c → result = .next (cycleRefused s a .badAlign c none)) ∧
      (idle → s.mgmt.running = true → aligned c →
        result =
          .next
            (withPath s a
              { path with admission := some ⟨c, .decode, false⟩, abandoned := false, dropStale := path.dropOwed })) ∧
      (¬idle → result = .next (withPath s a { path with held := some c })))

/-- R16, R121 check 3: the decode of the cycle's first address, answered by an OPEN or CLOSING window that covers it.
R121 check 4: the target read of the cycle. A refusal of a cycle that a reset abandoned, or at a port IN_RESET, is
discarded (R123). That the target read is an ADDRESS_DECODE with an operand of its own is the model's choice (log 8); a
question that the admission does not ask finds nothing to answer (log 22). -/
def Obligations.DecodeAndTargetReadAnswer : Prop :=
  (∀ (a : Agent) (d : Admission) (s : State), (s.router.paths.get a).admission = some d → d.phase = .decode →
     WindowLaw s →
     let result := exec (.addressDecode a .decode) s
     let hits (w : WindowId) : Prop :=
       ((s.windows.get w).state = .opened ∨ (s.windows.get w).state = .closing) ∧
       (s.windows.get w).base.toNat ≤ d.cycle.addr.toNat ∧ d.cycle.addr.toNat < (s.windows.get w).endAddr
     ((∀ w, ¬hits w) → result = .next (refusalSettled s a .noWindow d.cycle none)) ∧
     ∀ w, hits w →
       let win := s.windows.get w
       let hit : Hit :=
         { window := w, state := win.state, target := win.target, readOnly := win.rule == .readOnly,
           endAddr := win.endAddr, targetAddr := win.offset + (d.cycle.addr - win.base) }
       result = .next (withPath s a { s.router.paths.get a with admission := some { d with phase := .target hit } })) ∧
  (∀ (a : Agent) (d : Admission) (hit : Hit) (s : State), (s.router.paths.get a).admission = some d →
     d.phase = .target hit →
     let result := exec (.addressDecode a .target) s
     ((s.targets.get hit.target).state = .faulted →
       result = .next (refusalSettled s a .targetFaulted d.cycle (some hit.window))) ∧
     ((s.targets.get hit.target).state ≠ .faulted →
       result = .next (withPath s a { s.router.paths.get a with admission := some { d with phase := .claim hit } }))) ∧
  (∀ (a : Agent) (s : State),
     ((∀ d, (s.router.paths.get a).admission = some d → d.phase ≠ .decode) →
       exec (.addressDecode a .decode) s = .next s) ∧
     ((∀ d hit, (s.router.paths.get a).admission = some d → d.phase ≠ .target hit) →
       exec (.addressDecode a .target) s = .next s))

/-- R34, R121 checks 5 to 8, R125, R135: the claim is refused in the order of the checks, or admitted: counted, QUEUED
with its once marker, and offered to the arbiter where the bus is idle; an access whose fall of PRSTn the Router took
during the admission is dropped instead (log 11). A refusal of a cycle that a reset abandoned, or at a port IN_RESET, is
discarded (R123). A target read that is still to be taken is taken first (check 4, log 8). -/
def Obligations.ClaimChecksThenAdmits : Prop :=
  (∀ (a : Agent) (d : Admission) (hit : Hit) (s : State), (s.router.paths.get a).admission = some d →
     d.phase = .claim hit ∨ d.phase = .target hit ∧ (s.targets.get hit.target).state ≠ .faulted →
     let c := d.cycle
     let result := exec (.admissionClaim a) s
     let x := s.ctxs.get hit.window
     let refused (r : Reason) : Prop := result = .next (refusalSettled s a r c (some hit.window))
     (x.holdOf a = none → refused .noLease) ∧
     ∀ h, x.holdOf a = some h →
       let access : Access :=
         { window := hit.window, target := hit.target, targetAddr := hit.targetAddr, cycle := c, serial := h.serial,
           once := h.once }
       let admitted :=
         withPath (withCtx s hit.window { x with inflight := x.inflight + 1 }) a
           { s.router.paths.get a with slot := .queued access, admission := none }
       let passes :=
         (c.write = true → hit.readOnly = false ∧ h.mode = .exclusive) ∧ c.addr.toNat + c.size ≤ hit.endAddr
       (c.write = true → hit.readOnly = true → refused .readOnly) ∧
       (c.write = true → hit.readOnly = false → h.mode = .shared → refused .sharedWrite) ∧
       ((c.write = true → hit.readOnly = false ∧ h.mode = .exclusive) → hit.endAddr < c.addr.toNat + c.size →
         refused .boundary) ∧
       (passes → d.drop = true → result = .next (accessDropped admitted a access)) ∧
       (passes → d.drop = false → s.router.bus ≠ .ownedIdle → result = .next admitted) ∧
       (passes → d.drop = false → s.router.bus = .ownedIdle → result = .next (State.arbitrate 4 admitted))) ∧
  (∀ (a : Agent) (d : Admission) (hit : Hit) (s : State), (s.router.paths.get a).admission = some d →
     d.phase = .target hit → (s.targets.get hit.target).state = .faulted →
     exec (.admissionClaim a) s = .next (refusalSettled s a .targetFaulted d.cycle (some hit.window))) ∧
  (∀ (a : Agent) (s : State), (∀ d, (s.router.paths.get a).admission = some d → d.phase = .decode) →
     exec (.admissionClaim a) s = .next s)

/-- R127, R128: a decision is taken on an idle bus with a QUEUED slot; the first QUEUED slot from the pointer wins and
the pointer moves past it; a READY target's transfer starts with the next number (log 34), a FAULTED target's access completes without one, the cycle is
ended TARGET_FAULTED unless it is gone, a held cycle is taken (R136, log 7), and the next decision follows. -/
def Obligations.ArbiterServesFromThePointer : Prop :=
  ∀ (n : Nat) (s : State),
    let queued (a : Agent) : Prop := ∃ x, (s.router.paths.get a).slot = .queued x
    (s.router.bus ≠ .ownedIdle ∨ (∀ a, ¬queued a) → State.arbitrate (n + 1) s = s) ∧
    ∀ (d : Fin 4) (x : Access), s.router.bus = .ownedIdle →
      (s.router.paths.get (s.router.pointer + d)).slot = .queued x →
      (∀ e : Fin 4, e < d → ¬queued (s.router.pointer + e)) →
      let a := s.router.pointer + d
      let u : State := { s with router := { s.router with pointer := a + 1 } }
      ((s.targets.get x.target).state = .ready →
        State.arbitrate (n + 1) s =
          withPath
            { u with
              transfers := s.transfers + 1
              router :=
                { u.router with
                  bus := .transfer a
                  limit := some (s.targets.get x.target).limit.toNat
                  lines := .transfer x.target x.targetAddr x.cycle.write x.cycle.size x.cycle.data } }
            a { s.router.paths.get a with slot := .active x false }) ∧
      ((s.targets.get x.target).state = .faulted →
        let v := accessCounted (transferOver u a) x a
        State.arbitrate (n + 1) s =
          State.arbitrate n
            (heldTaken (if cycleLost s a then v else cycleFailed v a .targetFaulted x.cycle (some x.window)) a))

/-- R129, R130, R131, R136, R141: TACK and TERR end the transfer on the bus, and are ignored where there is none or where
they answer one that has ended (numbered by the model, log 34); a cycle that is gone is not ended; a cycle that the handshake holds is taken (log 7); the arbiter decides where the bus is back.
R66, R129: the response limit ends the transfer only once its interval has run out. The operand that says whether the
outcome reports handed so far are taken before the arbiter's read of the next target is the model's (log 9);
OutcomeReportCounts says what taking them does. -/
def Obligations.TransferEnds : Prop :=
  (∀ (s : State) (beats : Tbl (BitVec 32) 8),
     (∀ n, s.router.bus = .ownedIdle ∨ s.router.bus = .lent ∨ n ≠ s.transfers →
       exec (.tack ⟨n, beats⟩) s = .next s ∧ ∀ first, exec (.terr ⟨n, first⟩) s = .next s) ∧
     ∀ a x discard, carrying s a x discard →
       exec (.tack ⟨s.transfers, beats⟩) s =
         .next (State.arbitrate 4 (transferDone s a x discard .success beats)) ∧
       exec (.terr ⟨s.transfers, false⟩) s =
         .next (State.arbitrate 4 (transferDone s a x discard .targetError (Tbl.fill 8 0))) ∧
       exec (.terr ⟨s.transfers, true⟩) s =
         .next (State.arbitrate 4 (transferDone s a x discard .targetError (Tbl.fill 8 0)).takeOutcomes)) ∧
  (∀ (s : State) (first : Bool),
     (s.router.limit ≠ some 0 → exec (.responseLimit first) s = .next s) ∧
     ∀ a x discard, carrying s a x discard → s.router.limit = some 0 →
       let t := transferDone s a x discard .targetTimeout (Tbl.fill 8 0)
       exec (.responseLimit first) s = .next (State.arbitrate 4 (if first then t.takeOutcomes else t)))

/-! ### Bus lending -/

/-- R138, R140: a rise of BREQ; while BREQ is high none is taken. R138, R142, R143: a fall of BREQ; ending a loan lets
the arbiter decide. -/
def Obligations.BusLendingByBusState : Prop :=
  (∀ s : State,
     let risen : Router := { s.router with breq := true }
     let taken := exec .busRequest s
     (s.router.breq = true → taken = .next s) ∧
     (s.router.breq = false → s.mgmt.lending = false → taken = .next { s with router := risen }) ∧
     (s.router.breq = false → s.mgmt.lending = true → s.router.bus = .ownedIdle →
       taken = .next { s with router := { risen with bus := .lent, lines := .floating, bgnt := true } }) ∧
     (∀ a, s.router.breq = false → s.mgmt.lending = true → s.router.bus = .transfer a →
       taken = .next { s with router := { risen with bus := .releasing a } })) ∧
  (∀ s : State,
     let fallen : Router := { s.router with breq := false }
     let taken := exec .withdrawal s
     (s.router.breq = false → taken = .next s) ∧
     (s.router.breq = true → s.mgmt.lending = false → taken = .next { s with router := fallen }) ∧
     (∀ a, s.router.breq = true → s.mgmt.lending = true → s.router.bus = .releasing a →
       taken = .next { s with router := { fallen with bus := .transfer a } }) ∧
     (s.router.breq = true → s.mgmt.lending = true → s.router.bus = .lent →
       taken =
         .next
           (State.arbitrate 4
             { s with router := { fallen with bus := .ownedIdle, lines := .idle, bgnt := false } })) ∧
     (s.router.breq = true → s.mgmt.lending = true → (s.router.bus = .ownedIdle ∨ ∃ a, s.router.bus = .transfer a) →
       taken = .next { s with router := fallen }))

/-! ### Port reset -/

/-- R160, R161, R44: the fall of PRSTn at the port, a new one or the one that the Router took first (log 10). Its records,
sets and flags take their reset values, its agent's leases end window by window with the evaluation and the empty-context
report of each, and the tables the rule names are untouched; what was handed before is discarded when it arrives (log 5),
and a cycle that the handshake holds is withdrawn (log 12). -/
def Obligations.PortResetClearsThePort : Prop :=
  ∀ (a : Agent) (s : State), s.resetn = true →
    let p := s.ports.get a
    let path := s.router.paths.get a
    let fallen : State :=
      if p.prstn then portFallen (withPath s a { path with dropOwed := true, dropStale := false }) a else portFallen s a
    (p.prstn = false → p.fallOwed = false → exec (.portReset a) s = .next s) ∧
    (p.prstn = true ∨ p.fallOwed = true → exec (.portReset a) s = .next fallen) ∧
    (let q := fallen.ports.get a
     q.state = .inReset ∧ q.prstn = false ∧ q.request = ⟨0, Tbl.fill 8 0⟩ ∧ q.response = ⟨0, .nothing, 0, []⟩ ∧
     q.commitRefused = false ∧ q.notices = .empty ∧ q.config = .reset ∧ q.fault = none ∧ q.airqn = true ∧
     q.fallOwed = false ∧ (∀ r ∈ p.responses, { r with stale := true } ∈ q.responses) ∧
     q.handed = p.handed.map fun n => { n with stale := true }) ∧
    (∀ b, b ≠ a → ∃ more, fallen.ports.get b =
      { s.ports.get b with responses := (s.ports.get b).responses ++ more }) ∧
    (∀ w, (s.ctxs.get w).holdOf a = none → (s.ctxs.get w).waitOf a = none → fallen.ctxs.get w = s.ctxs.get w) ∧
    (fallen.router.paths.get a).slot = path.slot ∧ (fallen.router.paths.get a).admission = path.admission ∧
    (fallen.router.paths.get a).held = none ∧ fallen.router.bus = s.router.bus ∧
    fallen.router.pointer = s.router.pointer ∧ fallen.transfers = s.transfers ∧ fallen.windows = s.windows ∧ fallen.targets = s.targets ∧
    fallen.quotas = s.quotas ∧ fallen.mgmt = s.mgmt ∧ fallen.tb = s.tb ∧
    (LeaseLaw s →
      (∀ w, (fallen.ctxs.get w).holdOf a = none ∧ (fallen.ctxs.get w).waitOf a = none) ∧
      ∀ w h, (s.ctxs.get w).holdOf a = some h → (fallen.ctxs.get w).endings.get a = some ⟨h.serial, .released⟩) ∧
    (LeaseLaw s → PoolLaw s → fallen.inUse = s.inUse.set a 0)

/-- R162, R161, R152: PRSTn rising makes the port IDLE and changes nothing else; a fall that the port still owes is taken
first; a second rise finds nothing to do. R135: the Router's step for a fall of PRSTn, the one that the port took first or
a new one; an admission under way is settled after its answer (log 11), and a cycle that the handshake holds is taken when
the slot empties (log 7). One fall taken in two steps, and the two flags that remember which block still owes it, are the
model's inference (log 10), as is that a cycle taken after the fall is not dropped by it. -/
def Obligations.PrstnRiseAndAccessDrop : Prop :=
  (∀ (a : Agent) (s : State), s.resetn = true →
     let p := s.ports.get a
     (p.prstn = true → exec (.prstnRise a) s = .next s) ∧
     (p.prstn = false → p.fallOwed = false →
       exec (.prstnRise a) s = .next (withPort s a { p with state := .idle, prstn := true })) ∧
     (p.prstn = false → p.fallOwed = true →
       let u := portFallen s a
       exec (.prstnRise a) s = .next (withPort u a { u.ports.get a with state := .idle, prstn := true }))) ∧
  (∀ (a : Agent) (s : State), s.resetn = true →
     let p := s.ports.get a
     let q := s.router.paths.get a
     let taken := exec (.accessDrop a) s
     let drops (u : State) (path : Path) : Prop :=
       (∀ d, path.admission = some d →
         taken = .next (withPath u a { path with admission := some { d with drop := true } })) ∧
       (path.admission = none →
         (path.slot = .empty → taken = .next u) ∧
         (∀ x, path.slot = .queued x → taken = .next (accessDropped u a x)) ∧
         ∀ x d, path.slot = .active x d → taken = .next (withPath u a { path with slot := .active x true }))
     let settled : Path := { q with dropOwed := false, dropStale := false }
     (q.dropOwed = false → p.prstn = false → taken = .next s) ∧
     (q.dropOwed = true → q.dropStale = true → taken = .next (withPath s a settled)) ∧
     (q.dropOwed = true → q.dropStale = false → drops (withPath s a settled) settled) ∧
     (q.dropOwed = false → p.prstn = true → drops (withPort s a { p with prstn := false, fallOwed := true }) q))

/-! ### Time -/

/-- R64, R65, R67: a tick advances the count by 1 with wrap, starts the next tick, and makes due every deadline with the
new value; while the divisor is unset there is none, and none before the 1000 microsecond steps of the tick (log 14). The
due mark, which stands until its event is taken, is the model's choice (log 13). -/
def Obligations.TickMakesDeadlinesDue : Prop :=
  ∀ s : State,
    let now := s.tb.tick + 1
    let due (d : Option Deadline) : Option Deadline := d.map (dueAt now)
    (s.tb.divisor = none ∨ s.tb.steps < 1000 → exec .tick s = .next s) ∧
    (s.tb.divisor ≠ none → 1000 ≤ s.tb.steps →
      ∃ t, exec .tick s = .next t ∧
        t = { s with tb := t.tb, windows := t.windows, ctxs := t.ctxs, targets := t.targets } ∧
        t.tb = ⟨s.tb.divisor, now, 0, 0⟩ ∧
        (∀ w, t.windows.get w =
          { s.windows.get w with
            pending := (s.windows.get w).pending.map fun p => { p with deadline := due p.deadline } }) ∧
        (∀ w, t.ctxs.get w =
          { s.ctxs.get w with
            holders :=
              (s.ctxs.get w).holders.map fun h =>
                { h with expiry := dueAt now h.expiry, warning := due h.warning, deadline := due h.deadline }
            waiters := (s.ctxs.get w).waiters.map fun x => { x with deadline := due x.deadline } }) ∧
        ∀ i, t.targets.get i = { s.targets.get i with parkDeadline := due (s.targets.get i).parkDeadline })

/-- R65, R66: a microsecond step counts every running interval down by one; its moment in the tick is exact where the
divisor is a multiple of 1000 and within one REFCLK period otherwise (a free value, log 15); there are none while the
divisor is unset and no more than 1000 in a tick (log 14). -/
def Obligations.MicrosecondStepCountsIntervalsDown : Prop :=
  ∀ s : State,
    (s.tb.divisor = none ∨ 1000 ≤ s.tb.steps → exec .microsecondStep s = .next s) ∧
    ∀ d, s.tb.divisor = some d → s.tb.steps < 1000 → s.tb.position ≤ (s.tb.steps * d.toNat + 1000) / 1000 →
      let k := s.tb.steps + 1
      ∃ (position : Nat) (t : State), exec .microsecondStep s = .next t ∧
        t =
          { s with
            tb := { s.tb with steps := k, position := position }
            targets := t.targets
            router := { s.router with limit := s.router.limit.map fun n => n - 1 }
            free := s.free + 1 } ∧
        (∀ i, t.targets.get i =
          { s.targets.get i with
            interval := (s.targets.get i).interval.map fun x => ⟨x.kind, x.remaining - 1⟩ }) ∧
        (d.toNat % 1000 = 0 ∨ k = 1000 → position = k * d.toNat / 1000) ∧
        1000 * position ≤ k * d.toNat + 1000 ∧ k * d.toNat ≤ 1000 * position + 1000

/-- R75, R73: an expiry ends the hold EXPIRED; a warning sets the warned flag and hands a WARNING item over; each acts
only on a hold that still has the due time. R53: the deadline of a WAIT entry ends it TIMED_OUT; that of a pending
upgrade takes the upgrade back with the hold kept. -/
def Obligations.LeaseDeadlinesAct : Prop :=
  (∀ (w : WindowId) (a : Agent) (s : State),
     let c := s.ctxs.get w
     let warns (h : Hold) : Prop := (∃ d, h.warning = some d ∧ d.due = true) ∧ h.warned = false
     (c.holdOf a = none → exec (.expiry w a) s = .next s ∧ exec (.warningTime w a) s = .next s) ∧
     ∀ h, c.holdOf a = some h →
       (h.expiry.due = false → exec (.expiry w a) s = .next s) ∧
       (h.expiry.due = true → exec (.expiry w a) s = .next ((holdLost s w h .expired .expired).settleWindow w)) ∧
       (¬warns h → exec (.warningTime w a) s = .next s) ∧
       (warns h →
         exec (.warningTime w a) s =
           .next ((holdChanged s w a fun g => { g with warned := true }).handNotice a (.warning w)))) ∧
  (∀ (w : WindowId) (a : Agent) (s : State),
     let c := s.ctxs.get w
     let due (d : Option Deadline) : Prop := ∃ x, d = some x ∧ x.due = true
     let result := exec (.waitDeadline w a) s
     (∀ x, c.waitOf a = some x →
       (¬due x.deadline → result = .next s) ∧
       (due x.deadline →
         result =
           .next (((waitRemoved s w a).handResponse a 0x01 .timedOut w [windowByte w]).settleWindow w))) ∧
     (c.waitOf a = none → ∀ h, c.holdOf a = some h →
       (¬(h.upgrading = true ∧ due h.deadline) → result = .next s) ∧
       (h.upgrading = true → due h.deadline →
         result =
           .next
             (((upgradeCleared s w a).handResponse a 0x04 .timedOut w
                 ([windowByte w, 0] ++ le16 (h.serial.setWidth 16))).settleWindow w))) ∧
     (c.waitOf a = none → c.holdOf a = none → result = .next s))

/-! ### Hand-offs -/

/-- R175, R176: the oldest item handed of the kind joins its set and ATTN takes its level; with no such item nothing
changes (log 3, log 4). R153, R154, R52: the port posts the oldest response handed to it, with REPLY and IDLE, or
discards it IN_RESET or where a reset came between; an accepted STOP takes the endings handed to WAITING ports before it,
the model's choice (R149, R173, log 31). R156, R158: an item handed joins the set of its kind, a LOST item
taking the new reason, or is discarded IN_RESET or where a reset came between. -/
def Obligations.HandoffsJoinOrDiscard : Prop :=
  (∀ (k : AttnKind) (s : State),
     ((∀ i ∈ s.mgmt.handed, i.kind ≠ k) → exec (.attentionHandoff k) s = .next s) ∧
     (∀ before i later, s.mgmt.handed = before ++ i :: later → (∀ j ∈ before, j.kind ≠ k) → i.kind = k →
       exec (.attentionHandoff k) s =
         .next
           (withAttention { s with mgmt := { s.mgmt with handed := before ++ later } }
             (match i with
              | .targetFault t => { s.mgmt.attention with targetFault := s.mgmt.attention.targetFault.set t true }
              | .closeDone w => { s.mgmt.attention with closeDone := s.mgmt.attention.closeDone.set w true }
              | .openDone w => { s.mgmt.attention with openDone := s.mgmt.attention.openDone.set w true }
              | .poolRefusal g => { s.mgmt.attention with poolRefusal := s.mgmt.attention.poolRefusal.set g true })))) ∧
  (∀ (a : Agent) (s : State),
     let p := s.ports.get a
     let result := exec (.responseHandoff a) s
     (p.responses = [] → result = .next s) ∧
     ∀ r later, p.responses = r :: later →
       let replied : Notices := { p.notices with reply := p.notices.reply.set r.window true }
       (r.stale = true ∨ p.state = .inReset → result = .next (withPort s a { p with responses := later })) ∧
       (r.stale = false → p.state ≠ .inReset →
         result =
           .next
             (withPort s a
               { p with
                 responses := later, state := .idle, notices := replied, airqn := airqLevel p.config replied
                 response := { code := r.code, status := r.status, seq := p.response.seq + 1, payload := r.payload } }))) ∧
  (∀ (a : Agent) (k : NoticeKind) (s : State),
     let p := s.ports.get a
     let result := exec (.noticeHandoff a k) s
     ((∀ n ∈ p.handed, n.item.kind ≠ k) → result = .next s) ∧
     ∀ before n later, p.handed = before ++ n :: later → (∀ m ∈ before, m.item.kind ≠ k) → n.item.kind = k →
       let joined : Notices :=
         match n.item with
         | .lost w r => { p.notices with lost := p.notices.lost.set w (some r) }
         | .closing w => { p.notices with closing := p.notices.closing.set w true }
         | .warning w => { p.notices with warning := p.notices.warning.set w true }
       (n.stale = true ∨ p.state = .inReset → result = .next (withPort s a { p with handed := before ++ later })) ∧
       (n.stale = false → p.state ≠ .inReset →
         result =
           .next
             (withPort s a
               { p with
                 handed := before ++ later, notices := joined, airqn := airqLevel p.config joined }))) ∧
  (∀ s : State, takesFrames s → s.mgmt.running = true → (∀ w, (s.windows.get w).state.live = false) →
     let settled (p : Port) : Port :=
       if p.state = .waiting then (p.responses.filter fun r => !r.stale).foldl endingPosted { p with responses := [] }
       else p
     exec .stop s =
       .next
         (afterResult { s with ports := s.ports.map settled, mgmt := { s.mgmt with running := false } } 0x22 0 .ok []))

/-! ### Laws kept by every step -/

/-- The laws hold in the state the model starts from. -/
def Obligations.LawsHoldAtReset : Prop :=
  PinLaw State.reset ∧ WindowLaw State.reset ∧ TargetLaw State.reset ∧ UseLaw State.reset ∧ LeaseLaw State.reset ∧
  PoolLaw State.reset ∧ PortLaw State.reset ∧ DataPathLaw State.reset ∧ TimeLaw State.reset ∧ ResetLaw State.reset

/-- R101, R139, R158, R176: the output pins follow the state after every step. -/
def Obligations.StepKeepsPinLaw : Prop := ∀ s t : State, PinLaw s → step s = .next t → PinLaw t

/-- R1, R6, R7, R8: the window table's laws. -/
def Obligations.StepKeepsWindowLaw : Prop := ∀ s t : State, WindowLaw s → step s = .next t → WindowLaw t

/-- R100, R110, R114: each target record stays legal; FAULTED exactly with failure count 3. -/
def Obligations.StepKeepsTargetLaw : Prop := ∀ s t : State, TargetLaw s → step s = .next t → TargetLaw t

/-- R82, R109: use counts, and the target states that OPENING, OPEN and CLOSING windows need. -/
def Obligations.StepKeepsUseLaw : Prop := ∀ s t : State, TargetLaw s → UseLaw s → step s = .next t → UseLaw t

/-- R23, R30, R35, R58: one lease for an agent on a window, EXCLUSIVE alone, one upgrade, leases only where the window's
state allows them. -/
def Obligations.StepKeepsLeaseLaw : Prop := ∀ s t : State, LeaseLaw s → step s = .next t → LeaseLaw t

/-- R21, R24: entries in use are the leases, never above 24 nor an agent's quota. -/
def Obligations.StepKeepsPoolLaw : Prop := ∀ s t : State, PoolLaw s → step s = .next t → PoolLaw t

/-- R46, R149, R173: a port is WAITING exactly when it has one wait in the part, or one whose ending it has still to take,
and never in CONFIGURING; IN_RESET exactly from its step for a fall of PRSTn on (`fallOwed`, log 10). ResetLaw, which
StepKeepsTimeAndResetLaws keeps, shuts out a wait while RESETn is low. -/
def Obligations.StepKeepsPortLaw : Prop :=
  ∀ s t : State, ResetLaw s → LeaseLaw s → PortLaw s → step s = .next t → PortLaw t

/-- R34, R120, R126: in-flight counts are the admitted accesses, and at most one transfer is on the bus. -/
def Obligations.StepKeepsDataPathLaw : Prop := ∀ s t : State, DataPathLaw s → step s = .next t → DataPathLaw t

/-- R64, R65: the divisor in range, at most 1000 microsecond steps in a tick and their moments. R178: while RESETn is low,
everything but the input pins stands at its reset value. The model's choices in them: the position and the step count of a
stopped tick are 0 (log 26), the records of what left the part are empty (log 25), RESETn is a level of the state (log
19). -/
def Obligations.StepKeepsTimeAndResetLaws : Prop :=
  (∀ s t : State, TimeLaw s → step s = .next t → TimeLaw t) ∧ ∀ s t : State, ResetLaw s → step s = .next t → ResetLaw t

/-! ### RESETn low, and MSEL low at its rise -/

/-- R178, R164: while RESETn is low the part takes no frame, answers no agent cycle and takes no BREQ, TACK or TERR, and it
drives neither MSO nor the data lines; the levels of the input pins are followed. A frame whose MSEL was low when RESETn
rose is ignored up to its rise. That a frame command which is not taken stands for one edge of MSEL is the model's choice
(log 19). -/
def Obligations.NothingTakenWhileResetLow : Prop :=
  (∀ (i : Instr) (s : State), isFrame i = true → s.resetn = false ∨ s.mgmt.msel = false →
     exec i s = .next { s with mgmt := { s.mgmt with msel := !s.mgmt.msel, mso := [] } }) ∧
  (∀ (i : Instr) (a : Agent) (s : State), cycleAgent i = some a → s.resetn = false → exec i s = .next s) ∧
  (∀ s : State, s.resetn = false → resetValues s →
     (∀ answer, exec (.tack answer) s = .next s) ∧ (∀ answer, exec (.terr answer) s = .next s) ∧
     exec .busRequest s = .next { s with router := { s.router with breq := true } } ∧
     exec .withdrawal s = .next { s with router := { s.router with breq := false } }) ∧
  (∀ (s : State) (a : Agent), s.resetn = false →
     let port (high : Bool) : Port :=
       { state := if high then .idle else .inReset, request := ⟨0, Tbl.fill 8 0⟩, response := ⟨0, .nothing, 0, []⟩,
         commitRefused := false, notices := .empty, config := .reset, fault := none, airqn := true, prstn := high,
         fallOwed := false, ended := none, responses := [], handed := [] }
     exec (.portReset a) s = .next (withPort s a (port false)) ∧
     exec (.accessDrop a) s = .next (withPort s a (port false)) ∧
     exec (.prstnRise a) s = .next (withPort s a (port true))) ∧
  (∀ s : State, s.resetn = false → msoDriven s = false ∧ (∀ a, dataDriven s a = false) ∧
     (resetValues s → s.mgmt.attn = false ∧ (∀ a, (s.ports.get a).airqn = true) ∧
       (∀ t, (s.targets.get t).twake = false) ∧ (∀ t, tselLevel s.router.lines t = some false) ∧
       s.router.bgnt = false))

end
end

