-- ==== Sys2Proof/Laws/Tbl.lean ====
section
/-! SUPPORT. Tables: reading back what was written, filled or mapped. -/

namespace Sys2Proof.Tbl

@[simp] theorem get_set_self (t : Tbl α n) (i : Fin n) (x : α) : (t.set i x).get i = x := by
  simp [get, set]

@[simp] theorem get_set_ne (t : Tbl α n) {i j : Fin n} (h : i ≠ j) (x : α) : (t.set i x).get j = t.get j := by
  have : i.val ≠ j.val := fun e => h (Fin.ext e)
  simp [get, set, this]

theorem get_set (t : Tbl α n) (i j : Fin n) (x : α) : (t.set i x).get j = if i = j then x else t.get j := by
  by_cases h : i = j
  · subst h; simp
  · simp [h]

@[simp] theorem get_fill (x : α) (i : Fin n) : (fill n x).get i = x := by simp [get, fill]

@[simp] theorem get_map (f : α → β) (t : Tbl α n) (i : Fin n) : (t.map f).get i = f (t.get i) := by simp [get, map]

theorem ext_get {t u : Tbl α n} (h : ∀ i, t.get i = u.get i) : t = u := by
  cases t with | mk c hc =>
  cases u with | mk d hd =>
  congr 1
  apply List.ext_getElem (by rw [hc, hd])
  intro k h1 h2
  exact h ⟨k, hc ▸ h1⟩

@[simp] theorem set_set (t : Tbl α n) (i : Fin n) (x y : α) : (t.set i x).set i y = t.set i y := by
  simp [set]

@[simp] theorem set_get (t : Tbl α n) (i : Fin n) : t.set i (t.get i) = t := by
  apply ext_get
  intro j
  rw [get_set]
  split
  · rename_i h; rw [h]
  · rfl

theorem set_comm (t : Tbl α n) {i j : Fin n} (h : i ≠ j) (x y : α) :
    (t.set i x).set j y = (t.set j y).set i x := by
  apply ext_get
  intro k
  simp only [get_set]
  by_cases h1 : i = k <;> by_cases h2 : j = k
  · exact absurd (h1.trans h2.symm) h
  · rw [if_neg h2, if_pos h1, if_pos h1]
  · rw [if_pos h2, if_neg h1, if_pos h2]
  · rw [if_neg h2, if_neg h1, if_neg h1, if_neg h2]

end Sys2Proof.Tbl
end

