-- ==== Sys2Proof/Laws/Operands.lean ====
section
/-! SUPPORT. Reading operands: numbers in range, flag bytes, byte order, the lowest index of a set, tokens. -/

namespace Sys2Proof.Machine

/-! ### Numbers in range -/

theorem windowOf_of_val {b : Byte} (w : WindowId) (h : w.val = b.toNat) : windowOf b = some w := by
  have : b.toNat < 32 := h ▸ w.isLt
  simp only [windowOf, this, dite_true, Option.some.injEq]
  exact Fin.ext h.symm

theorem windowOf_of_le {b : Byte} (h : 32 ≤ b.toNat) : windowOf b = none := by
  simp only [windowOf, Nat.not_lt.mpr h, dite_false]

theorem targetOf_of_val {b : Byte} (t : TargetId) (h : t.val = b.toNat) : targetOf b = some t := by
  have : b.toNat < 8 := h ▸ t.isLt
  simp only [targetOf, this, dite_true, Option.some.injEq]
  exact Fin.ext h.symm

theorem targetOf_of_le {b : Byte} (h : 8 ≤ b.toNat) : targetOf b = none := by
  simp only [targetOf, Nat.not_lt.mpr h, dite_false]

theorem agentOf_of_val {b : Byte} (a : Agent) (h : a.val = b.toNat) : agentOf b = some a := by
  have : b.toNat < 4 := h ▸ a.isLt
  simp only [agentOf, this, dite_true, Option.some.injEq]
  exact Fin.ext h.symm

theorem agentOf_of_le {b : Byte} (h : 4 ≤ b.toNat) : agentOf b = none := by
  simp only [agentOf, Nat.not_lt.mpr h, dite_false]

theorem clearFrom_iff (b : Byte) (n : Nat) : clearFrom b n = true ↔ b.toNat < 2 ^ n := by simp [clearFrom]

theorem windowByte_toNat (w : WindowId) : (windowByte w).toNat = w.val := by
  have := w.isLt
  simp only [windowByte, BitVec.toNat_ofNat]
  omega

theorem windowOf_windowByte (w : WindowId) : windowOf (windowByte w) = some w :=
  windowOf_of_val w (windowByte_toNat w).symm

/-! ### Byte order -/

theorem ofBytes2_hi_lo (x : Half) : ofBytes2 (hiByte x) (loByte x) = x := by
  apply BitVec.eq_of_getLsbD_eq
  intro i hi
  rw [ofBytes2, hiByte, loByte, BitVec.getLsbD_append (m := 8) (n := 8), BitVec.getLsbD_extractLsb',
    BitVec.getLsbD_extractLsb']
  by_cases h : i < 8
  · simp [h]
  · have : 8 + (i - 8) = i := by omega
    have h' : i - 8 < 8 := by omega
    simp [h, this, h']

theorem ofBytes3_split (x : Addr) :
    ofBytes3 (x.extractLsb' 16 8) (x.extractLsb' 8 8) (x.extractLsb' 0 8) = x := by
  apply BitVec.eq_of_getLsbD_eq
  intro i hi
  rw [ofBytes3, BitVec.getLsbD_append (m := 8) (n := 16), BitVec.getLsbD_append (m := 8) (n := 8)]
  simp only [BitVec.getLsbD_extractLsb']
  by_cases h : i < 8
  · simp [h]
  · by_cases h2 : i - 8 < 8
    · have : 8 + (i - 8) = i := by omega
      simp [h, h2, this]
    · have : 16 + (i - 8 - 8) = i := by omega
      have h' : i - 8 - 8 < 8 := by omega
      simp [h, h2, this, h']

theorem ofBytes4_split (x : BitVec 32) :
    ofBytes4 (x.extractLsb' 24 8) (x.extractLsb' 16 8) (x.extractLsb' 8 8) (x.extractLsb' 0 8) = x := by
  apply BitVec.eq_of_getLsbD_eq
  intro i hi
  rw [ofBytes4, BitVec.getLsbD_append (m := 8) (n := 24), BitVec.getLsbD_append (m := 8) (n := 16),
    BitVec.getLsbD_append (m := 8) (n := 8)]
  simp only [BitVec.getLsbD_extractLsb']
  by_cases h : i < 8
  · simp [h]
  · by_cases h2 : i - 8 < 8
    · have : 8 + (i - 8) = i := by omega
      simp [h, h2, this]
    · by_cases h3 : i - 8 - 8 < 8
      · have : 16 + (i - 8 - 8) = i := by omega
        simp [h, h2, h3, this]
      · have : 24 + (i - 8 - 8 - 8) = i := by omega
        have h' : i - 8 - 8 - 8 < 8 := by omega
        simp [h, h2, h3, this, h']

/-! ### Sets -/

theorem anySet_iff (t : Tbl Bool n) : anySet t = true ↔ ∃ i, t.get i = true := by
  simp only [anySet, List.any_eq_true, id]
  constructor
  · rintro ⟨x, hx, rfl⟩
    obtain ⟨i, hi, h⟩ := List.getElem_of_mem hx
    exact ⟨⟨i, t.size ▸ hi⟩, h⟩
  · rintro ⟨i, h⟩
    exact ⟨_, List.getElem_mem _, h⟩

theorem lowest_eq_some (t : Tbl Bool n) (i : Fin n) (h : t.get i = true) (below : ∀ j, j < i → t.get j = false) :
    lowest t = some i := by
  simp only [lowest, List.find?_eq_some_iff_getElem]
  refine ⟨h, i.val, by simp, by simp, ?_⟩
  intro j hj
  have := below ⟨j, by omega⟩ hj
  simp [this]

theorem lowest_eq_none (t : Tbl Bool n) (h : ∀ j, t.get j = false) : lowest t = none := by simp [lowest, h]

theorem lostSet_get (t : Tbl (Option LostReason) 32) (w : WindowId) : (lostSet t).get w = (t.get w).isSome := by
  simp [lostSet]

/-! ### Tokens (R29) -/

theorem matchToken_eq_some (s : State) (a : Agent) (t : Token) (w : WindowId) (h : Hold)
    (held : (s.ctxs.get w).holdOf a = some h) (named : Safety.names t w h) : matchToken s a t = some (w, h) := by
  obtain ⟨e1, e2, e3⟩ := named
  have e : windowOf t.window = some w := by rw [e1]; exact windowOf_windowByte w
  simp only [matchToken, e, held, e2, e3, and_self, if_true]

theorem matchToken_eq_none (s : State) (a : Agent) (t : Token) (h : Safety.stale s a t) : matchToken s a t = none := by
  simp only [matchToken]
  split
  · rfl
  · rename_i w hw
    split
    · rfl
    · rename_i g hg
      rw [if_neg]
      rintro ⟨e2, e3⟩
      refine h w g hg ⟨?_, e2, e3⟩
      simp only [windowOf] at hw
      split at hw
      · cases hw
        apply BitVec.eq_of_toNat_eq
        simp
      · cases hw

end Sys2Proof.Machine
end

