-- ==== Sys2Proof/Laws/State.lean ====
section
/-! SUPPORT. What each update of one record leaves unchanged, field by field, and what it writes; all by rfl. -/

namespace Sys2Proof.Machine
namespace State

/-! ### updWindow -/

@[simp] theorem updWindow_ctxs (s : State) (w : WindowId) (f : Window → Window) : (s.updWindow w f).ctxs = s.ctxs := rfl
@[simp] theorem updWindow_quotas (s : State) (w : WindowId) (f : Window → Window) : (s.updWindow w f).quotas = s.quotas := rfl
@[simp] theorem updWindow_inUse (s : State) (w : WindowId) (f : Window → Window) : (s.updWindow w f).inUse = s.inUse := rfl
@[simp] theorem updWindow_targets (s : State) (w : WindowId) (f : Window → Window) : (s.updWindow w f).targets = s.targets := rfl
@[simp] theorem updWindow_router (s : State) (w : WindowId) (f : Window → Window) : (s.updWindow w f).router = s.router := rfl
@[simp] theorem updWindow_ports (s : State) (w : WindowId) (f : Window → Window) : (s.updWindow w f).ports = s.ports := rfl
@[simp] theorem updWindow_mgmt (s : State) (w : WindowId) (f : Window → Window) : (s.updWindow w f).mgmt = s.mgmt := rfl
@[simp] theorem updWindow_resetn (s : State) (w : WindowId) (f : Window → Window) : (s.updWindow w f).resetn = s.resetn := rfl
@[simp] theorem updWindow_transfers (s : State) (w : WindowId) (f : Window → Window) : (s.updWindow w f).transfers = s.transfers := rfl
@[simp] theorem updWindow_tb (s : State) (w : WindowId) (f : Window → Window) : (s.updWindow w f).tb = s.tb := rfl
@[simp] theorem updWindow_outcomes (s : State) (w : WindowId) (f : Window → Window) : (s.updWindow w f).outcomes = s.outcomes := rfl
@[simp] theorem updWindow_emptyReports (s : State) (w : WindowId) (f : Window → Window) : (s.updWindow w f).emptyReports = s.emptyReports := rfl
@[simp] theorem updWindow_free (s : State) (w : WindowId) (f : Window → Window) : (s.updWindow w f).free = s.free := rfl
@[simp] theorem updWindow_pending (s : State) (w : WindowId) (f : Window → Window) : (s.updWindow w f).pending = s.pending := rfl

/-! ### updCtx -/

@[simp] theorem updCtx_windows (s : State) (w : WindowId) (f : LeaseCtx → LeaseCtx) : (s.updCtx w f).windows = s.windows := rfl
@[simp] theorem updCtx_quotas (s : State) (w : WindowId) (f : LeaseCtx → LeaseCtx) : (s.updCtx w f).quotas = s.quotas := rfl
@[simp] theorem updCtx_inUse (s : State) (w : WindowId) (f : LeaseCtx → LeaseCtx) : (s.updCtx w f).inUse = s.inUse := rfl
@[simp] theorem updCtx_targets (s : State) (w : WindowId) (f : LeaseCtx → LeaseCtx) : (s.updCtx w f).targets = s.targets := rfl
@[simp] theorem updCtx_router (s : State) (w : WindowId) (f : LeaseCtx → LeaseCtx) : (s.updCtx w f).router = s.router := rfl
@[simp] theorem updCtx_ports (s : State) (w : WindowId) (f : LeaseCtx → LeaseCtx) : (s.updCtx w f).ports = s.ports := rfl
@[simp] theorem updCtx_mgmt (s : State) (w : WindowId) (f : LeaseCtx → LeaseCtx) : (s.updCtx w f).mgmt = s.mgmt := rfl
@[simp] theorem updCtx_resetn (s : State) (w : WindowId) (f : LeaseCtx → LeaseCtx) : (s.updCtx w f).resetn = s.resetn := rfl
@[simp] theorem updCtx_transfers (s : State) (w : WindowId) (f : LeaseCtx → LeaseCtx) : (s.updCtx w f).transfers = s.transfers := rfl
@[simp] theorem updCtx_tb (s : State) (w : WindowId) (f : LeaseCtx → LeaseCtx) : (s.updCtx w f).tb = s.tb := rfl
@[simp] theorem updCtx_outcomes (s : State) (w : WindowId) (f : LeaseCtx → LeaseCtx) : (s.updCtx w f).outcomes = s.outcomes := rfl
@[simp] theorem updCtx_emptyReports (s : State) (w : WindowId) (f : LeaseCtx → LeaseCtx) : (s.updCtx w f).emptyReports = s.emptyReports := rfl
@[simp] theorem updCtx_free (s : State) (w : WindowId) (f : LeaseCtx → LeaseCtx) : (s.updCtx w f).free = s.free := rfl
@[simp] theorem updCtx_pending (s : State) (w : WindowId) (f : LeaseCtx → LeaseCtx) : (s.updCtx w f).pending = s.pending := rfl

/-! ### updTarget -/

@[simp] theorem updTarget_windows (s : State) (t : TargetId) (f : Target → Target) : (s.updTarget t f).windows = s.windows := rfl
@[simp] theorem updTarget_ctxs (s : State) (t : TargetId) (f : Target → Target) : (s.updTarget t f).ctxs = s.ctxs := rfl
@[simp] theorem updTarget_quotas (s : State) (t : TargetId) (f : Target → Target) : (s.updTarget t f).quotas = s.quotas := rfl
@[simp] theorem updTarget_inUse (s : State) (t : TargetId) (f : Target → Target) : (s.updTarget t f).inUse = s.inUse := rfl
@[simp] theorem updTarget_router (s : State) (t : TargetId) (f : Target → Target) : (s.updTarget t f).router = s.router := rfl
@[simp] theorem updTarget_ports (s : State) (t : TargetId) (f : Target → Target) : (s.updTarget t f).ports = s.ports := rfl
@[simp] theorem updTarget_mgmt (s : State) (t : TargetId) (f : Target → Target) : (s.updTarget t f).mgmt = s.mgmt := rfl
@[simp] theorem updTarget_resetn (s : State) (t : TargetId) (f : Target → Target) : (s.updTarget t f).resetn = s.resetn := rfl
@[simp] theorem updTarget_transfers (s : State) (t : TargetId) (f : Target → Target) : (s.updTarget t f).transfers = s.transfers := rfl
@[simp] theorem updTarget_tb (s : State) (t : TargetId) (f : Target → Target) : (s.updTarget t f).tb = s.tb := rfl
@[simp] theorem updTarget_outcomes (s : State) (t : TargetId) (f : Target → Target) : (s.updTarget t f).outcomes = s.outcomes := rfl
@[simp] theorem updTarget_emptyReports (s : State) (t : TargetId) (f : Target → Target) : (s.updTarget t f).emptyReports = s.emptyReports := rfl
@[simp] theorem updTarget_free (s : State) (t : TargetId) (f : Target → Target) : (s.updTarget t f).free = s.free := rfl
@[simp] theorem updTarget_pending (s : State) (t : TargetId) (f : Target → Target) : (s.updTarget t f).pending = s.pending := rfl

/-! ### updPort -/

@[simp] theorem updPort_windows (s : State) (a : Agent) (f : Port → Port) : (s.updPort a f).windows = s.windows := rfl
@[simp] theorem updPort_ctxs (s : State) (a : Agent) (f : Port → Port) : (s.updPort a f).ctxs = s.ctxs := rfl
@[simp] theorem updPort_quotas (s : State) (a : Agent) (f : Port → Port) : (s.updPort a f).quotas = s.quotas := rfl
@[simp] theorem updPort_inUse (s : State) (a : Agent) (f : Port → Port) : (s.updPort a f).inUse = s.inUse := rfl
@[simp] theorem updPort_targets (s : State) (a : Agent) (f : Port → Port) : (s.updPort a f).targets = s.targets := rfl
@[simp] theorem updPort_router (s : State) (a : Agent) (f : Port → Port) : (s.updPort a f).router = s.router := rfl
@[simp] theorem updPort_mgmt (s : State) (a : Agent) (f : Port → Port) : (s.updPort a f).mgmt = s.mgmt := rfl
@[simp] theorem updPort_resetn (s : State) (a : Agent) (f : Port → Port) : (s.updPort a f).resetn = s.resetn := rfl
@[simp] theorem updPort_transfers (s : State) (a : Agent) (f : Port → Port) : (s.updPort a f).transfers = s.transfers := rfl
@[simp] theorem updPort_tb (s : State) (a : Agent) (f : Port → Port) : (s.updPort a f).tb = s.tb := rfl
@[simp] theorem updPort_outcomes (s : State) (a : Agent) (f : Port → Port) : (s.updPort a f).outcomes = s.outcomes := rfl
@[simp] theorem updPort_emptyReports (s : State) (a : Agent) (f : Port → Port) : (s.updPort a f).emptyReports = s.emptyReports := rfl
@[simp] theorem updPort_free (s : State) (a : Agent) (f : Port → Port) : (s.updPort a f).free = s.free := rfl
@[simp] theorem updPort_pending (s : State) (a : Agent) (f : Port → Port) : (s.updPort a f).pending = s.pending := rfl

/-! ### updMgmt -/

@[simp] theorem updMgmt_windows (s : State) (f : Mgmt → Mgmt) : (s.updMgmt f).windows = s.windows := rfl
@[simp] theorem updMgmt_ctxs (s : State) (f : Mgmt → Mgmt) : (s.updMgmt f).ctxs = s.ctxs := rfl
@[simp] theorem updMgmt_quotas (s : State) (f : Mgmt → Mgmt) : (s.updMgmt f).quotas = s.quotas := rfl
@[simp] theorem updMgmt_inUse (s : State) (f : Mgmt → Mgmt) : (s.updMgmt f).inUse = s.inUse := rfl
@[simp] theorem updMgmt_targets (s : State) (f : Mgmt → Mgmt) : (s.updMgmt f).targets = s.targets := rfl
@[simp] theorem updMgmt_router (s : State) (f : Mgmt → Mgmt) : (s.updMgmt f).router = s.router := rfl
@[simp] theorem updMgmt_ports (s : State) (f : Mgmt → Mgmt) : (s.updMgmt f).ports = s.ports := rfl
@[simp] theorem updMgmt_resetn (s : State) (f : Mgmt → Mgmt) : (s.updMgmt f).resetn = s.resetn := rfl
@[simp] theorem updMgmt_transfers (s : State) (f : Mgmt → Mgmt) : (s.updMgmt f).transfers = s.transfers := rfl
@[simp] theorem updMgmt_tb (s : State) (f : Mgmt → Mgmt) : (s.updMgmt f).tb = s.tb := rfl
@[simp] theorem updMgmt_outcomes (s : State) (f : Mgmt → Mgmt) : (s.updMgmt f).outcomes = s.outcomes := rfl
@[simp] theorem updMgmt_emptyReports (s : State) (f : Mgmt → Mgmt) : (s.updMgmt f).emptyReports = s.emptyReports := rfl
@[simp] theorem updMgmt_free (s : State) (f : Mgmt → Mgmt) : (s.updMgmt f).free = s.free := rfl
@[simp] theorem updMgmt_pending (s : State) (f : Mgmt → Mgmt) : (s.updMgmt f).pending = s.pending := rfl

/-! ### updRouter -/

@[simp] theorem updRouter_windows (s : State) (f : Router → Router) : (s.updRouter f).windows = s.windows := rfl
@[simp] theorem updRouter_ctxs (s : State) (f : Router → Router) : (s.updRouter f).ctxs = s.ctxs := rfl
@[simp] theorem updRouter_quotas (s : State) (f : Router → Router) : (s.updRouter f).quotas = s.quotas := rfl
@[simp] theorem updRouter_inUse (s : State) (f : Router → Router) : (s.updRouter f).inUse = s.inUse := rfl
@[simp] theorem updRouter_targets (s : State) (f : Router → Router) : (s.updRouter f).targets = s.targets := rfl
@[simp] theorem updRouter_ports (s : State) (f : Router → Router) : (s.updRouter f).ports = s.ports := rfl
@[simp] theorem updRouter_mgmt (s : State) (f : Router → Router) : (s.updRouter f).mgmt = s.mgmt := rfl
@[simp] theorem updRouter_resetn (s : State) (f : Router → Router) : (s.updRouter f).resetn = s.resetn := rfl
@[simp] theorem updRouter_transfers (s : State) (f : Router → Router) : (s.updRouter f).transfers = s.transfers := rfl
@[simp] theorem updRouter_tb (s : State) (f : Router → Router) : (s.updRouter f).tb = s.tb := rfl
@[simp] theorem updRouter_outcomes (s : State) (f : Router → Router) : (s.updRouter f).outcomes = s.outcomes := rfl
@[simp] theorem updRouter_emptyReports (s : State) (f : Router → Router) : (s.updRouter f).emptyReports = s.emptyReports := rfl
@[simp] theorem updRouter_free (s : State) (f : Router → Router) : (s.updRouter f).free = s.free := rfl
@[simp] theorem updRouter_pending (s : State) (f : Router → Router) : (s.updRouter f).pending = s.pending := rfl

/-! ### updPath -/

@[simp] theorem updPath_windows (s : State) (a : Agent) (f : Path → Path) : (s.updPath a f).windows = s.windows := rfl
@[simp] theorem updPath_ctxs (s : State) (a : Agent) (f : Path → Path) : (s.updPath a f).ctxs = s.ctxs := rfl
@[simp] theorem updPath_quotas (s : State) (a : Agent) (f : Path → Path) : (s.updPath a f).quotas = s.quotas := rfl
@[simp] theorem updPath_inUse (s : State) (a : Agent) (f : Path → Path) : (s.updPath a f).inUse = s.inUse := rfl
@[simp] theorem updPath_targets (s : State) (a : Agent) (f : Path → Path) : (s.updPath a f).targets = s.targets := rfl
@[simp] theorem updPath_ports (s : State) (a : Agent) (f : Path → Path) : (s.updPath a f).ports = s.ports := rfl
@[simp] theorem updPath_mgmt (s : State) (a : Agent) (f : Path → Path) : (s.updPath a f).mgmt = s.mgmt := rfl
@[simp] theorem updPath_resetn (s : State) (a : Agent) (f : Path → Path) : (s.updPath a f).resetn = s.resetn := rfl
@[simp] theorem updPath_transfers (s : State) (a : Agent) (f : Path → Path) : (s.updPath a f).transfers = s.transfers := rfl
@[simp] theorem updPath_tb (s : State) (a : Agent) (f : Path → Path) : (s.updPath a f).tb = s.tb := rfl
@[simp] theorem updPath_outcomes (s : State) (a : Agent) (f : Path → Path) : (s.updPath a f).outcomes = s.outcomes := rfl
@[simp] theorem updPath_emptyReports (s : State) (a : Agent) (f : Path → Path) : (s.updPath a f).emptyReports = s.emptyReports := rfl
@[simp] theorem updPath_free (s : State) (a : Agent) (f : Path → Path) : (s.updPath a f).free = s.free := rfl
@[simp] theorem updPath_pending (s : State) (a : Agent) (f : Path → Path) : (s.updPath a f).pending = s.pending := rfl

/-! ### takeEntry -/

@[simp] theorem takeEntry_windows (s : State) (a : Agent) : (s.takeEntry a).windows = s.windows := rfl
@[simp] theorem takeEntry_ctxs (s : State) (a : Agent) : (s.takeEntry a).ctxs = s.ctxs := rfl
@[simp] theorem takeEntry_quotas (s : State) (a : Agent) : (s.takeEntry a).quotas = s.quotas := rfl
@[simp] theorem takeEntry_targets (s : State) (a : Agent) : (s.takeEntry a).targets = s.targets := rfl
@[simp] theorem takeEntry_router (s : State) (a : Agent) : (s.takeEntry a).router = s.router := rfl
@[simp] theorem takeEntry_ports (s : State) (a : Agent) : (s.takeEntry a).ports = s.ports := rfl
@[simp] theorem takeEntry_mgmt (s : State) (a : Agent) : (s.takeEntry a).mgmt = s.mgmt := rfl
@[simp] theorem takeEntry_resetn (s : State) (a : Agent) : (s.takeEntry a).resetn = s.resetn := rfl
@[simp] theorem takeEntry_transfers (s : State) (a : Agent) : (s.takeEntry a).transfers = s.transfers := rfl
@[simp] theorem takeEntry_tb (s : State) (a : Agent) : (s.takeEntry a).tb = s.tb := rfl
@[simp] theorem takeEntry_outcomes (s : State) (a : Agent) : (s.takeEntry a).outcomes = s.outcomes := rfl
@[simp] theorem takeEntry_emptyReports (s : State) (a : Agent) : (s.takeEntry a).emptyReports = s.emptyReports := rfl
@[simp] theorem takeEntry_free (s : State) (a : Agent) : (s.takeEntry a).free = s.free := rfl
@[simp] theorem takeEntry_pending (s : State) (a : Agent) : (s.takeEntry a).pending = s.pending := rfl

/-! ### freeEntry -/

@[simp] theorem freeEntry_windows (s : State) (a : Agent) : (s.freeEntry a).windows = s.windows := rfl
@[simp] theorem freeEntry_ctxs (s : State) (a : Agent) : (s.freeEntry a).ctxs = s.ctxs := rfl
@[simp] theorem freeEntry_quotas (s : State) (a : Agent) : (s.freeEntry a).quotas = s.quotas := rfl
@[simp] theorem freeEntry_targets (s : State) (a : Agent) : (s.freeEntry a).targets = s.targets := rfl
@[simp] theorem freeEntry_router (s : State) (a : Agent) : (s.freeEntry a).router = s.router := rfl
@[simp] theorem freeEntry_ports (s : State) (a : Agent) : (s.freeEntry a).ports = s.ports := rfl
@[simp] theorem freeEntry_mgmt (s : State) (a : Agent) : (s.freeEntry a).mgmt = s.mgmt := rfl
@[simp] theorem freeEntry_resetn (s : State) (a : Agent) : (s.freeEntry a).resetn = s.resetn := rfl
@[simp] theorem freeEntry_transfers (s : State) (a : Agent) : (s.freeEntry a).transfers = s.transfers := rfl
@[simp] theorem freeEntry_tb (s : State) (a : Agent) : (s.freeEntry a).tb = s.tb := rfl
@[simp] theorem freeEntry_outcomes (s : State) (a : Agent) : (s.freeEntry a).outcomes = s.outcomes := rfl
@[simp] theorem freeEntry_emptyReports (s : State) (a : Agent) : (s.freeEntry a).emptyReports = s.emptyReports := rfl
@[simp] theorem freeEntry_free (s : State) (a : Agent) : (s.freeEntry a).free = s.free := rfl
@[simp] theorem freeEntry_pending (s : State) (a : Agent) : (s.freeEntry a).pending = s.pending := rfl

/-! ### postResult -/

@[simp] theorem postResult_windows (s : State) (c : Byte) (st : Status) (p : List Byte) : (s.postResult c st p).windows = s.windows := rfl
@[simp] theorem postResult_ctxs (s : State) (c : Byte) (st : Status) (p : List Byte) : (s.postResult c st p).ctxs = s.ctxs := rfl
@[simp] theorem postResult_quotas (s : State) (c : Byte) (st : Status) (p : List Byte) : (s.postResult c st p).quotas = s.quotas := rfl
@[simp] theorem postResult_inUse (s : State) (c : Byte) (st : Status) (p : List Byte) : (s.postResult c st p).inUse = s.inUse := rfl
@[simp] theorem postResult_targets (s : State) (c : Byte) (st : Status) (p : List Byte) : (s.postResult c st p).targets = s.targets := rfl
@[simp] theorem postResult_router (s : State) (c : Byte) (st : Status) (p : List Byte) : (s.postResult c st p).router = s.router := rfl
@[simp] theorem postResult_ports (s : State) (c : Byte) (st : Status) (p : List Byte) : (s.postResult c st p).ports = s.ports := rfl
@[simp] theorem postResult_resetn (s : State) (c : Byte) (st : Status) (p : List Byte) : (s.postResult c st p).resetn = s.resetn := rfl
@[simp] theorem postResult_transfers (s : State) (c : Byte) (st : Status) (p : List Byte) : (s.postResult c st p).transfers = s.transfers := rfl
@[simp] theorem postResult_tb (s : State) (c : Byte) (st : Status) (p : List Byte) : (s.postResult c st p).tb = s.tb := rfl
@[simp] theorem postResult_outcomes (s : State) (c : Byte) (st : Status) (p : List Byte) : (s.postResult c st p).outcomes = s.outcomes := rfl
@[simp] theorem postResult_emptyReports (s : State) (c : Byte) (st : Status) (p : List Byte) : (s.postResult c st p).emptyReports = s.emptyReports := rfl
@[simp] theorem postResult_free (s : State) (c : Byte) (st : Status) (p : List Byte) : (s.postResult c st p).free = s.free := rfl
@[simp] theorem postResult_pending (s : State) (c : Byte) (st : Status) (p : List Byte) : (s.postResult c st p).pending = s.pending := rfl

/-! ### handAttention -/

@[simp] theorem handAttention_windows (s : State) (i : AttnItem) : (s.handAttention i).windows = s.windows := rfl
@[simp] theorem handAttention_ctxs (s : State) (i : AttnItem) : (s.handAttention i).ctxs = s.ctxs := rfl
@[simp] theorem handAttention_quotas (s : State) (i : AttnItem) : (s.handAttention i).quotas = s.quotas := rfl
@[simp] theorem handAttention_inUse (s : State) (i : AttnItem) : (s.handAttention i).inUse = s.inUse := rfl
@[simp] theorem handAttention_targets (s : State) (i : AttnItem) : (s.handAttention i).targets = s.targets := rfl
@[simp] theorem handAttention_router (s : State) (i : AttnItem) : (s.handAttention i).router = s.router := rfl
@[simp] theorem handAttention_ports (s : State) (i : AttnItem) : (s.handAttention i).ports = s.ports := rfl
@[simp] theorem handAttention_resetn (s : State) (i : AttnItem) : (s.handAttention i).resetn = s.resetn := rfl
@[simp] theorem handAttention_transfers (s : State) (i : AttnItem) : (s.handAttention i).transfers = s.transfers := rfl
@[simp] theorem handAttention_tb (s : State) (i : AttnItem) : (s.handAttention i).tb = s.tb := rfl
@[simp] theorem handAttention_outcomes (s : State) (i : AttnItem) : (s.handAttention i).outcomes = s.outcomes := rfl
@[simp] theorem handAttention_emptyReports (s : State) (i : AttnItem) : (s.handAttention i).emptyReports = s.emptyReports := rfl
@[simp] theorem handAttention_free (s : State) (i : AttnItem) : (s.handAttention i).free = s.free := rfl
@[simp] theorem handAttention_pending (s : State) (i : AttnItem) : (s.handAttention i).pending = s.pending := rfl

/-! ### shiftZeros -/

@[simp] theorem shiftZeros_windows (s : State) (n : Nat) : (s.shiftZeros n).windows = s.windows := rfl
@[simp] theorem shiftZeros_ctxs (s : State) (n : Nat) : (s.shiftZeros n).ctxs = s.ctxs := rfl
@[simp] theorem shiftZeros_quotas (s : State) (n : Nat) : (s.shiftZeros n).quotas = s.quotas := rfl
@[simp] theorem shiftZeros_inUse (s : State) (n : Nat) : (s.shiftZeros n).inUse = s.inUse := rfl
@[simp] theorem shiftZeros_targets (s : State) (n : Nat) : (s.shiftZeros n).targets = s.targets := rfl
@[simp] theorem shiftZeros_router (s : State) (n : Nat) : (s.shiftZeros n).router = s.router := rfl
@[simp] theorem shiftZeros_ports (s : State) (n : Nat) : (s.shiftZeros n).ports = s.ports := rfl
@[simp] theorem shiftZeros_resetn (s : State) (n : Nat) : (s.shiftZeros n).resetn = s.resetn := rfl
@[simp] theorem shiftZeros_transfers (s : State) (n : Nat) : (s.shiftZeros n).transfers = s.transfers := rfl
@[simp] theorem shiftZeros_tb (s : State) (n : Nat) : (s.shiftZeros n).tb = s.tb := rfl
@[simp] theorem shiftZeros_outcomes (s : State) (n : Nat) : (s.shiftZeros n).outcomes = s.outcomes := rfl
@[simp] theorem shiftZeros_emptyReports (s : State) (n : Nat) : (s.shiftZeros n).emptyReports = s.emptyReports := rfl
@[simp] theorem shiftZeros_free (s : State) (n : Nat) : (s.shiftZeros n).free = s.free := rfl
@[simp] theorem shiftZeros_pending (s : State) (n : Nat) : (s.shiftZeros n).pending = s.pending := rfl

/-! ### answer -/

@[simp] theorem answer_windows (s : State) (a : Agent) (c : Byte) (st : Status) (p : List Byte) : (s.answer a c st p).windows = s.windows := rfl
@[simp] theorem answer_ctxs (s : State) (a : Agent) (c : Byte) (st : Status) (p : List Byte) : (s.answer a c st p).ctxs = s.ctxs := rfl
@[simp] theorem answer_quotas (s : State) (a : Agent) (c : Byte) (st : Status) (p : List Byte) : (s.answer a c st p).quotas = s.quotas := rfl
@[simp] theorem answer_inUse (s : State) (a : Agent) (c : Byte) (st : Status) (p : List Byte) : (s.answer a c st p).inUse = s.inUse := rfl
@[simp] theorem answer_targets (s : State) (a : Agent) (c : Byte) (st : Status) (p : List Byte) : (s.answer a c st p).targets = s.targets := rfl
@[simp] theorem answer_router (s : State) (a : Agent) (c : Byte) (st : Status) (p : List Byte) : (s.answer a c st p).router = s.router := rfl
@[simp] theorem answer_mgmt (s : State) (a : Agent) (c : Byte) (st : Status) (p : List Byte) : (s.answer a c st p).mgmt = s.mgmt := rfl
@[simp] theorem answer_resetn (s : State) (a : Agent) (c : Byte) (st : Status) (p : List Byte) : (s.answer a c st p).resetn = s.resetn := rfl
@[simp] theorem answer_transfers (s : State) (a : Agent) (c : Byte) (st : Status) (p : List Byte) : (s.answer a c st p).transfers = s.transfers := rfl
@[simp] theorem answer_tb (s : State) (a : Agent) (c : Byte) (st : Status) (p : List Byte) : (s.answer a c st p).tb = s.tb := rfl
@[simp] theorem answer_outcomes (s : State) (a : Agent) (c : Byte) (st : Status) (p : List Byte) : (s.answer a c st p).outcomes = s.outcomes := rfl
@[simp] theorem answer_emptyReports (s : State) (a : Agent) (c : Byte) (st : Status) (p : List Byte) : (s.answer a c st p).emptyReports = s.emptyReports := rfl
@[simp] theorem answer_free (s : State) (a : Agent) (c : Byte) (st : Status) (p : List Byte) : (s.answer a c st p).free = s.free := rfl
@[simp] theorem answer_pending (s : State) (a : Agent) (c : Byte) (st : Status) (p : List Byte) : (s.answer a c st p).pending = s.pending := rfl

/-! ### handResponse -/

@[simp] theorem handResponse_windows (s : State) (a : Agent) (c : Byte) (st : Status) (w : WindowId) (p : List Byte) : (s.handResponse a c st w p).windows = s.windows := rfl
@[simp] theorem handResponse_ctxs (s : State) (a : Agent) (c : Byte) (st : Status) (w : WindowId) (p : List Byte) : (s.handResponse a c st w p).ctxs = s.ctxs := rfl
@[simp] theorem handResponse_quotas (s : State) (a : Agent) (c : Byte) (st : Status) (w : WindowId) (p : List Byte) : (s.handResponse a c st w p).quotas = s.quotas := rfl
@[simp] theorem handResponse_inUse (s : State) (a : Agent) (c : Byte) (st : Status) (w : WindowId) (p : List Byte) : (s.handResponse a c st w p).inUse = s.inUse := rfl
@[simp] theorem handResponse_targets (s : State) (a : Agent) (c : Byte) (st : Status) (w : WindowId) (p : List Byte) : (s.handResponse a c st w p).targets = s.targets := rfl
@[simp] theorem handResponse_router (s : State) (a : Agent) (c : Byte) (st : Status) (w : WindowId) (p : List Byte) : (s.handResponse a c st w p).router = s.router := rfl
@[simp] theorem handResponse_mgmt (s : State) (a : Agent) (c : Byte) (st : Status) (w : WindowId) (p : List Byte) : (s.handResponse a c st w p).mgmt = s.mgmt := rfl
@[simp] theorem handResponse_resetn (s : State) (a : Agent) (c : Byte) (st : Status) (w : WindowId) (p : List Byte) : (s.handResponse a c st w p).resetn = s.resetn := rfl
@[simp] theorem handResponse_transfers (s : State) (a : Agent) (c : Byte) (st : Status) (w : WindowId) (p : List Byte) : (s.handResponse a c st w p).transfers = s.transfers := rfl
@[simp] theorem handResponse_tb (s : State) (a : Agent) (c : Byte) (st : Status) (w : WindowId) (p : List Byte) : (s.handResponse a c st w p).tb = s.tb := rfl
@[simp] theorem handResponse_outcomes (s : State) (a : Agent) (c : Byte) (st : Status) (w : WindowId) (p : List Byte) : (s.handResponse a c st w p).outcomes = s.outcomes := rfl
@[simp] theorem handResponse_emptyReports (s : State) (a : Agent) (c : Byte) (st : Status) (w : WindowId) (p : List Byte) : (s.handResponse a c st w p).emptyReports = s.emptyReports := rfl
@[simp] theorem handResponse_free (s : State) (a : Agent) (c : Byte) (st : Status) (w : WindowId) (p : List Byte) : (s.handResponse a c st w p).free = s.free := rfl
@[simp] theorem handResponse_pending (s : State) (a : Agent) (c : Byte) (st : Status) (w : WindowId) (p : List Byte) : (s.handResponse a c st w p).pending = s.pending := rfl

/-! ### handNotice -/

@[simp] theorem handNotice_windows (s : State) (a : Agent) (i : NoticeItem) : (s.handNotice a i).windows = s.windows := rfl
@[simp] theorem handNotice_ctxs (s : State) (a : Agent) (i : NoticeItem) : (s.handNotice a i).ctxs = s.ctxs := rfl
@[simp] theorem handNotice_quotas (s : State) (a : Agent) (i : NoticeItem) : (s.handNotice a i).quotas = s.quotas := rfl
@[simp] theorem handNotice_inUse (s : State) (a : Agent) (i : NoticeItem) : (s.handNotice a i).inUse = s.inUse := rfl
@[simp] theorem handNotice_targets (s : State) (a : Agent) (i : NoticeItem) : (s.handNotice a i).targets = s.targets := rfl
@[simp] theorem handNotice_router (s : State) (a : Agent) (i : NoticeItem) : (s.handNotice a i).router = s.router := rfl
@[simp] theorem handNotice_mgmt (s : State) (a : Agent) (i : NoticeItem) : (s.handNotice a i).mgmt = s.mgmt := rfl
@[simp] theorem handNotice_resetn (s : State) (a : Agent) (i : NoticeItem) : (s.handNotice a i).resetn = s.resetn := rfl
@[simp] theorem handNotice_transfers (s : State) (a : Agent) (i : NoticeItem) : (s.handNotice a i).transfers = s.transfers := rfl
@[simp] theorem handNotice_tb (s : State) (a : Agent) (i : NoticeItem) : (s.handNotice a i).tb = s.tb := rfl
@[simp] theorem handNotice_outcomes (s : State) (a : Agent) (i : NoticeItem) : (s.handNotice a i).outcomes = s.outcomes := rfl
@[simp] theorem handNotice_emptyReports (s : State) (a : Agent) (i : NoticeItem) : (s.handNotice a i).emptyReports = s.emptyReports := rfl
@[simp] theorem handNotice_free (s : State) (a : Agent) (i : NoticeItem) : (s.handNotice a i).free = s.free := rfl
@[simp] theorem handNotice_pending (s : State) (a : Agent) (i : NoticeItem) : (s.handNotice a i).pending = s.pending := rfl

/-! ### endCycle -/

@[simp] theorem endCycle_windows (s : State) (a : Agent) (e : CycleEnd) : (s.endCycle a e).windows = s.windows := rfl
@[simp] theorem endCycle_ctxs (s : State) (a : Agent) (e : CycleEnd) : (s.endCycle a e).ctxs = s.ctxs := rfl
@[simp] theorem endCycle_quotas (s : State) (a : Agent) (e : CycleEnd) : (s.endCycle a e).quotas = s.quotas := rfl
@[simp] theorem endCycle_inUse (s : State) (a : Agent) (e : CycleEnd) : (s.endCycle a e).inUse = s.inUse := rfl
@[simp] theorem endCycle_targets (s : State) (a : Agent) (e : CycleEnd) : (s.endCycle a e).targets = s.targets := rfl
@[simp] theorem endCycle_router (s : State) (a : Agent) (e : CycleEnd) : (s.endCycle a e).router = s.router := rfl
@[simp] theorem endCycle_mgmt (s : State) (a : Agent) (e : CycleEnd) : (s.endCycle a e).mgmt = s.mgmt := rfl
@[simp] theorem endCycle_resetn (s : State) (a : Agent) (e : CycleEnd) : (s.endCycle a e).resetn = s.resetn := rfl
@[simp] theorem endCycle_transfers (s : State) (a : Agent) (e : CycleEnd) : (s.endCycle a e).transfers = s.transfers := rfl
@[simp] theorem endCycle_tb (s : State) (a : Agent) (e : CycleEnd) : (s.endCycle a e).tb = s.tb := rfl
@[simp] theorem endCycle_outcomes (s : State) (a : Agent) (e : CycleEnd) : (s.endCycle a e).outcomes = s.outcomes := rfl
@[simp] theorem endCycle_emptyReports (s : State) (a : Agent) (e : CycleEnd) : (s.endCycle a e).emptyReports = s.emptyReports := rfl
@[simp] theorem endCycle_free (s : State) (a : Agent) (e : CycleEnd) : (s.endCycle a e).free = s.free := rfl
@[simp] theorem endCycle_pending (s : State) (a : Agent) (e : CycleEnd) : (s.endCycle a e).pending = s.pending := rfl

/-! ### failCycle -/

@[simp] theorem failCycle_windows (s : State) (a : Agent) (r : Reason) (c : BusCycle) (w : Option WindowId) : (s.failCycle a r c w).windows = s.windows := rfl
@[simp] theorem failCycle_ctxs (s : State) (a : Agent) (r : Reason) (c : BusCycle) (w : Option WindowId) : (s.failCycle a r c w).ctxs = s.ctxs := rfl
@[simp] theorem failCycle_quotas (s : State) (a : Agent) (r : Reason) (c : BusCycle) (w : Option WindowId) : (s.failCycle a r c w).quotas = s.quotas := rfl
@[simp] theorem failCycle_inUse (s : State) (a : Agent) (r : Reason) (c : BusCycle) (w : Option WindowId) : (s.failCycle a r c w).inUse = s.inUse := rfl
@[simp] theorem failCycle_targets (s : State) (a : Agent) (r : Reason) (c : BusCycle) (w : Option WindowId) : (s.failCycle a r c w).targets = s.targets := rfl
@[simp] theorem failCycle_router (s : State) (a : Agent) (r : Reason) (c : BusCycle) (w : Option WindowId) : (s.failCycle a r c w).router = s.router := rfl
@[simp] theorem failCycle_mgmt (s : State) (a : Agent) (r : Reason) (c : BusCycle) (w : Option WindowId) : (s.failCycle a r c w).mgmt = s.mgmt := rfl
@[simp] theorem failCycle_resetn (s : State) (a : Agent) (r : Reason) (c : BusCycle) (w : Option WindowId) : (s.failCycle a r c w).resetn = s.resetn := rfl
@[simp] theorem failCycle_transfers (s : State) (a : Agent) (r : Reason) (c : BusCycle) (w : Option WindowId) : (s.failCycle a r c w).transfers = s.transfers := rfl
@[simp] theorem failCycle_tb (s : State) (a : Agent) (r : Reason) (c : BusCycle) (w : Option WindowId) : (s.failCycle a r c w).tb = s.tb := rfl
@[simp] theorem failCycle_outcomes (s : State) (a : Agent) (r : Reason) (c : BusCycle) (w : Option WindowId) : (s.failCycle a r c w).outcomes = s.outcomes := rfl
@[simp] theorem failCycle_emptyReports (s : State) (a : Agent) (r : Reason) (c : BusCycle) (w : Option WindowId) : (s.failCycle a r c w).emptyReports = s.emptyReports := rfl
@[simp] theorem failCycle_free (s : State) (a : Agent) (r : Reason) (c : BusCycle) (w : Option WindowId) : (s.failCycle a r c w).free = s.free := rfl
@[simp] theorem failCycle_pending (s : State) (a : Agent) (r : Reason) (c : BusCycle) (w : Option WindowId) : (s.failCycle a r c w).pending = s.pending := rfl

/-! ### setRefused -/

@[simp] theorem setRefused_windows (s : State) (a : Agent) (b : Bool) : (s.setRefused a b).windows = s.windows := rfl
@[simp] theorem setRefused_ctxs (s : State) (a : Agent) (b : Bool) : (s.setRefused a b).ctxs = s.ctxs := rfl
@[simp] theorem setRefused_quotas (s : State) (a : Agent) (b : Bool) : (s.setRefused a b).quotas = s.quotas := rfl
@[simp] theorem setRefused_inUse (s : State) (a : Agent) (b : Bool) : (s.setRefused a b).inUse = s.inUse := rfl
@[simp] theorem setRefused_targets (s : State) (a : Agent) (b : Bool) : (s.setRefused a b).targets = s.targets := rfl
@[simp] theorem setRefused_router (s : State) (a : Agent) (b : Bool) : (s.setRefused a b).router = s.router := rfl
@[simp] theorem setRefused_mgmt (s : State) (a : Agent) (b : Bool) : (s.setRefused a b).mgmt = s.mgmt := rfl
@[simp] theorem setRefused_resetn (s : State) (a : Agent) (b : Bool) : (s.setRefused a b).resetn = s.resetn := rfl
@[simp] theorem setRefused_transfers (s : State) (a : Agent) (b : Bool) : (s.setRefused a b).transfers = s.transfers := rfl
@[simp] theorem setRefused_tb (s : State) (a : Agent) (b : Bool) : (s.setRefused a b).tb = s.tb := rfl
@[simp] theorem setRefused_outcomes (s : State) (a : Agent) (b : Bool) : (s.setRefused a b).outcomes = s.outcomes := rfl
@[simp] theorem setRefused_emptyReports (s : State) (a : Agent) (b : Bool) : (s.setRefused a b).emptyReports = s.emptyReports := rfl
@[simp] theorem setRefused_free (s : State) (a : Agent) (b : Bool) : (s.setRefused a b).free = s.free := rfl
@[simp] theorem setRefused_pending (s : State) (a : Agent) (b : Bool) : (s.setRefused a b).pending = s.pending := rfl

/-! ### writeRequest -/

@[simp] theorem writeRequest_windows (s : State) (a : Agent) (c : Byte) (p : List Byte) : (s.writeRequest a c p).windows = s.windows := rfl
@[simp] theorem writeRequest_ctxs (s : State) (a : Agent) (c : Byte) (p : List Byte) : (s.writeRequest a c p).ctxs = s.ctxs := rfl
@[simp] theorem writeRequest_quotas (s : State) (a : Agent) (c : Byte) (p : List Byte) : (s.writeRequest a c p).quotas = s.quotas := rfl
@[simp] theorem writeRequest_inUse (s : State) (a : Agent) (c : Byte) (p : List Byte) : (s.writeRequest a c p).inUse = s.inUse := rfl
@[simp] theorem writeRequest_targets (s : State) (a : Agent) (c : Byte) (p : List Byte) : (s.writeRequest a c p).targets = s.targets := rfl
@[simp] theorem writeRequest_router (s : State) (a : Agent) (c : Byte) (p : List Byte) : (s.writeRequest a c p).router = s.router := rfl
@[simp] theorem writeRequest_mgmt (s : State) (a : Agent) (c : Byte) (p : List Byte) : (s.writeRequest a c p).mgmt = s.mgmt := rfl
@[simp] theorem writeRequest_resetn (s : State) (a : Agent) (c : Byte) (p : List Byte) : (s.writeRequest a c p).resetn = s.resetn := rfl
@[simp] theorem writeRequest_transfers (s : State) (a : Agent) (c : Byte) (p : List Byte) : (s.writeRequest a c p).transfers = s.transfers := rfl
@[simp] theorem writeRequest_tb (s : State) (a : Agent) (c : Byte) (p : List Byte) : (s.writeRequest a c p).tb = s.tb := rfl
@[simp] theorem writeRequest_outcomes (s : State) (a : Agent) (c : Byte) (p : List Byte) : (s.writeRequest a c p).outcomes = s.outcomes := rfl
@[simp] theorem writeRequest_emptyReports (s : State) (a : Agent) (c : Byte) (p : List Byte) : (s.writeRequest a c p).emptyReports = s.emptyReports := rfl
@[simp] theorem writeRequest_free (s : State) (a : Agent) (c : Byte) (p : List Byte) : (s.writeRequest a c p).free = s.free := rfl
@[simp] theorem writeRequest_pending (s : State) (a : Agent) (c : Byte) (p : List Byte) : (s.writeRequest a c p).pending = s.pending := rfl

/-! ### settleWaits -/

@[simp] theorem settleWaits_resetn (s : State) : s.settleWaits.resetn = s.resetn := rfl
@[simp] theorem settleWaits_transfers (s : State) : s.settleWaits.transfers = s.transfers := rfl
@[simp] theorem settleWaits_windows (s : State) : s.settleWaits.windows = s.windows := rfl
@[simp] theorem settleWaits_ctxs (s : State) : s.settleWaits.ctxs = s.ctxs := rfl
@[simp] theorem settleWaits_quotas (s : State) : s.settleWaits.quotas = s.quotas := rfl
@[simp] theorem settleWaits_inUse (s : State) : s.settleWaits.inUse = s.inUse := rfl
@[simp] theorem settleWaits_targets (s : State) : s.settleWaits.targets = s.targets := rfl
@[simp] theorem settleWaits_router (s : State) : s.settleWaits.router = s.router := rfl
@[simp] theorem settleWaits_mgmt (s : State) : s.settleWaits.mgmt = s.mgmt := rfl
@[simp] theorem settleWaits_tb (s : State) : s.settleWaits.tb = s.tb := rfl
@[simp] theorem settleWaits_outcomes (s : State) : s.settleWaits.outcomes = s.outcomes := rfl
@[simp] theorem settleWaits_emptyReports (s : State) : s.settleWaits.emptyReports = s.emptyReports := rfl
@[simp] theorem settleWaits_free (s : State) : s.settleWaits.free = s.free := rfl
@[simp] theorem settleWaits_pending (s : State) : s.settleWaits.pending = s.pending := rfl

/-! ### What is written -/

theorem updWindow_eq (s : State) (w : WindowId) (f : Window → Window) :
    s.updWindow w f = { s with windows := s.windows.set w (f (s.windows.get w)) } := rfl
theorem updCtx_eq (s : State) (w : WindowId) (f : LeaseCtx → LeaseCtx) :
    s.updCtx w f = { s with ctxs := s.ctxs.set w (f (s.ctxs.get w)) } := rfl
theorem updTarget_eq (s : State) (t : TargetId) (f : Target → Target) :
    s.updTarget t f = { s with targets := s.targets.set t (f (s.targets.get t)) } := rfl
theorem updPort_eq (s : State) (a : Agent) (f : Port → Port) :
    s.updPort a f = { s with ports := s.ports.set a (f (s.ports.get a)) } := rfl

@[simp] theorem updWindow_get (s : State) (w : WindowId) (f : Window → Window) :
    (s.updWindow w f).windows.get w = f (s.windows.get w) := by simp [updWindow]
@[simp] theorem updCtx_get (s : State) (w : WindowId) (f : LeaseCtx → LeaseCtx) :
    (s.updCtx w f).ctxs.get w = f (s.ctxs.get w) := by simp [updCtx]
@[simp] theorem updTarget_get (s : State) (t : TargetId) (f : Target → Target) :
    (s.updTarget t f).targets.get t = f (s.targets.get t) := by simp [updTarget]
@[simp] theorem updPort_get (s : State) (a : Agent) (f : Port → Port) :
    (s.updPort a f).ports.get a = f (s.ports.get a) := by simp [updPort]
@[simp] theorem settleWaits_get (s : State) (a : Agent) :
    s.settleWaits.ports.get a =
      if (s.ports.get a).state = .waiting then (s.ports.get a).takeResponses else s.ports.get a := by
  simp [settleWaits]
@[simp] theorem updPath_get (s : State) (a : Agent) (f : Path → Path) :
    (s.updPath a f).router.paths.get a = f (s.router.paths.get a) := by simp [updPath, updRouter]
@[simp] theorem updRouter_router (s : State) (f : Router → Router) : (s.updRouter f).router = f s.router := rfl
@[simp] theorem updMgmt_mgmt (s : State) (f : Mgmt → Mgmt) : (s.updMgmt f).mgmt = f s.mgmt := rfl
@[simp] theorem updPath_bus (s : State) (a : Agent) (f : Path → Path) : (s.updPath a f).router.bus = s.router.bus := rfl

/-! ### Two updates of one record are one -/

@[simp] theorem updWindow_updWindow (s : State) (w : WindowId) (f g : Window → Window) :
    (s.updWindow w f).updWindow w g = s.updWindow w (fun x => g (f x)) := by simp [updWindow]
@[simp] theorem updCtx_updCtx (s : State) (w : WindowId) (f g : LeaseCtx → LeaseCtx) :
    (s.updCtx w f).updCtx w g = s.updCtx w (fun x => g (f x)) := by simp [updCtx]
@[simp] theorem updTarget_updTarget (s : State) (t : TargetId) (f g : Target → Target) :
    (s.updTarget t f).updTarget t g = s.updTarget t (fun x => g (f x)) := by simp [updTarget]
@[simp] theorem updPort_updPort (s : State) (a : Agent) (f g : Port → Port) :
    (s.updPort a f).updPort a g = s.updPort a (fun x => g (f x)) := by simp [updPort]
@[simp] theorem updMgmt_updMgmt (s : State) (f g : Mgmt → Mgmt) :
    (s.updMgmt f).updMgmt g = s.updMgmt (fun x => g (f x)) := rfl
@[simp] theorem updRouter_updRouter (s : State) (f g : Router → Router) :
    (s.updRouter f).updRouter g = s.updRouter (fun x => g (f x)) := rfl
@[simp] theorem updPath_updPath (s : State) (a : Agent) (f g : Path → Path) :
    (s.updPath a f).updPath a g = s.updPath a (fun x => g (f x)) := by simp [updPath, updRouter]

end State
end Sys2Proof.Machine
end

