-- ==== Sys2Proof/Laws/Ops.lean ====
section
/-! SUPPORT. What the shared operations do, in the words of Sys2Proof/Safety.lean. -/

namespace Sys2Proof.Machine

open Sys2Proof.Safety

/-! ### Frames -/

theorem settle_request (code : Byte) (n : Nat) (r : Reply) :
    settle code (requestBits n) r = afterResult r.state code n r.status r.payload := rfl

theorem settle_eq (code : Byte) (bits : Nat) (r : Reply) :
    settle code bits r = posted r.state code r.status r.payload bits := rfl

theorem onFrame_taken (s : State) (f : State → State) (h : takesFrames s) : s.onFrame f = f s := by
  simp [State.onFrame, h.1, h.2]

theorem onFrame_not_taken (s : State) (f : State → State) (h : ¬takesFrames s) :
    s.onFrame f = { s with mgmt := { s.mgmt with msel := !s.mgmt.msel, mso := [] } } := by
  unfold takesFrames at h
  unfold State.onFrame
  rw [if_neg (by simpa using h)]
  rfl

/-- What a supervisor request does: its result is posted where the MP takes the frame. -/
theorem carryOut_taken (code : Byte) (n : Nat) (f : State → Reply) (s : State) (h : takesFrames s) :
    carryOut code n f s = .next (afterResult (f s).state code n (f s).status (f s).payload) := by
  simp only [carryOut, onFrame_taken s _ h, settle_request]

theorem carryOut_not_taken (code : Byte) (n : Nat) (f : State → Reply) (s : State) (h : ¬takesFrames s) :
    carryOut code n f s = .next { s with mgmt := { s.mgmt with msel := !s.mgmt.msel, mso := [] } } := by
  simp only [carryOut, onFrame_not_taken s _ h]

theorem updMgmt_drive_attention (s : State) (a : Attention) :
    (s.updMgmt fun m => { m with attention := a }.drive) = withAttention s a := rfl

/-! ### Endings -/

theorem answer_eq (s : State) (a : Agent) (code : Byte) (status : Status) (payload : List Byte) :
    s.answer a code status payload = afterResponse s a code status payload := rfl

theorem endHold_silent (s : State) (w : WindowId) (h : Hold) (cause : Cause) :
    s.endHold w h cause none = holdEnded s w h cause := rfl

theorem endHold_told (s : State) (w : WindowId) (h : Hold) (cause : Cause) (r : LostReason) :
    s.endHold w h cause (some r) = holdLost s w h cause r := rfl

theorem dropWait_eq (s : State) (w : WindowId) (a : Agent) : s.dropWait w a = waitRemoved s w a := rfl

theorem endWait_eq (s : State) (w : WindowId) (a : Agent) (status : Status) :
    s.endWait w a status = (waitRemoved s w a).handResponse a 0x01 status w [windowByte w] := rfl

theorem clearUpgrade_eq (s : State) (w : WindowId) (a : Agent) : s.clearUpgrade w a = upgradeCleared s w a := rfl

theorem endUpgrade_eq (s : State) (w : WindowId) (h : Hold) (status : Status) :
    s.endUpgrade w h status =
      (upgradeCleared s w h.agent).handResponse h.agent 0x04 status w
        ([windowByte w, 0] ++ le16 (h.serial.setWidth 16)) := rfl

theorem updCtx_mapHold (s : State) (w : WindowId) (a : Agent) (f : Hold → Hold) :
    (s.updCtx w fun c => c.mapHold a f) = holdChanged s w a f := rfl

theorem setTerm_eq (h : Hold) (now : Tick) (win : Window) (term : Half) :
    h.setTerm now win term = timed h now term win.margin := rfl

theorem termUsed_eq (win : Window) (asked : Option Half) : termUsed win asked = selectedTerm win asked := rfl

theorem newHold_eq (s : State) (w : WindowId) (a : Agent) (m : Mode) (once : Bool) (asked : Option Half) :
    newHold (s.ctxs.get w) s.tb.tick (s.windows.get w) a m once asked = grantedHold s w a m once asked := rfl

theorem addHold_eq (c : LeaseCtx) (h : Hold) : c.addHold h = grantedCtx c h := rfl

theorem upgrade_eq (s : State) (w : WindowId) (h : Hold) :
    h.upgrade (s.ctxs.get w) s.tb.tick (s.windows.get w) = upgradedHold s w h := rfl

theorem grantUpgrade_eq (s : State) (w : WindowId) (h : Hold) :
    (s.updCtx w fun c => c.grantUpgrade s.tb.tick (s.windows.get w) h.agent) = upgradeGranted s w h := rfl

theorem endWaits_closed (s : State) (w : WindowId) :
    s.endWaits w (s.ctxs.get w).waiters .closed = waitsClosed s w := rfl

theorem endHolds_closed (s : State) (w : WindowId) :
    s.endHolds w (s.ctxs.get w).holders .closed (some .closed) = holdsClosed s w := rfl

theorem startDelay_eq (t : Target) (now : Tick) :
    t.startDelay now =
      { t with
        parkDeadline :=
          if t.useCount = 0 ∧ t.parkDelay ≠ 0 then some ⟨now + BitVec.ofNat 32 t.parkDelay.toNat, false⟩
          else t.parkDeadline } := by
  unfold Target.startDelay
  split <;> rfl

theorem leave_eq (t : Target) (now : Tick) : t.leave now = left t now := by
  by_cases h : t.state = .ready
  · simp only [Target.leave, left, startDelay_eq, h, true_and, if_true]
  · simp only [Target.leave, left, h, false_and, if_false]

/-! ### The ending of cycles -/

theorem failCycle_eq (s : State) (a : Agent) (r : Reason) (c : BusCycle) (w : Option WindowId) :
    s.failCycle a r c w = cycleFailed s a r c w := by
  simp only [State.failCycle, cycleFailed, withPort, State.updPort, Port.takeFault, Port.drive, aerrEnd, beatsOf]
  all_goals (cases (s.ports.get a).fault <;> cases c.write <;> rfl)

theorem down_iff (p : Port) : p.down = true ↔ portDown p := by simp [Port.down, portDown]

theorem cycleGone_iff (s : State) (a : Agent) : s.cycleGone a = true ↔ cycleLost s a := by
  simp [State.cycleGone, cycleLost]

theorem alignedCycle_iff (c : BusCycle) : alignedCycle c = true ↔ aligned c := by
  unfold alignedCycle legalSize aligned
  simp only [Bool.and_eq_true, Bool.or_eq_true, beq_iff_eq]
  constructor
  · rintro ⟨((((h | h) | h) | h) | h) | h, e⟩ <;> simp_all
  · rintro ((h | h | h) | ⟨h | h | h, e⟩) <;> simp_all [Nat.mod_one]

theorem refuseCycle_eq (s : State) (a : Agent) (r : Reason) (c : BusCycle) (w : Option WindowId) :
    s.refuseCycle a r c w = cycleRefused s a r c w := by
  simp only [State.refuseCycle, failCycle_eq]
  rfl

theorem takeCycle_eq (s : State) (a : Agent) (c : BusCycle) : s.takeCycle a c = cycleTaken s a c := by
  unfold State.takeCycle cycleTaken
  simp only [refuseCycle_eq, Bool.not_eq_true']
  by_cases h : alignedCycle c = true
  · have h' := (alignedCycle_iff c).mp h
    simp only [h, h', not_true, if_false, Bool.true_eq_false]
    rfl
  · have h' : ¬aligned c := fun e => h ((alignedCycle_iff c).mpr e)
    simp only [Bool.not_eq_true] at h
    simp only [h, h', not_false_eq_true, if_true]

theorem free_iff (p : Path) : p.free = true ↔ p.slot = .empty ∧ p.admission = none := by simp [Path.free]

theorem takeHeld_eq (s : State) (a : Agent) : s.takeHeld a = heldTaken s a := by
  have up : ∀ p : Port, (!p.down) = true ↔ ¬portDown p := fun p => by rw [← down_iff]; cases p.down <;> decide
  simp only [State.takeHeld, heldTaken, free_iff, up, takeCycle_eq, and_assoc]
  rfl

/-- A refusal at admission: at the port, or discarded, and a held cycle is taken. -/
theorem refuse_eq (s : State) (a : Agent) (r : Reason) (c : BusCycle) (w : Option WindowId) :
    s.refuse a r c w = refusalSettled s a r c w := by
  simp only [State.refuse, refusalSettled, refuseCycle_eq, takeHeld_eq, cycleGone_iff]
  rfl

theorem dropQueued_eq (s : State) (a : Agent) (x : Access) : s.dropQueued a x = accessDropped s a x := by
  simp only [State.dropQueued, accessDropped, takeHeld_eq]
  rfl

/-! ### The grant evaluation (R31, R32) -/

theorem evaluate_not_open (s : State) (w : WindowId) (h : (s.windows.get w).state ≠ .opened) : s.evaluate w = s := by
  simp only [State.evaluate, h, if_false]

theorem evaluate_empty (s : State) (w : WindowId) (h1 : (s.ctxs.get w).waiters = [])
    (h2 : ∀ h ∈ (s.ctxs.get w).holders, h.upgrading = false) : s.evaluate w = s := by
  have e : (s.ctxs.get w).upgrader = none := by simpa [LeaseCtx.upgrader] using h2
  simp only [State.evaluate, e, h1, LeaseCtx.grantHeads, State.updCtx, State.handGrants, List.foldl_nil]
  split
  · have : ({ s.ctxs.get w with waiters := [] } : LeaseCtx) = s.ctxs.get w := by rw [← h1]
    simp [this]
  · rfl

/-- Handing out a list of grants adds responses to ports and changes nothing else. -/
theorem handGrants_ports (s : State) (w : WindowId) (gs : List (Hold × Half)) :
    s.handGrants w gs = { s with ports := (s.handGrants w gs).ports } := by
  induction gs generalizing s with
  | nil => rfl
  | cons g gs ih =>
    simp only [State.handGrants, List.foldl_cons] at ih ⊢
    rw [ih]
    rfl

theorem handGrants_port (s : State) (w : WindowId) (gs : List (Hold × Half)) (a : Agent) :
    ∃ more, (s.handGrants w gs).ports.get a =
      { s.ports.get a with responses := (s.ports.get a).responses ++ more } := by
  induction gs generalizing s with
  | nil => exact ⟨[], by simp [State.handGrants]⟩
  | cons g gs ih =>
    simp only [State.handGrants, List.foldl_cons] at ih ⊢
    obtain ⟨more, h⟩ := ih (s.handResponse g.1.agent acquireCode .granted w (grantedPayload w g.1 g.2))
    rw [h]
    simp only [State.handResponse, State.updPort, Tbl.get_set]
    split
    · rename_i e; subst e; exact ⟨⟨acquireCode, .granted, w, grantedPayload w g.1 g.2, false⟩ :: more, by
        simp only [List.append_assoc, List.singleton_append]⟩
    · exact ⟨more, rfl⟩

theorem grantHeads_inflight (now : Tick) (win : Window) (xs : List Wait) (c : LeaseCtx) :
    (LeaseCtx.grantHeads now win xs c).1.inflight = c.inflight ∧
    (LeaseCtx.grantHeads now win xs c).1.drain = c.drain := by
  induction xs generalizing c with
  | nil => exact ⟨rfl, rfl⟩
  | cons x xs ih =>
    simp only [LeaseCtx.grantHeads]
    split
    · exact ih _
    · exact ⟨rfl, rfl⟩

/-- What an evaluation can change: the context of its window and the responses handed to ports. -/
theorem evaluate_frame (s : State) (w : WindowId) :
    s.evaluate w = { s with ctxs := (s.evaluate w).ctxs, ports := (s.evaluate w).ports } := by
  simp only [State.evaluate]
  split
  · split
    · split <;> rfl
    · rw [handGrants_ports]; rfl
  · rfl

theorem evaluate_other_ctx (s : State) {w v : WindowId} (h : v ≠ w) :
    (s.evaluate w).ctxs.get v = s.ctxs.get v := by
  simp only [State.evaluate]
  split
  · split
    · split
      · simp [State.updCtx, Ne.symm h]
      · rfl
    · rw [handGrants_ports]; simp [State.updCtx, Ne.symm h]
  · rfl

theorem evaluate_inflight (s : State) (w : WindowId) :
    ((s.evaluate w).ctxs.get w).inflight = (s.ctxs.get w).inflight ∧
    ((s.evaluate w).ctxs.get w).drain = (s.ctxs.get w).drain := by
  simp only [State.evaluate]
  split
  · split
    · split
      · simp [State.updCtx, LeaseCtx.grantUpgrade, LeaseCtx.mapHold]
      · exact ⟨rfl, rfl⟩
    · rw [handGrants_ports]
      simp only [State.updCtx, Tbl.get_set_self]
      exact grantHeads_inflight _ _ _ _
  · exact ⟨rfl, rfl⟩

theorem evaluate_port (s : State) (w : WindowId) (a : Agent) :
    ∃ more, (s.evaluate w).ports.get a = { s.ports.get a with responses := (s.ports.get a).responses ++ more } := by
  simp only [State.evaluate]
  split
  · split
    · split
      · rename_i h _ _
        simp only [State.handResponse, State.updPort, State.updCtx, Tbl.get_set]
        split
        · rename_i e; subst e; exact ⟨_, rfl⟩
        · exact ⟨[], by simp⟩
      · exact ⟨[], by simp⟩
    · exact handGrants_port _ _ _ _
  · exact ⟨[], by simp⟩

theorem emptyContext_iff (s : State) (w : WindowId) :
    s.emptyContext w = true ↔ (s.ctxs.get w).holders = [] ∧ (s.ctxs.get w).inflight = 0 := by
  simp [State.emptyContext, LeaseCtx.idle]

theorem upgradeFree_iff (c : LeaseCtx) : c.upgradeFree = true ↔ c.holders.length = 1 ∧ c.inflight = 0 := by
  simp [LeaseCtx.upgradeFree]

theorem grantable_iff (c : LeaseCtx) (m : Mode) :
    c.grantable m = true ↔
      (m = .exclusive ∧ c.holders = [] ∧ c.inflight = 0) ∨
      (m = .shared ∧ (∀ h ∈ c.holders, h.mode = .shared) ∧ c.drain = false) := by
  have e : ∀ h : Hold, h.mode = .shared ↔ ¬h.mode = .exclusive := by
    intro h; cases h.mode <;> simp
  cases m
  · simp [LeaseCtx.grantable, LeaseCtx.hasExclusive, e]
  · simp [LeaseCtx.grantable, LeaseCtx.idle]

end Sys2Proof.Machine
end

