-- ==== Sys2Proof/Laws/Commits.lean ====
section
/-! SUPPORT. Commits: the record a request writes read back, and the request that an IDLE port then carries out. -/

namespace Sys2Proof.Machine

open Sys2Proof.Safety

theorem writeArgs_get (args : Tbl Byte 8) (bytes : List Byte) (i : Fin 8) :
    (writeArgs args bytes).get i = if h : i.val < bytes.length then bytes[i.val] else args.get i := by
  simp only [writeArgs, Tbl.get, List.getElem_take]
  split
  · rename_i h; rw [List.getElem_append_left h]
  · rename_i h
    rw [List.getElem_append_right (by omega), List.getElem_drop]
    congr 1
    omega

theorem busShut_ports (s : State) (a : Agent) (ports : Tbl Port 4) :
    ({ s with ports := ports } : State).busShut a = s.busShut a := rfl

/-- A request of an agent whose port is IDLE and whose bus is free is carried out on the record it wrote. -/
theorem request_idle (s : State) (a : Agent) (code : Byte) (bytes : List Byte) (h : canCommit s a) :
    s.request a code bytes =
      dispatch a ⟨code, writeArgs (s.ports.get a).request.args bytes⟩ (asked s a code bytes) := by
  obtain ⟨idle, up, free⟩ := h
  simp only [State.request, State.commitCycle, State.writeRequest, State.endCycle, State.commit, State.setRefused,
    State.updPort, free, busShut_ports, Bool.false_eq_true, if_false, Port.down, idle, up, reduceCtorEq,
    Tbl.get_set_self, Tbl.set_set, asked, withPort, beq_iff_eq, Bool.not_true, Bool.or_false]

/-- The positions of the argument bytes. -/
theorem argument_positions :
    ((2 : Fin 8).val = 2 ∧ (3 : Fin 8).val = 3) ∧ (4 : Fin 8).val = 4 ∧ (5 : Fin 8).val = 5 := ⟨⟨rfl, rfl⟩, rfl, rfl⟩

theorem exec_acquire_idle (a : Agent) (window flags : Byte) (waitLimit term : Half) (s : State)
    (h : canCommit s a) :
    exec (.acquire a window flags waitLimit term) s =
      .next
        (acquire a window flags waitLimit term (asked s a 0x01 (acquireArgs window flags waitLimit term))) := by
  simp only [exec, execAcquire, request_idle _ _ _ _ h]
  simp [dispatch, RequestRecord.byte, RequestRecord.half, writeArgs_get, argument_positions, le16, ofBytes2_hi_lo, acquireArgs]

theorem token_readBack (code : Byte) (args : Tbl Byte 8) (t : Token) (rest : List Byte) :
    RequestRecord.token ⟨code, writeArgs args (tokenBytes t ++ rest)⟩ = t := by
  simp [RequestRecord.token, RequestRecord.byte, RequestRecord.half, writeArgs_get, argument_positions, le16, tokenBytes, ofBytes2_hi_lo]

theorem half_readBack (code : Byte) (args : Tbl Byte 8) (t : Token) (x : Half) :
    RequestRecord.half ⟨code, writeArgs args (tokenBytes t ++ le16 x)⟩ 4 5 = x := by
  simp [RequestRecord.half, writeArgs_get, argument_positions, le16, tokenBytes, ofBytes2_hi_lo]

theorem exec_release_idle (a : Agent) (t : Token) (s : State) (h : canCommit s a) :
    exec (.release a t) s = .next (release a t (asked s a 0x02 (tokenBytes t))) := by
  simp only [exec, execRelease, request_idle _ _ _ _ h]
  have := token_readBack 0x02 (s.ports.get a).request.args t []
  rw [List.append_nil] at this
  simp only [dispatch, this]
  rfl

theorem exec_downgrade_idle (a : Agent) (t : Token) (s : State) (h : canCommit s a) :
    exec (.downgrade a t) s = .next (downgrade a t (asked s a 0x03 (tokenBytes t))) := by
  simp only [exec, execDowngrade, request_idle _ _ _ _ h]
  have := token_readBack 0x03 (s.ports.get a).request.args t []
  rw [List.append_nil] at this
  simp only [dispatch, this]
  rfl

theorem exec_upgrade_idle (a : Agent) (t : Token) (waitLimit : Half) (s : State) (h : canCommit s a) :
    exec (.upgrade a t waitLimit) s =
      .next (upgrade a t waitLimit (asked s a 0x04 (tokenBytes t ++ le16 waitLimit))) := by
  simp only [exec, execUpgrade, request_idle _ _ _ _ h]
  simp only [dispatch, token_readBack, half_readBack]
  rfl

theorem exec_renew_idle (a : Agent) (t : Token) (term : Half) (s : State) (h : canCommit s a) :
    exec (.renew a t term) s = .next (renew a t term (asked s a 0x05 (tokenBytes t ++ le16 term))) := by
  simp only [exec, execRenew, request_idle _ _ _ _ h]
  simp only [dispatch, token_readBack, half_readBack]
  rfl

theorem exec_queryWindow_idle (a : Agent) (window : Byte) (s : State) (h : canCommit s a) :
    exec (.queryWindow a window) s = .next (queryWindow a window (asked s a 0x08 [window])) := by
  simp only [exec, execQueryWindow, request_idle _ _ _ _ h]
  simp [dispatch, RequestRecord.byte, writeArgs_get]

theorem exec_readFault_idle (a : Agent) (s : State) (h : canCommit s a) :
    exec (.readFault a) s = .next (readFault a (asked s a 0x09 [])) := by
  simp only [exec, execReadFault, request_idle _ _ _ _ h]
  rfl

theorem exec_takeNotice_idle (a : Agent) (s : State) (h : canCommit s a) :
    exec (.takeNotice a) s = .next (takeNotice a (asked s a 0x0A [])) := by
  simp only [exec, execTakeNotice, request_idle _ _ _ _ h]
  rfl

theorem exec_setNotices_idle (a : Agent) (b1 b2 b3 b4 b5 : Byte) (s : State) (h : canCommit s a) :
    exec (.setNotices a b1 b2 b3 b4 b5) s =
      .next (setNotices a b1 b2 b3 b4 b5 (asked s a 0x0B [b1, b2, b3, b4, b5])) := by
  simp only [exec, execSetNotices, request_idle _ _ _ _ h]
  simp [dispatch, RequestRecord.byte, writeArgs_get, argument_positions]

/-- An ABANDON is carried out in an IDLE and in a WAITING port. -/
theorem exec_abandon_taken (a : Agent) (s : State) (up : (s.ports.get a).down = false) (free : s.busShut a = false) :
    exec (.abandon a) s = .next (abandon a (asked s a 0x06 [])) := by
  have up' : (s.ports.get a).state ≠ .inReset ∧ (s.ports.get a).prstn = true := by simpa [Port.down] using up
  simp only [exec, execAbandon, State.request, State.commitCycle, State.writeRequest, State.endCycle, State.commit,
    State.setRefused, State.updPort, free, busShut_ports, Bool.false_eq_true, if_false, up, Tbl.get_set_self,
    Tbl.set_set, asked, withPort]
  have again : ∀ (q : RequestRecord) (e : Option CycleEnd),
      ({ s.ports.get a with request := q, ended := e } : Port).down = false := fun _ _ => up
  simp only [again, Bool.false_eq_true, if_false]
  cases h : (s.ports.get a).state
  · rfl
  · simp only [if_true]
  · exact absurd h up'.1

end Sys2Proof.Machine
end

