-- ==== Sys2Proof/Laws/Frames.lean ====
section
/-! SUPPORT. REQUEST frames: a frame that carries a request is read back as that request. -/

namespace Sys2Proof

theorem requestOf_requestBytes (i : Instr) (code : Byte) (payload : List Byte)
    (h : requestBytes i = some (code, payload)) : requestOf code payload = some i ∧ payload.length ≤ 15 := by
  cases i <;> simp only [requestBytes, Option.some.injEq, Prod.mk.injEq, reduceCtorEq] at h
  all_goals obtain ⟨rfl, rfl⟩ := h
  all_goals
    simp [requestOf, be16, be24, be32, Machine.ofBytes2_hi_lo, Machine.ofBytes3_split, Machine.ofBytes4_split]

theorem settleFrame_requestFrame (code : Byte) (payload extra : List Byte) (h : payload.length ≤ 15) :
    settleFrame (requestFrame code payload ++ extra) = .request code payload := by
  have e : (BitVec.ofNat 8 payload.length).toNat = payload.length := by simp; omega
  simp only [requestFrame, List.cons_append, List.nil_append, List.append_assoc, settleFrame, e]
  rw [if_neg (by omega), if_neg (by simp)]
  simp

/-- A code that names no request, or a length that is not its own, spells no request. -/
theorem requestOf_length (code : Byte) (payload : List Byte) (i : Instr) (h : requestOf code payload = some i) :
    requestLength code = some payload.length := by
  unfold requestOf at h
  split at h
  all_goals (repeat' split at h)
  all_goals first | (simp at h; done) | skip
  all_goals (subst_vars; rfl)

/-! ### Bits and bytes (R164) -/

theorem byteOfBits_bits (b : Byte) :
    byteOfBits (b.getLsbD 7) (b.getLsbD 6) (b.getLsbD 5) (b.getLsbD 4) (b.getLsbD 3) (b.getLsbD 2) (b.getLsbD 1)
      (b.getLsbD 0) = b := by
  revert b
  decide

theorem bitsOfBytes_cons (b : Byte) (bs : List Byte) : bitsOfBytes (b :: bs) = bitsOfByte b ++ bitsOfBytes bs := rfl

theorem length_bitsOfBytes (bs : List Byte) : (bitsOfBytes bs).length = 8 * bs.length := by
  induction bs with
  | nil => rfl
  | cons b bs ih =>
    rw [bitsOfBytes_cons, List.length_append, ih, List.length_cons]
    simp only [bitsOfByte, List.length_cons, List.length_nil]
    omega

/-- The bits of bytes are read back as those bytes; up to seven bits left over form none. -/
theorem frameBytes_bitsOfBytes (bs : List Byte) (part : List Bool) (h : part.length < 8) :
    frameBytes (bitsOfBytes bs ++ part) = bs := by
  induction bs with
  | nil =>
    simp only [bitsOfBytes, List.flatMap_nil, List.nil_append]
    unfold frameBytes
    split
    · simp only [List.length_cons] at h; omega
    · rfl
  | cons b bs ih =>
    simp only [bitsOfBytes_cons, bitsOfByte, List.cons_append, List.nil_append, frameBytes, byteOfBits_bits, ih]

end Sys2Proof
end

