-- ==== Sys2Proof/Laws/Steps.lean ====
section
/-! SUPPORT. What the steps that run over several records do, in the words of Sys2Proof/Safety.lean: handed responses, the
openings of a READY target, outcome reports, the end of a transfer, the arbiter's choice, the fall of PRSTn. -/

namespace Sys2Proof.Machine

open Sys2Proof.Safety

/-! ### Handed responses -/

theorem takeResponse_eq (p : Port) (r : HandedResponse) (h : p.state ≠ .inReset) :
    p.takeResponse r = if r.stale then p else endingPosted p r := by
  unfold Port.takeResponse
  by_cases hs : r.stale = true
  · simp [hs]
  · simp only [hs, h, or_self, if_false]; rfl

theorem foldl_takeResponse (rs : List HandedResponse) (p : Port) (h : p.state ≠ .inReset) :
    rs.foldl Port.takeResponse p = (rs.filter fun r => !r.stale).foldl endingPosted p := by
  induction rs generalizing p with
  | nil => rfl
  | cons r rs ih =>
    rw [List.foldl_cons, takeResponse_eq _ _ h]
    by_cases hs : r.stale = true
    · simp [hs, ih p h]
    · simp only [hs, List.filter_cons]
      rw [ih _ (by simp [endingPosted])]; rfl

/-- A port that is not IN_RESET posts the endings handed to it, oldest first. -/
theorem takeResponses_eq (p : Port) (h : p.state ≠ .inReset) :
    p.takeResponses = (p.responses.filter fun r => !r.stale).foldl endingPosted { p with responses := [] } := by
  unfold Port.takeResponses; exact foldl_takeResponse _ _ h

/-- What an accepted STOP makes of the ports. -/
theorem settleWaits_eq (s : State) :
    s.settleWaits =
      { s with
        ports :=
          s.ports.map fun p =>
            if p.state = .waiting then
              (p.responses.filter fun r => !r.stale).foldl endingPosted { p with responses := [] }
            else p } := by
  have : s.settleWaits.ports = s.ports.map fun p =>
      if p.state = .waiting then (p.responses.filter fun r => !r.stale).foldl endingPosted { p with responses := [] }
      else p := by
    apply Tbl.ext_get
    intro a
    rw [State.settleWaits_get, Tbl.get_map]
    by_cases hw : (s.ports.get a).state = .waiting
    · rw [if_pos hw, if_pos hw]; exact takeResponses_eq (s.ports.get a) (by simp [hw])
    · simp only [hw, if_false]
  rw [← this]
  rfl

/-! ### The openings of a READY target -/

theorem evaluate_windows (s : State) (w : WindowId) : (s.evaluate w).windows = s.windows := by rw [evaluate_frame]

theorem openNow_eq (s : State) (w : WindowId) : s.openNow w = windowOpened s w := rfl

theorem windowOpened_windows (s : State) (w : WindowId) :
    (windowOpened s w).windows = s.windows.set w { s.windows.get w with state := .opened } := by
  unfold windowOpened; simp only [evaluate_windows]; rfl

theorem foldl_openNow (t : TargetId) (l : List WindowId) (hl : l.Nodup) (s : State) :
    l.foldl
        (fun s w => if (s.windows.get w).state = .opening ∧ (s.windows.get w).target = t then s.openNow w else s) s =
      (l.filter fun w => (s.windows.get w).state == .opening && (s.windows.get w).target == t).foldl windowOpened s := by
  induction l generalizing s with
  | nil => rfl
  | cons w l ih =>
    obtain ⟨hw, hl⟩ := List.nodup_cons.mp hl
    rw [List.foldl_cons, ih hl, List.filter_cons]
    by_cases h : (s.windows.get w).state = .opening ∧ (s.windows.get w).target = t
    · simp only [h, and_self, if_true, beq_self_eq_true, Bool.and_self, List.foldl_cons, openNow_eq]
      congr 1
      apply List.filter_congr
      intro v hv
      have : w ≠ v := fun e => hw (e ▸ hv)
      rw [windowOpened_windows, Tbl.get_set_ne _ this]
    · have h' : ((s.windows.get w).state == .opening && (s.windows.get w).target == t) = false := by
        rw [Bool.eq_false_iff]; simpa using h
      simp only [h, if_false, h', Bool.false_eq_true]

/-- The report READY opens the windows that are OPENING when it is taken. -/
theorem readyReport_eq (s : State) (t : TargetId) : s.readyReport t = windowsOpened s t :=
  foldl_openNow t allWindows (List.nodup_finRange 32) s

/-! ### Outcome reports -/

theorem takeOutcome_outcomes (s : State) (t : TargetId) (o : Outcome) (l : List (TargetId × Outcome)) :
    ({ s with outcomes := l } : State).takeOutcome t o = { s.takeOutcome t o with outcomes := l } := by
  simp only [State.takeOutcome]
  split
  · cases o <;> simp only []
    · rfl
    · split <;> rfl
    · split <;> rfl
  · rfl

theorem takeOutcome_keeps (s : State) (t : TargetId) (o : Outcome) : (s.takeOutcome t o).outcomes = s.outcomes := by
  simp only [State.takeOutcome]
  split
  · cases o <;> simp only []
    · rfl
    · split <;> rfl
    · split <;> rfl
  · rfl

/-- Taking all reports is taking the oldest, then the rest. -/
theorem takeOutcomes_cons (s : State) (t : TargetId) (o : Outcome) (later : List (TargetId × Outcome))
    (h : s.outcomes = (t, o) :: later) :
    s.takeOutcomes = (({ s with outcomes := later } : State).takeOutcome t o).takeOutcomes := by
  have a := takeOutcome_outcomes s t o []
  have b := takeOutcome_outcomes s t o later
  unfold State.takeOutcomes
  rw [h, List.foldl_cons, takeOutcome_keeps]
  congr 1
  rw [b]
  exact a

/-! ### The end of a transfer -/

theorem leCompletion_eq (s : State) (x : Access) (a : Agent) :
    s.leCompletion a x.window x.serial x.once = accessCounted s x a := by
  simp only [State.leCompletion, accessCounted]
  congr 1
  change (match ((withCtx s x.window _).ctxs.get x.window).holdOf a with | some h => _ | none => _) = _
  cases hq : ((withCtx s x.window
      { s.ctxs.get x.window with
        inflight := (s.ctxs.get x.window).inflight - 1
        drain := (s.ctxs.get x.window).drain && (s.ctxs.get x.window).inflight - 1 != 0 }).ctxs.get
          x.window).holdOf a with
  | none => simp only [State.updCtx, LeaseCtx.complete, withCtx] at hq ⊢; simp only [hq]
  | some h => simp only [State.updCtx, LeaseCtx.complete, withCtx] at hq ⊢; simp only [hq]; rfl

theorem finishCycle_eq (s : State) (a : Agent) (x : Access) (o : Outcome) (beats : Tbl (BitVec 32) 8) :
    s.finishCycle a x (some o) beats = cycleEnded s a x o beats := by
  cases o <;> simp only [State.finishCycle, cycleEnded, Outcome.reason, failCycle_eq]
  rfl

theorem transferOver_eq (s : State) (a : Agent) :
    ((s.updRouter Router.afterTransfer).updPath a fun p => { p with slot := .empty, abandoned := false }) =
      transferOver s a := by
  cases hb : s.router.bus <;> simp [transferOver, State.updRouter, State.updPath, Router.afterTransfer, hb]

/-- The completion of a transfer that ran. -/
theorem complete_ran (s : State) (a : Agent) (x : Access) (d : Bool) (o : Outcome) (beats : Tbl (BitVec 32) 8) :
    s.complete a x d (some o) beats = transferDone s a x d o beats := by
  simp only [State.complete, transferOver_eq, leCompletion_eq, finishCycle_eq, takeHeld_eq, transferDone]
  have : ((d || s.cycleGone a) = true) ↔ (d = true ∨ cycleLost s a) := by rw [Bool.or_eq_true, cycleGone_iff]
  by_cases h : d = true ∨ cycleLost s a
  · rw [if_pos (this.mpr h), if_pos h]
  · rw [if_neg (fun e => h (this.mp e)), if_neg h]

/-- The completion of an access whose target is FAULTED at its turn. -/
theorem complete_not_run (s : State) (a : Agent) (x : Access) (beats : Tbl (BitVec 32) 8) :
    s.complete a x false none beats =
      let v := accessCounted (transferOver s a) x a
      heldTaken (if cycleLost s a then v else cycleFailed v a .targetFaulted x.cycle (some x.window)) a := by
  simp only [State.complete, transferOver_eq, leCompletion_eq, takeHeld_eq, State.finishCycle, failCycle_eq,
    Bool.false_or, cycleGone_iff]

/-! ### The arbiter's choice -/

/-- The first QUEUED slot from the pointer wins. -/
theorem nextQueued_first (s : State) (d : Fin 4) (x : Access)
    (h : (s.router.paths.get (s.router.pointer + d)).slot = .queued x)
    (hb : ∀ e : Fin 4, e < d → ¬∃ x, (s.router.paths.get (s.router.pointer + e)).slot = .queued x) :
    s.nextQueued = some (s.router.pointer + d, x) := by
  simp only [State.nextQueued]
  generalize s.router.pointer = p at *
  have e0 : p + 0 = p := Fin.add_zero p
  have b0 := hb 0
  have b1 := hb 1
  have b2 := hb 2
  rw [e0] at b0
  have hd : d = 0 ∨ d = 1 ∨ d = 2 ∨ d = 3 := (by decide : ∀ d : Fin 4, d = 0 ∨ d = 1 ∨ d = 2 ∨ d = 3) d
  rcases hd with rfl | rfl | rfl | rfl
  · rw [e0] at h ⊢; simp [h]
  · have b0 := b0 (by decide)
    cases h0 : (s.router.paths.get p).slot <;> simp_all [List.findSome?]
  · have b0 := b0 (by decide)
    have b1 := b1 (by decide)
    cases h0 : (s.router.paths.get p).slot <;> cases h1 : (s.router.paths.get (p + 1)).slot <;>
      simp_all [List.findSome?]
  · have b0 := b0 (by decide)
    have b1 := b1 (by decide)
    have b2 := b2 (by decide)
    cases h0 : (s.router.paths.get p).slot <;> cases h1 : (s.router.paths.get (p + 1)).slot <;>
      cases h2 : (s.router.paths.get (p + 2)).slot <;> simp_all [List.findSome?]

theorem nextQueued_none (s : State) (h : ∀ a, ¬∃ x, (s.router.paths.get a).slot = .queued x) : s.nextQueued = none := by
  simp only [State.nextQueued, List.findSome?_eq_none_iff]
  intro a _
  split
  · rename_i x hx; exact absurd ⟨x, hx⟩ (h a)
  · rfl
  · rfl

/-! ### Leases that end for an agent -/

theorem releaseLeases_eq (s : State) (a : Agent) (w : WindowId) : s.releaseLeases a w = leaseReleased s a w := rfl

theorem removeAgent_eq (s : State) (w : WindowId) (a : Agent) : s.removeAgent w a = leaseRevoked s w a := rfl

/-- The port's step for a fall of PRSTn, with PRSTn low. -/
theorem portFall_eq (s : State) (a : Agent) (h : (s.ports.get a).prstn = false) : s.portFall a = portFallen s a := by
  have : Port.takeFall (s.ports.get a) =
      { state := .inReset, request := ⟨0, Tbl.fill 8 0⟩, response := ⟨0, .nothing, 0, []⟩, commitRefused := false,
        notices := .empty, config := .reset, fault := none, airqn := true, prstn := false, fallOwed := false,
        ended := (s.ports.get a).ended,
        responses := (s.ports.get a).responses.map fun r => { r with stale := true },
        handed := (s.ports.get a).handed.map fun n => { n with stale := true } } := by
    simp [Port.takeFall, Port.reset, h, RequestRecord.reset, ResponseRecord.reset]
  simp only [State.portFall, State.updPort, this]
  rfl

/-- The Router's step for a fall of PRSTn. -/
theorem routerFall_eq (s : State) (a : Agent) :
    s.routerFall a =
      match (s.router.paths.get a).admission with
      | some d => withPath s a { s.router.paths.get a with admission := some { d with drop := true } }
      | none =>
        match (s.router.paths.get a).slot with
        | .empty => s
        | .queued x => accessDropped s a x
        | .active x _ => withPath s a { s.router.paths.get a with slot := .active x true } := by
  simp only [State.routerFall, dropQueued_eq]
  cases hn : (s.router.paths.get a).admission with
  | some d => simp only [State.updPath, State.updRouter, withPath, hn, Option.map_some]
  | none =>
    cases hs : (s.router.paths.get a).slot <;> simp only [State.updPath, State.updRouter, withPath, hn]

end Sys2Proof.Machine
end

