-- ==== Sys2Proof/WellFormed.lean ====
section
/-! DEFINITION. Which commands are commands of their row: the checks that the operand types do not make. The meanings are
total all the same (log 20). -/

namespace Sys2Proof

/-- The codes of the agent requests (R180). -/
def isAgentCode (code : Byte) : Bool :=
  code = 0x01 || code = 0x02 || code = 0x03 || code = 0x04 || code = 0x05 || code = 0x06 || code = 0x08 ||
  code = 0x09 || code = 0x0A || code = 0x0B

/-- A control-aperture cycle the port answers normally: a single access of 1, 2 or 4 bytes aligned to its size
(R147). -/
def goodControlCycle (offset : Half) (size : Nat) : Bool :=
  (size = 1 || size = 2 || size = 4) && offset.toNat % size = 0

/-- The commit location FF0040h to FF0043h (R179). -/
def atCommit (offset : Half) : Bool := 0x40 ≤ offset.toNat && offset.toNat < 0x44

/-- A shared-space address of the data aperture, 000000h to FEFFFFh (R119). -/
def inDataAperture (addr : Addr) : Bool := addr.toNat < 0xFF0000

/-- The command is one its row describes. -/
def Instr.wf (i : Instr) : Bool :=
  match i with
  | .unknownRequest code payload => payload.length ≤ 15 && (requestOf code payload).isNone
  | .badFrame bits =>
    (frameBytes bits).head? = some requestKind &&
      (match settleFrame (frameBytes bits) with
       | .request _ _ => false
       | .bad _ | .discarded => true)
  | .ignoredFrame bits => (frameBytes bits).head? ≠ some requestKind && (frameBytes bits).head? ≠ some fetchKind
  | .unknownCommit _ code => !isAgentCode code
  | .controlApertureWrite _ offset size data =>
    goodControlCycle offset size && data.length = size && !atCommit offset
  | .badControlCycle _ offset _ size _ => !goodControlCycle offset size
  | .dataCycle _ c => inDataAperture c.addr && c.data.length = (if c.write then c.size else 0)
  | .configureDevice .. | .start | .stop | .readDevice | .takeAttention | .configureTarget .. | .removeTarget ..
  | .wakeTarget .. | .parkTarget .. | .recoverTarget .. | .readTarget .. | .defineWindow .. | .amendWindow ..
  | .openWindow .. | .closeWindow .. | .retireWindow .. | .readWindow .. | .readLeases .. | .revokeLease ..
  | .setQuota .. | .readPool | .fetch .. | .acquire .. | .release .. | .downgrade .. | .upgrade .. | .renew ..
  | .abandon .. | .queryWindow .. | .readFault .. | .takeNotice .. | .setNotices .. | .commitRefused ..
  | .addressDecode .. | .admissionClaim .. | .tack .. | .terr .. | .responseLimit .. | .outcomeReport
  | .accessDrop .. | .portReset .. | .prstnRise .. | .deviceReset | .busRequest | .withdrawal | .tick | .expiry ..
  | .warningTime .. | .waitDeadline .. | .closeDeadline .. | .wakeTimeExpiry .. | .parkTimeExpiry ..
  | .parkDelayExpiry .. | .emptyContextReport .. | .responseHandoff .. | .noticeHandoff .. | .attentionHandoff ..
  | .microsecondStep => true

end Sys2Proof
end

