-- ==== Sys2Proof/Tests/Slice0.lean ====
section
/-! SUPPORT. Tests: one ill-formed command for each check of well-formedness, single steps on small states, and for each
statement with hypotheses a state and operands that meet them. -/

namespace Sys2Proof.Tests

open Sys2Proof.Machine Sys2Proof.Safety

set_option Elab.async false

/-! ### Well-formedness refuses -/

theorem test_wf_unknownRequest_known_code : (Instr.unknownRequest 0x21 []).wf = false := by decide +kernel
theorem test_wf_unknownRequest_too_long : (Instr.unknownRequest 0x99 (List.replicate 16 0)).wf = false := by
  decide +kernel
theorem test_wf_badFrame_good_crc : (Instr.badFrame (bitsOfBytes (requestFrame 0x21 []))).wf = false := by decide +kernel
theorem test_wf_badFrame_other_kind : (Instr.badFrame (bitsOfBytes [0x00, 0x21])).wf = false := by decide +kernel
theorem test_wf_ignoredFrame_request_kind : (Instr.ignoredFrame (bitsOfBytes [0xA5])).wf = false := by decide +kernel
theorem test_wf_ignoredFrame_fetch_kind : (Instr.ignoredFrame (bitsOfBytes [0x5A])).wf = false := by decide +kernel
theorem test_wf_unknownCommit_known_code : (Instr.unknownCommit 0 0x0B).wf = false := by decide +kernel
theorem test_wf_controlWrite_misaligned : (Instr.controlApertureWrite 0 0x11 2 [1, 2]).wf = false := by decide +kernel
theorem test_wf_controlWrite_at_commit : (Instr.controlApertureWrite 0 0x40 4 [0, 0, 0, 0]).wf = false := by
  decide +kernel
theorem test_wf_controlWrite_wrong_length : (Instr.controlApertureWrite 0 0x10 2 [1]).wf = false := by decide +kernel
theorem test_wf_badControl_good_cycle : (Instr.badControlCycle 0 0x10 true 2 [1, 2]).wf = false := by decide +kernel
theorem test_wf_dataCycle_control_region : (Instr.dataCycle 0 ⟨0xFF0000, false, 4, []⟩).wf = false := by
  decide +kernel
theorem test_wf_dataCycle_missing_data : (Instr.dataCycle 0 ⟨0x1000, true, 4, []⟩).wf = false := by decide +kernel

/-! ### Small states -/

/-- The device configured and RUNNING, with the commands given. -/
def running (pending : List Instr) : State :=
  { State.reset with
    mgmt := { Mgmt.reset true with running := true }
    tb := ⟨some 10000, 100, 0, 0⟩
    pending := pending }

/-- CONFIGURING with the divisor set. -/
def configuring : State := { running [] with mgmt := Mgmt.reset true }

/-- A 4 KiB window at 001000h on T0, term 500, margin 50, close deadline 20, every agent admitted. -/
def window (st : WindowState) : Window :=
  { state := st, base := 0x1000, k := 0, target := 0, offset := 0x2000, rule := .readWrite, admitSet := 0xF, term := 500,
    margin := 50, closeDeadline := 20, pending := none }

/-- T0 with wake and park time 10, park delay 30, response limit 5. -/
def target (st : TargetState) (use : Nat) : Target :=
  { Target.reset with
    state := st, wakeTime := 10, parkTime := 10, parkDelay := 30, limit := 5, useCount := use, twake := twakeLevel st }

def hold (a : Agent) (m : Mode) (serial : Serial) : Hold :=
  { agent := a, mode := m, once := false, serial := serial, expiry := ⟨600, false⟩, warning := some ⟨550, false⟩,
    warned := false, upgrading := false, deadline := none }

def wait (a : Agent) (m : Mode) : Wait := { agent := a, mode := m, once := false, term := none, deadline := none }

/-- W0 with the given state and context, on T0. -/
def shared (st : WindowState) (tst : TargetState) (c : LeaseCtx) : State :=
  { running [] with
    windows := State.reset.windows.set 0 (window st)
    ctxs := State.reset.ctxs.set 0 c
    targets := State.reset.targets.set 0 (target tst (if st = .staged then 0 else 1))
    inUse :=
      ⟨[0, 1, 2, 3].map fun a =>
          (c.holders.countP fun h => h.agent == a) + c.waiters.countP fun x => x.agent == a, rfl⟩ }

/-- An OPEN window with the holders and waiters given. -/
def opened (hs : List Hold) (ws : List Wait) : State :=
  shared .opened .ready { LeaseCtx.reset with holders := hs, waiters := ws, serial := 9 }

/-- The port of the agent in the given state. -/
def portIn (s : State) (a : Agent) (st : PortState) : State := s.updPort a fun p => { p with state := st }

/-- What a step leaves, where it leaves anything. -/
def after (i : Instr) (s : State) : State :=
  match exec i s with
  | .next t => t
  | .fault _ | .refused _ => s

/-! ### Single steps -/

theorem test_crc_of_01 : crc8 [0x01] = 0x07 := by decide +kernel
theorem test_start_frame_bytes : requestFrame 0x21 [] = [0xA5, 0x21, 0x00, crc8 [0xA5, 0x21, 0x00]] := by
  decide +kernel
theorem test_start_frame_starts :
    (after (.badFrame (bitsOfBytes (requestFrame 0x21 []))) { running [] with mgmt := Mgmt.reset true }).mgmt.running = true := by
  decide +kernel
theorem test_start_without_timebase : (after .start State.reset).mgmt.result.status = .noTimebase := by decide +kernel
theorem test_configureTarget_parks :
    ((after (.configureTarget 3 10 20 0 5) State.reset).targets.get 3).state = .parked := by decide +kernel
theorem test_wakeTarget_raises_twake :
    ((after (.wakeTarget 0) (shared .staged .parked LeaseCtx.reset)).targets.get 0).twake = true := by decide +kernel
theorem test_defineWindow_control_region :
    (after (.defineWindow 0 0xFF0000 0 0 0 0 1 0 1) State.reset).mgmt.result.status = .overlap := by decide +kernel
theorem test_openWindow_on_parked_wakes :
    let t := after (.openWindow 0) (shared .staged .parked LeaseCtx.reset)
    (t.windows.get 0).state = .opening ∧ (t.targets.get 0).state = .waking := by decide +kernel
theorem test_acquire_granted_token :
    ((after (.acquire 0 0 1 0 0) (opened [] [])).ports.get 0).response =
      ⟨0x01, .granted, 1, [0, 1, 9, 0, 0xF4, 0x01]⟩ := by decide +kernel
theorem test_acquire_exclusive_queues :
    let t := after (.acquire 1 0 1 0xFFFF 0) (opened [hold 0 .shared 8] [])
    (t.ports.get 1).state = .waiting ∧ (t.ctxs.get 0).waiters.length = 1 := by decide +kernel
theorem test_release_grants_shared_run :
    let t := after (.release 0 ⟨0, 0, 8⟩) (opened [hold 0 .exclusive 8] [wait 1 .shared, wait 2 .shared, wait 3 .exclusive])
    (t.ctxs.get 0).holders.map Hold.serial = [9, 10] ∧ (t.ctxs.get 0).waiters.length = 1 := by decide +kernel
theorem test_upgrade_deadlock :
    ((after (.upgrade 1 ⟨0, 0, 6⟩ 100)
        (opened [{ hold 0 .shared 5 with upgrading := true }, hold 1 .shared 6] [])).ports.get 1).response.status =
      .deadlock := by decide +kernel
theorem test_upgrade_granted_new_serial :
    ((after (.release 1 ⟨0, 0, 6⟩)
        (opened [{ hold 0 .shared 5 with upgrading := true }, hold 1 .shared 6] [])).ctxs.get 0).holders.map
      (fun h => (h.mode, h.serial)) = [(.exclusive, 9)] := by decide +kernel
theorem test_renew_sets_expiry :
    (((after (.renew 0 ⟨0, 0, 8⟩ 10) (opened [hold 0 .shared 8] [])).ctxs.get 0).holdOf 0).map Hold.expiry =
      some ⟨110, false⟩ := by decide +kernel
theorem test_abandon_answers_ok :
    let t := after (.abandon 1) (portIn (opened [hold 0 .exclusive 8] [wait 1 .shared]) 1 .waiting)
    (t.ports.get 1).state = .idle ∧ (t.ports.get 1).response = ⟨0x06, .ok, 2, [0]⟩ ∧
      (t.ports.get 1).airqn = false := by decide +kernel
theorem test_dataCycle_not_running :
    ((after (.dataCycle 0 ⟨0x1000, false, 4, []⟩) State.reset).ports.get 0).ended =
      some (.beats true [0xFFFFFFFF]) := by decide +kernel
theorem test_admission_reaches_the_bus :
    let s := after (.dataCycle 0 ⟨0x1010, true, 4, [1, 2, 3, 4]⟩) (opened [hold 0 .exclusive 8] [])
    let t := after (.admissionClaim 0) (after (.addressDecode 0 .target) (after (.addressDecode 0 .decode) s))
    t.router.bus = .transfer 0 ∧ t.router.lines = .transfer 0 0x2010 true 4 [1, 2, 3, 4] ∧
      (t.ctxs.get 0).inflight = 1 := by decide +kernel
theorem test_warning_handed :
    ((after (.warningTime 0 0)
        (opened [{ hold 0 .shared 8 with warning := some ⟨100, true⟩ }] [])).ports.get 0).handed =
      [⟨.warning 0, false⟩] := by decide +kernel
theorem test_tick_makes_expiry_due :
    (((after .tick
        { opened [{ hold 0 .shared 8 with expiry := ⟨101, false⟩ }] [] with
          tb := ⟨some 10000, 100, 10000, 1000⟩ }).ctxs.get 0).holdOf 0).map
      (fun h => h.expiry.due) = some true := by decide +kernel
theorem test_loan_of_idle_bus :
    let t := after .busRequest { running [] with mgmt := { Mgmt.reset true with lending := true } }
    t.router.bus = .lent ∧ t.router.bgnt = true ∧ tselLevel t.router.lines 0 = none := by decide +kernel
theorem test_status_word_of_reset : statusWord State.reset 0 = 0 := by decide +kernel
theorem test_bytes_beyond_the_frame_are_ignored :
    let bits := bitsOfBytes (requestFrame 0x21 [] ++ [0xFF]) ++ [true]
    frameCommand bits = .start ∧ (after (.badFrame bits) configuring).mgmt.running = true ∧
      (after (.badFrame bits) configuring).mgmt.mso.length = 41 := by decide +kernel
theorem test_tack_after_its_transfer_is_ignored :
    let s (n : Nat) : State :=
      ({ opened [] [] with transfers := n }.updRouter fun r => { r with bus := .transfer 0 }).updPath 0 fun p =>
        { p with slot := .active ⟨0, 0, 0x2010, ⟨0x1010, false, 4, []⟩, 8, false⟩ false }
    after (.tack ⟨1, Tbl.fill 8 5⟩) (s 2) = s 2 ∧ after (.terr ⟨1, true⟩) (s 2) = s 2 ∧
      (after (.tack ⟨2, Tbl.fill 8 5⟩) (s 2)).router.bus = .ownedIdle ∧
      (after (.tack ⟨2, Tbl.fill 8 5⟩) (s 2)).outcomes = [(0, .success)] := by decide +kernel
theorem test_left_over_bits_form_no_byte :
    frameBytes (bitsOfBytes [0xA5, 0x21] ++ [true, false, true]) = [0xA5, 0x21] := by decide +kernel
theorem test_first_bit_is_the_most_significant : frameBytes (true :: List.replicate 7 false) = [0x80] := by
  decide +kernel
theorem test_fetch_shifts_bits_out :
    (after (.fetch 16) State.reset).mgmt.mso = List.replicate 24 false := by decide +kernel
theorem test_frame_ignored_while_msel_low_since_reset :
    let low := after .deviceReset (after .start (after .deviceReset configuring))
    low.resetn = true ∧ low.mgmt.msel = false ∧ (after .start low).mgmt.result = low.mgmt.result ∧
      (after .start low).mgmt.msel = true := by
  decide +kernel
theorem test_nothing_taken_while_resetn_low :
    let low := after .deviceReset (running [])
    low.resetn = false ∧ low.mgmt.running = false ∧ (after .readDevice low).mgmt.result = low.mgmt.result ∧
      (after .busRequest low).router.breq = true ∧ after (.acquire 0 0 0 0 0) low = low := by decide +kernel
theorem test_tick_waits_for_its_thousand_steps : after .tick (running []) = running [] := by decide +kernel
theorem test_gentle_close_counts_the_pending_upgrade :
    (after (.closeWindow 0 0)
        (opened [{ hold 0 .shared 5 with upgrading := true }, hold 1 .shared 6] [wait 2 .shared])).mgmt.result.payload =
      [4, 2, 0, 0] := by decide +kernel
theorem test_fall_taken_first_shuts_the_port :
    let s := after (.accessDrop 0) (opened [hold 0 .exclusive 8] [])
    (s.ports.get 0).prstn = false ∧ (s.ports.get 0).state = .idle ∧ after (.dataCycle 0 ⟨0x1010, false, 4, []⟩) s = s ∧
      ((after (.release 0 ⟨0, 0, 8⟩) s).ctxs.get 0).holders.length = 1 := by decide +kernel
theorem test_empty_slot_takes_cycles_at_the_rise :
    let s := after (.prstnRise 0) (after (.portReset 0) (opened [] []))
    let t := after (.dataCycle 0 ⟨0x1010, false, 4, []⟩) s
    (s.router.paths.get 0).dropOwed = true ∧
      (t.router.paths.get 0).admission = some ⟨⟨0x1010, false, 4, []⟩, .decode, false⟩ ∧
      (after (.accessDrop 0) t).router.paths.get 0 =
        { t.router.paths.get 0 with dropOwed := false, dropStale := false } := by decide +kernel
theorem test_stop_takes_handed_endings :
    let s := (portIn (shared .staged .parked LeaseCtx.reset) 1 .waiting).handResponse 1 0x01 .closed 0 [0]
    let t := after .stop s
    t.mgmt.running = false ∧ (t.ports.get 1).state = .idle ∧ (t.ports.get 1).response.status = .closed := by
  decide +kernel
theorem test_abandon_posts_the_handed_ending_first :
    let s := (portIn configuring 1 .waiting).handResponse 1 0x01 .closed 0 [0]
    let t := after (.abandon 1) s
    (t.ports.get 1).state = .idle ∧ (t.ports.get 1).response = ⟨0x06, .notRunning, 2, []⟩ ∧
      (t.ports.get 1).notices.reply.get 0 = true := by decide +kernel
theorem test_decode_carries_the_window_state :
    let s := after (.addressDecode 0 .decode) (after (.dataCycle 0 ⟨0x1010, false, 4, []⟩) (opened [] []))
    (s.router.paths.get 0).admission =
      some ⟨⟨0x1010, false, 4, []⟩, .target ⟨0, .opened, 0, false, 0x2000, 0x2010⟩, false⟩ := by decide +kernel

/-! ### Witnesses: states and operands that meet the statements' hypotheses, clause by clause -/

theorem witness_StepTakesFrontCommand : State.reset.pending = [] := rfl

theorem witness_takesFrames : takesFrames State.reset ∧ takesFrames configuring ∧ takesFrames (running []) := by
  unfold takesFrames
  decide +kernel

theorem witness_ResetGivesResetValues :
    (after .deviceReset (running [])).resetn = false ∧ after .deviceReset (after .deviceReset (running [])) =
      { State.reset with pending := (running []).pending, free := (running []).free } := by decide +kernel

theorem witness_StartAndStopCheckThenSwitch :
    (running []).mgmt.running = true ∧ (State.reset.mgmt.running = false ∧ State.reset.tb.divisor = none) ∧
    (configuring.mgmt.running = false ∧ configuring.tb.divisor ≠ none) ∧
    (∃ w, ((opened [] []).windows.get w).state.live = true) ∧
    (∀ w, ((running []).windows.get w).state.live = false) ∧ ∀ a, ((running []).ports.get a).state ≠ .waiting := by
  decide +kernel

theorem witness_ConfigureDeviceChecksThenWrites :
    let lent : State := configuring.updRouter fun r => { r with bus := .lent }
    let wanting : State := configuring.updRouter fun r => { r with breq := true }
    (¬(1000 ≤ (999 : Half).toNat) ∧ ¬((50001 : Half).toNat ≤ 50000) ∧ ¬((32 : Byte).toNat < 32)) ∧
    (1000 ≤ (1000 : Half).toNat ∧ (50000 : Half).toNat ≤ 50000 ∧ (31 : Byte).toNat < 32) ∧
    (lent.mgmt.running = false ∧ (0 : Byte).getLsbD 0 = false ∧ lent.router.bus ≠ .ownedIdle) ∧
    configuring.router.bus = .ownedIdle ∧
    (wanting.mgmt.lending = false ∧ (1 : Byte).getLsbD 0 = true ∧ wanting.router.breq = true ∧
      wanting.router.bus = .ownedIdle) := by decide +kernel

theorem witness_TakeAttentionPicksFirstKindLowestIndex :
    let a : Attention := { Attention.empty with targetFault := Attention.empty.targetFault.set 7 true }
    let b : Attention := { Attention.empty with closeDone := Attention.empty.closeDone.set 31 true }
    let c : Attention := { Attention.empty with openDone := Attention.empty.openDone.set 0 true }
    let d : Attention := { Attention.empty with poolRefusal := Attention.empty.poolRefusal.set 3 true }
    (a.targetFault.get 7 = true ∧ ∀ j, j < 7 → a.targetFault.get j = false) ∧
    ((∀ i, b.targetFault.get i = false) ∧ b.closeDone.get 31 = true ∧ ∀ j, j < 31 → b.closeDone.get j = false) ∧
    ((∀ i, c.closeDone.get i = false) ∧ c.openDone.get 0 = true) ∧
    ((∀ i, d.openDone.get i = false) ∧ d.poolRefusal.get 3 = true ∧ ∀ j, j < 3 → d.poolRefusal.get j = false) ∧
    ∀ i, Attention.empty.poolRefusal.get i = false := by decide +kernel

theorem witness_FramesByContent :
    frameBytes (bitsOfBytes [0xA5, 0x20] ++ [true]) = 0xA5 :: [0x20] ∧ ([0x00] : List Byte).head? ≠ some 0xA5 ∧
    ([0x00] : List Byte).head? ≠ some 0x5A ∧ ([0x20] : List Byte).length < 2 ∧ 15 < (16 : Byte).toNat ∧
    ((15 : Byte).toNat ≤ 15 ∧ ([] : List Byte).length < (15 : Byte).toNat + 1) ∧
    (([] : List Byte).length = (0 : Byte).toNat ∧ (0 : Byte) ≠ crc8 [0xA5, 0x21, 0]) ∧
    requestLength 0x00 = none ∧ (requestLength 0x20 = some 7 ∧ ([] : List Byte).length ≠ 7) ∧
    encodeRequest .start = some (requestFrame 0x21 []) ∧
    (requestBytes .start = some (0x21, []) ∧ ([] : List Byte).length ≤ 15 ∧ ([true] : List Bool).length < 8) ∧
    requestLength 0x21 ≠ some ([0] : List Byte).length := by decide +kernel

theorem witness_RequestFrameReadsBack :
    encodeRequest (.setQuota 3 24) = some (requestFrame 0x52 [3, 24]) ∧ (List.replicate 7 true).length < 8 := by
  decide +kernel

theorem witness_ConfigureAndRemoveTarget :
    let s := shared .staged .parked LeaseCtx.reset
    8 ≤ (8 : Byte).toNat ∧ ((7 : TargetId).val = (7 : Byte).toNat) ∧
    (1 ≤ (1 : Half).toNat ∧ (4095 : Half).toNat ≤ 4095 ∧ (1 : Byte) ≠ 0) ∧ ¬(4096 : Half).toNat ≤ 4095 ∧
    ((opened [] []).targets.get 0).useCount ≠ 0 ∧
    ((((shared .staged .ready LeaseCtx.reset).targets.get 0).useCount = 0) ∧
      ((shared .staged .ready LeaseCtx.reset).targets.get 0).state = .ready) ∧
    ((s.targets.get 0).useCount = 0 ∧ (s.targets.get 0).state = .parked) ∧
    (s.targets.get 7).state = .absent ∧
    (∃ w, (s.windows.get w).state ≠ .vacant ∧ (s.windows.get w).target = 0) ∧
    ¬∃ w, (s.windows.get w).state ≠ .vacant ∧ (s.windows.get w).target = 7 := by decide +kernel

theorem witness_WakeParkAndRecoverTarget :
    ∀ st : TargetState, ((shared .staged st LeaseCtx.reset).targets.get 0).state = st ∧
      ((shared .staged st LeaseCtx.reset).targets.get 0).useCount = 0 ∧
      (∀ w, ((shared .staged st LeaseCtx.reset).windows.get w).state ≠ .opening) ∧
      ((shared .opened st LeaseCtx.reset).targets.get 0).useCount ≠ 0 := by
  intro st
  cases st <;> decide +kernel

theorem witness_TargetExpiriesAct :
    let w : Target := { target .waking 1 with interval := some ⟨.wake, 0⟩ }
    let p : Target := { target .parking 0 with interval := some ⟨.park, 0⟩ }
    let r : Target := { target .ready 0 with parkDeadline := some ⟨100, true⟩ }
    (w.state = .waking ∧ w.interval = some ⟨.wake, 0⟩) ∧ (p.state = .parking ∧ p.interval = some ⟨.park, 0⟩) ∧
    (p.wakePending = false ∧ { p with wakePending := true }.wakePending = true) ∧
    (r.state = .ready ∧ r.parkDeadline = some ⟨100, true⟩) ∧ ¬(target .waking 1).interval = some ⟨.wake, 0⟩ ∧
    (let s := shared .opening .waking { LeaseCtx.reset with waiters := [wait 1 .shared] }
     (s.windows.get 0).state = .opening ∧ (s.windows.get 0).target = 0 ∧
       ¬((s.windows.get 1).state = .opening ∧ (s.windows.get 1).target = 0)) := by
  decide +kernel

theorem witness_OutcomeReportCounts :
    let s : State := { opened [] [] with outcomes := [(0, .targetError)] }
    State.reset.outcomes = [] ∧ s.outcomes = [(0, .targetError)] ∧ (s.targets.get 0).state = .ready ∧
    (s.targets.get 7).state ≠ .ready ∧ (s.targets.get 0).failures < 2 ∧ { target .ready 1 with failures := 2 }.failures = 2 := by
  decide +kernel

theorem witness_DefineWindowChecksThenStages :
    let s := shared .staged .parked LeaseCtx.reset
    let fits (base : Nat) (k : Nat) : Prop := k ≤ 10 ∧ base % (4096 * 2 ^ k) = 0
    32 ≤ (32 : Byte).toNat ∧ (31 : WindowId).val = (31 : Byte).toNat ∧ (s.windows.get 0).state ≠ .vacant ∧
    (s.windows.get 31).state = .vacant ∧ (fits 0xFEF000 0 ∧ fits 0 10) ∧ ¬fits 0x1000 1 ∧
    0xFF0000 < 0xFF0000 + 4096 * 2 ^ 0 ∧ ¬0xFF0000 < 0xFEF000 + 4096 * 2 ^ 0 ∧
    (0x1000 < (s.windows.get 0).endAddr ∧ (s.windows.get 0).base.toNat < 0x1000 + 4096) ∧
    ¬0x2000 < (s.windows.get 0).endAddr ∧ (s.targets.get 7).state = .absent ∧ (s.targets.get 0).state ≠ .absent := by
  decide +kernel

theorem witness_AmendWindow :
    let s := opened [hold 0 .shared 8] [wait 1 .exclusive]
    (State.reset.windows.get 31).state = .vacant ∧ (s.windows.get 0).state ≠ .vacant ∧
    ¬(32 : Byte).toNat < 32 ∧ ((0x1F : Byte).toNat < 32 ∧ (0x1F : Byte).getLsbD 4 = true) ∧
    ((s.windows.get 0).state ≠ .staged ∧ (window .staged).state = .staged) ∧
    (∀ a : Agent, (s.windows.get 0).admitSet.getLsbD a.val = true → (0xF : Byte).getLsbD a.val = true) ∧
    ((1 : Byte).toNat < 32 ∧ (1 : Byte).getLsbD 0 = true ∧ (1 : Byte).getLsbD 4 = false ∧
      (s.windows.get 0).admitSet.getLsbD 1 = true ∧ (0x1D : Byte).toNat < 32 ∧ (0x1D : Byte).getLsbD 1 = false) ∧
    ((0x11 : Byte).getLsbD 0 = true ∧ (0x11 : Byte).getLsbD 4 = true ∧
      ((shared .staged .ready LeaseCtx.reset).windows.get 0).state = .staged ∧
      ((shared .staged .ready LeaseCtx.reset).windows.get 0).admitSet.getLsbD 1 = true) ∧
    (let u := opened [{ hold 0 .shared 5 with upgrading := true }, hold 1 .shared 6] [wait 2 .shared]
     (u.ctxs.get 0).holdOf 0 = some { hold 0 .shared 5 with upgrading := true } ∧
       (u.ctxs.get 0).waitOf 2 = some (wait 2 .shared) ∧ (u.windows.get 0).state ≠ .vacant) := by decide +kernel

theorem witness_OpenWindowClaimsTarget :
    State.reset.mgmt.running = false ∧ (running []).mgmt.running = true ∧
    ∀ st ∈ [TargetState.faulted, .ready, .waking, .parked, .parking],
      ((shared .staged st LeaseCtx.reset).windows.get 0).state = .staged ∧
      ((shared .staged st LeaseCtx.reset).targets.get ((shared .staged st LeaseCtx.reset).windows.get 0).target).state =
        st := by decide +kernel

/-- W0 CLOSING with the pending close given. -/
def closing (p : PendingClose) (c : LeaseCtx) : State :=
  (shared .closing .ready c).updWindow 0 fun w => { w with pending := some p }

theorem witness_Closing :
    let s := closing ⟨false, false, some ⟨100, true⟩⟩ { LeaseCtx.reset with holders := [hold 0 .shared 8] }
    (4 ≤ (4 : Byte).toNat ∧ (3 : Byte).toNat < 4) ∧ (State.reset.windows.get 0).state = .vacant ∧
    ((shared .staged .ready LeaseCtx.reset).windows.get 0).state = .staged ∧
    ((shared .opening .waking LeaseCtx.reset).windows.get 0).state = .opening ∧
    ((opened [] []).windows.get 0).state = .opened ∧
    ((s.windows.get 0).state = .closing ∧ (s.ctxs.get 0).waiters = [] ∧
      (s.windows.get 0).pending = some ⟨false, false, some ⟨100, true⟩⟩) ∧
    ((opened [] []).windows.get 0).state.live = true := by decide +kernel

theorem witness_EmptyContextReportCompletesClose :
    let s : State := { closing ⟨true, false, none⟩ LeaseCtx.reset with emptyReports := [0] }
    0 ∉ State.reset.emptyReports ∧ 0 ∈ s.emptyReports ∧
    ((s.windows.get 0).state = .closing ∧ (s.ctxs.get 0).holders = [] ∧ (s.ctxs.get 0).inflight = 0) ∧
    0 ∈ { opened [] [] with emptyReports := [0] }.emptyReports ∧ ((opened [] []).windows.get 0).state ≠ .closing := by
  decide +kernel

theorem witness_RevokeLeaseEndsHoldOrWait :
    let c := (opened [hold 0 .shared 8] [wait 1 .exclusive]).ctxs.get 0
    (32 ≤ (32 : Byte).toNat ∧ 4 ≤ (4 : Byte).toNat ∧ (3 : Agent).val = (3 : Byte).toNat) ∧
    c.holdOf 0 = some (hold 0 .shared 8) ∧ (c.holdOf 1 = none ∧ c.waitOf 1 = some (wait 1 .exclusive)) ∧
    (c.holdOf 3 = none ∧ c.waitOf 3 = none) := by decide +kernel

theorem witness_SetQuotaChecksThenWrites :
    let s := opened [hold 0 .shared 8] []
    (1 ≤ (1 : Byte).toNat ∧ (24 : Byte).toNat ≤ 24 ∧ ¬(25 : Byte).toNat ≤ 24 ∧ ¬1 ≤ (0 : Byte).toNat) ∧
    s.inUse.get 0 ≤ (1 : Byte).toNat ∧
    (1 : Byte).toNat < { s with inUse := s.inUse.set 0 2 }.inUse.get 0 := by decide +kernel

theorem witness_GrantEvaluation :
    let u : Hold := { hold 0 .shared 5 with upgrading := true }
    ((running []).windows.get 0).state ≠ .opened ∧ ((opened [] []).windows.get 0).state = .opened ∧
    (((opened [u] []).ctxs.get 0).holders.find? fun g => g.upgrading) = some u ∧
    (((opened [u] []).ctxs.get 0).holders.length = 1 ∧ ((opened [u] []).ctxs.get 0).inflight = 0) ∧
    ((opened [u, hold 1 .shared 6] []).ctxs.get 0).holders.length ≠ 1 ∧
    ((∀ h ∈ [hold 1 .shared 6], h.upgrading = false) ∧ (wait 2 .shared).mode = .shared ∧
      ∀ h ∈ [hold 1 .shared 6], h.mode = .shared) ∧ (wait 3 .exclusive).mode = .exclusive := by decide +kernel

/-- A0 holds W0 SHARED, A1 waits for it EXCLUSIVE with its port WAITING, A2 and A3 have no lease. -/
def leased : State := portIn (opened [hold 0 .shared 8] [wait 1 .exclusive]) 1 .waiting

theorem witness_AcquireChecksInOrder :
    canCommit State.reset 0 ∧ canCommit leased 0 ∧ canCommit leased 3 ∧
    (State.reset.mgmt.running = false ∧ leased.mgmt.running = true) ∧
    (32 ≤ (32 : Byte).toNat ∧ 4 ≤ (4 : Byte).toNat ∧ (3 : Byte).toNat < 4) ∧
    ((leased.windows.get 31).state = .vacant ∧
      ((closing ⟨true, false, none⟩ LeaseCtx.reset).windows.get 0).state = .closing ∧
      (leased.windows.get 0).state = .opened) ∧
    ((leased.windows.get 0).admitSet.getLsbD 3 = true ∧ (window .vacant).admitSet.getLsbD 3 = true ∧
      Window.empty.admitSet.getLsbD 3 = false) ∧
    (((shared .opened .faulted LeaseCtx.reset).targets.get 0).state = .faulted ∧
      (leased.targets.get (leased.windows.get 0).target).state ≠ .faulted) ∧
    ((leased.ctxs.get 0).holdOf 0 ≠ none ∧ (leased.ctxs.get 0).holdOf 3 = none ∧ (leased.ctxs.get 0).waitOf 3 = none) ∧
    24 ≤ { leased with inUse := Tbl.fill 4 6 }.poolUse ∧
    ({ leased with quotas := leased.quotas.set 3 1, inUse := leased.inUse.set 3 1 }.poolUse < 24 ∧
      { leased with quotas := leased.quotas.set 3 1, inUse := leased.inUse.set 3 1 }.quotas.get 3 ≤
        { leased with quotas := leased.quotas.set 3 1, inUse := leased.inUse.set 3 1 }.inUse.get 3) := by
  unfold canCommit
  decide +kernel

theorem witness_AcquireGrantsRefusesOrQueues :
    let free := opened [] []
    let opening := shared .opening .waking LeaseCtx.reset
    ∀ s ∈ [free, opening, leased],
      canCommit s 3 ∧ s.mgmt.running = true ∧ (0 : WindowId).val = (0 : Byte).toNat ∧ (3 : Byte).toNat < 4 ∧
      ((s.windows.get 0).state = .opening ∨ (s.windows.get 0).state = .opened) ∧
      (s.windows.get 0).admitSet.getLsbD 3 = true ∧ (s.targets.get (s.windows.get 0).target).state ≠ .faulted ∧
      (s.ctxs.get 0).holdOf 3 = none ∧ (s.ctxs.get 0).waitOf 3 = none ∧ s.poolUse < 24 ∧
      s.inUse.get 3 < s.quotas.get 3 ∧
      ((s.windows.get 0).state = .opened ∧ (s.ctxs.get 0).waiters = [] ↔ s = free) := by
  unfold canCommit
  decide +kernel

theorem stale_of_no_hold (s : State) (a : Agent) (t : Token) (h : ∀ w, (s.ctxs.get w).holdOf a = none) :
    stale s a t := by
  intro w g hg
  rw [h w] at hg
  cases hg

theorem witness_stale_token : canCommit leased 3 ∧ leased.mgmt.running = true ∧ stale leased 3 ⟨0, 0, 8⟩ :=
  ⟨by unfold canCommit; decide +kernel, by decide +kernel, stale_of_no_hold _ _ _ (by decide +kernel)⟩

theorem witness_named_hold :
    let alone := opened [hold 0 .shared 8] []
    let owner := opened [hold 0 .exclusive 8] []
    let once := opened [{ hold 0 .shared 8 with once := true }] []
    let beside := opened [hold 0 .shared 8, hold 1 .shared 7] []
    let rival := opened [hold 0 .shared 8, { hold 1 .shared 7 with upgrading := true }] []
    let closed := closing ⟨false, false, some ⟨120, false⟩⟩ { LeaseCtx.reset with holders := [hold 0 .shared 8] }
    (∀ s ∈ [alone, owner, once, beside, rival, closed],
      canCommit s 0 ∧ s.mgmt.running = true ∧
      ∃ h ∈ (s.ctxs.get 0).holders, (s.ctxs.get 0).holdOf 0 = some h ∧ names ⟨0, 0, 8⟩ 0 h) ∧
    ((alone.ctxs.get 0).holders.length = 1 ∧ (alone.ctxs.get 0).inflight = 0) ∧
    ((beside.ctxs.get 0).holders.length ≠ 1 ∧ ∀ g ∈ (beside.ctxs.get 0).holders, g.agent ≠ 0 → g.upgrading = false) ∧
    (∃ g ∈ (rival.ctxs.get 0).holders, g.agent ≠ 0 ∧ g.upgrading = true) ∧ (closed.windows.get 0).state = .closing := by
  unfold canCommit names
  decide +kernel

theorem witness_AbandonEndsTheWait :
    let upgrader := portIn (opened [{ hold 1 .shared 8 with upgrading := true }, hold 0 .shared 7] []) 1 .waiting
    let ended :=
      (portIn (opened [] []) 1 .waiting).handResponse 1 0x01 .timedOut 0 [0]
    (¬portDown (State.reset.ports.get 1) ∧ State.reset.busShut 1 = false ∧ State.reset.mgmt.running = false) ∧
    (¬portDown (leased.ports.get 1) ∧ leased.busShut 1 = false ∧ (leased.ports.get 1).responses = [] ∧
      (leased.ctxs.get 0).waitOf 1 = some (wait 1 .exclusive) ∧
      ∀ v, v ≠ 0 → (leased.ctxs.get v).waitOf 1 = none ∧ (leased.ctxs.get v).holders = []) ∧
    ((upgrader.ctxs.get 0).waitOf 1 = none ∧
      (upgrader.ctxs.get 0).holdOf 1 = some { hold 1 .shared 8 with upgrading := true }) ∧
    (∀ v, (ended.ctxs.get v).waitOf 1 = none ∧ (ended.ctxs.get v).holders = []) ∧
    (ended.ports.get 1).responses = [⟨0x01, .timedOut, 0, [0], false⟩] ∧
    ∀ v, (leased.ctxs.get v).waitOf 3 = none := by decide +kernel

theorem witness_QueryWindowReports :
    let past : State :=
      shared .opened .ready
        { LeaseCtx.reset with endings := LeaseCtx.reset.endings.set 2 (some ⟨8, .used⟩) }
    canCommit leased 0 ∧ (32 ≤ (32 : Byte).toNat ∧ (31 : WindowId).val = (31 : Byte).toNat) ∧
    (leased.ctxs.get 0).holdOf 0 = some (hold 0 .shared 8) ∧
    (canCommit (opened [] [wait 1 .exclusive]) 1 ∧ ((opened [] [wait 1 .exclusive]).ctxs.get 0).holdOf 1 = none ∧
      ((opened [] [wait 1 .exclusive]).ctxs.get 0).waitOf 1 = some (wait 1 .exclusive)) ∧
    (canCommit past 2 ∧ (past.ctxs.get 0).endings.get 2 = some ⟨8, .used⟩ ∧ (past.ctxs.get 0).waitOf 2 = none) ∧
    (canCommit leased 3 ∧ (leased.ctxs.get 0).endings.get 3 = none) := by
  unfold canCommit
  decide +kernel

theorem witness_ReadFaultEmptiesTheRecord :
    let s := after (.dataCycle 0 ⟨0x1000, false, 32, []⟩) State.reset
    let odd := after (.dataCycle 0 ⟨0x1000, false, 3, []⟩) State.reset
    (canCommit State.reset 0 ∧ (State.reset.ports.get 0).fault = none) ∧
    (canCommit s 0 ∧ (s.ports.get 0).fault = some ⟨.notRunning, 0x1000, false, 2 ^ 5, none, false⟩) ∧
    (canCommit odd 0 ∧ (odd.ports.get 0).fault = some ⟨.notRunning, 0x1000, false, 3, none, false⟩ ∧
      ∀ i : Fin 6, 3 ≠ 2 ^ i.val) := by
  unfold canCommit
  decide +kernel

theorem witness_TakeAndSetNotices :
    let none' := Notices.empty
    (∀ k ∈ noticeKinds, none'.has k = false) ∧ { none' with fault := true }.has .fault = true ∧
    (let n := { none' with lost := none'.lost.set 31 (some .expired) }
     n.has .lost = true ∧ n.lost.get 31 = some .expired ∧ ∀ v, v < 31 → n.lost.get v = none) ∧
    (let n := { none' with closing := none'.closing.set 0 true }
     n.has .closing = true ∧ n.closing.get 0 = true) ∧
    (let n := { none' with warning := none'.warning.set 5 true, reply := none'.reply.set 31 true }
     n.has .warning = true ∧ ∀ j ∈ noticeKinds, n.has j = true →
       (NoticeConfig.reset.of j).urgency.toNat < (NoticeConfig.reset.of .warning).urgency.toNat ∨
       (NoticeConfig.reset.of j).urgency = (NoticeConfig.reset.of .warning).urgency ∧
         (noticeCode .warning).toNat ≤ (noticeCode j).toNat) ∧
    (let n := { none' with reply := none'.reply.set 31 true }
     n.has .reply = true ∧ n.reply.get 31 = true ∧ ∀ v, v < 31 → n.reply.get v = false) ∧
    ((0x83 : Byte).extractLsb' 2 5 = 0 ∧ (0x84 : Byte).extractLsb' 2 5 ≠ 0) := by decide +kernel

theorem witness_CommitsByPortState :
    let fell := leased.updPort 2 fun p => { p with prstn := false, fallOwed := true }
    let wrote := leased.updPort 0 fun p => { p with request := ⟨0x06, p.request.args⟩ }
    (canCommit leased 0 ∧ (0 : Byte).toNat = 0 ∧ (7 : Byte).toNat = 7 ∧ 12 ≤ (12 : Byte).toNat) ∧
    (leased.busShut 1 = false ∧ ¬portDown (leased.ports.get 1) ∧ (leased.ports.get 1).state = .waiting ∧
      (leased.ports.get 1).request.code ≠ 0x06) ∧
    ((portIn leased 2 .inReset).busShut 2 = false ∧ portDown ((portIn leased 2 .inReset).ports.get 2)) ∧
    (fell.busShut 2 = false ∧ (fell.ports.get 2).state = .idle ∧ portDown (fell.ports.get 2)) ∧
    (wrote.ports.get 0).request = ⟨0x06, writeArgs (wrote.ports.get 0).request.args []⟩ ∧
    (after (.dataCycle 0 ⟨0x1000, false, 4, []⟩) leased).busShut 0 = true := by
  unfold canCommit
  decide +kernel

theorem witness_ControlApertureCycles :
    State.reset.busShut 0 = false ∧
    (((4 : Nat) = 4 ∧ (0x10 : Half).toNat % 4 = 0) ∧ ¬(0x40 ≤ (0x3C : Half).toNat) ∧ ¬(0x44 : Half).toNat < 0x44) ∧
    (0x40 ≤ (0x40 : Half).toNat ∧ (0x43 : Half).toNat < 0x44 ∧ (0x43 : Half).toNat % 1 = 0) ∧
    ([0, 0, 0, 0] : List Byte).length = 4 ∧ ¬portDown (State.reset.ports.get 0) ∧
    portDown ((portIn State.reset 0 .inReset).ports.get 0) ∧ (0x12 : Half).toNat % 4 ≠ 0 ∧
    (¬(0x12 ≤ (0x11 : Nat) ∧ (0x11 : Nat) < 0x1A) ∧ ¬(0x12 ≤ (0x1A : Nat) ∧ (0x1A : Nat) < 0x1A) ∧
      ¬(0x80 ≤ (0xA0 : Nat) ∧ (0xA0 : Nat) < 0xA0)) := by decide +kernel

theorem witness_DataCycleTakenOrRefused :
    let c : BusCycle := ⟨0xFEFFFF, false, 1, []⟩
    let x : Access := ⟨0, 0, 0x2000, c, 8, false⟩
    let free (s : State) : Prop := s.busShut 0 = false ∧ ¬portDown (s.ports.get 0)
    let idle (s : State) : Prop := (s.router.paths.get 0).slot = .empty ∧ (s.router.paths.get 0).admission = none
    c.addr.toNat < 0xFF0000 ∧ (free State.reset ∧ idle State.reset ∧ State.reset.mgmt.running = false) ∧
    (free leased ∧ idle leased ∧ leased.mgmt.running = true ∧ aligned c ∧ ¬aligned ⟨0x1002, false, 4, []⟩ ∧
      ¬aligned ⟨0x1000, false, 3, []⟩ ∧ aligned ⟨0x1004, false, 32, []⟩) ∧
    portDown ((portIn leased 0 .inReset).ports.get 0) ∧ { leased with resetn := false }.busShut 0 = true ∧
    (let s := leased.updPath 0 fun p => { p with slot := .active x true }
     free s ∧ (s.router.paths.get 0).slot = .active x true) ∧
    (let s := leased.updPath 0 fun p => { p with slot := .queued x, abandoned := true }
     free s ∧ (s.router.paths.get 0).slot = .queued x) := by decide +kernel

/-- A cycle of A0, the decode's hit for it, and the access it becomes under serial 8. -/
def cycle (write : Bool) : BusCycle := ⟨0x1FFC, write, 4, if write then [1, 2, 3, 4] else []⟩
def hit : Hit := ⟨0, .opened, 0, false, 0x2000, 0x2FFC⟩
def access : Access := ⟨0, 0, 0x2FFC, cycle false, 8, false⟩

/-- The state with A0's admission under way. -/
def asking (s : State) (c : BusCycle) (ph : Phase) : State :=
  s.updPath 0 fun p => { p with admission := some ⟨c, ph, false⟩ }

/-! The laws of a state with a window, a hold and a wait. -/

theorem exists_noticeKind {p : NoticeKind → Prop} :
    (∃ k, p k) ↔ p .fault ∨ p .lost ∨ p .closing ∨ p .warning ∨ p .reply := by
  constructor
  · rintro ⟨k, h⟩
    cases k
    · exact .inl h
    · exact .inr (.inl h)
    · exact .inr (.inr (.inl h))
    · exact .inr (.inr (.inr (.inl h)))
    · exact .inr (.inr (.inr (.inr h)))
  · rintro (h | h | h | h | h) <;> exact ⟨_, h⟩

theorem exists_attnKind {p : AttnKind → Prop} :
    (∃ k, p k) ↔ p .targetFault ∨ p .closeDone ∨ p .openDone ∨ p .poolRefusal := by
  constructor
  · rintro ⟨k, h⟩
    cases k
    · exact .inl h
    · exact .inr (.inl h)
    · exact .inr (.inr (.inl h))
    · exact .inr (.inr (.inr h))
  · rintro (h | h | h | h) <;> exact ⟨_, h⟩

theorem exists_interval {i : Option Interval} {k : IntervalKind} :
    (∃ n, i = some ⟨k, n⟩) ↔ (i.any fun x => decide (x.kind = k)) = true := by
  cases i with
  | none => simp
  | some x => cases x; simp

theorem all_pending {o : Option PendingClose} {p : PendingClose → Prop} (h : o = none) : ∀ c, o = some c → p c := by
  intro c e
  rw [h] at e
  cases e

theorem witness_StepKeepsPinLaw : PinLaw leased ∧ step leased = .next leased := by
  refine ⟨?_, rfl⟩
  simp only [PinLaw, exists_noticeKind, exists_attnKind]
  decide +kernel

theorem witness_WindowLaw : WindowLaw leased :=
  ⟨by decide +kernel, by decide +kernel, fun w => all_pending (by revert w; decide +kernel), by decide +kernel,
    by decide +kernel⟩

theorem witness_TargetLaw : TargetLaw leased := by
  simp only [TargetLaw, targetOk, exists_interval]
  decide +kernel

theorem witness_UseLaw : UseLaw leased := by
  unfold UseLaw
  decide +kernel

theorem witness_LeaseLaw : LeaseLaw leased := by
  simp only [LeaseLaw, ctxOk]
  decide +kernel

theorem witness_PoolLaw : PoolLaw leased := by
  unfold PoolLaw
  decide +kernel

theorem witness_PortLaw : PortLaw leased := by
  unfold PortLaw
  decide +kernel

theorem witness_TimeLaw : TimeLaw leased := by
  refine ⟨by decide +kernel, by decide +kernel, fun d hd => ?_⟩
  obtain rfl : (10000 : Half) = d := Option.some.inj hd
  decide +kernel

theorem witness_ResetLaw : ResetLaw leased ∧ leased.resetn = true := ⟨fun h => (by cases h), rfl⟩

theorem witness_DataPathLaw : DataPathLaw leased :=
  ⟨by decide +kernel, by decide +kernel, rfl, rfl, by decide +kernel⟩

theorem witness_DecodeAndTargetReadAnswer :
    let s := asking leased (cycle false) .decode
    let asked := asking leased (cycle false) (.target hit)
    let gone := asked.updPath 0 fun p => { p with abandoned := true }
    ((s.router.paths.get 0).admission = some ⟨cycle false, .decode, false⟩ ∧ (s.windows.get 0).state = .opened ∧
      (s.windows.get 0).base.toNat ≤ (cycle false).addr.toNat ∧
      (cycle false).addr.toNat < (s.windows.get 0).endAddr) ∧
    (∀ w, ¬(leased.windows.get w).base.toNat ≤ (0x0FFF : Addr).toNat ∨
      (leased.windows.get w).state = .vacant) ∧
    ((asked.router.paths.get 0).admission = some ⟨cycle false, .target hit, false⟩ ∧
      (asked.targets.get hit.target).state ≠ .faulted ∧ ¬cycleLost asked 0) ∧
    ((gone.router.paths.get 0).admission = some ⟨cycle false, .target hit, false⟩ ∧ cycleLost gone 0) ∧
    ((shared .opened .faulted LeaseCtx.reset).targets.get hit.target).state = .faulted ∧
    (leased.router.paths.get 0).admission = none := by decide +kernel

theorem witness_DecodeAndTargetReadAnswer_law : WindowLaw (asking leased (cycle false) .decode) :=
  ⟨by decide +kernel, by decide +kernel, fun w => all_pending (by revert w; decide +kernel), by decide +kernel,
    by decide +kernel⟩

theorem witness_ClaimChecksThenAdmits :
    let s := asking leased (cycle true) (.claim hit)
    let owner := asking (opened [hold 0 .exclusive 8] []) (cycle true) (.claim hit)
    let early := asking leased (cycle true) (.target hit)
    let fell := leased.updPath 0 fun p => { p with admission := some ⟨cycle true, .claim hit, true⟩ }
    let faulted := asking (shared .opened .faulted LeaseCtx.reset) (cycle true) (.target hit)
    ((s.router.paths.get 0).admission = some ⟨cycle true, .claim hit, false⟩ ∧
      (s.ctxs.get 0).holdOf 0 = some (hold 0 .shared 8)) ∧
    ((early.router.paths.get 0).admission = some ⟨cycle true, .target hit, false⟩ ∧
      (early.targets.get hit.target).state ≠ .faulted) ∧
    ((opened [] []).ctxs.get 0).holdOf 0 = none ∧
    ((owner.router.paths.get 0).admission = some ⟨cycle true, .claim hit, false⟩ ∧
      (owner.ctxs.get 0).holdOf 0 = some (hold 0 .exclusive 8) ∧ owner.router.bus = .ownedIdle ∧ hit.readOnly = false) ∧
    (fell.router.paths.get 0).admission = some ⟨cycle true, .claim hit, true⟩ ∧
    { hit with readOnly := true }.readOnly = true ∧
    (¬hit.endAddr < (cycle true).addr.toNat + (cycle true).size ∧ hit.endAddr < (cycle true).addr.toNat + 5) ∧
    (owner.updRouter fun r => { r with bus := .lent }).router.bus ≠ .ownedIdle ∧
    ((faulted.router.paths.get 0).admission = some ⟨cycle true, .target hit, false⟩ ∧
      (faulted.targets.get hit.target).state = .faulted) ∧
    ((asking leased (cycle true) .decode).router.paths.get 0).admission = some ⟨cycle true, .decode, false⟩ := by
  decide +kernel

theorem witness_ArbiterServesFromThePointer :
    let s (st : TargetState) : State :=
      (shared .opened st { LeaseCtx.reset with inflight := 1 }).updPath 3 fun p => { p with slot := .queued access }
    (s .ready).router.bus = .ownedIdle ∧ ((s .ready).router.paths.get ((s .ready).router.pointer + 3)).slot = .queued access ∧
    (∀ e : Fin 4, e < 3 → ((s .ready).router.paths.get ((s .ready).router.pointer + e)).slot = .empty) ∧
    ((s .ready).targets.get access.target).state = .ready ∧ ((s .faulted).targets.get access.target).state = .faulted ∧
    ¬cycleLost (s .faulted) 3 ∧ cycleLost ((s .faulted).updPath 3 fun p => { p with abandoned := true }) 3 ∧ ∀ a, (leased.router.paths.get a).slot = .empty := by decide +kernel

theorem witness_TransferEnds :
    let s (discard : Bool) (bus : Bus) : State :=
      ((leased.updPath 0 fun p => { p with slot := .active access discard }).updRouter fun r =>
        { r with bus := bus, limit := some 0 })
    (leased.router.bus = .ownedIdle ∧ leased.router.limit ≠ some 0) ∧
    ((⟨0, Tbl.fill 8 7⟩ : Acknowledge).transfer = (s false (.transfer 0)).transfers ∧
      (⟨1, true⟩ : TargetError).transfer ≠ (s false (.transfer 0)).transfers) ∧
    (carrying (s false (.transfer 0)) 0 access false ∧ ¬cycleLost (s false (.transfer 0)) 0) ∧
    (let gone := (s true (.transfer 0)).updPath 0 fun p => { p with abandoned := true, held := some (cycle true) }
     carrying gone 0 access true ∧ cycleLost gone 0) ∧
    carrying (s true (.releasing 0)) 0 access true ∧ (s true (.releasing 0)).router.limit = some 0 := by
  unfold carrying
  decide +kernel

theorem witness_BusLendingByBusState :
    let s (bus : Bus) (lending breq : Bool) : State :=
      { leased with mgmt := { leased.mgmt with lending := lending }, router := { leased.router with bus := bus, breq := breq } }
    ∀ lending breq, (s .ownedIdle lending breq).mgmt.lending = lending ∧ (s .ownedIdle lending breq).router.breq = breq ∧
      (s (.transfer 0) lending breq).router.bus = .transfer 0 ∧ (s (.releasing 3) lending breq).router.bus = .releasing 3 ∧
      (s .lent lending breq).router.bus = .lent := by decide +kernel

theorem witness_PortResetClearsThePort :
    let routerFirst := leased.updPort 0 fun p => { p with prstn := false, fallOwed := true }
    let done := leased.updPort 0 fun p => { p with state := .inReset, prstn := false }
    LeaseLaw leased ∧ PoolLaw leased ∧ leased.resetn = true ∧ (leased.ports.get 0).prstn = true ∧
    ((routerFirst.ports.get 0).prstn = false ∧ (routerFirst.ports.get 0).fallOwed = true) ∧
    ((done.ports.get 0).prstn = false ∧ (done.ports.get 0).fallOwed = false) ∧
    (leased.ctxs.get 0).holdOf 0 = some (hold 0 .shared 8) ∧
    ((leased.ctxs.get 31).holdOf 0 = none ∧ (leased.ctxs.get 31).waitOf 0 = none) :=
  ⟨witness_LeaseLaw, witness_PoolLaw, by decide +kernel⟩

theorem witness_PrstnRiseAndAccessDrop :
    let low : State := leased.updPort 0 fun p => { p with state := .inReset, prstn := false }
    let half : State := leased.updPort 0 fun p => { p with prstn := false, fallOwed := true }
    let owed (slot : Slot) (stale : Bool) : State :=
      low.updPath 0 fun p => { p with slot := slot, dropOwed := true, dropStale := stale }
    let d : Admission := ⟨cycle true, .claim hit, false⟩
    leased.resetn = true ∧ ((low.ports.get 0).prstn = false ∧ (low.ports.get 0).fallOwed = false) ∧
    ((half.ports.get 0).prstn = false ∧ (half.ports.get 0).fallOwed = true) ∧
    (leased.ports.get 0).prstn = true ∧ (low.router.paths.get 0).dropOwed = false ∧
    (∀ slot ∈ [Slot.empty, .queued access, .active access false], ∀ stale,
      ((owed slot stale).router.paths.get 0).dropOwed = true ∧
      ((owed slot stale).router.paths.get 0).dropStale = stale ∧
      ((owed slot stale).router.paths.get 0).admission = none ∧ ((owed slot stale).router.paths.get 0).slot = slot) ∧
    ((leased.updPath 0 fun p => { p with admission := some d }).router.paths.get 0).admission = some d := by
  decide +kernel

theorem witness_TimeBase :
    State.reset.tb.divisor = none ∧ leased.tb.divisor ≠ none ∧
    (leased.tb.divisor = some 10000 ∧ leased.tb.steps < 1000 ∧
      leased.tb.position ≤ (leased.tb.steps * (10000 : Half).toNat + 1000) / 1000) ∧
    (let s : State := { leased with tb := ⟨some 10001, 100, 9991, 999⟩ }
     s.tb.steps < 1000 ∧ s.tb.position ≤ (s.tb.steps * (10001 : Half).toNat + 1000) / 1000 ∧ s.tb.steps + 1 = 1000) ∧
    (1000 ≤ { leased with tb := ⟨some 10000, 100, 10000, 1000⟩ }.tb.steps ∧ leased.tb.steps < 1000) := by
  decide +kernel

theorem witness_LeaseDeadlinesAct :
    let h : Hold := { hold 0 .shared 8 with expiry := ⟨100, true⟩, warning := some ⟨100, true⟩ }
    let u : Hold := { hold 0 .shared 8 with upgrading := true, deadline := some ⟨100, true⟩ }
    let x : Wait := { wait 1 .exclusive with deadline := some ⟨100, true⟩ }
    let s := opened [h] [x]
    ((s.ctxs.get 0).holdOf 0 = some h ∧ h.expiry.due = true ∧ h.warning = some ⟨100, true⟩ ∧ h.warned = false) ∧
    ((leased.ctxs.get 0).holdOf 0 = some (hold 0 .shared 8) ∧ (hold 0 .shared 8).expiry.due = false) ∧
    (leased.ctxs.get 0).holdOf 3 = none ∧ ((s.ctxs.get 0).waitOf 1 = some x ∧ x.deadline = some ⟨100, true⟩) ∧
    ((leased.ctxs.get 0).waitOf 1 = some (wait 1 .exclusive) ∧ (wait 1 .exclusive).deadline = none) ∧
    (((opened [u] []).ctxs.get 0).waitOf 0 = none ∧ ((opened [u] []).ctxs.get 0).holdOf 0 = some u) := by decide +kernel

theorem witness_HandoffsJoinOrDiscard :
    let s := ((leased.handAttention (.closeDone 31)).handResponse 1 0x01 .timedOut 0 [0]).handNotice 0 (.closing 31)
    (∀ i ∈ leased.mgmt.handed, i.kind ≠ .openDone) ∧ (s.mgmt.handed = [] ++ .closeDone 31 :: []) ∧
    ((leased.ports.get 1).responses = [] ∧ (s.ports.get 1).responses = [⟨0x01, .timedOut, 0, [0], false⟩] ∧
      (s.ports.get 1).state ≠ .inReset) ∧
    ((s.ports.get 0).handed = [] ++ ⟨.closing 31, false⟩ :: [] ∧ (s.ports.get 0).state ≠ .inReset) ∧
    ((after (.portReset 0) s).ports.get 0).handed = [⟨.closing 31, true⟩] ∧
    ((after (.portReset 1) s).ports.get 1).responses = [⟨0x01, .timedOut, 0, [0], true⟩] ∧
    (takesFrames (running []) ∧ (running []).mgmt.running = true ∧ ∀ w, ((running []).windows.get w).state.live = false) := by
  unfold takesFrames
  decide +kernel

theorem witness_NothingTakenWhileResetLow :
    let low := after .deviceReset leased
    isFrame .start = true ∧ cycleAgent (.dataCycle 3 (cycle true)) = some 3 ∧ low.resetn = false ∧
    { leased with mgmt := { leased.mgmt with msel := false } }.mgmt.msel = false := by decide +kernel

theorem witness_NothingTakenWhileResetLow_values :
    resetValues { State.reset with resetn := false } ∧ { State.reset with resetn := false }.resetn = false := by
  refine ⟨?_, rfl⟩
  unfold resetValues
  decide +kernel

end Sys2Proof.Tests
end

