-- ==== Sys2Proof/Proofs/LeaseRequests.lean ====
section
/-! PROOF. SET QUOTA, ACQUIRE, RELEASE and DOWNGRADE (chapter 2): what each does, an equation for each of its checks and
outcomes, and the statements assembled from them. -/

namespace Sys2Proof.Machine

open Sys2Proof.Safety

/-! ### The state a request is carried out on

Writing and committing a request touches the port alone, so on `asked s a code args` every check reads, by definition,
what it reads on `s`. -/

section Asked

variable (s : State) (a : Agent) (code : Byte) (args : List Byte)

theorem answer_asked (status : Status) (payload : List Byte) :
    (asked s a code args).answer a code status payload = afterAnswer s a code args status payload := rfl

theorem poolRefused_asked (status : Status) :
    (asked s a 0x01 args).poolRefused a status =
      afterAnswer { s with mgmt := { s.mgmt with handed := s.mgmt.handed ++ [.poolRefusal a] } } a 0x01 args
        status [] := rfl

end Asked

/-! ### SET QUOTA (R25) -/

section SetQuota

variable {agent quota : Byte} {a : Agent} {s : State}

theorem exec_setQuota_taken (h : takesFrames s) :
    exec (.setQuota agent quota) s =
      .next
        (afterResult (setQuota agent quota s).state 0x52 2 (setQuota agent quota s).status
          (setQuota agent quota s).payload) :=
  carryOut_taken 0x52 2 (setQuota agent quota) s h

theorem setQuota_bad_argument (bad : 4 ≤ agent.toNat ∨ ¬(1 ≤ quota.toNat ∧ quota.toNat ≤ 24)) :
    setQuota agent quota s = replyOnly s .badArgument := by
  rcases bad with bad | bad
  · simp only [setQuota, agentOf_of_le bad]
  · simp only [setQuota, if_pos bad]
    split <;> rfl

theorem setQuota_below_use (named : a.val = agent.toNat) (range : 1 ≤ quota.toNat ∧ quota.toNat ≤ 24)
    (below : quota.toNat < s.inUse.get a) : setQuota agent quota s = replyOnly s .badState := by
  simp only [setQuota, agentOf_of_val a named, range, below, and_self, not_true, if_false, if_true]

theorem setQuota_writes (named : a.val = agent.toNat) (range : 1 ≤ quota.toNat ∧ quota.toNat ≤ 24)
    (fits : s.inUse.get a ≤ quota.toNat) :
    setQuota agent quota s = replyOnly { s with quotas := s.quotas.set a quota.toNat } .ok := by
  simp only [setQuota, agentOf_of_val a named, range, Nat.not_lt.mpr fits, and_self, not_true, if_false]

end SetQuota

/-! ### The checks of ACQUIRE (R37, R26)

Each check is met with all earlier ones passed: the hypotheses gather in the order of the checks. -/

theorem not_unused_and_ne_closing_of_live {st : WindowState} (live : st = .opening ∨ st = .opened) :
    ¬(st = .vacant ∨ st = .staged) ∧ st ≠ .closing := by
  rcases live with rfl | rfl <;> decide

section AcquireChecks

variable {a : Agent} {window flags : Byte} {waitLimit term : Half} {s : State} {w : WindowId}

theorem acquire_not_running (stopped : s.mgmt.running = false) :
    acquire a window flags waitLimit term s = s.answer a acquireCode .notRunning [] := by
  simp [acquire, stopped]

theorem acquire_bad_argument (run : s.mgmt.running = true) (bad : 32 ≤ window.toNat ∨ 4 ≤ flags.toNat) :
    acquire a window flags waitLimit term s = s.answer a acquireCode .badArgument [] := by
  rcases bad with bad | bad
  · simp [acquire, run, windowOf_of_le bad]
  · have reserved : clearFrom flags 2 = false := by simpa [clearFrom] using bad
    simp only [acquire, run, reserved, Bool.not_true, Bool.not_false, Bool.false_eq_true, if_false, if_true]
    split <;> rfl

variable (run : s.mgmt.running = true) (named : w.val = window.toNat) (clear : flags.toNat < 4)
include run named clear

theorem acquire_no_window (unused : (s.windows.get w).state = .vacant ∨ (s.windows.get w).state = .staged) :
    acquire a window flags waitLimit term s = s.answer a acquireCode .noWindow [] := by
  simp [acquire, run, windowOf_of_val w named, (clearFrom_iff flags 2).mpr clear, unused]

theorem acquire_closing (closing : (s.windows.get w).state = .closing) :
    acquire a window flags waitLimit term s = s.answer a acquireCode .closing [] := by
  simp [acquire, run, windowOf_of_val w named, (clearFrom_iff flags 2).mpr clear, closing]

variable (live : (s.windows.get w).state = .opening ∨ (s.windows.get w).state = .opened)
include live

theorem acquire_not_admitted (barred : (s.windows.get w).admits a = false) :
    acquire a window flags waitLimit term s = s.answer a acquireCode .notAdmitted [] := by
  obtain ⟨used, notClosing⟩ := not_unused_and_ne_closing_of_live live
  simp [acquire, run, windowOf_of_val w named, (clearFrom_iff flags 2).mpr clear, used, notClosing, barred]

variable (admitted : (s.windows.get w).admits a = true)
include admitted

theorem acquire_target_faulted (faulted : (s.targets.get (s.windows.get w).target).state = .faulted) :
    acquire a window flags waitLimit term s = s.answer a acquireCode .targetFaulted [] := by
  obtain ⟨used, notClosing⟩ := not_unused_and_ne_closing_of_live live
  simp [acquire, run, windowOf_of_val w named, (clearFrom_iff flags 2).mpr clear, used, notClosing,
    admitted, faulted]

variable (sound : (s.targets.get (s.windows.get w).target).state ≠ .faulted)
include sound

theorem acquire_already_held (leased : (s.ctxs.get w).holdOf a ≠ none ∨ (s.ctxs.get w).waitOf a ≠ none) :
    acquire a window flags waitLimit term s = s.answer a acquireCode .alreadyHeld [] := by
  obtain ⟨used, notClosing⟩ := not_unused_and_ne_closing_of_live live
  have leased : ((s.ctxs.get w).holdOf a).isSome ∨ ((s.ctxs.get w).waitOf a).isSome := by
    simpa only [Option.isSome_iff_ne_none] using leased
  simp [acquire, run, windowOf_of_val w named, (clearFrom_iff flags 2).mpr clear, used, notClosing,
    admitted, sound, leased]

variable (noHold : (s.ctxs.get w).holdOf a = none) (noWait : (s.ctxs.get w).waitOf a = none)
include noHold noWait

/-- Past the first six checks only room is left to be found: in the pool, then in the agent's quota. -/
theorem acquire_past_lease_checks :
    acquire a window flags waitLimit term s =
      if 24 ≤ s.poolUse then s.poolRefused a .noEntry
      else if s.quotas.get a ≤ s.inUse.get a then s.poolRefused a .quota
      else settleAcquire a w (modeBit (flags.getLsbD 0)) (flags.getLsbD 1) waitLimit term s := by
  obtain ⟨used, notClosing⟩ := not_unused_and_ne_closing_of_live live
  simp [acquire, run, windowOf_of_val w named, (clearFrom_iff flags 2).mpr clear, used, notClosing,
    admitted, sound, noHold, noWait]

theorem acquire_no_entry (full : 24 ≤ s.poolUse) :
    acquire a window flags waitLimit term s = s.poolRefused a .noEntry := by
  rw [acquire_past_lease_checks run named clear live admitted sound noHold noWait, if_pos full]

variable (room : s.poolUse < 24)
include room

theorem acquire_over_quota (spent : s.quotas.get a ≤ s.inUse.get a) :
    acquire a window flags waitLimit term s = s.poolRefused a .quota := by
  rw [acquire_past_lease_checks run named clear live admitted sound noHold noWait, if_neg (Nat.not_le.mpr room),
    if_pos spent]

theorem acquire_settles (quota : s.inUse.get a < s.quotas.get a) :
    acquire a window flags waitLimit term s =
      settleAcquire a w (modeBit (flags.getLsbD 0)) (flags.getLsbD 1) waitLimit term s := by
  rw [acquire_past_lease_checks run named clear live admitted sound noHold noWait, if_neg (Nat.not_le.mpr room),
    if_neg (Nat.not_le.mpr quota)]

end AcquireChecks

/-! ### The settling of ACQUIRE (R38, R33, R47) -/

section SettleAcquire

variable {a : Agent} {w : WindowId} {m : Mode} {once : Bool} {waitLimit term : Half} {s : State}

theorem grantNow_iff (c : LeaseCtx) (win : Window) (m : Mode) :
    c.grantNow win m = true ↔
      win.state = .opened ∧ c.waiters = [] ∧ (∀ h ∈ c.holders, h.upgrading = false) ∧
        (m = .exclusive ∧ c.holders = [] ∧ c.inflight = 0 ∨
          m = .shared ∧ (∀ h ∈ c.holders, h.mode = .shared) ∧ c.drain = false) := by
  simp [LeaseCtx.grantNow, LeaseCtx.upgrader, grantable_iff, and_assoc]

theorem settleAcquire_grants (now : (s.ctxs.get w).grantNow (s.windows.get w) m = true) :
    settleAcquire a w m once waitLimit term s = s.grantAcquire a w m once (askedTerm term) := by
  rw [settleAcquire, if_pos now]

theorem settleAcquire_refuses (later : ¬(s.ctxs.get w).grantNow (s.windows.get w) m = true) (zero : waitLimit = 0) :
    settleAcquire a w m once waitLimit term s =
      s.answer a acquireCode (if (s.windows.get w).state = .opening then .notOpen else .conflict) [] := by
  rw [settleAcquire, if_neg later, if_pos zero]

theorem settleAcquire_queues (later : ¬(s.ctxs.get w).grantNow (s.windows.get w) m = true) (waits : waitLimit ≠ 0) :
    settleAcquire a w m once waitLimit term s = s.queueAcquire a w m once (askedTerm term) (limitOf waitLimit) := by
  rw [settleAcquire, if_neg later, if_neg waits]

theorem grantAcquire_eq (ask : Option Half) :
    s.grantAcquire a w m once ask =
      afterResponse
        { withCtx s w (grantedCtx (s.ctxs.get w) (grantedHold s w a m once ask)) with
          inUse := s.inUse.set a (s.inUse.get a + 1) }
        a 0x01 .granted
        (tokenPayload w (grantedHold s w a m once ask) (selectedTerm (s.windows.get w) ask)) := rfl

/-- The deadline of a wait: none for the limit 65535 (R47). -/
theorem limitOf_map_after (now : Tick) (limit : Half) :
    (limitOf limit).map (Deadline.after now) =
      if limit = 0xFFFF then none else some ⟨now + BitVec.ofNat 32 limit.toNat, false⟩ := by
  unfold limitOf
  split <;> rfl

theorem queueAcquire_eq (ask : Option Half) (limit : Half) :
    s.queueAcquire a w m once ask (limitOf limit) =
      nowWaiting
        { withCtx s w
            { s.ctxs.get w with
              waiters :=
                (s.ctxs.get w).waiters ++
                  [{ agent := a, mode := m, once := once, term := ask
                     deadline :=
                       if limit = 0xFFFF then none else some ⟨s.tb.tick + BitVec.ofNat 32 limit.toNat, false⟩ }]
              endings := (s.ctxs.get w).endings.set a none } with
          inUse := s.inUse.set a (s.inUse.get a + 1) }
        a := by
  rw [← limitOf_map_after]
  rfl

end SettleAcquire

/-! ### RELEASE and DOWNGRADE (R39, R40) -/

section Release

variable {a : Agent} {t : Token} {s : State} {w : WindowId} {h : Hold}

theorem release_not_running (stopped : s.mgmt.running = false) : release a t s = s.answer a 0x02 .notRunning [] := by
  simp [release, stopped]

theorem release_stale (run : s.mgmt.running = true) (unnamed : matchToken s a t = none) :
    release a t s = s.answer a 0x02 .stale [] := by
  simp [release, run, unnamed]

theorem release_ends_hold (run : s.mgmt.running = true) (named : matchToken s a t = some (w, h)) :
    release a t s = (afterResponse (holdEnded s w h .released) a 0x02 .ok []).settleWindow w := by
  simp [release, run, named, endHold_silent, answer_eq]

theorem downgrade_not_running (stopped : s.mgmt.running = false) :
    downgrade a t s = s.answer a 0x03 .notRunning [] := by
  simp [downgrade, stopped]

theorem downgrade_stale (run : s.mgmt.running = true) (unnamed : matchToken s a t = none) :
    downgrade a t s = s.answer a 0x03 .stale [] := by
  simp [downgrade, run, unnamed]

theorem downgrade_shared (run : s.mgmt.running = true) (named : matchToken s a t = some (w, h))
    (shared : h.mode = .shared) : downgrade a t s = s.answer a 0x03 .badState [] := by
  simp [downgrade, run, named, shared]

theorem downgrade_exclusive (run : s.mgmt.running = true) (named : matchToken s a t = some (w, h))
    (exclusive : h.mode = .exclusive) :
    downgrade a t s =
      (afterResponse (holdChanged s w a fun h => { h with mode := .shared }) a 0x03 .ok []).evaluate w := by
  simp [downgrade, run, named, exclusive, updCtx_mapHold, answer_eq]

end Release

/-! ### The statements -/

/-- Settles O25. -/
theorem setQuotaChecksThenWrites : Obligations.SetQuotaChecksThenWrites := by
  intro agent quota s taken
  refine ⟨fun bad => ?_, fun a named range => ⟨fun below => ?_, fun fits => ?_⟩⟩
  · rw [exec_setQuota_taken taken, setQuota_bad_argument bad]
    rfl
  · rw [exec_setQuota_taken taken, setQuota_below_use named range below]
    rfl
  · rw [exec_setQuota_taken taken, setQuota_writes named range fits]
    rfl

/-- Settles O27, an equation of `acquire` for each check. -/
theorem acquireChecksInOrder : Obligations.AcquireChecksInOrder := by
  intro a window flags waitLimit term s can refused noRoom
  simp only [refused, noRoom, exec_acquire_idle a window flags waitLimit term s can, Host.Outcome.next.injEq,
    ← poolRefused_asked]
  simp only [← answer_asked]
  let u := asked s a 0x01 (acquireArgs window flags waitLimit term)
  refine ⟨fun stopped => acquire_not_running (s := u) stopped, fun run bad => acquire_bad_argument (s := u) run bad,
    fun w named clear running => ?_⟩
  have run : u.mgmt.running = true := running
  refine ⟨acquire_no_window run named clear, acquire_closing run named clear, fun live => ?_⟩
  refine ⟨acquire_not_admitted run named clear live, fun admitted => ?_⟩
  refine ⟨acquire_target_faulted run named clear live admitted, fun sound => ?_⟩
  refine ⟨acquire_already_held run named clear live admitted sound, fun noHold noWait => ?_⟩
  exact ⟨acquire_no_entry run named clear live admitted sound noHold noWait,
    acquire_over_quota run named clear live admitted sound noHold noWait⟩

/-- Settles O28: past its checks an ACQUIRE is `settleAcquire`, which grants, refuses or queues. -/
theorem acquireGrantsRefusesOrQueues : Obligations.AcquireGrantsRefusesOrQueues := by
  intro a window flags waitLimit term s w can run named clear live admitted sound noHold noWait room quota
    win c args u mode once askedTerm now h wait result
  have settled : result = .next (settleAcquire a w mode once waitLimit term u) :=
    (exec_acquire_idle a window flags waitLimit term s can).trans
      (congrArg _ (acquire_settles run named clear live admitted sound noHold noWait room quota))
  have grants : (u.ctxs.get w).grantNow (u.windows.get w) mode = true ↔ now := grantNow_iff c win mode
  rw [settled]
  refine ⟨fun yes => ?_, fun no zero => ?_, fun no waits => ?_⟩
  · rw [settleAcquire_grants (grants.mpr yes), grantAcquire_eq]
    rfl
  · rw [settleAcquire_refuses (fun e => no (grants.mp e)) zero]
    rfl
  · rw [settleAcquire_queues (fun e => no (grants.mp e)) waits, queueAcquire_eq]
    rfl

/-- Settles O29: the token is matched once, and both requests act on the hold it names. -/
theorem releaseAndDowngradeActOnNamedHold : Obligations.ReleaseAndDowngradeActOnNamedHold := by
  intro a tok s can released downgraded
  simp only [released, downgraded, exec_release_idle a tok s can, exec_downgrade_idle a tok s can,
    Host.Outcome.next.injEq, ← answer_asked]
  refine ⟨fun stopped => ⟨release_not_running stopped, downgrade_not_running stopped⟩,
    fun run unnamed => ?_, fun w h run held named => ?_⟩
  · have unmatched := matchToken_eq_none s a tok unnamed
    exact ⟨release_stale run unmatched, downgrade_stale run unmatched⟩
  · have matched := matchToken_eq_some s a tok w h held named
    exact ⟨release_ends_hold run matched, downgrade_shared run matched, downgrade_exclusive run matched⟩

end Sys2Proof.Machine
end

