-- ==== Sys2Proof/Proofs/Upgrade.lean ====
section
/-! PROOF. UPGRADE (chapter 2): its checks in order, then the grant at once, the two refusals and the pending upgrade,
an equation for each, and the statement assembled from them. -/

namespace Sys2Proof.Machine

open Sys2Proof.Safety

theorem LeaseCtx.agent_eq_of_holdOf {c : LeaseCtx} {a : Agent} {h : Hold} (held : c.holdOf a = some h) :
    h.agent = a := by
  simpa using List.find?_some held

/-! ### The checks of UPGRADE (R56)

Each check is met with all earlier ones passed: the hypotheses gather in the order of the checks. -/

section UpgradeChecks

variable {a : Agent} {t : Token} {waitLimit : Half} {s : State} {w : WindowId} {h : Hold}

theorem upgrade_not_running (stopped : s.mgmt.running = false) :
    upgrade a t waitLimit s = s.answer a upgradeCode .notRunning [] := by
  simp [upgrade, stopped]

variable (run : s.mgmt.running = true)
include run

theorem upgrade_stale (unnamed : matchToken s a t = none) :
    upgrade a t waitLimit s = s.answer a upgradeCode .stale [] := by
  simp [upgrade, run, unnamed]

variable (named : matchToken s a t = some (w, h))
include named

theorem upgrade_once (once : h.once = true) :
    upgrade a t waitLimit s = s.answer a upgradeCode .badArgument [] := by
  simp [upgrade, run, named, once]

variable (lasting : h.once = false)
include lasting

theorem upgrade_exclusive (exclusive : h.mode = .exclusive) :
    upgrade a t waitLimit s = s.answer a upgradeCode .badState [] := by
  simp [upgrade, run, named, lasting, exclusive]

variable (shared : h.mode = .shared)
include shared

theorem upgrade_closing (closing : (s.windows.get w).state = .closing) :
    upgrade a t waitLimit s = s.answer a upgradeCode .closing [] := by
  simp [upgrade, run, named, lasting, shared, closing]

theorem upgrade_settles (live : (s.windows.get w).state ≠ .closing) :
    upgrade a t waitLimit s = settleUpgrade a w h waitLimit s := by
  simp [upgrade, run, named, lasting, shared, live]

end UpgradeChecks

/-! ### The settling of UPGRADE (R57, R58, R59) -/

section SettleUpgrade

variable {a : Agent} {waitLimit : Half} {s : State} {w : WindowId} {h : Hold}

theorem settleUpgrade_grants (alone : (s.ctxs.get w).upgradeFree = true) :
    settleUpgrade a w h waitLimit s = s.grantUpgradeNow a w h := by
  rw [settleUpgrade, if_pos alone]

variable (crowded : ¬(s.ctxs.get w).upgradeFree = true)
include crowded

theorem settleUpgrade_conflict (zero : waitLimit = 0) :
    settleUpgrade a w h waitLimit s = s.answer a upgradeCode .conflict [] := by
  rw [settleUpgrade, if_neg crowded, if_pos zero]

variable (waits : waitLimit ≠ 0)
include waits

/-- Two pending upgrades on one window would each wait for the other's hold to end (R58). -/
theorem settleUpgrade_deadlock (rival : ∃ g ∈ (s.ctxs.get w).holders, g.agent ≠ a ∧ g.upgrading = true) :
    settleUpgrade a w h waitLimit s = s.answer a upgradeCode .deadlock [] := by
  have found : ((s.ctxs.get w).holders.any fun g => g.agent != a && g.upgrading) = true := by simpa using rival
  rw [settleUpgrade, if_neg crowded, if_neg waits, if_pos found]

theorem settleUpgrade_pends (noRival : ∀ g ∈ (s.ctxs.get w).holders, g.agent ≠ a → g.upgrading = false) :
    settleUpgrade a w h waitLimit s = s.pendUpgrade a w (limitOf waitLimit) := by
  have notFound : ¬((s.ctxs.get w).holders.any fun g => g.agent != a && g.upgrading) = true := by simpa using noRival
  rw [settleUpgrade, if_neg crowded, if_neg waits, if_neg notFound]

end SettleUpgrade

theorem grantUpgradeNow_eq (s : State) (w : WindowId) (h : Hold) :
    s.grantUpgradeNow h.agent w h =
      afterResponse (upgradeGranted s w h) h.agent 0x04 .granted
        (tokenPayload w (upgradedHold s w h) (s.windows.get w).term) := rfl

theorem pendUpgrade_eq (s : State) (a : Agent) (w : WindowId) (limit : Half) :
    s.pendUpgrade a w (limitOf limit) =
      nowWaiting
        (holdChanged s w a fun g =>
          { g with
            upgrading := true
            deadline :=
              if limit = 0xFFFF then none else some ⟨s.tb.tick + BitVec.ofNat 32 limit.toNat, false⟩ })
        a := by
  rw [← limitOf_map_after]
  rfl

/-- Settles O30: past its checks an UPGRADE is `settleUpgrade`, which grants, refuses or leaves it pending. -/
theorem upgradeGrantsRefusesOrPends : Obligations.UpgradeGrantsRefusesOrPends := by
  intro a tok waitLimit s can args result refused
  simp only [refused, result, exec_upgrade_idle a tok waitLimit s can, Host.Outcome.next.injEq, ← answer_asked]
  let u := asked s a 0x04 args
  refine ⟨fun stopped => upgrade_not_running (s := u) stopped,
    fun run unnamed => upgrade_stale (s := u) run (matchToken_eq_none s a tok unnamed),
    fun w h running held namesHold => ?_⟩
  have run : u.mgmt.running = true := running
  have named : matchToken u a tok = some (w, h) := matchToken_eq_some s a tok w h held namesHold
  refine ⟨upgrade_once run named, upgrade_exclusive run named, upgrade_closing run named,
    fun lasting shared live => ?_⟩
  rw [upgrade_settles run named lasting shared live]
  have free : (u.ctxs.get w).upgradeFree = true ↔ (s.ctxs.get w).holders.length = 1 ∧ (s.ctxs.get w).inflight = 0 :=
    upgradeFree_iff (s.ctxs.get w)
  refine ⟨fun alone => ?_, fun crowded => settleUpgrade_conflict (mt free.mp crowded),
    fun crowded => settleUpgrade_deadlock (mt free.mp crowded), fun crowded waits noRival => ?_⟩
  · obtain rfl := LeaseCtx.agent_eq_of_holdOf held
    exact (settleUpgrade_grants (free.mpr alone)).trans (grantUpgradeNow_eq u w h)
  · exact (settleUpgrade_pends (mt free.mp crowded) waits noRival).trans (pendUpgrade_eq u a w waitLimit)

end Sys2Proof.Machine
end

