-- ==== Sys2Proof/Proofs/RenewAndRevoke.lean ====
section
/-! PROOF. RENEW and REVOKE LEASE (chapter 4): an equation for each check of RENEW and its new times, one for each kind of
lease that REVOKE LEASE can find, and the statements assembled from them. -/

namespace Sys2Proof.Machine

open Sys2Proof.Safety

/-! ### RENEW (R70, R69)

Each check is met with all earlier ones passed: the hypotheses gather in the order of the checks. -/

section Renew

variable {a : Agent} {t : Token} {term : Half} {s : State} {w : WindowId} {h : Hold}

theorem renew_not_running (stopped : s.mgmt.running = false) :
    renew a t term s = s.answer a 0x05 .notRunning [] := by
  simp [renew, stopped]

variable (run : s.mgmt.running = true)
include run

theorem renew_stale (unnamed : matchToken s a t = none) : renew a t term s = s.answer a 0x05 .stale [] := by
  simp [renew, run, unnamed]

variable (named : matchToken s a t = some (w, h))
include named

theorem renew_closing (notOpen : (s.windows.get w).state ≠ .opened) :
    renew a t term s = s.answer a 0x05 .closing [] := by
  simp [renew, run, named, notOpen]

theorem renew_moves_times (opened : (s.windows.get w).state = .opened) :
    renew a t term s =
      afterResponse
        (holdChanged s w a fun g =>
          timed g s.tb.tick (selectedTerm (s.windows.get w) (askedTerm term)) (s.windows.get w).margin)
        a 0x05 .ok (tokenPayload w h (selectedTerm (s.windows.get w) (askedTerm term))) := by
  simp only [renew, run, named, opened, Bool.not_true, Bool.false_eq_true, ne_eq, not_true, if_false, updCtx_mapHold,
    setTerm_eq, termUsed_eq, answer_eq]
  rfl

end Renew

/-! ### REVOKE LEASE (R78) -/

section RevokeLease

variable {window agent : Byte} {s : State} {w : WindowId} {a : Agent}

theorem exec_revokeLease_taken (taken : takesFrames s) :
    exec (.revokeLease window agent) s =
      .next
        (afterResult (revokeLease window agent s).state 0x51 2 (revokeLease window agent s).status
          (revokeLease window agent s).payload) :=
  carryOut_taken 0x51 2 (revokeLease window agent) s taken

theorem revokeLease_bad_argument (bad : 32 ≤ window.toNat ∨ 4 ≤ agent.toNat) :
    revokeLease window agent s = replyOnly s .badArgument := by
  rcases bad with bad | bad
  · simp only [revokeLease, windowOf_of_le bad]
  · simp only [revokeLease, agentOf_of_le bad]
    cases windowOf window <;> rfl

variable (window_eq : w.val = window.toNat) (agent_eq : a.val = agent.toNat)
include window_eq agent_eq

theorem revokeLease_ends_hold {h : Hold} (held : (s.ctxs.get w).holdOf a = some h) :
    revokeLease window agent s =
      ⟨(holdLost s w h .revoked .revoked).settleWindow w, .ok,
        [0, BitVec.ofNat 8 h.mode.code] ++ be16 (h.serial.setWidth 16)⟩ := by
  simp only [revokeLease, windowOf_of_val w window_eq, agentOf_of_val a agent_eq, held, endHold_told, wideSerial]

variable (noHold : (s.ctxs.get w).holdOf a = none)
include noHold

theorem revokeLease_ends_wait {x : Wait} (waits : (s.ctxs.get w).waitOf a = some x) :
    revokeLease window agent s =
      ⟨((waitRemoved s w a).handResponse a 0x01 .revoked w [windowByte w]).settleWindow w, .ok,
        [1, BitVec.ofNat 8 x.mode.code, 0, 0]⟩ := by
  simp only [revokeLease, windowOf_of_val w window_eq, agentOf_of_val a agent_eq, noHold, waits, endWait_eq]

theorem revokeLease_nothing (noWait : (s.ctxs.get w).waitOf a = none) :
    revokeLease window agent s = replyOnly s .nothing := by
  simp only [revokeLease, windowOf_of_val w window_eq, agentOf_of_val a agent_eq, noHold, noWait]

end RevokeLease

/-! ### The statements -/

/-- Settles O31: the token is matched once, and past the checks the hold it names takes its new times. -/
theorem renewMovesExpiry : Obligations.RenewMovesExpiry := by
  intro a tok term s can args result refused
  simp only [refused, result, exec_renew_idle a tok term s can, Host.Outcome.next.injEq, ← answer_asked]
  let u := asked s a 0x05 args
  refine ⟨fun stopped => renew_not_running (s := u) stopped,
    fun run unnamed => renew_stale (s := u) run (matchToken_eq_none s a tok unnamed),
    fun w h running held namesHold => ?_⟩
  have run : u.mgmt.running = true := running
  have named : matchToken u a tok = some (w, h) := matchToken_eq_some s a tok w h held namesHold
  exact ⟨renew_closing run named, renew_moves_times run named⟩

/-- Settles O24, by the lease the agent has on the window: a hold, a wait, or neither. -/
theorem revokeLeaseEndsHoldOrWait : Obligations.RevokeLeaseEndsHoldOrWait := by
  intro window agent s taken
  simp only [exec_revokeLease_taken taken, Host.Outcome.next.injEq]
  refine ⟨fun bad => ?_, fun w a window_eq agent_eq =>
    ⟨fun h held => ?_, fun x noHold waits => ?_, fun noHold noWait => ?_⟩⟩
  · rw [revokeLease_bad_argument bad]
    rfl
  · rw [revokeLease_ends_hold window_eq agent_eq held]
  · rw [revokeLease_ends_wait window_eq agent_eq noHold waits]
  · rw [revokeLease_nothing window_eq agent_eq noHold noWait]
    rfl

end Sys2Proof.Machine
end

