-- ==== Sys2Proof/Proofs/CloseOpening.lean ====
section
/-! PROOF. CLOSE WINDOW on an OPENING window (chapter 5): what ending the waits leaves unchanged, the close as one
equation, and the statement assembled from them. -/

namespace Sys2Proof.Machine

open Sys2Proof.Safety

/-! ### Ending the waits (R51) -/

/-- What the ending of waits can change: the lease contexts, the use counts and the responses handed to ports. -/
theorem endWaits_frame (s : State) (w : WindowId) (xs : List Wait) (status : Status) :
    s.endWaits w xs status =
      { s with
        ctxs := (s.endWaits w xs status).ctxs
        inUse := (s.endWaits w xs status).inUse
        ports := (s.endWaits w xs status).ports } := by
  induction xs generalizing s with
  | nil => rfl
  | cons x xs ih =>
    simp only [State.endWaits, List.foldl_cons] at ih ⊢
    rw [ih]
    rfl

theorem waitsClosed_windows (s : State) (w : WindowId) : (waitsClosed s w).windows = s.windows := by
  rw [← endWaits_closed, endWaits_frame]

theorem waitsClosed_targets (s : State) (w : WindowId) : (waitsClosed s w).targets = s.targets := by
  rw [← endWaits_closed, endWaits_frame]

/-! ### The close of an OPENING window (R86, R87) -/

section CloseOpening

variable {window flags : Byte} {s : State} {w : WindowId}

theorem exec_closeWindow_taken (taken : takesFrames s) :
    exec (.closeWindow window flags) s =
      .next
        (afterResult (closeWindow window flags s).state 0x43 2 (closeWindow window flags s).status
          (closeWindow window flags s).payload) :=
  carryOut_taken 0x43 2 (closeWindow window flags) s taken

theorem closeWindow_eq_closeLive (named : w.val = window.toNat) (legal : flags.toNat < 4) :
    closeWindow window flags s = closeLive w (flags.getLsbD 0) (flags.getLsbD 1) s := by
  have clear : clearFrom flags 2 = true := (clearFrom_iff flags 2).mpr legal
  simp only [closeWindow, windowOf_of_val w named, clear, Bool.not_true, Bool.false_eq_true, if_false]

theorem closeLive_opening (opening : (s.windows.get w).state = .opening) (force retire : Bool) :
    closeLive w force retire s = closeOpening w retire s := by
  simp only [closeLive, opening]

/-- What the close leaves: every wait ended CLOSED, the window VACANT or STAGED, its target's use count one lower
(R87). -/
def openingClosed (s : State) (w : WindowId) (retire : Bool) : State :=
  withTarget
    (withWindow (waitsClosed s w) w (if retire then Window.empty else { s.windows.get w with state := .staged }))
    (s.windows.get w).target (left (s.targets.get (s.windows.get w).target) s.tb.tick)

theorem openingClosed_window_state (s : State) (w : WindowId) (retire : Bool) :
    ((openingClosed s w retire).windows.get w).state = if retire then .vacant else .staged := by
  simp only [openingClosed, withTarget, withWindow, Tbl.get_set_self]
  cases retire <;> rfl

/-- The evaluation that ends the close step has nothing to grant: only an OPEN window is evaluated (R31). -/
theorem evaluate_openingClosed (s : State) (w : WindowId) (retire : Bool) :
    (openingClosed s w retire).evaluate w = openingClosed s w retire := by
  apply evaluate_not_open
  rw [openingClosed_window_state]
  cases retire <;> decide

theorem updates_eq_openingClosed (s : State) (w : WindowId) (retire : Bool) :
    (((s.endWaits w (s.ctxs.get w).waiters .closed).updWindow w fun win =>
        if retire then Window.empty else { win with state := .staged }).updTarget
      (s.windows.get w).target fun tg => tg.leave s.tb.tick) = openingClosed s w retire := by
  simp only [openingClosed, withTarget, withWindow, State.updTarget_eq, State.updWindow_eq, endWaits_closed,
    waitsClosed_windows, waitsClosed_targets, leave_eq]

theorem closeOpening_eq (s : State) (w : WindowId) (retire : Bool) :
    closeOpening w retire s =
      ⟨openingClosed s w retire, .done,
        [if retire then 0 else 1, BitVec.ofNat 8 (s.ctxs.get w).waiters.length, 0, 1]⟩ := by
  simp only [closeOpening, updates_eq_openingClosed, evaluate_openingClosed, openingClosed_window_state]
  cases retire <;> rfl

end CloseOpening

/-! ### The statement -/

/-- Settles O19: with the flags legal, the close of an OPENING window is `closeOpening` for either kind. -/
theorem closeOfOpeningWindowCompletesAtOnce : Obligations.CloseOfOpeningWindowCompletesAtOnce := by
  intro window flags s w taken named legal opening win retire
  rw [exec_closeWindow_taken taken, closeWindow_eq_closeLive named legal, closeLive_opening opening, closeOpening_eq]
  rfl

end Sys2Proof.Machine
end

