-- ==== Sys2Proof/Proofs/TargetConfiguration.lean ====
section
/-! PROOF. CONFIGURE TARGET and REMOVE TARGET (chapter 6): what makes their checks fail, an equation for each check and
each outcome, and the statement assembled from them. -/

namespace Sys2Proof.Machine

open Sys2Proof.Safety

/-! ### What the checks read -/

theorem timesOk_iff (wake park : Half) (limit : Byte) :
    timesOk wake park limit = true ↔
      1 ≤ wake.toNat ∧ wake.toNat ≤ 4095 ∧ 1 ≤ park.toNat ∧ park.toNat ≤ 4095 ∧ limit ≠ 0 := by
  simp [timesOk, and_assoc]

theorem naming_ne_zero_iff (s : State) (t : TargetId) :
    s.naming t ≠ 0 ↔ ∃ w, (s.windows.get w).state ≠ .vacant ∧ (s.windows.get w).target = t := by
  simp [State.naming, allWindows]

/-! ### What an accepted request leaves -/

theorem targetReply_updTarget (s : State) (t : TargetId) (f : Target → Target) :
    targetReply (s.updTarget t f) t =
      ⟨withTarget s t (f (s.targets.get t)), .ok, [(f (s.targets.get t)).state.code]⟩ := by
  rw [targetReply, State.updTarget_get]
  rfl

/-! ### CONFIGURE TARGET (R103)

Each check is met with all earlier ones passed: the hypotheses gather in the order of the checks. -/

section ConfigureTarget

variable {target limit : Byte} {wake park delay : Half} {s : State} {t : TargetId}

theorem exec_configureTarget_taken (taken : takesFrames s) :
    exec (.configureTarget target wake park delay limit) s =
      .next
        (afterResult (configureTarget target wake park delay limit s).state 0x30 8
          (configureTarget target wake park delay limit s).status
          (configureTarget target wake park delay limit s).payload) :=
  carryOut_taken 0x30 8 (configureTarget target wake park delay limit) s taken

theorem configureTarget_bad_argument (bad : 8 ≤ target.toNat ∨ ¬timesOk wake park limit = true) :
    configureTarget target wake park delay limit s = replyOnly s .badArgument := by
  rcases bad with bad | bad
  · simp only [configureTarget, targetOf_of_le bad]
  · simp only [configureTarget, bad, Bool.not_false, if_true]
    split <;> rfl

variable (named : t.val = target.toNat) (legal : timesOk wake park limit = true)
include named legal

theorem configureTarget_in_use (used : (s.targets.get t).useCount ≠ 0) :
    configureTarget target wake park delay limit s = replyOnly s .inUse := by
  simp only [configureTarget, targetOf_of_val t named, legal, Bool.not_true, Bool.false_eq_true, if_false, if_pos used]

variable (unused : (s.targets.get t).useCount = 0)
include unused

theorem configureTarget_bad_state (present : (s.targets.get t).state ≠ .absent)
    (awake : (s.targets.get t).state ≠ .parked) :
    configureTarget target wake park delay limit s = replyOnly s .badState := by
  simp only [configureTarget, targetOf_of_val t named, legal, Bool.not_true, Bool.false_eq_true, if_false,
    if_neg (not_not_intro unused)]
  cases state : (s.targets.get t).state with
  | absent => exact absurd state present
  | parked => exact absurd state awake
  | waking | ready | parking | faulted => rfl

theorem configureTarget_writes
    (settled : (s.targets.get t).state = .absent ∨ (s.targets.get t).state = .parked) :
    configureTarget target wake park delay limit s =
      ⟨withTarget s t
          { s.targets.get t with
            state := .parked, twake := false, wakeTime := wake, parkTime := park, parkDelay := delay, limit := limit,
            failures := 0 },
        .ok, [1]⟩ := by
  simp only [configureTarget, targetOf_of_val t named, legal, Bool.not_true, Bool.false_eq_true, if_false,
    if_neg (not_not_intro unused)]
  rcases settled with state | state <;> simp only [state, targetReply_updTarget] <;> rfl

end ConfigureTarget

/-! ### REMOVE TARGET (R104) -/

section RemoveTarget

variable {target : Byte} {s : State} {t : TargetId}

theorem exec_removeTarget_taken (taken : takesFrames s) :
    exec (.removeTarget target) s =
      .next
        (afterResult (removeTarget target s).state 0x31 1 (removeTarget target s).status
          (removeTarget target s).payload) :=
  carryOut_taken 0x31 1 (removeTarget target) s taken

theorem removeTarget_bad_argument (bad : 8 ≤ target.toNat) :
    removeTarget target s = replyOnly s .badArgument := by
  simp only [removeTarget, targetOf_of_le bad]

variable (named : t.val = target.toNat)
include named

theorem removeTarget_in_use (used : s.naming t ≠ 0) : removeTarget target s = replyOnly s .inUse := by
  simp only [removeTarget, targetOf_of_val t named, if_pos used]

variable (unused : ¬s.naming t ≠ 0)
include unused

theorem removeTarget_bad_state (present : (s.targets.get t).state ≠ .absent)
    (awake : (s.targets.get t).state ≠ .parked) : removeTarget target s = replyOnly s .badState := by
  simp only [removeTarget, targetOf_of_val t named, if_neg unused]
  cases state : (s.targets.get t).state with
  | absent => exact absurd state present
  | parked => exact absurd state awake
  | waking | ready | parking | faulted => rfl

theorem removeTarget_absent (absent : (s.targets.get t).state = .absent) :
    removeTarget target s = ⟨s, .ok, [0]⟩ := by
  simp only [removeTarget, targetOf_of_val t named, if_neg unused, absent, targetReply]
  rfl

theorem removeTarget_clears (parked : (s.targets.get t).state = .parked) :
    removeTarget target s =
      ⟨withTarget s t
          { s.targets.get t with
            state := .absent, twake := false, wakeTime := 0, parkTime := 0, parkDelay := 0, limit := 0 },
        .ok, [0]⟩ := by
  simp only [removeTarget, targetOf_of_val t named, if_neg unused, parked, targetReply_updTarget]
  rfl

end RemoveTarget

/-! ### The statement -/

/-- Settles O10: each request is its check list, met in order, and then one write of the target's record. -/
theorem configureAndRemoveTarget : Obligations.ConfigureAndRemoveTarget := by
  refine ⟨fun target wake park delay limit s taken => ?_, fun target s taken => ?_⟩
  · simp only [exec_configureTarget_taken taken, Host.Outcome.next.injEq, ← timesOk_iff]
    refine ⟨fun bad => ?_, fun t named legal =>
      ⟨fun used => ?_, fun unused present awake => ?_, fun unused settled => ?_⟩⟩
    · rw [configureTarget_bad_argument bad]
      rfl
    · rw [configureTarget_in_use named legal used]
      rfl
    · rw [configureTarget_bad_state named legal unused present awake]
      rfl
    · rw [configureTarget_writes named legal unused settled]
  · simp only [exec_removeTarget_taken taken, Host.Outcome.next.injEq, ← naming_ne_zero_iff]
    refine ⟨fun bad => ?_, fun t named =>
      ⟨fun used => ?_, fun unused present awake => ?_, fun unused absent => ?_, fun unused parked => ?_⟩⟩
    · rw [removeTarget_bad_argument bad]
      rfl
    · rw [removeTarget_in_use named used]
      rfl
    · rw [removeTarget_bad_state named unused present awake]
      rfl
    · rw [removeTarget_absent named unused absent]
    · rw [removeTarget_clears named unused parked]

end Sys2Proof.Machine
end

