-- ==== Sys2Proof/Proofs/BusLending.lean ====
section
/-! PROOF. BUS_REQUEST and WITHDRAWAL (chapter 8): what a request and a withdrawal make of each bus state, what each
command does by the level of BREQ and the lending enable, and the statement assembled from them. -/

namespace Sys2Proof.Machine

/-! ### What the bus state makes of a request and of a withdrawal (R140, R142, R143) -/

section BusState

variable {r : Router} {a : Agent}

theorem Router.request_ownedIdle (idle : r.bus = .ownedIdle) :
    r.request = { r with bus := .lent, lines := .floating, bgnt := true } := by
  simp only [Router.request, idle]

theorem Router.request_transfer (running : r.bus = .transfer a) : r.request = { r with bus := .releasing a } := by
  simp only [Router.request, running]

theorem Router.withdraw_releasing (releasing : r.bus = .releasing a) :
    r.withdraw = { r with bus := .transfer a } := by
  simp only [Router.withdraw, releasing]

theorem Router.withdraw_lent (lent : r.bus = .lent) :
    r.withdraw = { r with bus := .ownedIdle, lines := .idle, bgnt := false } := by
  simp only [Router.withdraw, lent]

/-- Such a withdrawal follows a rise that was ignored while lending was disabled (R143). -/
theorem Router.withdraw_owned (owned : r.bus = .ownedIdle ∨ ∃ a, r.bus = .transfer a) : r.withdraw = r := by
  rcases owned with idle | ⟨a, running⟩
  · simp only [Router.withdraw, idle]
  · simp only [Router.withdraw, running]

end BusState

/-! ### BUS_REQUEST: a rise of BREQ (R138, R140) -/

section BusRequest

variable {s : State} {r : Router}

theorem exec_busRequest_high (high : s.router.breq = true) : exec .busRequest s = .next s := by
  simp only [exec, execBusRequest, high, if_true]

variable (low : s.router.breq = false)
include low

theorem exec_busRequest_disabled (disabled : s.mgmt.lending = false) :
    exec .busRequest s = .next { s with router := { s.router with breq := true } } := by
  simp only [exec, execBusRequest, low, disabled, Bool.false_eq_true, if_false, State.updRouter]

theorem exec_busRequest_enabled (enabled : s.mgmt.lending = true)
    (requested : Router.request { s.router with breq := true } = r) :
    exec .busRequest s = .next { s with router := r } := by
  simp only [exec, execBusRequest, low, enabled, Bool.false_eq_true, if_false, if_true, State.updRouter, requested]

end BusRequest

/-! ### WITHDRAWAL: a fall of BREQ (R138, R142, R143) -/

section Withdrawal

variable {s : State} {r : Router}

theorem exec_withdrawal_low (low : s.router.breq = false) : exec .withdrawal s = .next s := by
  simp only [exec, execWithdrawal, low, Bool.not_false, if_true]

variable (high : s.router.breq = true)
include high

theorem exec_withdrawal_disabled (disabled : s.mgmt.lending = false) :
    exec .withdrawal s = .next { s with router := { s.router with breq := false } } := by
  simp only [exec, execWithdrawal, high, disabled, Bool.not_true, Bool.false_eq_true, if_false, State.updRouter]

variable (enabled : s.mgmt.lending = true) (withdrawn : Router.withdraw { s.router with breq := false } = r)
include enabled withdrawn

theorem exec_withdrawal_not_lent (notLent : s.router.bus ≠ .lent) :
    exec .withdrawal s = .next { s with router := r } := by
  simp only [exec, execWithdrawal, high, enabled, Bool.not_true, Bool.false_eq_true, if_false, if_true,
    if_neg notLent, State.updRouter, withdrawn]

/-- Only the end of a loan frees the bus, so only then is there an arbiter decision (R127). -/
theorem exec_withdrawal_lent (lent : s.router.bus = .lent) :
    exec .withdrawal s = .next (State.arbitrate 4 { s with router := r }) := by
  simp only [exec, execWithdrawal, high, enabled, Bool.not_true, Bool.false_eq_true, if_false, if_true, if_pos lent,
    State.updRouter, withdrawn]

end Withdrawal

theorem Bus.owned_ne_lent {bus : Bus} (owned : bus = .ownedIdle ∨ ∃ a, bus = .transfer a) : bus ≠ .lent := by
  rcases owned with rfl | ⟨a, rfl⟩ <;> simp

/-! ### The statement -/

/-- Settles O43: a command that meets its change of BREQ with lending enabled is the Router's move for the bus state. -/
theorem busLendingByBusState : Obligations.BusLendingByBusState := by
  refine ⟨fun s => ⟨exec_busRequest_high, exec_busRequest_disabled,
      fun low enabled idle => ?_, fun a low enabled running => ?_⟩,
    fun s => ⟨exec_withdrawal_low, exec_withdrawal_disabled,
      fun a high enabled releasing => ?_, fun high enabled lent => ?_, fun high enabled owned => ?_⟩⟩
  · exact exec_busRequest_enabled low enabled (Router.request_ownedIdle idle)
  · exact exec_busRequest_enabled low enabled (Router.request_transfer running)
  · exact exec_withdrawal_not_lent high enabled (Router.withdraw_releasing releasing) (by simp [releasing])
  · exact exec_withdrawal_lent high enabled (Router.withdraw_lent lent) lent
  · exact exec_withdrawal_not_lent high enabled (Router.withdraw_owned owned) (Bus.owned_ne_lent owned)

end Sys2Proof.Machine
end

