-- ==== Sys2Proof/Proofs/ManagementPort.lean ====
section
/-! PROOF. START, STOP, TAKE ATTENTION and FETCH (chapter 10): an equation for each check and outcome of START and STOP,
the item that TAKE ATTENTION picks set by set, the bits of a result frame, and the statements assembled from them. -/

namespace Sys2Proof.Machine

open Sys2Proof.Safety

/-- A supervisor request whose reply is known posts it and leaves the reply's state. -/
theorem carryOut_of_reply {code : Byte} {n : Nat} {f : State → Reply} {s t : State} {status : Status}
    {payload : List Byte} (taken : takesFrames s) (reply : f s = ⟨t, status, payload⟩) :
    carryOut code n f s = .next (afterResult t code n status payload) := by
  rw [carryOut_taken code n f s taken, reply]

/-! ### START (R172)

Each check is met with all earlier ones passed: the hypotheses gather in the order of the checks. -/

section Start

variable {s : State}

theorem startDevice_running (running : s.mgmt.running = true) : startDevice s = replyOnly s .badState := by
  simp only [startDevice, running, if_true]

variable (configuring : s.mgmt.running = false)
include configuring

theorem startDevice_no_timebase (unset : s.tb.divisor = none) : startDevice s = replyOnly s .noTimebase := by
  simp only [startDevice, configuring, unset, Option.isNone_none, Bool.false_eq_true, if_false, if_true]

theorem startDevice_starts (timed : s.tb.divisor ≠ none) :
    startDevice s = ⟨{ s with mgmt := { s.mgmt with running := true } }, .ok, []⟩ := by
  simp only [startDevice, configuring, Option.isNone_iff_eq_none, timed, Bool.false_eq_true, if_false]
  rfl

end Start

/-! ### STOP (R173) -/

section Stop

variable {s : State}

theorem anyLive_iff (s : State) : s.anyLive = true ↔ ∃ w, (s.windows.get w).state.live = true := by
  simp [State.anyLive, allWindows]

/-- With no port WAITING no handed ending is taken before a STOP (log 31). -/
theorem settleWaits_of_not_waiting (settled : ∀ a, (s.ports.get a).state ≠ .waiting) : s.settleWaits = s := by
  have ports : s.settleWaits.ports = s.ports :=
    Tbl.ext_get fun a => by rw [State.settleWaits_get, if_neg (settled a)]
  calc s.settleWaits = { s with ports := s.settleWaits.ports } := rfl
    _ = s := by rw [ports]

theorem stopDevice_not_running (configuring : s.mgmt.running = false) : stopDevice s = replyOnly s .badState := by
  simp only [stopDevice, configuring, Bool.not_false, if_true]

variable (running : s.mgmt.running = true)
include running

theorem stopDevice_in_use (used : ∃ w, (s.windows.get w).state.live = true) :
    stopDevice s = replyOnly s .inUse := by
  simp only [stopDevice, running, (anyLive_iff s).mpr used, Bool.not_true, Bool.false_eq_true, if_false, if_true]

theorem stopDevice_stops (unused : ∀ w, (s.windows.get w).state.live = false)
    (settled : ∀ a, (s.ports.get a).state ≠ .waiting) :
    stopDevice s = ⟨{ s with mgmt := { s.mgmt with running := false } }, .ok, []⟩ := by
  have notLive : ¬s.anyLive = true := by simp [anyLive_iff, unused]
  simp only [stopDevice, running, notLive, settleWaits_of_not_waiting settled, Bool.not_true, Bool.false_eq_true,
    if_false]
  rfl

end Stop

/-! ### TAKE ATTENTION (R177)

The sets are searched in the order of the kinds: each is reached with all earlier ones empty. -/

section Pick

variable {a : Attention}

theorem Attention.pick_targetFault {t : TargetId} (first : lowest a.targetFault = some t) :
    a.pick = some (.targetFault, t.val, { a with targetFault := a.targetFault.set t false }) := by
  simp only [Attention.pick, first]

variable (noFault : lowest a.targetFault = none)
include noFault

theorem Attention.pick_closeDone {w : WindowId} (first : lowest a.closeDone = some w) :
    a.pick = some (.closeDone, w.val, { a with closeDone := a.closeDone.set w false }) := by
  simp only [Attention.pick, noFault, first]

variable (noClose : lowest a.closeDone = none)
include noClose

theorem Attention.pick_openDone {w : WindowId} (first : lowest a.openDone = some w) :
    a.pick = some (.openDone, w.val, { a with openDone := a.openDone.set w false }) := by
  simp only [Attention.pick, noFault, noClose, first]

variable (noOpen : lowest a.openDone = none)
include noOpen

theorem Attention.pick_poolRefusal {g : Agent} (first : lowest a.poolRefusal = some g) :
    a.pick = some (.poolRefusal, g.val, { a with poolRefusal := a.poolRefusal.set g false }) := by
  simp only [Attention.pick, noFault, noClose, noOpen, first]

theorem Attention.pick_none (noRefusal : lowest a.poolRefusal = none) : a.pick = none := by
  simp only [Attention.pick, noFault, noClose, noOpen, noRefusal]

end Pick

section TakeAttention

variable {s : State} (taken : takesFrames s)
include taken

theorem exec_takeAttention_picked {kind : AttnKind} {index : Nat} {rest : Attention}
    (picked : s.mgmt.attention.pick = some (kind, index, rest)) :
    exec .takeAttention s =
      .next
        (afterResult (withAttention s rest) 0x24 0 .ok
          [attnCode kind, BitVec.ofNat 8 index, BitVec.ofNat 8 rest.count]) :=
  carryOut_of_reply taken (by simp only [takeAttention, picked, updMgmt_drive_attention])

theorem exec_takeAttention_nothing (picked : s.mgmt.attention.pick = none) :
    exec .takeAttention s = .next (afterResult s 0x24 0 .nothing []) :=
  carryOut_of_reply taken (by simp only [takeAttention, picked, replyOnly])

end TakeAttention

/-! ### FETCH (R168) -/

/-- R164: a byte string is shifted out byte by byte, the most significant bit of each first. -/
theorem bitsOfBytes_eq_flatMap (bytes : List Byte) :
    bitsOfBytes bytes = bytes.flatMap fun b => (List.range 8).map fun i => b.getLsbD (7 - i) := by
  have perByte : bitsOfByte = fun b : Byte => (List.range 8).map fun i => b.getLsbD (7 - i) := rfl
  rw [bitsOfBytes, perByte]

theorem exec_fetch_taken {n : Nat} {s : State} (taken : takesFrames s) {frame : List Bool}
    (shifted : bitsOfBytes (resultFrame s.mgmt.result) = frame) :
    exec (.fetch n) s =
      .next
        { s with
          mgmt :=
            { s.mgmt with
              mso := List.replicate 8 false ++ frame.take n ++ List.replicate (n - frame.length) false
              result :=
                { s.mgmt.result with
                  fetched := s.mgmt.result.fetched || decide (frame.length ≤ n) } } } := by
  subst shifted
  exact congrArg Host.Outcome.next (onFrame_taken s (State.fetchFrame · n) taken)

/-! ### The statements -/

/-- Settles O3: START and STOP are their checks in order and then one write of the device state. -/
theorem startAndStopCheckThenSwitch : Obligations.StartAndStopCheckThenSwitch := by
  refine ⟨fun s taken => ⟨fun running => ?_, fun configuring unset => ?_, fun configuring timed => ?_⟩,
    fun s taken => ⟨fun configuring => ?_, fun running used => ?_, fun running unused settled => ?_⟩⟩
  · exact carryOut_of_reply taken (startDevice_running running)
  · exact carryOut_of_reply taken (startDevice_no_timebase configuring unset)
  · exact carryOut_of_reply taken (startDevice_starts configuring timed)
  · exact carryOut_of_reply taken (stopDevice_not_running configuring)
  · exact carryOut_of_reply taken (stopDevice_in_use running used)
  · exact carryOut_of_reply taken (stopDevice_stops running unused settled)

/-- Settles O5, by the first set of the four that holds an item. -/
theorem takeAttentionPicksFirstKindLowestIndex : Obligations.TakeAttentionPicksFirstKindLowestIndex := by
  intro s taken a took none1 none2 none3 none4
  have noFault (h : none1) : lowest a.targetFault = none := lowest_eq_none _ h
  have noClose (h : none2) : lowest a.closeDone = none := lowest_eq_none _ h
  have noOpen (h : none3) : lowest a.openDone = none := lowest_eq_none _ h
  have noRefusal (h : none4) : lowest a.poolRefusal = none := lowest_eq_none _ h
  refine ⟨fun t mem below => ?_, fun h1 w mem below => ?_, fun h1 h2 w mem below => ?_,
    fun h1 h2 h3 g mem below => ?_, fun h1 h2 h3 h4 => ?_⟩
  · exact exec_takeAttention_picked taken (Attention.pick_targetFault (lowest_eq_some _ t mem below))
  · exact exec_takeAttention_picked taken (Attention.pick_closeDone (noFault h1) (lowest_eq_some _ w mem below))
  · exact exec_takeAttention_picked taken
      (Attention.pick_openDone (noFault h1) (noClose h2) (lowest_eq_some _ w mem below))
  · exact exec_takeAttention_picked taken
      (Attention.pick_poolRefusal (noFault h1) (noClose h2) (noOpen h3) (lowest_eq_some _ g mem below))
  · exact exec_takeAttention_nothing taken
      (Attention.pick_none (noFault h1) (noClose h2) (noOpen h3) (noRefusal h4))

/-- Settles O6: the bits of the result frame are shifted out; the codes are read off the table of section 11.6. -/
theorem fetchShiftsOutResultFrame : Obligations.FetchShiftsOutResultFrame := by
  refine ⟨fun n s taken => ?_, ?_, ?_⟩
  · exact exec_fetch_taken taken (bitsOfBytes_eq_flatMap (resultFrame s.mgmt.result))
  · decide
  · decide

end Sys2Proof.Machine
end

