-- ==== Sys2Proof/Proofs/Changes.lean ====
section
/-! PROOF. The changes that steps are made of: each a change of a few records that keeps every law, with what the part
has checked before it as its premises. Every command but DEVICE_RESET is a sequence of them. -/

namespace Sys2Proof.Machine

open Sys2Proof.Safety

/-! ### Changes of one record that no law but the pin law sees -/

/-- The MP's records change, the device state at most to RUNNING, and ATTN is driven where its causes change. -/
structure Mgmt.Quiet (m n : Mgmt) : Prop where
  run : n.running = m.running ∨ n.running = true
  pin : (n.attn = m.attn ∧ n.mask = m.mask ∧ n.attention = m.attention) ∨ n.attn = attnLevel n.mask n.attention

/-- A port's records change, but not its state, its view of PRSTn and what was handed to it; AIRQn is driven where its
causes change, which happens in no port IN_RESET. -/
structure Port.Quiet (p q : Port) : Prop where
  state : q.state = p.state
  prstn : q.prstn = p.prstn
  fallOwed : q.fallOwed = p.fallOwed
  responses : q.responses = p.responses
  pin : (q.airqn = p.airqn ∧ q.config = p.config ∧ q.notices = p.notices) ∨
    (p.state ≠ .inReset ∧ q.airqn = airqLevel q.config q.notices)

/-- The Router's records for a port change, but not the slot; an admission begins only beside an EMPTY slot. -/
structure Path.Quiet (p q : Path) : Prop where
  slot : q.slot = p.slot
  admission : q.admission.isSome = true → p.admission.isSome = true ∨ p.slot = .empty

/-- A pending close has a deadline exactly while it is GENTLE. -/
def Window.pendingOk (win : Window) : Prop :=
  ∀ p, win.pending = some p → (p.deadline.isSome = true ↔ p.force = false)

/-- A window record changes, but not its state, its addresses and its target. -/
structure Window.Quiet (v u : Window) : Prop where
  state : u.state = v.state
  base : u.base = v.base
  k : u.k = v.k
  target : u.target = v.target
  offset : u.offset = v.offset
  term : v.term ≠ 0 → u.term ≠ 0
  closeDeadline : v.closeDeadline ≠ 0 → u.closeDeadline ≠ 0
  pending : u.pending.isSome = v.pending.isSome
  pendingOk : v.pendingOk → u.pendingOk
  empty : v = Window.empty → u = Window.empty

/-- What a completed close leaves of a window: an empty slot, or the window STAGED. -/
def Window.Vacated (v u : Window) : Prop :=
  u = Window.empty ∨ u = { v with state := .staged, pending := none } ∨
    (v.state = .opening ∧ u = { v with state := .staged })

/-- A target and what OPEN WINDOW makes of it (R82), with the state the window enters. -/
inductive Target.Claimed : Target → Target → WindowState → Prop
  | ready (x : Target) (h : x.state = .ready) :
      Claimed x { x with useCount := x.useCount + 1, parkDeadline := none } .opened
  | waking (x : Target) (h : x.state = .waking) : Claimed x { x with useCount := x.useCount + 1 } .opening
  | parked (x : Target) (h : x.state = .parked) :
      Claimed x ({ x with useCount := x.useCount + 1 } : Target).startWake .opening
  | parking (x : Target) (h : x.state = .parking) :
      Claimed x { x with useCount := x.useCount + 1, wakePending := true } .opening

/-- The changes of a target that need no window to change with it. -/
inductive Target.Move : Target → Target → Prop
  | configure (x : Target) (wake park delay : Half) (limit : Byte) (unused : x.useCount = 0)
      (state : x.state = .absent ∨ x.state = .parked) (times : timesOk wake park limit = true) :
      Move x { x.enter .parked with
        wakeTime := wake, parkTime := park, parkDelay := delay, limit := limit, failures := 0 }
  | wake (x : Target) (state : x.state = .parked) : Move x x.startWake
  | wakeLater (x : Target) (state : x.state = .parking) : Move x { x with wakePending := true }
  | wakeNever (x : Target) (state : x.state = .parking) (unused : x.useCount = 0) :
      Move x { x with wakePending := false }
  | park (x : Target) (state : x.state = .ready ∨ x.state = .waking ∨ x.state = .faulted)
      (unused : x.useCount = 0 ∨ x.parkDeadline.isSome = true) : Move x x.startPark
  | parkEnded (x : Target) (state : x.state = .parking) : Move x x.parkEnded
  | succeeded (x : Target) (state : x.state = .ready) : Move x { x with failures := 0 }
  | failed (x : Target) (state : x.state = .ready) (few : x.failures + 1 < 3) :
      Move x { x with failures := x.failures + 1 }
  | faulted (x : Target) (state : x.state = .ready) :
      Move x { x.enter .faulted with failures := 3, parkDeadline := none }

/-- A hold changes, but not who holds it and for which accesses; an EXCLUSIVE one may become SHARED. -/
structure Hold.Quiet (h g : Hold) : Prop where
  agent : g.agent = h.agent
  once : g.once = h.once
  serial : g.serial = h.serial
  upgrading : g.upgrading = h.upgrading
  deadline : g.deadline = h.deadline
  mode : g.mode = h.mode ∨ g.mode = .shared

/-- What becomes of the Time Base: it takes a divisor, a tick ends, or a microsecond step falls (R64, R65). -/
inductive TimeBase.Next : TimeBase → TimeBase → Prop
  | divisor (tb : TimeBase) (d : Half) (low : 1000 ≤ d.toNat) (high : d.toNat ≤ 50000) : Next tb (tb.setDivisor d)
  | tick (tb : TimeBase) (set : tb.divisor.isSome = true) :
      Next tb { tb with tick := tb.tick + 1, position := 0, steps := 0 }
  | step (tb : TimeBase) (d : Half) (draw : Nat) (set : tb.divisor = some d) (more : tb.steps < 1000) :
      Next tb { tb with steps := tb.steps + 1, position := stepMoment d.toNat (tb.steps + 1) tb.position draw }

/-! ### The changes -/

/-- The agent has no lease on the window. -/
def LeaseCtx.without (c : LeaseCtx) (a : Agent) : Prop := c.holdOf a = none ∧ c.waitOf a = none

/-- One more entry fits the pool and the agent's quota. -/
def State.roomFor (s : State) (a : Agent) : Prop := s.poolUse < 24 ∧ s.inUse.get a < s.quotas.get a

/-- A change. `gone` names the agent whose port reset drops its leases silently, for which the law of its port is
broken until the reset is over. -/
inductive Change (gone : Option Agent) : State → State → Prop
  /- Records that stand in no law. -/
  | aside (s : State) (outcomes : List (TargetId × Outcome)) (reports : List WindowId) (transfers free : Nat) :
      Change gone s { s with outcomes := outcomes, emptyReports := reports, transfers := transfers, free := free }
  | mgmt (s : State) (f : Mgmt → Mgmt) (quiet : s.mgmt.Quiet (f s.mgmt)) : Change gone s (s.updMgmt f)
  /- Ports. -/
  | port (s : State) (a : Agent) (f : Port → Port) (quiet : (s.ports.get a).Quiet (f (s.ports.get a))) :
      Change gone s (s.updPort a f)
  | take (s : State) (a : Agent) (r : HandedResponse) (rest : List HandedResponse)
      (oldest : (s.ports.get a).responses = r :: rest) :
      Change gone s (s.updPort a fun p => { p with responses := rest }.takeResponse r)
  | stop (s : State) (unused : ∀ w, (s.windows.get w).state.live = false) :
      Change gone s (s.settleWaits.updMgmt fun m => { m with running := false })
  | fallen (s : State) (a : Agent) (reset : gone = some a) :
      Change gone s (s.updPort a fun p => { p.takeFall with prstn := false })
  | risen (s : State) (a : Agent) (low : (s.ports.get a).prstn = false) (taken : (s.ports.get a).fallOwed = false) :
      Change gone s (s.updPort a fun p => { p with state := .idle, prstn := true })
  | owe (s : State) (a : Agent) (high : (s.ports.get a).prstn = true) :
      Change gone s (s.updPort a fun p => { p with prstn := false, fallOwed := true })
  | level (s : State) (a : Agent) (prstn : Bool) (low : s.resetn = false) : Change gone s (s.setPrstn a prstn)
  /- Windows and targets. -/
  | define (s : State) (w : WindowId) (win : Window) (vacant : (s.windows.get w).state = .vacant)
      (staged : win.state = .staged) (closes : win.pending = none) (size : win.k ≤ 10)
      (base : win.base.toNat % windowSize win.k = 0) (offset : win.offset.toNat % windowSize win.k = 0)
      (term : win.term ≠ 0) (deadline : win.closeDeadline ≠ 0) (stop : win.endAddr ≤ 0xFF0000)
      (target : (s.targets.get win.target).state ≠ .absent) (apart : s.overlapsAny win.base.toNat win.endAddr = false) :
      Change gone s (s.updWindow w fun _ => win)
  | window (s : State) (w : WindowId) (f : Window → Window) (quiet : (s.windows.get w).Quiet (f (s.windows.get w))) :
      Change gone s (s.updWindow w f)
  | retire (s : State) (w : WindowId) (staged : (s.windows.get w).state = .staged) :
      Change gone s (s.updWindow w fun _ => Window.empty)
  | claim (s : State) (w : WindowId) (st : WindowState) (f : Target → Target)
      (staged : (s.windows.get w).state = .staged)
      (claimed : (s.targets.get (s.windows.get w).target).Claimed (f (s.targets.get (s.windows.get w).target)) st) :
      Change gone s ((s.updTarget (s.windows.get w).target f).updWindow w fun win => { win with state := st })
  | ready (s : State) (t : TargetId) (state : (s.targets.get t).state = .waking ∨ (s.targets.get t).state = .faulted) :
      Change gone s
        { s with
          targets := s.targets.set t ((s.targets.get t).becomeReady.startDelay s.tb.tick)
          windows := s.windows.map fun win =>
            if win.state = .opening ∧ win.target = t then { win with state := .opened } else win }
  | closing (s : State) (w : WindowId) (p : PendingClose) (opened : (s.windows.get w).state = .opened)
      (waits : (s.ctxs.get w).waiters = []) (gentle : p.deadline.isSome = true ↔ p.force = false) :
      Change gone s ((upgradeClosed s w).updWindow w fun win => { win with state := .closing, pending := some p })
  | leave (s : State) (w : WindowId) (win : Window) (now : Tick)
      (ended : ((s.windows.get w).state = .opening ∧ (s.ctxs.get w).waiters = []) ∨
        ((s.windows.get w).state = .closing ∧ s.emptyContext w = true))
      (vacated : (s.windows.get w).Vacated win) :
      Change gone s ((s.updWindow w fun _ => win).updTarget (s.windows.get w).target fun t => t.leave now)
  | target (s : State) (t : TargetId) (f : Target → Target) (move : (s.targets.get t).Move (f (s.targets.get t))) :
      Change gone s (s.updTarget t f)
  | remove (s : State) (t : TargetId) (unnamed : s.naming t = 0) (parked : (s.targets.get t).state = .parked) :
      Change gone s (s.updTarget t fun tg =>
        { tg.enter .absent with wakeTime := 0, parkTime := 0, parkDelay := 0, limit := 0 })
  /- Time. -/
  | time (s : State) (tb : TimeBase) (next : s.tb.Next tb) : Change gone s { s with tb := tb }
  | reach (s : State) (now : Tick) :
      Change gone s
        { s with
          windows := s.windows.map (Window.reach now)
          ctxs := s.ctxs.map (LeaseCtx.reach now)
          targets := s.targets.map (Target.reach now) }
  | countDown (s : State) :
      Change gone s
        { s with
          targets := s.targets.map Target.countDown
          router := { s.router with limit := s.router.limit.map fun n => n - 1 } }
  /- Leases. -/
  | quota (s : State) (a : Agent) (n : Nat) (low : 1 ≤ n) (high : n ≤ 24) (fits : s.inUse.get a ≤ n) :
      Change gone s { s with quotas := s.quotas.set a n }
  | grant (s : State) (a : Agent) (w : WindowId) (m : Mode) (once : Bool) (asked : Option Half)
      (opened : (s.windows.get w).state = .opened) (fresh : (s.ctxs.get w).without a)
      (free : (s.ctxs.get w).grantable m = true) (room : s.roomFor a) :
      Change gone s
        ((s.updCtx w fun c =>
          c.addHold (newHold (s.ctxs.get w) s.tb.tick (s.windows.get w) a m once asked)).takeEntry a)
  | queue (s : State) (a : Agent) (w : WindowId) (x : Wait) (agent : x.agent = a)
      (live : (s.windows.get w).state = .opening ∨ (s.windows.get w).state = .opened)
      (fresh : (s.ctxs.get w).without a) (room : s.roomFor a) (idle : (s.ports.get a).state = .idle)
      (run : s.mgmt.running = true) :
      Change gone s
        (((s.updCtx w fun c => { c with waiters := c.waiters ++ [x], endings := c.endings.set a none }).takeEntry
          a).updPort a fun p => { p with state := .waiting })
  | upgrade (s : State) (a : Agent) (w : WindowId) (h : Hold) (held : (s.ctxs.get w).holdOf a = some h)
      (alone : (s.ctxs.get w).upgradeFree = true) (idle : (s.ports.get a).state = .idle) :
      Change gone s (s.updCtx w fun c => c.grantUpgrade s.tb.tick (s.windows.get w) a)
  | pend (s : State) (a : Agent) (w : WindowId) (h : Hold) (d : Option Deadline)
      (held : (s.ctxs.get w).holdOf a = some h) (long : h.once = false) (shared : h.mode = .shared)
      (live : (s.windows.get w).state ≠ .closing)
      (noRival : ((s.ctxs.get w).holders.any fun g => g.agent != a && g.upgrading) = false)
      (idle : (s.ports.get a).state = .idle) (run : s.mgmt.running = true) :
      Change gone s
        ((s.updCtx w fun c => c.mapHold a fun h => { h with upgrading := true, deadline := d }).updPort a
          fun p => { p with state := .waiting })
  | grantHead (s : State) (w : WindowId) (x : Wait) (xs : List Wait) (payload : List Byte)
      (opened : (s.windows.get w).state = .opened) (head : (s.ctxs.get w).waiters = x :: xs)
      (free : (s.ctxs.get w).grantable x.mode = true) :
      Change gone s
        ((s.updCtx w fun c =>
          { c.addHold (newHold c s.tb.tick (s.windows.get w) x.agent x.mode x.once x.term) with
            waiters := xs }).handResponse x.agent acquireCode .granted w payload)
  | grantUpgrade (s : State) (w : WindowId) (h : Hold) (payload : List Byte)
      (pending : (s.ctxs.get w).upgrader = some h) (alone : (s.ctxs.get w).upgradeFree = true) :
      Change gone s
        ((s.updCtx w fun c => c.grantUpgrade s.tb.tick (s.windows.get w) h.agent).handResponse h.agent upgradeCode
          .granted w payload)
  | hold (s : State) (w : WindowId) (a : Agent) (f : Hold → Hold) (quiet : ∀ h : Hold, h.Quiet (f h)) :
      Change gone s (s.updCtx w fun c => c.mapHold a f)
  | endHold (s : State) (w : WindowId) (h : Hold) (cause : Cause) (reason : Option LostReason)
      (held : (s.ctxs.get w).holdOf h.agent = some h)
      (silent : reason = none → h.once = true ∨ (s.ports.get h.agent).state = .idle ∨ gone = some h.agent) :
      Change gone s (s.endHold w h cause reason)
  | endWait (s : State) (w : WindowId) (a : Agent) (status : Status)
      (waits : ((s.ctxs.get w).waitOf a).isSome = true) : Change gone s (s.endWait w a status)
  | dropWait (s : State) (w : WindowId) (a : Agent) (waits : ((s.ctxs.get w).waitOf a).isSome = true)
      (reset : gone = some a) : Change gone s (s.dropWait w a)
  | endUpgrade (s : State) (w : WindowId) (h : Hold) (status : Status) (held : h ∈ (s.ctxs.get w).holders)
      (pending : h.upgrading = true) : Change gone s (s.endUpgrade w h status)
  | abandonWait (s : State) (a : Agent) (w : WindowId) (code : Byte) (payload : List Byte)
      (waits : ((s.ctxs.get w).waitOf a).isSome = true) :
      Change gone s ((s.dropWait w a).postAbandoned a code w payload)
  | abandonUpgrade (s : State) (a : Agent) (w : WindowId) (code : Byte) (payload : List Byte)
      (pending : ((s.ctxs.get w).holders.any fun h => h.agent == a && h.upgrading) = true) :
      Change gone s ((s.clearUpgrade w a).postAbandoned a code w payload)
  /- The data path. -/
  | path (s : State) (a : Agent) (f : Path → Path)
      (quiet : (s.router.paths.get a).Quiet (f (s.router.paths.get a))) : Change gone s (s.updPath a f)
  | discard (s : State) (a : Agent) (x : Access) (d : Bool) (slot : (s.router.paths.get a).slot = .active x d) :
      Change gone s (s.updPath a fun p => { p with slot := .active x true })
  | turn (s : State) (pointer : Agent) (breq : Bool) :
      Change gone s (s.updRouter fun r => { r with pointer := pointer, breq := breq })
  | request (s : State) : Change gone s (s.updRouter Router.request)
  | withdraw (s : State) : Change gone s (s.updRouter Router.withdraw)
  | admitted (s : State) (a : Agent) (x : Access) (admission : (s.router.paths.get a).admission.isSome = true) :
      Change gone s
        ((s.updCtx x.window fun c => { c with inflight := c.inflight + 1 }).updPath a fun p =>
          { p with slot := .queued x, admission := none })
  | start (s : State) (a : Agent) (x : Access) (idle : s.router.bus = .ownedIdle)
      (slot : (s.router.paths.get a).slot = .queued x) : Change gone s (s.startTransfer a x)
  | complete (s : State) (a : Agent) (x : Access) (d : Bool)
      (bus : s.router.bus = .transfer a ∨ s.router.bus = .releasing a)
      (slot : (s.router.paths.get a).slot = .active x d) :
      Change gone s
        (((s.updRouter Router.afterTransfer).updPath a fun p =>
          { p with slot := .empty, abandoned := false }).updCtx x.window LeaseCtx.complete)
  | drop (s : State) (a : Agent) (x : Access) (slot : (s.router.paths.get a).slot = .queued x) :
      Change gone s
        ((s.updPath a fun p => { p with slot := .empty, abandoned := false }).updCtx x.window LeaseCtx.complete)

/-- Any number of changes, one after the other. -/
inductive Changes (gone : Option Agent) (s : State) : State → Prop
  | refl : Changes gone s s
  | tail {t u : State} (before : Changes gone s t) (last : Change gone t u) : Changes gone s u

end Sys2Proof.Machine
end

