-- ==== Sys2Proof/Proofs/OperationChanges.lean ====
section
/-! PROOF. The shared operations as sequences of changes: handed responses, the grant evaluation, endings, the
completion of a close, a target becoming READY. -/

namespace Sys2Proof.Machine

open Sys2Proof.Safety

variable {g : Option Agent} {s t u : State}

/-! ### Sequences of changes -/

theorem Change.one (h : Change g s t) : Changes g s t := .tail .refl h

theorem Changes.next (h : Changes g s t) (k : Changes g t u) : Changes g s u := by
  induction k with
  | refl => exact h
  | tail _ last ih => exact .tail ih last

theorem Changes.of_eq (h : t = s) : Changes g s t := h ▸ Changes.refl

/-- A fold is a sequence of changes where each of its steps is one. -/
theorem Changes.foldl {α : Type} (f : State → α → State) (step : ∀ s x, Changes g s (f s x)) (l : List α) (s : State) :
    Changes g s (l.foldl f s) := by
  induction l generalizing s with
  | nil => exact .refl
  | cons x l ih => exact (step s x).next (ih _)

/-! ### Records that stand in no law -/

theorem changes_shiftZeros (s : State) (n : Nat) : Changes g s (s.shiftZeros n) :=
  (Change.mgmt s _ ⟨.inl rfl, .inl ⟨rfl, rfl, rfl⟩⟩).one

theorem changes_postResult (s : State) (code : Byte) (status : Status) (payload : List Byte) :
    Changes g s (s.postResult code status payload) :=
  (Change.mgmt s _ ⟨.inl rfl, .inl ⟨rfl, rfl, rfl⟩⟩).one

theorem changes_handAttention (s : State) (i : AttnItem) : Changes g s (s.handAttention i) :=
  (Change.mgmt s _ ⟨.inl rfl, .inl ⟨rfl, rfl, rfl⟩⟩).one

/-- A port's records outside the laws. -/
theorem changes_port_unseen (s : State) (a : Agent) (f : Port → Port)
    (h : ∀ p, f p = { p with
      request := (f p).request, response := (f p).response, commitRefused := (f p).commitRefused, fault := (f p).fault
      ended := (f p).ended, handed := (f p).handed }) :
    Changes g s (s.updPort a f) := by
  refine (Change.port s a f ⟨?_, ?_, ?_, ?_, .inl ⟨?_, ?_, ?_⟩⟩).one
  all_goals rw [h]

theorem changes_answer (s : State) (a : Agent) (code : Byte) (status : Status) (payload : List Byte) :
    Changes g s (s.answer a code status payload) := changes_port_unseen s a _ fun _ => rfl

theorem changes_handNotice (s : State) (a : Agent) (i : NoticeItem) : Changes g s (s.handNotice a i) :=
  changes_port_unseen s a _ fun _ => rfl

theorem changes_endCycle (s : State) (a : Agent) (e : CycleEnd) : Changes g s (s.endCycle a e) :=
  changes_port_unseen s a _ fun _ => rfl

theorem changes_setRefused (s : State) (a : Agent) (b : Bool) : Changes g s (s.setRefused a b) :=
  changes_port_unseen s a _ fun _ => rfl

theorem changes_writeRequest (s : State) (a : Agent) (code : Byte) (bytes : List Byte) :
    Changes g s (s.writeRequest a code bytes) :=
  changes_port_unseen s a _ fun p => by split <;> rfl

theorem changes_reportIfEmpty (s : State) (w : WindowId) : Changes g s (s.reportIfEmpty w) := by
  unfold State.reportIfEmpty
  split
  · exact (Change.aside s s.outcomes _ s.transfers s.free).one
  · exact .refl

/-- A port that is not IN_RESET changes a notice set or the configuration and drives AIRQn. -/
theorem changes_port_driven (s : State) (a : Agent) (f : Port → Port) (up : (s.ports.get a).state ≠ .inReset)
    (h : ∀ p, f p = { p with
      notices := (f p).notices, config := (f p).config, airqn := airqLevel (f p).config (f p).notices
      fault := (f p).fault, ended := (f p).ended, handed := (f p).handed }) :
    Changes g s (s.updPort a f) := by
  refine (Change.port s a f ⟨?_, ?_, ?_, ?_, .inr ⟨up, ?_⟩⟩).one
  all_goals rw [h]

theorem changes_failCycle (s : State) (a : Agent) (r : Reason) (c : BusCycle) (w : Option WindowId)
    (up : (s.ports.get a).state ≠ .inReset) : Changes g s (s.failCycle a r c w) :=
  changes_port_driven s a _ up fun _ => rfl

/-! ### Handed responses -/

theorem takeResponse_responses (p : Port) (r : HandedResponse) : (p.takeResponse r).responses = p.responses := by
  unfold Port.takeResponse
  split <;> rfl

theorem takeResponse_with_responses (p : Port) (r : HandedResponse) (l : List HandedResponse) :
    { p.takeResponse r with responses := l } = ({ p with responses := l } : Port).takeResponse r := by
  unfold Port.takeResponse
  split <;> rfl

/-- Taking all handed responses is taking the oldest, then the rest. -/
theorem takeResponses_cons (p : Port) (r : HandedResponse) (rest : List HandedResponse)
    (oldest : p.responses = r :: rest) :
    p.takeResponses = (({ p with responses := rest } : Port).takeResponse r).takeResponses := by
  unfold Port.takeResponses
  rw [takeResponse_responses, oldest, takeResponse_with_responses]
  rfl

theorem takeResponses_nil (p : Port) (none : p.responses = []) : p.takeResponses = p := by
  unfold Port.takeResponses
  rw [none]
  cases p
  cases none
  rfl

theorem changes_takeResponses (s : State) (a : Agent) : Changes g s (s.takeResponses a) := by
  generalize h : (s.ports.get a).responses = rs
  induction rs generalizing s with
  | nil =>
    refine .of_eq ?_
    simp only [State.takeResponses, State.updPort, takeResponses_nil _ h, Tbl.set_get]
  | cons r rest ih =>
    have rest_left :
        ((s.updPort a fun p => { p with responses := rest }.takeResponse r).ports.get a).responses = rest := by
      rw [State.updPort_get, takeResponse_responses]
    have all :
        (s.updPort a fun p => { p with responses := rest }.takeResponse r).takeResponses a = s.takeResponses a := by
      simp only [State.takeResponses, State.updPort, Tbl.get_set_self, Tbl.set_set, ← takeResponses_cons _ _ _ h]
    exact all ▸ (Change.take s a r rest h).one.next (ih _ rest_left)

/-! ### The grant evaluation -/

/-- Which waits a grant evaluation still finds is read from the list it is given. -/
theorem grantHeads_with_waiters (now : Tick) (win : Window) (xs ys : List Wait) (c : LeaseCtx) :
    LeaseCtx.grantHeads now win xs { c with waiters := ys } = LeaseCtx.grantHeads now win xs c := by
  induction xs generalizing c with
  | nil => rfl
  | cons x xs ih =>
    simp only [LeaseCtx.grantHeads]
    have same : ({ c with waiters := ys } : LeaseCtx).grantable x.mode = c.grantable x.mode := by cases x.mode <;> rfl
    rw [same]
    split
    · have := ih (c.addHold (newHold c now win x.agent x.mode x.once x.term))
      exact congrArg (fun r => (r.1, (newHold c now win x.agent x.mode x.once x.term, termUsed win x.term) :: r.2)) this
    · rfl

theorem changes_grantHeads (s : State) (w : WindowId) (opened : (s.windows.get w).state = .opened) :
    let r := LeaseCtx.grantHeads s.tb.tick (s.windows.get w) (s.ctxs.get w).waiters (s.ctxs.get w)
    Changes g s ((s.updCtx w fun _ => r.1).handGrants w r.2) := by
  intro r
  subst r
  generalize hx : (s.ctxs.get w).waiters = xs
  induction xs generalizing s with
  | nil =>
    refine .of_eq ?_
    have same : ({ s.ctxs.get w with waiters := [] } : LeaseCtx) = s.ctxs.get w := by rw [← hx]
    simp only [LeaseCtx.grantHeads, State.handGrants, List.foldl_nil, same, State.updCtx, Tbl.set_get]
  | cons x xs ih =>
    simp only [LeaseCtx.grantHeads]
    by_cases free : (s.ctxs.get w).grantable x.mode = true
    · simp only [free, if_true]
      generalize hh : newHold (s.ctxs.get w) s.tb.tick (s.windows.get w) x.agent x.mode x.once x.term = h
      let payload := grantedPayload w h (termUsed (s.windows.get w) x.term)
      have first := (Change.grantHead (gone := g) s w x xs payload opened hx free).one
      have later := ih
        ((s.updCtx w fun c =>
          { c.addHold (newHold c s.tb.tick (s.windows.get w) x.agent x.mode x.once x.term) with
            waiters := xs }).handResponse x.agent acquireCode .granted w payload) opened
        (by simp)
      refine first.next (later.next (.of_eq ?_))
      simp only [State.handResponse_ctxs, State.updCtx_get, hh, State.handResponse_tb, State.updCtx_tb,
        State.handResponse_windows, State.updCtx_windows, grantHeads_with_waiters]
      subst hh
      simp only [State.handGrants, List.foldl_cons]
      congr 1
      simp only [State.updCtx, State.handResponse, State.updPort, Tbl.set_set, payload]
      rfl
    · simp only [free]
      refine .of_eq ?_
      have same : ({ s.ctxs.get w with waiters := x :: xs } : LeaseCtx) = s.ctxs.get w := by rw [← hx]
      simp [State.handGrants, same, State.updCtx]

theorem changes_evaluate (s : State) (w : WindowId) : Changes g s (s.evaluate w) := by
  simp only [State.evaluate]
  split
  · rename_i opened
    split
    · rename_i h pending
      split
      · rename_i alone
        exact (Change.grantUpgrade s w h _ pending alone).one
      · exact .refl
    · exact changes_grantHeads s w opened
  · exact .refl

theorem changes_settleWindow (s : State) (w : WindowId) : Changes g s (s.settleWindow w) :=
  (changes_evaluate s w).next (changes_reportIfEmpty _ w)

/-! ### Endings -/

theorem LeaseCtx.holdOf_agent {c : LeaseCtx} {a : Agent} {h : Hold} (held : c.holdOf a = some h) :
    c.holdOf h.agent = some h := by rw [LeaseCtx.agent_eq_of_holdOf held, held]

theorem changes_endHold_told (s : State) (w : WindowId) (h : Hold) (cause : Cause) (r : LostReason)
    (held : (s.ctxs.get w).holdOf h.agent = some h) : Changes g s (s.endHold w h cause (some r)) :=
  (Change.endHold s w h cause (some r) held (fun e => nomatch e)).one

theorem endHold_ctx (s : State) (w : WindowId) (h : Hold) (cause : Cause) (reason : Option LostReason) :
    (s.endHold w h cause reason).ctxs.get w = (s.ctxs.get w).dropHold h cause := by
  cases reason with
  | none => simp [State.endHold]
  | some r =>
    simp only [State.endHold]
    split <;> simp

theorem dropWait_ctx (s : State) (w : WindowId) (a : Agent) :
    (s.dropWait w a).ctxs.get w =
      { s.ctxs.get w with waiters := (s.ctxs.get w).waiters.eraseP fun x => x.agent == a } := by
  simp [State.dropWait]

theorem endWait_ctx (s : State) (w : WindowId) (a : Agent) (status : Status) :
    (s.endWait w a status).ctxs.get w =
      { s.ctxs.get w with waiters := (s.ctxs.get w).waiters.eraseP fun x => x.agent == a } :=
  dropWait_ctx s w a

/-- What the ending of a hold can change. -/
theorem endHold_frame (s : State) (w : WindowId) (h : Hold) (cause : Cause) (reason : Option LostReason) :
    s.endHold w h cause reason =
      { s with
        ctxs := (s.endHold w h cause reason).ctxs
        inUse := (s.endHold w h cause reason).inUse
        ports := (s.endHold w h cause reason).ports } := by
  cases reason with
  | none => rfl
  | some r =>
    simp only [State.endHold]
    split <;> rfl

/-- What the ending of a pending upgrade can change. -/
theorem upgradeClosed_frame (s : State) (w : WindowId) :
    upgradeClosed s w = { s with ctxs := (upgradeClosed s w).ctxs, ports := (upgradeClosed s w).ports } := by
  unfold upgradeClosed
  split <;> rfl

/-- All waits on a window end, each the head of those left. -/
theorem changes_endWaits (s : State) (w : WindowId) (status : Status) :
    Changes g s (s.endWaits w (s.ctxs.get w).waiters status) ∧
    (s.endWaits w (s.ctxs.get w).waiters status).ctxs.get w = { s.ctxs.get w with waiters := [] } := by
  generalize hx : (s.ctxs.get w).waiters = xs
  induction xs generalizing s with
  | nil =>
    have same : ({ s.ctxs.get w with waiters := [] } : LeaseCtx) = s.ctxs.get w := by rw [← hx]
    exact ⟨.refl, same.symm⟩
  | cons x xs ih =>
    have ctx : (s.endWait w x.agent status).ctxs.get w = { s.ctxs.get w with waiters := xs } := by
      rw [endWait_ctx, hx]; simp
    obtain ⟨rest, left⟩ := ih (s.endWait w x.agent status) (by rw [ctx])
    have head : ((s.ctxs.get w).waitOf x.agent).isSome = true := by simp [LeaseCtx.waitOf, hx]
    refine ⟨(Change.endWait s w x.agent status head).one.next rest, ?_⟩
    rw [ctx] at left
    exact left

/-- All holds on a window end, each the head of those left. -/
theorem changes_endHolds (s : State) (w : WindowId) (cause : Cause) (r : LostReason) :
    Changes g s (s.endHolds w (s.ctxs.get w).holders cause (some r)) ∧
    ((s.endHolds w (s.ctxs.get w).holders cause (some r)).ctxs.get w).holders = [] ∧
    ((s.endHolds w (s.ctxs.get w).holders cause (some r)).ctxs.get w).waiters = (s.ctxs.get w).waiters := by
  generalize hx : (s.ctxs.get w).holders = hs
  induction hs generalizing s with
  | nil => exact ⟨.refl, hx, rfl⟩
  | cons h hs ih =>
    have head : (s.ctxs.get w).holdOf h.agent = some h := by simp [LeaseCtx.holdOf, hx]
    have ctx := endHold_ctx s w h cause (some r)
    obtain ⟨rest, noHold, waits⟩ := ih (s.endHold w h cause (some r)) (by rw [ctx]; simp [LeaseCtx.dropHold, hx])
    rw [ctx] at waits
    exact ⟨(changes_endHold_told s w h cause r head).next rest, noHold, waits⟩

theorem changes_forceSweep (s : State) (w : WindowId) :
    Changes g s (s.forceSweep w) ∧ ((s.forceSweep w).ctxs.get w).holders = [] ∧
    ((s.forceSweep w).ctxs.get w).waiters = [] := by
  obtain ⟨waits, ctx⟩ := changes_endWaits (g := g) s w .closed
  obtain ⟨holds, noHold, noWait⟩ :=
    changes_endHolds (g := g) (s.endWaits w (s.ctxs.get w).waiters .closed) w .closed .closed
  rw [ctx] at holds noHold noWait
  exact ⟨waits.next holds, noHold, noWait⟩

/-! ### Windows and targets -/

theorem changes_completeClose (s : State) (w : WindowId) (closing : (s.windows.get w).state = .closing)
    (empty : s.emptyContext w = true) : Changes g s (s.completeClose w) := by
  have vacated (retire : Bool) : (s.windows.get w).Vacated
      (if retire then Window.empty else { s.windows.get w with state := .staged, pending := none }) := by
    cases retire
    · exact .inr (.inl rfl)
    · exact .inl rfl
  exact (Change.leave s w _ s.tb.tick (.inr ⟨closing, empty⟩) (vacated _)).one.next
    (changes_handAttention _ (.closeDone w))

theorem changes_closeIfEmpty (s : State) (w : WindowId) : Changes g s (s.closeIfEmpty w) := by
  unfold State.closeIfEmpty
  split
  · rename_i h
    exact changes_completeClose s w h.1 h.2
  · exact .refl

theorem changes_window_pending (s : State) (w : WindowId) (f : PendingClose → PendingClose)
    (h : ∀ p, (p.deadline.isSome = true ↔ p.force = false) → ((f p).deadline.isSome = true ↔ (f p).force = false)) :
    Changes g s (s.updWindow w fun win => { win with pending := win.pending.map f }) := by
  refine (Change.window s w _ ⟨rfl, rfl, rfl, rfl, rfl, id, id, ?_, ?_, ?_⟩).one
  · simp
  · intro ok p hp
    obtain ⟨q, hq, rfl⟩ := Option.map_eq_some_iff.mp hp
    exact h q (ok q hq)
  · intro empty
    rw [empty]
    rfl

theorem changes_forceClose (s : State) (w : WindowId) : Changes g s (s.forceClose w) :=
  (changes_window_pending s w (fun p => { p with force := true, deadline := none }) (by simp)).next
    ((changes_forceSweep _ w).1.next ((changes_evaluate _ w).next (changes_closeIfEmpty _ w)))

/-- An evaluation does not see the other windows, the targets and the MP. -/
theorem evaluate_with (s : State) (w : WindowId) (windows : Tbl Window 32) (targets : Tbl Target 8) (mgmt : Mgmt)
    (same : windows.get w = s.windows.get w) :
    ({ s with windows := windows, targets := targets, mgmt := mgmt } : State).evaluate w =
      { s.evaluate w with windows := windows, targets := targets, mgmt := mgmt } := by
  have handed : ∀ (l : List (Hold × Half)) (u : State),
      ({ u with windows := windows, targets := targets, mgmt := mgmt } : State).handGrants w l =
        { u.handGrants w l with windows := windows, targets := targets, mgmt := mgmt } := by
    intro l
    induction l with
    | nil => exact fun _ => rfl
    | cons x l ih =>
      exact fun u => ih (u.handResponse x.1.agent acquireCode .granted w (grantedPayload w x.1 x.2))
  simp only [State.evaluate, same]
  split
  · split
    · split <;> rfl
    · exact handed _ (s.updCtx w fun _ =>
        (LeaseCtx.grantHeads s.tb.tick (s.windows.get w) (s.ctxs.get w).waiters (s.ctxs.get w)).1)
  · rfl

/-! ### A target becoming READY -/

theorem nodup_allWindows : allWindows.Nodup := List.nodup_finRange 32

/-- The opening of some windows writes their records and no other. -/
theorem foldl_windowOpened_windows (l : List WindowId) (distinct : l.Nodup) (s : State) (v : WindowId) :
    (l.foldl windowOpened s).windows.get v =
      if v ∈ l then { s.windows.get v with state := .opened } else s.windows.get v := by
  induction l generalizing s with
  | nil => rfl
  | cons w l ih =>
    obtain ⟨fresh, distinct⟩ := List.nodup_cons.mp distinct
    rw [List.foldl_cons, ih distinct, windowOpened_windows]
    by_cases e : w = v
    · subst e; simp [fresh]
    · simp [Tbl.get_set_ne _ e, Ne.symm e]

theorem windowsOpened_windows (s : State) (t : TargetId) :
    (windowsOpened s t).windows =
      s.windows.map fun win =>
        if win.state = .opening ∧ win.target = t then { win with state := .opened } else win := by
  apply Tbl.ext_get
  intro v
  rw [windowsOpened, foldl_windowOpened_windows _ (nodup_allWindows.filter _), Tbl.get_map]
  simp [allWindows]

/-- Only the windows, their contexts, the ports and the MP's hand-off list change when windows open. -/
theorem windowOpened_targets (s : State) (w : WindowId) : (windowOpened s w).targets = s.targets :=
  (congrArg State.targets (evaluate_frame _ w)).trans rfl

theorem foldl_windowOpened_targets (l : List WindowId) (s : State) :
    (l.foldl windowOpened s).targets = s.targets := by
  induction l generalizing s with
  | nil => rfl
  | cons w l ih => rw [List.foldl_cons, ih, windowOpened_targets]

/-- The openings, seen beside the window and target tables that the whole step leaves: an attention item and an
evaluation for each window. -/
theorem changes_foldl_windowOpened (windows : Tbl Window 32) (targets : Tbl Target 8) (l : List WindowId)
    (distinct : l.Nodup) (s : State) (final : ∀ w ∈ l, windows.get w = { s.windows.get w with state := .opened }) :
    Changes g { s with windows := windows, targets := targets }
      { l.foldl windowOpened s with windows := windows, targets := targets } := by
  induction l generalizing s with
  | nil => exact .refl
  | cons w l ih =>
    obtain ⟨fresh, distinct⟩ := List.nodup_cons.mp distinct
    have now : windows.get w = { s.windows.get w with state := .opened } := final w (List.mem_cons_self ..)
    let opened : State :=
      { s with
        windows := s.windows.set w { s.windows.get w with state := .opened }
        mgmt := { s.mgmt with handed := s.mgmt.handed ++ [.openDone w] } }
    have seen : ({ windowOpened s w with windows := windows, targets := targets } : State) =
        ({ opened with windows := windows, targets := targets } : State).evaluate w := by
      have mgmt : (opened.evaluate w).mgmt = opened.mgmt := by rw [evaluate_frame]
      have kept : ({ opened.evaluate w with windows := windows, targets := targets } : State) =
          { opened.evaluate w with windows := windows, targets := targets, mgmt := opened.mgmt } := by rw [← mgmt]
      exact kept.trans (evaluate_with opened w windows targets opened.mgmt (by simp [opened, now])).symm
    have handed := changes_handAttention (g := g) { s with windows := windows, targets := targets } (.openDone w)
    have evaluated := changes_evaluate (g := g) { opened with windows := windows, targets := targets } w
    refine handed.next (evaluated.next ?_)
    rw [← seen, List.foldl_cons]
    refine ih distinct _ fun v hv => ?_
    have other : w ≠ v := fun e => fresh (e ▸ hv)
    rw [windowOpened_windows, Tbl.get_set_ne _ other]
    exact final v (List.mem_cons_of_mem _ hv)

theorem changes_targetReady (s : State) (t : TargetId)
    (state : (s.targets.get t).state = .waking ∨ (s.targets.get t).state = .faulted) :
    Changes g s (s.targetReady t) := by
  let awake := s.updTarget t Target.becomeReady
  let windows := s.windows.map fun win =>
    if win.state = .opening ∧ win.target = t then { win with state := .opened } else win
  let targets := s.targets.set t ((s.targets.get t).becomeReady.startDelay s.tb.tick)
  have first := (Change.ready (gone := g) s t state).one
  have opened := changes_foldl_windowOpened (g := g) windows targets
    (allWindows.filter fun w => (awake.windows.get w).state == .opening && (awake.windows.get w).target == t)
    (nodup_allWindows.filter _) awake (by
      intro w hw
      have : (s.windows.get w).state = .opening ∧ (s.windows.get w).target = t := by
        simpa [awake] using (List.mem_filter.mp hw).2
      simp [windows, awake, this])
  have last : ({ windowsOpened awake t with windows := windows, targets := targets } : State) = s.targetReady t := by
    have w : (windowsOpened awake t).windows = windows := windowsOpened_windows awake t
    have ts : (windowsOpened awake t).targets = awake.targets := foldl_windowOpened_targets _ _
    simp only [State.targetReady, readyReport_eq, ← w]
    change _ = ({ windowsOpened awake t with targets := (windowsOpened awake t).targets.set t _ } : State)
    rw [ts]
    simp [awake, State.updTarget, targets]
  exact first.next (last ▸ opened)

end Sys2Proof.Machine
end

