-- ==== Sys2Proof/Proofs/RequestChanges.lean ====
section
/-! PROOF. The requests of the supervisor and of the agents as sequences of changes: past its checks each is a few of
them, and a refused request changes nothing but an answer. -/

namespace Sys2Proof.Machine

open Sys2Proof.Safety

variable {g : Option Agent} {s t u : State}

/-! ### Supervisor requests -/

theorem changes_configureDevice (refclk : Half) (fill : BitVec 32) (flags : Byte) (s : State) :
    Changes g s (configureDevice refclk fill flags s).state := by
  have written : Changes g s
      (s.updMgmt fun m => { m with fill := fill, lending := flags.getLsbD 0, mask := maskOf flags }.drive) :=
    (Change.mgmt s _ ⟨.inl rfl, .inr rfl⟩).one
  simp only [configureDevice]
  split
  · exact .refl
  split
  · exact .refl
  rename_i ok
  obtain ⟨low, high, -⟩ := Classical.not_not.mp ok
  have timed (u : State) : Changes g u { u with tb := u.tb.setDivisor refclk } :=
    (Change.time u _ (.divisor u.tb refclk low high)).one
  split
  · exact .refl
  split
  · exact written.next ((timed _).next (Change.request _).one)
  · exact written.next (timed _)

theorem changes_startDevice (s : State) : Changes g s (startDevice s).state := by
  simp only [startDevice, replyOnly]
  split
  · exact .refl
  split
  · exact .refl
  · dsimp only
    exact (Change.mgmt s _ ⟨.inr rfl, .inl ⟨rfl, rfl, rfl⟩⟩).one

theorem changes_stopDevice (s : State) : Changes g s (stopDevice s).state := by
  simp only [stopDevice, replyOnly]
  split
  · exact .refl
  split
  · exact .refl
  · rename_i unused
    refine (Change.stop s fun w => ?_).one
    have := mt (anyLive_iff s).mpr unused
    simpa using not_exists.mp this w

theorem changes_takeAttention (s : State) : Changes g s (takeAttention s).state := by
  simp only [takeAttention, replyOnly]
  split
  · exact .refl
  · dsimp only
    exact (Change.mgmt s _ ⟨.inl rfl, .inr rfl⟩).one

theorem changes_target {t : TargetId} {f : Target → Target} (move : (s.targets.get t).Move (f (s.targets.get t))) :
    Changes g s (s.updTarget t f) := (Change.target s t f move).one

theorem changes_configureTarget (target : Byte) (wake park delay : Half) (limit : Byte) (s : State) :
    Changes g s (configureTarget target wake park delay limit s).state := by
  simp only [configureTarget, replyOnly, targetReply]
  split
  · exact .refl
  split
  · exact .refl
  rename_i times
  split
  · exact .refl
  rename_i unused
  have unused := Classical.not_not.mp unused
  have times : timesOk wake park limit = true := by simpa using times
  split
  · dsimp only
    exact changes_target (.configure _ wake park delay limit unused (.inl ‹_›) times)
  · dsimp only
    exact changes_target (.configure _ wake park delay limit unused (.inr ‹_›) times)
  all_goals exact .refl

theorem changes_removeTarget (target : Byte) (s : State) : Changes g s (removeTarget target s).state := by
  simp only [removeTarget, replyOnly, targetReply]
  split
  · exact .refl
  split
  · exact .refl
  rename_i unnamed
  split
  · exact (Change.remove s _ (by simpa using unnamed) ‹_›).one
  all_goals exact .refl

theorem changes_wakeTarget (target : Byte) (s : State) : Changes g s (wakeTarget target s).state := by
  simp only [wakeTarget, replyOnly, targetReply]
  split
  · exact .refl
  split
  case h_3 =>
    dsimp only
    exact changes_target (.wake _ ‹_›)
  case h_4 =>
    dsimp only
    exact changes_target (.wakeLater _ ‹_›)
  all_goals exact .refl

theorem changes_parkTarget (target : Byte) (s : State) : Changes g s (parkTarget target s).state := by
  simp only [parkTarget, replyOnly, targetReply]
  split
  · exact .refl
  split
  · exact .refl
  split
  · exact .refl
  rename_i unused
  have unused := Classical.not_not.mp unused
  split
  · dsimp only
    exact changes_target (.park _ (.inl ‹_›) (.inl unused))
  · dsimp only
    exact changes_target (.park _ (.inr (.inl ‹_›)) (.inl unused))
  · dsimp only
    exact changes_target (.park _ (.inr (.inr ‹_›)) (.inl unused))
  · dsimp only
    exact changes_target (.wakeNever _ ‹_› unused)
  all_goals exact .refl

theorem changes_recoverTarget (target : Byte) (s : State) : Changes g s (recoverTarget target s).state := by
  simp only [recoverTarget, replyOnly, targetReply]
  split
  · exact .refl
  split
  · dsimp only
    exact changes_targetReady s _ (.inr ‹_›)
  · exact .refl

theorem changes_readTarget (target : Byte) (s : State) : Changes g s (readTarget target s).state := by
  simp only [readTarget]
  split <;> exact .refl

theorem defineArgsOk_iff (base : Addr) (k target attrs : Byte) (offset : Addr) (term deadline : Half) :
    defineArgsOk base k target attrs offset term deadline = true ↔
      k.toNat ≤ 10 ∧ base.toNat % windowSize k.toNat = 0 ∧ offset.toNat % windowSize k.toNat = 0 ∧
      (targetOf target).isSome = true ∧ clearFrom attrs 5 = true ∧ term ≠ 0 ∧ deadline ≠ 0 := by
  simp [defineArgsOk, and_assoc]

theorem changes_defineWindow (window : Byte) (base : Addr) (k target attrs : Byte) (offset : Addr) (term : Half)
    (margin : Byte) (deadline : Half) (s : State) :
    Changes g s (defineWindow window base k target attrs offset term margin deadline s).state := by
  simp only [defineWindow, replyOnly]
  split
  · exact .refl
  split
  · exact .refl
  rename_i vacant
  split
  · exact .refl
  rename_i args
  split
  · exact .refl
  split
  · exact .refl
  rename_i below
  split
  · exact .refl
  rename_i apart
  split
  · exact .refl
  rename_i present
  obtain ⟨size, aligned, offsetAligned, -, -, term, deadline⟩ := (defineArgsOk_iff ..).mp (by simpa using args)
  refine (Change.define s _ _ (Classical.not_not.mp vacant) ?_ ?_ ?_ ?_ ?_ ?_ ?_ ?_ ?_ ?_).one
  · rfl
  · rfl
  · exact size
  · exact aligned
  · exact offsetAligned
  · exact term
  · exact deadline
  · exact Nat.not_lt.mp below
  · exact present
  · simpa only [Window.endAddr, Bool.not_eq_true] using apart

theorem amendArgsOk_iff (select attrs : Byte) (term deadline : Half) :
    amendArgsOk select attrs term deadline = true ↔
      clearFrom select 5 = true ∧
      (select.getLsbD 0 = true ∨ select.getLsbD 4 = true → clearFrom attrs 5 = true) ∧
      (select.getLsbD 1 = true → term ≠ 0) ∧ (select.getLsbD 3 = true → deadline ≠ 0) := by
  unfold amendArgsOk
  cases select.getLsbD 0 <;> cases select.getLsbD 1 <;> cases select.getLsbD 3 <;> cases select.getLsbD 4 <;>
    simp [and_assoc]

theorem changes_removeAgent (s : State) (w : WindowId) (a : Agent) : Changes g s (s.removeAgent w a) := by
  unfold State.removeAgent
  split
  · exact changes_endHold_told s w _ _ _ (LeaseCtx.holdOf_agent ‹_›)
  split
  · rename_i x waits
    exact (Change.endWait s w a _ (by rw [waits]; rfl)).one
  · exact .refl

theorem changes_amendWindow (window select attrs : Byte) (term : Half) (margin : Byte) (deadline : Half) (s : State) :
    Changes g s (amendWindow window select attrs term margin deadline s).state := by
  simp only [amendWindow]
  split
  · exact .refl
  rename_i w _
  split
  · exact .refl
  rename_i used
  split
  · exact .refl
  rename_i args
  split
  · exact .refl
  obtain ⟨-, -, newTerm, newDeadline⟩ := (amendArgsOk_iff ..).mp (by simpa using args)
  have quiet : (s.windows.get w).Quiet ((s.windows.get w).amend select attrs term margin deadline) := by
    refine ⟨rfl, rfl, rfl, rfl, rfl, fun old => ?_, fun old => ?_, rfl, id, fun empty => ?_⟩
    · simp only [Window.amend]
      split
      · exact newTerm ‹_›
      · exact old
    · simp only [Window.amend]
      split
      · exact newDeadline ‹_›
      · exact old
    · exact absurd (empty ▸ rfl) used
  have written : Changes g s (s.updWindow w fun _ => (s.windows.get w).amend select attrs term margin deadline) :=
    (Change.window s w _ quiet).one
  split
  · exact written
  · exact written.next
      ((Changes.foldl _ (fun u a => changes_removeAgent u w a) _ _).next (changes_settleWindow _ w))

theorem changes_openNow_claimed (s : State) (w : WindowId) (f : Target → Target)
    (staged : (s.windows.get w).state = .staged)
    (claimed : (s.targets.get (s.windows.get w).target).Claimed (f (s.targets.get (s.windows.get w).target)) .opened) :
    Changes g s ((s.updTarget (s.windows.get w).target f).openNow w) :=
  (Change.claim s w .opened f staged claimed).one.next
    ((changes_handAttention _ (.openDone w)).next (changes_evaluate _ w))

theorem changes_openWindow (window : Byte) (s : State) : Changes g s (openWindow window s).state := by
  simp only [openWindow]
  split
  · exact .refl
  split
  · exact .refl
  split
  · exact .refl
  rename_i w _ staged
  have staged := Classical.not_not.mp staged
  have opens (f : Target → Target) (claimed) : Changes g s _ := (Change.claim s w .opening f staged claimed).one
  split
  · exact .refl
  · rw [State.updTarget_updTarget]
    exact changes_openNow_claimed s w _ staged (.ready _ ‹_›)
  · exact opens _ (.waking _ ‹_›)
  · rw [State.updTarget_updTarget]
    exact opens _ (.parked _ ‹_›)
  · rw [State.updTarget_updTarget]
    exact opens _ (.parking _ ‹_›)
  · exact .refl

/-! ### Closing -/

theorem foldl_handNotice_updWindow (s : State) (w v : WindowId) (f : Window → Window) (hs : List Hold) :
    hs.foldl (fun s h => s.handNotice h.agent (.closing w)) (s.updWindow v f) =
      (hs.foldl (fun s h => s.handNotice h.agent (.closing w)) s).updWindow v f :=
  List.foldl_hom (fun u : State => u.updWindow v f) fun _ _ => rfl

theorem endWaits_updWindow (s : State) (w v : WindowId) (f : Window → Window) (xs : List Wait) (status : Status) :
    (s.updWindow v f).endWaits w xs status = (s.endWaits w xs status).updWindow v f := by
  unfold State.endWaits
  exact List.foldl_hom (fun u : State => u.updWindow v f) fun _ _ => rfl

theorem endHold_updWindow (s : State) (w v : WindowId) (f : Window → Window) (h : Hold) (cause : Cause)
    (reason : Option LostReason) :
    (s.updWindow v f).endHold w h cause reason = (s.endHold w h cause reason).updWindow v f := by
  cases reason with
  | none => rfl
  | some r =>
    simp only [State.endHold]
    split <;> rfl

theorem endHolds_updWindow (s : State) (w v : WindowId) (f : Window → Window) (hs : List Hold) (cause : Cause)
    (reason : Option LostReason) :
    (s.updWindow v f).endHolds w hs cause reason = (s.endHolds w hs cause reason).updWindow v f := by
  unfold State.endHolds
  exact List.foldl_hom (fun u : State => u.updWindow v f) fun u h => endHold_updWindow u w v f h cause reason

theorem upgradeClosed_updWindow (s : State) (w v : WindowId) (f : Window → Window) :
    upgradeClosed (s.updWindow v f) w = (upgradeClosed s w).updWindow v f := by
  simp only [upgradeClosed, State.updWindow_ctxs]
  split <;> rfl

/-- The sweep of a gentle close, in the words of Sys2Proof/Safety.lean. -/
theorem gentleSweep_eq (s : State) (w : WindowId) :
    s.gentleSweep w =
      (s.ctxs.get w).holders.foldl (fun s h => s.handNotice h.agent (.closing w))
        (upgradeClosed (s.endWaits w (s.ctxs.get w).waiters .closed) w) := by
  have ctx := (changes_endWaits (g := none) s w .closed).2
  simp only [State.gentleSweep, upgradeClosed, ctx, LeaseCtx.upgrader, endUpgrade_eq]
  cases List.find? (fun h => h.upgrading) (s.ctxs.get w).holders <;> rfl

theorem upgradeClosed_of_no_holder (s : State) (w : WindowId) (none : (s.ctxs.get w).holders = []) :
    upgradeClosed s w = s := by simp [upgradeClosed, none]

/-- A close of an OPEN window, seen with its sweep before the change of its state, which the sweep does not see. -/
theorem changes_closeOpen (w : WindowId) (force retire : Bool) (s : State)
    (opened : (s.windows.get w).state = .opened) : Changes g s (closeOpen w force retire s).state := by
  have frame : (s.endWaits w (s.ctxs.get w).waiters .closed).windows = s.windows := waitsClosed_windows s w
  have finish (u : State) : Changes g u ((u.evaluate w).closeIfEmpty w) :=
    (changes_evaluate u w).next (changes_closeIfEmpty _ w)
  cases force with
  | false =>
    obtain ⟨ended, ctx⟩ := changes_endWaits (g := g) s w .closed
    have closing := (Change.closing (gone := g) (s.endWaits w (s.ctxs.get w).waiters .closed) w
      ⟨false, retire, some (Deadline.after s.tb.tick (s.windows.get w).closeDeadline.toNat)⟩ (by rw [frame, opened])
      (by rw [ctx]) (by simp)).one
    have told := Changes.foldl (g := g) (fun s (h : Hold) => s.handNotice h.agent (.closing w))
      (fun s h => changes_handNotice s h.agent _) (s.ctxs.get w).holders
    refine ended.next (closing.next ((told _).next ?_))
    rw [foldl_handNotice_updWindow]
    have swept := gentleSweep_eq (s.updWindow w fun win =>
      { win with
        state := .closing
        pending := some ⟨false, retire, some (Deadline.after s.tb.tick (s.windows.get w).closeDeadline.toNat)⟩ }) w
    rw [State.updWindow_ctxs, endWaits_updWindow, upgradeClosed_updWindow, foldl_handNotice_updWindow] at swept
    rw [← swept]
    exact finish _
  | true =>
    obtain ⟨ended, noHold, noWait⟩ := changes_forceSweep (g := g) s w
    have windows : (s.forceSweep w).windows = s.windows := by
      have : ∀ (hs : List Hold) (u : State), (u.endHolds w hs .closed (some .closed)).windows = u.windows := by
        intro hs
        induction hs with
        | nil => exact fun _ => rfl
        | cons h hs ih =>
          intro u
          refine (ih (u.endHold w h .closed (some .closed))).trans ?_
          simp only [State.endHold]
          split <;> rfl
      exact (this _ _).trans frame
    have closing := (Change.closing (gone := g) (s.forceSweep w) w ⟨true, retire, none⟩ (by rw [windows, opened]) noWait
      (by simp)).one
    rw [upgradeClosed_of_no_holder _ _ noHold] at closing
    refine ended.next (closing.next ?_)
    have swept :
        (s.updWindow w fun win =>
          { win with state := .closing, pending := some ⟨true, retire, none⟩ }).forceSweep w =
        (s.forceSweep w).updWindow w fun win =>
          { win with state := .closing, pending := some ⟨true, retire, none⟩ } := by
      simp only [State.forceSweep, State.updWindow_ctxs, endWaits_updWindow, endHolds_updWindow]
    rw [← swept]
    exact finish _

theorem changes_closeOpening (w : WindowId) (retire : Bool) (s : State)
    (opening : (s.windows.get w).state = .opening) : Changes g s (closeOpening w retire s).state := by
  obtain ⟨ended, ctx⟩ := changes_endWaits (g := g) s w .closed
  have windows : (s.endWaits w (s.ctxs.get w).waiters .closed).windows = s.windows := waitsClosed_windows s w
  have vacated : (s.windows.get w).Vacated
      (if retire then Window.empty else { s.windows.get w with state := .staged }) := by
    cases retire
    · exact .inr (.inr ⟨opening, rfl⟩)
    · exact .inl rfl
  have left := (Change.leave (gone := g) (s.endWaits w (s.ctxs.get w).waiters .closed) w _ s.tb.tick
    (.inl ⟨by rw [windows, opening], by rw [ctx]⟩) (windows ▸ vacated)).one
  rw [windows] at left
  refine ended.next (left.next ?_)
  have := changes_evaluate (g := g) (((s.endWaits w (s.ctxs.get w).waiters .closed).updWindow w fun win =>
    if retire then Window.empty else { win with state := .staged }).updTarget (s.windows.get w).target
      fun t => t.leave s.tb.tick) w
  rw [State.updWindow_eq, windows] at this
  rw [State.updWindow_eq]
  simpa only [closeOpening, State.updWindow_eq, windows] using this

theorem changes_setRetire (s : State) (w : WindowId) (retire : Bool) : Changes g s (s.setRetire w retire) :=
  changes_window_pending s w (fun p => { p with retire := p.retire || retire }) fun _ => id

theorem changes_closeLive (w : WindowId) (force retire : Bool) (s : State) :
    Changes g s (closeLive w force retire s).state := by
  unfold closeLive
  split
  · exact .refl
  · exact .refl
  · exact changes_closeOpening w retire s ‹_›
  · exact changes_closeOpen w force retire s ‹_›
  · unfold closeClosing
    split
    · exact (changes_setRetire s w retire).next (changes_forceClose _ w)
    split
    · exact changes_setRetire s w true
    · exact .refl

theorem changes_closeWindow (window flags : Byte) (s : State) : Changes g s (closeWindow window flags s).state := by
  unfold closeWindow
  split
  · exact .refl
  split
  · exact .refl
  · exact changes_closeLive _ _ _ s

theorem changes_retireWindow (window : Byte) (s : State) : Changes g s (retireWindow window s).state := by
  unfold retireWindow
  split
  · exact .refl
  split
  · exact .refl
  · exact (Change.retire s _ ‹_›).one
  all_goals exact changes_closeLive _ _ _ s

theorem changes_readWindow (window : Byte) (s : State) : Changes g s (readWindow window s).state := by
  unfold readWindow
  split <;> exact .refl

/-! ### The supervisor's lease requests -/

theorem changes_readLeases (window : Byte) (s : State) : Changes g s (readLeases window s).state := by
  unfold readLeases
  split <;> exact .refl

theorem changes_revokeLease (window agent : Byte) (s : State) : Changes g s (revokeLease window agent s).state := by
  unfold revokeLease
  split
  · rename_i w a _ _
    split
    · rename_i h held
      exact (changes_endHold_told s w h _ _ (LeaseCtx.holdOf_agent held)).next (changes_settleWindow _ w)
    split
    · rename_i waits
      exact (Change.endWait s w a .revoked (by rw [waits]; rfl)).one.next (changes_settleWindow _ w)
    · exact .refl
  · exact .refl

theorem changes_setQuota (agent quota : Byte) (s : State) : Changes g s (setQuota agent quota s).state := by
  unfold setQuota
  split
  · exact .refl
  split
  · exact .refl
  rename_i range
  split
  · exact .refl
  rename_i fits
  obtain ⟨low, high⟩ := Classical.not_not.mp range
  exact (Change.quota s _ _ low high (Nat.not_lt.mp fits)).one

/-! ### Frames of the management port -/

theorem changes_settle (code : Byte) (bits : Nat) (r : Reply) (h : Changes g s r.state) :
    Changes g s (settle code bits r) :=
  h.next ((changes_postResult _ _ _ _).next (changes_shiftZeros _ _))

theorem changes_onFrame (s : State) (f : State → State) (h : Changes g s (f s)) : Changes g s (s.onFrame f) := by
  unfold State.onFrame
  split
  · exact h
  · exact (Change.mgmt s _ ⟨.inl rfl, .inl ⟨rfl, rfl, rfl⟩⟩).one

theorem changes_carryOut (code : Byte) (n : Nat) (f : State → Reply) (s : State) (h : Changes g s (f s).state) :
    ∃ t, carryOut code n f s = .next t ∧ Changes g s t :=
  ⟨_, rfl, changes_onFrame s _ (changes_settle _ _ _ h)⟩

theorem changes_performRequest (i : Instr) (s : State) (r : Reply) (h : performRequest i s = some r) :
    Changes g s r.state := by
  cases i <;> cases h
  case configureDevice => exact changes_configureDevice ..
  case start => exact changes_startDevice ..
  case stop => exact changes_stopDevice ..
  case takeAttention => exact changes_takeAttention ..
  case configureTarget => exact changes_configureTarget ..
  case removeTarget => exact changes_removeTarget ..
  case wakeTarget => exact changes_wakeTarget ..
  case parkTarget => exact changes_parkTarget ..
  case recoverTarget => exact changes_recoverTarget ..
  case readTarget => exact changes_readTarget ..
  case defineWindow => exact changes_defineWindow ..
  case amendWindow => exact changes_amendWindow ..
  case openWindow => exact changes_openWindow ..
  case closeWindow => exact changes_closeWindow ..
  case retireWindow => exact changes_retireWindow ..
  case readWindow => exact changes_readWindow ..
  case readLeases => exact changes_readLeases ..
  case revokeLease => exact changes_revokeLease ..
  case setQuota => exact changes_setQuota ..
  all_goals exact .refl

theorem changes_executeRequest (code : Byte) (payload : List Byte) (s : State) :
    Changes g s (executeRequest code payload s).state := by
  unfold executeRequest
  split
  · rename_i r h
    obtain ⟨i, -, performed⟩ := Option.bind_eq_some_iff.mp h
    exact changes_performRequest i s r performed
  · exact .refl

theorem changes_fetchFrame (s : State) (clocked : Nat) : Changes g s (s.fetchFrame clocked) := by
  unfold State.fetchFrame
  exact (Change.mgmt s _ ⟨.inl rfl, .inl ⟨rfl, rfl, rfl⟩⟩).one

theorem changes_takeFrame (s : State) (bits : List Bool) : Changes g s (s.takeFrame bits) := by
  unfold State.takeFrame
  split
  · exact changes_shiftZeros s _
  split
  · split
    · exact changes_shiftZeros s _
    · exact (changes_postResult s _ _ _).next (changes_shiftZeros _ _)
    · exact changes_settle _ _ _ (changes_executeRequest _ _ s)
  split
  · exact changes_fetchFrame s _
  · exact changes_shiftZeros s _

/-! ### Agent requests -/

/-- The hold that a token matches is the agent's on its window (R29). -/
theorem holdOf_of_matchToken {s : State} {a : Agent} {t : Token} {w : WindowId} {h : Hold}
    (named : matchToken s a t = some (w, h)) : (s.ctxs.get w).holdOf a = some h := by
  unfold matchToken at named
  split at named
  · cases named
  split at named
  · cases named
  split at named
  · cases named
    assumption
  · cases named

theorem changes_poolRefused (s : State) (a : Agent) (status : Status) : Changes g s (s.poolRefused a status) :=
  (changes_handAttention s _).next (changes_answer _ _ _ _ _)

section

variable {a : Agent} {w : WindowId} (idle : (s.ports.get a).state = .idle)
include idle

theorem changes_settleAcquire (m : Mode) (once : Bool) (waitLimit term : Half)
    (live : (s.windows.get w).state = .opening ∨ (s.windows.get w).state = .opened)
    (fresh : (s.ctxs.get w).without a) (room : s.roomFor a) (run : s.mgmt.running = true) :
    Changes g s (settleAcquire a w m once waitLimit term s) := by
  simp only [settleAcquire]
  split
  · rename_i now
    obtain ⟨opened, -, -, free⟩ : (s.windows.get w).state = .opened ∧ (s.ctxs.get w).waiters = [] ∧
        (s.ctxs.get w).upgrader = none ∧ (s.ctxs.get w).grantable m = true := by
      simpa [LeaseCtx.grantNow, and_assoc] using now
    exact (Change.grant s a w m once (askedTerm term) opened fresh free room).one.next (changes_answer _ _ _ _ _)
  split
  · exact changes_answer s _ _ _ _
  · exact (Change.queue s a w _ rfl live fresh room idle run).one

theorem changes_acquire (window flags : Byte) (waitLimit term : Half) :
    Changes g s (acquire a window flags waitLimit term s) := by
  have answered (status : Status) : Changes g s (s.answer a acquireCode status []) := changes_answer s _ _ _ _
  simp only [acquire]
  split
  · exact answered _
  rename_i run
  split
  · exact answered _
  split
  · exact answered _
  split
  · exact answered _
  rename_i used
  split
  · exact answered _
  rename_i notClosing
  split
  · exact answered _
  split
  · exact answered _
  split
  · exact answered _
  rename_i fresh
  split
  · exact changes_poolRefused s a _
  rename_i entry
  split
  · exact changes_poolRefused s a _
  rename_i quota
  have live : ∀ st : WindowState, ¬(st = .vacant ∨ st = .staged) → ¬st = .closing → st = .opening ∨ st = .opened := by
    intro st; cases st <;> simp
  exact changes_settleAcquire idle _ _ _ _ (live _ used notClosing) (by simpa [LeaseCtx.without] using fresh)
    ⟨Nat.not_le.mp entry, Nat.not_le.mp quota⟩ (by simpa using run)

theorem changes_release (t : Token) : Changes g s (release a t s) := by
  unfold release
  split
  · exact changes_answer s _ _ _ _
  split
  · exact changes_answer s _ _ _ _
  · rename_i w h named
    have held := holdOf_of_matchToken named
    have agent := LeaseCtx.agent_eq_of_holdOf held
    have dropped := Change.endHold (gone := g) s w h .released none (LeaseCtx.holdOf_agent held)
      fun _ => .inr (.inl (agent ▸ idle))
    exact dropped.one.next ((changes_answer _ _ _ _ _).next (changes_settleWindow _ w))

theorem changes_settleUpgrade (h : Hold) (waitLimit : Half) (held : (s.ctxs.get w).holdOf a = some h)
    (long : h.once = false) (shared : h.mode = .shared) (live : (s.windows.get w).state ≠ .closing)
    (run : s.mgmt.running = true) : Changes g s (settleUpgrade a w h waitLimit s) := by
  simp only [settleUpgrade]
  split
  · rename_i alone
    exact (Change.upgrade s a w h held alone idle).one.next (changes_answer _ _ _ _ _)
  split
  · exact changes_answer s _ _ _ _
  split
  · exact changes_answer s _ _ _ _
  · rename_i noRival
    exact (Change.pend s a w h _ held long shared live (by simpa using noRival) idle run).one

theorem changes_upgrade (t : Token) (waitLimit : Half) : Changes g s (upgrade a t waitLimit s) := by
  unfold upgrade
  split
  · exact changes_answer s _ _ _ _
  rename_i run
  split
  · exact changes_answer s _ _ _ _
  rename_i w h named
  split
  · exact changes_answer s _ _ _ _
  rename_i long
  split
  · exact changes_answer s _ _ _ _
  rename_i shared
  split
  · exact changes_answer s _ _ _ _
  rename_i live
  exact changes_settleUpgrade idle h waitLimit (holdOf_of_matchToken named) (by simpa using long)
    (Classical.not_not.mp shared)
    live (by simpa using run)

end

theorem changes_downgrade (a : Agent) (t : Token) (s : State) : Changes g s (downgrade a t s) := by
  unfold downgrade
  split
  · exact changes_answer s _ _ _ _
  split
  · exact changes_answer s _ _ _ _
  split
  · exact changes_answer s _ _ _ _
  · rename_i w h _ _
    exact (Change.hold s w a (fun h => { h with mode := .shared })
        fun _ => ⟨rfl, rfl, rfl, rfl, rfl, .inr rfl⟩).one.next
      ((changes_answer _ _ _ _ _).next (changes_evaluate _ w))

theorem changes_renew (a : Agent) (t : Token) (term : Half) (s : State) : Changes g s (renew a t term s) := by
  simp only [renew]
  split
  · exact changes_answer s _ _ _ _
  split
  · exact changes_answer s _ _ _ _
  split
  · exact changes_answer s _ _ _ _
  · rename_i w h _ _
    exact (Change.hold s w a
        (fun h => h.setTerm s.tb.tick (s.windows.get w) (termUsed (s.windows.get w) (askedTerm term)))
        fun _ => ⟨rfl, rfl, rfl, rfl, rfl, .inl rfl⟩).one.next (changes_answer _ _ _ _ _)

theorem changes_endAbandoned (s : State) (a : Agent) (w : WindowId) (waits : s.waitWindow a = some w) :
    Changes g s (s.endAbandoned a w) := by
  have found : ((s.ctxs.get w).waitOf a).isSome = true ∨
      ((s.ctxs.get w).holders.any fun h => h.agent == a && h.upgrading) = true := by
    simpa only [Bool.or_eq_true] using List.find?_some waits
  unfold State.endAbandoned
  split
  · rename_i waiting
    exact (Change.abandonWait s a w _ _ (by rw [waiting]; rfl)).one
  · rename_i noWait
    have pending := found.resolve_left (by simp [noWait])
    split
    · exact (Change.abandonUpgrade s a w _ _ pending).one
    · exact .refl

theorem changes_abandon (a : Agent) (s : State) : Changes g s (abandon a s) := by
  unfold abandon
  refine (changes_takeResponses s a).next ?_
  unfold settleAbandon
  split
  · exact changes_answer _ _ _ _ _
  split
  · exact changes_answer _ _ _ _ _
  · rename_i w waits
    exact (changes_endAbandoned _ a w waits).next ((changes_answer _ _ _ _ _).next (changes_evaluate _ w))

theorem changes_queryWindow (a : Agent) (window : Byte) (s : State) : Changes g s (queryWindow a window s) := by
  unfold queryWindow
  split <;> exact changes_answer s _ _ _ _

theorem changes_readFault (a : Agent) (s : State) : Changes g s (readFault a s) := by
  simp only [readFault]
  split
  · exact changes_answer s _ _ _ _
  · have emptied : Changes g s (s.updPort a fun p => { p with fault := none }) := changes_port_unseen s a _ fun _ => rfl
    split
    · exact emptied.next (changes_answer _ _ _ _ _)
    · exact emptied.next ((changes_answer _ _ _ _ _).next
        (Change.aside _ s.outcomes s.emptyReports s.transfers (s.free + 1)).one)

section

variable {a : Agent} (up : (s.ports.get a).state ≠ .inReset)
include up

theorem changes_takeNotice : Changes g s (takeNotice a s) := by
  simp only [takeNotice]
  split
  · exact changes_answer s _ _ _ _
  · exact (changes_port_driven s a _ up fun _ => rfl).next (changes_answer _ _ _ _ _)

theorem changes_setNotices (fault lost closing warning reply : Byte) :
    Changes g s (setNotices a fault lost closing warning reply s) := by
  unfold setNotices
  split
  · exact (changes_port_driven s a _ up fun _ => rfl).next (changes_answer _ _ _ _ _)
  · exact changes_answer s _ _ _ _

end

/-! ### Commits and control-aperture cycles -/

theorem changes_dispatch (a : Agent) (r : RequestRecord) (s : State) (idle : (s.ports.get a).state = .idle) :
    Changes g s (dispatch a r s) := by
  have up : (s.ports.get a).state ≠ .inReset := by simp [idle]
  unfold dispatch
  split
  · exact changes_acquire idle ..
  split
  · exact changes_release idle _
  split
  · exact changes_downgrade ..
  split
  · exact changes_upgrade idle ..
  split
  · exact changes_renew ..
  split
  · exact changes_abandon ..
  split
  · exact changes_queryWindow ..
  split
  · exact changes_readFault ..
  split
  · exact changes_takeNotice up
  split
  · exact changes_setNotices up ..
  · exact changes_answer s _ _ _ _

theorem changes_commit (s : State) (a : Agent) : Changes g s (s.commit a) := by
  simp only [State.commit]
  split
  · exact .refl
  split
  · exact .refl
  · split
    · exact (changes_setRefused s a false).next (changes_abandon ..)
    · exact changes_setRefused s a true
  · rename_i idle
    exact (changes_setRefused s a false).next (changes_dispatch _ _ _ (by simpa [State.setRefused] using idle))

theorem changes_commitCycle (s : State) (a : Agent) : Changes g s (s.commitCycle a) := by
  unfold State.commitCycle
  split
  · exact .refl
  · exact (changes_endCycle s a _).next (changes_commit _ a)

theorem changes_request (s : State) (a : Agent) (code : Byte) (bytes : List Byte) :
    Changes g s (s.request a code bytes) := by
  unfold State.request
  split
  · exact .refl
  · exact (changes_writeRequest s a code bytes).next (changes_commitCycle _ a)

/-- A write to the control aperture reaches the request record alone. -/
theorem writeBytes_eq (bs : List Byte) (p : Port) (offset : Nat) :
    p.writeBytes offset bs = { p with request := (p.writeBytes offset bs).request } := by
  induction bs generalizing p offset with
  | nil => rfl
  | cons b bs ih =>
    have byte : p.writeByte offset b = { p with request := (p.writeByte offset b).request } := by
      unfold Port.writeByte
      split
      · rfl
      · split <;> rfl
    rw [Port.writeBytes, ih, byte]

theorem changes_controlCycle (s : State) (a : Agent) (offset : Half) (write : Bool) (size : Nat) (data : List Byte) :
    Changes g s (s.controlCycle a offset write size data) := by
  unfold State.controlCycle
  split
  · exact .refl
  split
  · exact changes_endCycle s a _
  split
  · simp only [State.controlWrite]
    split
    · exact (changes_endCycle s a _).next (changes_commit _ a)
    · refine (changes_endCycle s a _).next (changes_port_unseen _ a _ fun p => ?_)
      split
      · rfl
      · rw [writeBytes_eq]
  · exact changes_endCycle s a _

end Sys2Proof.Machine
end

