-- ==== Sys2Proof/Proofs/StepChanges.lean ====
section
/-! PROOF. The data path, the resets, the Time Base and the hand-offs as sequences of changes, and with them every
command but DEVICE_RESET. -/

namespace Sys2Proof.Machine

open Sys2Proof.Safety

variable {g : Option Agent} {s t u : State}

/-! ### Taking and refusing cycles -/

/-- The Router's records for a port, its slot kept and no admission begun. -/
theorem changes_path_kept (s : State) (a : Agent) (f : Path → Path) (slot : ∀ p, (f p).slot = p.slot)
    (admission : ∀ p, (f p).admission = p.admission ∨ (f p).admission = none) : Changes g s (s.updPath a f) := by
  refine (Change.path s a f ⟨slot _, fun some => .inl ?_⟩).one
  rcases admission (s.router.paths.get a) with e | e <;> rw [e] at some
  · exact some
  · cases some

theorem changes_endAdmission (s : State) (a : Agent) : Changes g s (s.endAdmission a) :=
  changes_path_kept s a _ (fun _ => rfl) fun _ => .inr rfl

theorem changes_refuseCycle (s : State) (a : Agent) (r : Reason) (c : BusCycle) (w : Option WindowId)
    (up : (s.ports.get a).state ≠ .inReset) : Changes g s (s.refuseCycle a r c w) :=
  (changes_endAdmission s a).next (changes_failCycle _ a r c w up)

theorem changes_takeCycle (s : State) (a : Agent) (c : BusCycle) (up : (s.ports.get a).state ≠ .inReset)
    (empty : (s.router.paths.get a).slot = .empty) : Changes g s (s.takeCycle a c) := by
  unfold State.takeCycle
  split
  · exact changes_refuseCycle s a _ c _ up
  split
  · exact changes_refuseCycle s a _ c _ up
  · exact (Change.path s a _ ⟨rfl, fun _ => .inr empty⟩).one

theorem not_inReset_of_not_down {p : Port} (up : ¬p.down = true) : p.state ≠ .inReset :=
  fun e => up (by simp [Port.down, e])

theorem changes_takeHeld (s : State) (a : Agent) : Changes g s (s.takeHeld a) := by
  simp only [State.takeHeld]
  split
  · exact .refl
  split
  · rename_i c _ ready
    obtain ⟨free, up⟩ := ready
    have empty := ((free_iff _).mp free).1
    have left : Changes g s (s.updPath a fun p => { p with held := none }) :=
      changes_path_kept s a _ (fun _ => rfl) fun _ => .inl rfl
    refine left.next (changes_takeCycle _ a c (not_inReset_of_not_down (by simpa using up)) ?_)
    rw [State.updPath_get]
    exact empty
  · exact .refl

theorem changes_refuse (s : State) (a : Agent) (r : Reason) (c : BusCycle) (w : Option WindowId) :
    Changes g s (s.refuse a r c w) := by
  refine Changes.next ?_ (changes_takeHeld _ a)
  split
  · exact changes_endAdmission s a
  · rename_i here
    exact changes_refuseCycle s a r c w fun e => here ((cycleGone_iff s a).mpr (.inl e))

theorem changes_offerCycle (s : State) (a : Agent) (c : BusCycle) : Changes g s (s.offerCycle a c) := by
  simp only [State.offerCycle]
  split
  · exact .refl
  rename_i open_
  split
  · rename_i free
    exact changes_takeCycle s a c (not_inReset_of_not_down (not_or.mp open_).2) ((free_iff _).mp free).1
  · exact changes_path_kept s a _ (fun _ => rfl) fun _ => .inl rfl

/-! ### Completion and the arbiter -/

/-- The completion at the Lease Engine past the in-flight count. -/
theorem changes_leCompletion_counted (s : State) (a : Agent) (w : WindowId) (serial : Serial) (once : Bool) :
    Changes g (s.updCtx w LeaseCtx.complete) (s.leCompletion a w serial once) := by
  refine Changes.next ?_ (changes_settleWindow _ w)
  split
  · rename_i h held
    split
    · rename_i marked
      exact (Change.endHold _ w h .used none (LeaseCtx.holdOf_agent held) fun _ => .inl marked.2.1).one
    · exact .refl
  · exact .refl

theorem reportIfEmpty_ports (s : State) (w : WindowId) : (s.reportIfEmpty w).ports = s.ports := by
  unfold State.reportIfEmpty
  split <;> rfl

theorem settleWindow_port_state (s : State) (w : WindowId) (a : Agent) :
    ((s.settleWindow w).ports.get a).state = (s.ports.get a).state := by
  obtain ⟨more, e⟩ := evaluate_port s w a
  rw [State.settleWindow, reportIfEmpty_ports, e]

theorem leCompletion_port_state (s : State) (a b : Agent) (w : WindowId) (serial : Serial) (once : Bool) :
    ((s.leCompletion a w serial once).ports.get b).state = (s.ports.get b).state := by
  simp only [State.leCompletion]
  rw [settleWindow_port_state]
  split
  · split <;> rfl
  · rfl

theorem changes_finishCycle (s : State) (a : Agent) (x : Access) (outcome : Option Outcome) (beats : Tbl (BitVec 32) 8)
    (up : (s.ports.get a).state ≠ .inReset) : Changes g s (s.finishCycle a x outcome beats) := by
  unfold State.finishCycle
  split
  · exact changes_failCycle s a _ _ _ up
  split
  · exact changes_failCycle s a _ _ _ up
  · exact changes_endCycle s a _

/-- A slot that may complete: ACTIVE with its transfer on the bus, or QUEUED with the arbiter at its turn. -/
def State.completes (s : State) (a : Agent) (x : Access) : Prop :=
  (∃ d, (s.router.paths.get a).slot = .active x d ∧ (s.router.bus = .transfer a ∨ s.router.bus = .releasing a)) ∨
  ((s.router.paths.get a).slot = .queued x ∧ s.router.bus = .ownedIdle)

theorem changes_slot_emptied (s : State) (a : Agent) (x : Access) (h : s.completes a x) :
    Changes g s
      (((s.updRouter Router.afterTransfer).updPath a fun p => { p with slot := .empty, abandoned := false }).updCtx
        x.window LeaseCtx.complete) := by
  rcases h with ⟨d, slot, bus⟩ | ⟨slot, idle⟩
  · exact (Change.complete s a x d bus slot).one
  · have same : s.updRouter Router.afterTransfer = s := by
      simp only [State.updRouter, Router.afterTransfer, idle]
    rw [same]
    exact (Change.drop s a x slot).one

/-- What the agent sees of the end of its cycle, unless the cycle is gone. -/
theorem changes_unless_gone (s : State) (a : Agent) (x : Access) (gone : Bool) (outcome : Option Outcome)
    (beats : Tbl (BitVec 32) 8) (up : gone = false → (s.ports.get a).state ≠ .inReset) :
    Changes g s (if gone = true then s else s.finishCycle a x outcome beats) := by
  cases gone
  · exact changes_finishCycle s a x outcome beats (up rfl)
  · exact .refl

theorem changes_outcomes (s : State) (l : List (TargetId × Outcome)) : Changes g s { s with outcomes := l } :=
  (Change.aside s l s.emptyReports s.transfers s.free).one

theorem changes_reportOutcome (s : State) (t : TargetId) (outcome : Option Outcome) :
    Changes g s
      (match outcome with
       | none => s
       | some o => { s with outcomes := s.outcomes ++ [(t, o)] }) := by
  cases outcome
  · exact .refl
  · exact changes_outcomes s _

theorem changes_complete (s : State) (a : Agent) (x : Access) (discard : Bool) (outcome : Option Outcome)
    (beats : Tbl (BitVec 32) 8) (h : s.completes a x) : Changes g s (s.complete a x discard outcome beats) := by
  let counted := ((s.updRouter Router.afterTransfer).updPath a fun p =>
    { p with slot := .empty, abandoned := false }).leCompletion a x.window x.serial x.once
  have up (here : (discard || s.cycleGone a) = false) : (counted.ports.get a).state ≠ .inReset := by
    rw [leCompletion_port_state]
    intro e
    rw [(cycleGone_iff s a).mpr (.inl e), Bool.or_true] at here
    cases here
  exact (changes_slot_emptied s a x h).next ((changes_leCompletion_counted _ a _ _ _).next
    ((changes_unless_gone counted a x _ outcome beats up).next
      ((changes_reportOutcome _ x.target outcome).next (changes_takeHeld _ a))))

theorem nextQueued_slot {s : State} {a : Agent} {x : Access} (h : s.nextQueued = some (a, x)) :
    (s.router.paths.get a).slot = .queued x := by
  obtain ⟨b, -, found⟩ := List.exists_of_findSome?_eq_some h
  split at found
  · cases found
    assumption
  all_goals cases found

/-- The first QUEUED slot is served by the state of its target. -/
theorem changes_served (next : State → State) (ih : ∀ u, Changes g u (next u)) (s : State) (a : Agent) (x : Access)
    (slot : (s.router.paths.get a).slot = .queued x) (idle : s.router.bus = .ownedIdle) :
    Changes g s
      (match (s.targets.get x.target).state with
       | .faulted => next (s.complete a x false none (Tbl.fill 8 0))
       | .ready => s.startTransfer a x
       | .absent | .parked | .waking | .parking => s) := by
  split
  · exact (changes_complete s a x false none _ (.inr ⟨slot, idle⟩)).next (ih _)
  · exact (Change.start s a x idle slot).one
  all_goals exact .refl

theorem changes_arbitrate (n : Nat) (s : State) : Changes g s (State.arbitrate n s) := by
  induction n generalizing s with
  | zero => exact .refl
  | succ n ih =>
    simp only [State.arbitrate]
    split
    · rename_i idle
      split
      · exact .refl
      · rename_i a x queued
        have slot := nextQueued_slot queued
        have turned : Changes g s (s.updRouter fun r => { r with pointer := a + 1 }) :=
          (Change.turn s (a + 1) s.router.breq).one
        exact turned.next (changes_served _ ih _ a x slot idle)
    · exact .refl

/-! ### Outcome reports -/

theorem changes_takeOutcome (s : State) (t : TargetId) (o : Outcome) : Changes g s (s.takeOutcome t o) := by
  simp only [State.takeOutcome]
  split
  · rename_i ready
    have failed : Changes g s
        (if (s.targets.get t).failures + 1 < 3 then s.updTarget t fun tg => { tg with failures := tg.failures + 1 }
         else
          (s.updTarget t fun tg => { tg.enter .faulted with failures := 3, parkDeadline := none }).handAttention
            (.targetFault t)) := by
      split
      · rename_i few
        exact (Change.target s t _ (.failed _ ready few)).one
      · exact (Change.target s t _ (.faulted _ ready)).one.next (changes_handAttention _ _)
    split
    · exact (Change.target s t _ (.succeeded _ ready)).one
    all_goals exact failed
  · exact .refl

theorem changes_takeOutcomes (s : State) : Changes g s s.takeOutcomes :=
  (changes_outcomes s []).next (Changes.foldl _ (fun s (r : TargetId × Outcome) => changes_takeOutcome s r.1 r.2) _ _)

theorem changes_endTransfer (s : State) (o : Outcome) (beats : Tbl (BitVec 32) 8) (reportFirst : Bool) :
    Changes g s (s.endTransfer o beats reportFirst) := by
  have ended (a : Agent) (bus : s.router.bus = .transfer a ∨ s.router.bus = .releasing a) :
      Changes g s (match (s.router.paths.get a).slot with
        | .empty | .queued _ => s
        | .active x discard =>
          State.arbitrate 4 (if reportFirst then (s.complete a x discard (some o) beats).takeOutcomes
            else s.complete a x discard (some o) beats)) := by
    split
    · exact .refl
    · exact .refl
    · rename_i x d slot
      have completed := changes_complete (g := g) s a x d (some o) beats (.inl ⟨d, slot, bus⟩)
      split
      · exact completed.next ((changes_takeOutcomes _).next (changes_arbitrate 4 _))
      · exact completed.next (changes_arbitrate 4 _)
  unfold State.endTransfer
  split
  · exact .refl
  · exact .refl
  · exact ended _ (.inl ‹_›)
  · exact ended _ (.inr ‹_›)

/-! ### The Router's step at a port reset -/

theorem changes_dropQueued (s : State) (a : Agent) (x : Access) (slot : (s.router.paths.get a).slot = .queued x) :
    Changes g s (s.dropQueued a x) :=
  (Change.drop s a x slot).one.next ((changes_settleWindow _ _).next (changes_takeHeld _ a))

theorem changes_routerFall (s : State) (a : Agent) : Changes g s (s.routerFall a) := by
  simp only [State.routerFall]
  split
  · rename_i d admitted
    exact (Change.path s a _ ⟨rfl, fun _ => .inl (by rw [admitted]; rfl)⟩).one
  split
  · exact .refl
  · exact changes_dropQueued s a _ ‹_›
  · exact (Change.discard s a _ _ ‹_›).one

/-! ### The commands of the data path -/

theorem changes_answerDecode (s : State) (a : Agent) (d : Admission)
    (asked : (s.router.paths.get a).admission = some d) : Changes g s (s.answerDecode a d) := by
  unfold State.answerDecode
  split
  · exact changes_refuse s a _ _ _
  · exact (Change.path s a _ ⟨rfl, fun _ => .inl (by rw [asked]; rfl)⟩).one

theorem changes_answerTarget (s : State) (a : Agent) (d : Admission) (hit : Hit)
    (asked : (s.router.paths.get a).admission = some d) : Changes g s (s.answerTarget a d hit) := by
  unfold State.answerTarget
  split
  · exact changes_refuse s a _ _ _
  · exact (Change.path s a _ ⟨rfl, fun _ => .inl (by rw [asked]; rfl)⟩).one

theorem changes_takeClaim (s : State) (a : Agent) (d : Admission) (hit : Hit)
    (asked : (s.router.paths.get a).admission = some d) : Changes g s (s.takeClaim a d hit) := by
  unfold State.takeClaim
  split
  · exact changes_refuse s a _ _ _
  · rename_i h _
    simp only [State.admitAccess]
    have admitted := (Change.admitted (gone := g) s a
      { window := hit.window, target := hit.target, targetAddr := hit.targetAddr, cycle := d.cycle, serial := h.serial,
        once := h.once } (by rw [asked]; rfl)).one
    split
    · exact admitted.next (changes_dropQueued _ a _ (by rw [State.updPath_get]))
    · exact admitted.next (changes_arbitrate 4 _)

/-! ### The reset of a port -/

/-- The Lease Engine's step on one window, for the agent whose port is reset. -/
theorem changes_releaseLeases (s : State) (a : Agent) (w : WindowId) : Changes (some a) s (s.releaseLeases a w) := by
  unfold State.releaseLeases
  split
  · rename_i h held
    have agent := LeaseCtx.agent_eq_of_holdOf held
    have dropped := Change.endHold (gone := some a) s w h .released none (LeaseCtx.holdOf_agent held)
      fun _ => .inr (.inr (by rw [agent]))
    exact dropped.one.next (changes_settleWindow _ w)
  split
  · rename_i waits
    exact (Change.dropWait s w a (by rw [waits]; rfl) rfl).one.next (changes_settleWindow _ w)
  · exact .refl

/-- The part of the fall of PRSTn beyond the port: its cycle is abandoned and its leases end. -/
theorem changes_abandoned (s : State) (a : Agent) :
    Changes (some a) s
      ((s.updPath a fun p =>
        { p with held := none, abandoned := p.admission.isSome || p.slot != .empty }).leasePortReset a) := by
  have marked : Changes (some a) s
      (s.updPath a fun p => { p with held := none, abandoned := p.admission.isSome || p.slot != .empty }) :=
    changes_path_kept s a _ (fun _ => rfl) fun _ => .inl rfl
  exact marked.next (Changes.foldl _ (fun u w => changes_releaseLeases u a w) _ _)

/-- The port's step for a fall of PRSTn, with PRSTn low. -/
theorem changes_portFall (s : State) (a : Agent) (low : (s.ports.get a).prstn = false) :
    Changes (some a) s (s.portFall a) := by
  have fallen := (Change.fallen s a rfl).one
  have same : (s.updPort a fun p => { p.takeFall with prstn := false }) = s.updPort a Port.takeFall := by
    simp only [State.updPort, Port.takeFall, low]
  rw [same] at fallen
  exact fallen.next (changes_abandoned _ a)

/-! ### Every command -/

/-- The agent whose port a command resets. -/
def resets (i : Instr) : Option Agent :=
  match i with
  | .portReset a | .prstnRise a => some a
  | _ => none

/-- A new fall of PRSTn that the port takes first. -/
theorem changes_newFall (s : State) (a : Agent) :
    Changes (some a) s (((s.updPort a fun p => { p with prstn := false }).updPath a fun q =>
      { q with dropOwed := true, dropStale := false }).portFall a) := by
  have fallen := (Change.fallen s a rfl).one
  have marked := changes_path_kept (g := some a) (s.updPort a fun p => { p.takeFall with prstn := false }) a
    (fun q => { q with dropOwed := true, dropStale := false }) (fun _ => rfl) fun _ => .inl rfl
  have swapped : ((s.updPort a fun p => { p.takeFall with prstn := false }).updPath a fun q =>
        { q with dropOwed := true, dropStale := false }) =
      ((s.updPort a fun p => { p with prstn := false }).updPath a fun q =>
        { q with dropOwed := true, dropStale := false }).updPort a Port.takeFall := by
    simp only [State.updPort, State.updPath, State.updRouter, Tbl.get_set_self, Tbl.set_set]
    rfl
  rw [swapped] at marked
  exact fallen.next (marked.next (changes_abandoned _ a))

theorem changes_execPortReset (s : State) (a : Agent) :
    ∃ t, execPortReset a s = .next t ∧ Changes (some a) s t := by
  refine ⟨_, rfl, ?_⟩
  dsimp only
  split
  · rename_i low
    exact (Change.level s a false (by simpa using low)).one
  split
  · exact changes_newFall s a
  split
  · rename_i low _
    exact changes_portFall s a (by simpa using low)
  · exact .refl

/-- A port that a fall has reached at last. -/
theorem portFall_port (s : State) (a : Agent) :
    ((s.portFall a).ports.get a).prstn = (s.ports.get a).prstn ∧ ((s.portFall a).ports.get a).fallOwed = false := by
  have kept : ∀ (l : List WindowId) (u : State),
      ((l.foldl (fun u w => u.releaseLeases a w) u).ports.get a).prstn = (u.ports.get a).prstn ∧
      ((l.foldl (fun u w => u.releaseLeases a w) u).ports.get a).fallOwed = (u.ports.get a).fallOwed := by
    intro l
    induction l with
    | nil => exact fun _ => ⟨rfl, rfl⟩
    | cons w l ih =>
      intro u
      have settled (v : State) : ((v.settleWindow w).ports.get a).prstn = (v.ports.get a).prstn ∧
          ((v.settleWindow w).ports.get a).fallOwed = (v.ports.get a).fallOwed := by
        obtain ⟨more, e⟩ := evaluate_port v w a
        rw [State.settleWindow, reportIfEmpty_ports, e]
        exact ⟨rfl, rfl⟩
      have one : ((u.releaseLeases a w).ports.get a).prstn = (u.ports.get a).prstn ∧
          ((u.releaseLeases a w).ports.get a).fallOwed = (u.ports.get a).fallOwed := by
        unfold State.releaseLeases
        split
        · exact settled _
        split
        · exact settled _
        · exact ⟨rfl, rfl⟩
      exact ⟨(ih _).1.trans one.1, (ih _).2.trans one.2⟩
  obtain ⟨prstn, owed⟩ := kept allWindows ((s.updPort a Port.takeFall).updPath a fun p =>
    { p with held := none, abandoned := p.admission.isSome || p.slot != .empty })
  rw [State.updPath_ports, State.updPort_get] at prstn owed
  exact ⟨prstn, owed⟩

theorem changes_execPrstnRise (s : State) (a : Agent) :
    ∃ t, execPrstnRise a s = .next t ∧ Changes (some a) s t := by
  refine ⟨_, rfl, ?_⟩
  dsimp only
  split
  · rename_i low
    exact (Change.level s a true (by simpa using low)).one
  split
  · exact .refl
  rename_i low
  have low : (s.ports.get a).prstn = false := by simpa using low
  split
  · obtain ⟨prstn, owed⟩ := portFall_port s a
    exact (changes_portFall s a low).next (Change.risen _ a (prstn.trans low) owed).one
  · rename_i owed
    exact (Change.risen s a low (by simpa using owed)).one

theorem changes_execAccessDrop (s : State) (a : Agent) : ∃ t, execAccessDrop a s = .next t ∧ Changes g s t := by
  refine ⟨_, rfl, ?_⟩
  dsimp only
  split
  · rename_i low
    exact (Change.level s a false (by simpa using low)).one
  split
  · have taken : Changes g s (s.updPath a fun q => { q with dropOwed := false, dropStale := false }) :=
      changes_path_kept s a _ (fun _ => rfl) fun _ => .inl rfl
    split
    · exact taken
    · exact taken.next (changes_routerFall _ a)
  split
  · exact (Change.owe s a ‹_›).one.next (changes_routerFall _ a)
  · exact .refl

theorem changes_execAddressDecode (a : Agent) (q : Question) (s : State) :
    ∃ t, execAddressDecode a q s = .next t ∧ Changes g s t := by
  refine ⟨_, rfl, ?_⟩
  split
  · exact .refl
  · rename_i d asked
    split
    · exact changes_answerDecode s a d asked
    · exact changes_answerTarget s a d _ asked
    all_goals exact .refl

theorem changes_execAdmissionClaim (a : Agent) (s : State) :
    ∃ t, execAdmissionClaim a s = .next t ∧ Changes g s t := by
  refine ⟨_, rfl, ?_⟩
  split
  · exact .refl
  · rename_i d asked
    split
    · exact .refl
    · split
      · exact changes_refuse s a _ _ _
      · exact changes_takeClaim s a d _ asked
    · exact changes_takeClaim s a d _ asked

theorem changes_execOutcomeReport (s : State) : ∃ t, execOutcomeReport s = .next t ∧ Changes g s t := by
  refine ⟨_, rfl, ?_⟩
  split
  · exact .refl
  · exact (changes_outcomes s _).next (changes_takeOutcome _ _ _)

theorem changes_execBusRequest (s : State) : ∃ t, execBusRequest s = .next t ∧ Changes g s t := by
  have high : Changes g s (s.updRouter fun r => { r with breq := true }) := (Change.turn s s.router.pointer true).one
  refine ⟨_, rfl, ?_⟩
  split
  · exact .refl
  · dsimp only
    split
    · exact high.next (Change.request _).one
    · exact high

theorem changes_execWithdrawal (s : State) : ∃ t, execWithdrawal s = .next t ∧ Changes g s t := by
  have low : Changes g s (s.updRouter fun r => { r with breq := false }) := (Change.turn s s.router.pointer false).one
  refine ⟨_, rfl, ?_⟩
  split
  · exact .refl
  · dsimp only
    split
    · split
      · exact low.next ((Change.withdraw _).one.next (changes_arbitrate 4 _))
      · exact low.next (Change.withdraw _).one
    · exact low

theorem changes_execTick (s : State) : ∃ t, execTick s = .next t ∧ Changes g s t := by
  refine ⟨_, rfl, ?_⟩
  split
  · rename_i due
    refine (Change.reach s (s.tb.tick + 1)).one.next (Change.one ?_)
    exact Change.time _ _ (.tick s.tb due.1)
  · exact .refl

theorem changes_execMicrosecondStep (s : State) : ∃ t, execMicrosecondStep s = .next t ∧ Changes g s t := by
  refine ⟨_, rfl, ?_⟩
  split
  · exact .refl
  split
  · rename_i d set more
    refine (Change.aside s s.outcomes s.emptyReports s.transfers (s.free + 1)).one.next
      ((Change.countDown _).one.next (Change.one ?_))
    exact Change.time _ _ (.step s.tb d s.free set more)
  · exact .refl

theorem changes_execExpiry (w : WindowId) (a : Agent) (s : State) :
    ∃ t, execExpiry w a s = .next t ∧ Changes g s t := by
  refine ⟨_, rfl, ?_⟩
  split
  · exact .refl
  split
  · rename_i h held _
    exact (changes_endHold_told s w h _ _ (LeaseCtx.holdOf_agent held)).next (changes_settleWindow _ w)
  · exact .refl

theorem changes_execWarningTime (w : WindowId) (a : Agent) (s : State) :
    ∃ t, execWarningTime w a s = .next t ∧ Changes g s t := by
  refine ⟨_, rfl, ?_⟩
  split
  · exact .refl
  split
  · exact (Change.hold s w a (fun h => { h with warned := true }) fun _ => ⟨rfl, rfl, rfl, rfl, rfl, .inl rfl⟩).one.next
      (changes_handNotice _ a _)
  · exact .refl

theorem changes_execWaitDeadline (w : WindowId) (a : Agent) (s : State) :
    ∃ t, execWaitDeadline w a s = .next t ∧ Changes g s t := by
  refine ⟨_, rfl, ?_⟩
  split
  · rename_i waits
    split
    · exact (Change.endWait s w a .timedOut (by rw [waits]; rfl)).one.next (changes_settleWindow _ w)
    · exact .refl
  split
  · exact .refl
  split
  · rename_i h held due
    exact (Change.endUpgrade s w h .timedOut (List.mem_of_find?_eq_some held) due.1).one.next
      (changes_settleWindow _ w)
  · exact .refl

theorem changes_execCloseDeadline (w : WindowId) (s : State) :
    ∃ t, execCloseDeadline w s = .next t ∧ Changes g s t := by
  refine ⟨_, rfl, ?_⟩
  dsimp only
  split
  · exact changes_forceClose s w
  · exact .refl

theorem changes_execWakeTimeExpiry (t : TargetId) (s : State) :
    ∃ u, execWakeTimeExpiry t s = .next u ∧ Changes g s u := by
  refine ⟨_, rfl, ?_⟩
  split
  · rename_i ended
    exact changes_targetReady s t (.inl ended.1)
  · exact .refl

theorem changes_execParkTimeExpiry (t : TargetId) (s : State) :
    ∃ u, execParkTimeExpiry t s = .next u ∧ Changes g s u := by
  refine ⟨_, rfl, ?_⟩
  split
  · rename_i ended
    exact (Change.target s t _ (.parkEnded _ ended.1)).one
  · exact .refl

theorem isSome_of_isDue {d : Option Deadline} (due : isDue d = true) : d.isSome = true := by
  cases d
  · cases due
  · rfl

theorem changes_execParkDelayExpiry (t : TargetId) (s : State) :
    ∃ u, execParkDelayExpiry t s = .next u ∧ Changes g s u := by
  refine ⟨_, rfl, ?_⟩
  split
  · rename_i due
    exact (Change.target s t _ (.park _ (.inl due.1) (.inr (isSome_of_isDue due.2)))).one
  · exact .refl

theorem changes_execEmptyContextReport (w : WindowId) (s : State) :
    ∃ t, execEmptyContextReport w s = .next t ∧ Changes g s t := by
  refine ⟨_, rfl, ?_⟩
  split
  · exact (Change.aside s s.outcomes (s.emptyReports.erase w) s.transfers s.free).one.next
      (changes_closeIfEmpty _ w)
  · exact .refl

theorem changes_execResponseHandoff (a : Agent) (s : State) :
    ∃ t, execResponseHandoff a s = .next t ∧ Changes g s t := by
  refine ⟨_, rfl, ?_⟩
  split
  · exact .refl
  · exact (Change.take s a _ _ ‹_›).one

theorem changes_takeNotice_port (s : State) (a : Agent) (n : HandedNotice) (l : List HandedNotice → List HandedNotice) :
    Changes g s (s.updPort a fun p => { p with handed := l p.handed }.takeNotice n) := by
  refine (Change.port s a _ ?_).one
  unfold Port.takeNotice
  split
  · exact ⟨rfl, rfl, rfl, rfl, .inl ⟨rfl, rfl, rfl⟩⟩
  · rename_i up
    exact ⟨rfl, rfl, rfl, rfl, .inr ⟨(not_or.mp up).2, rfl⟩⟩

theorem changes_execNoticeHandoff (a : Agent) (k : NoticeKind) (s : State) :
    ∃ t, execNoticeHandoff a k s = .next t ∧ Changes g s t := by
  refine ⟨_, rfl, ?_⟩
  split
  · exact .refl
  · exact changes_takeNotice_port s a _ fun l => l.eraseP fun n => n.item.kind == k

theorem changes_execAttentionHandoff (k : AttnKind) (s : State) :
    ∃ t, execAttentionHandoff k s = .next t ∧ Changes g s t := by
  refine ⟨_, rfl, ?_⟩
  split
  · exact .refl
  · exact (Change.mgmt s _ ⟨.inl rfl, .inr rfl⟩).one

theorem changes_next {x : State} (h : Changes g s x) :
    ∃ t, (Host.Outcome.next x : Host.Outcome State Fault Refusal) = .next t ∧ Changes g s t := ⟨x, rfl, h⟩

theorem changes_unless {b : Bool} {x : State} (h : Changes g s x) : Changes g s (if b = true then x else s) := by
  cases b
  · exact .refl
  · exact h

/-- Every command but DEVICE_RESET ends in a next state, by changes alone. -/
theorem exec_changes (i : Instr) (s : State) (noReset : i ≠ .deviceReset) :
    ∃ t, exec i s = .next t ∧ Changes (resets i) s t := by
  cases i with
  | deviceReset => exact absurd rfl noReset
  | configureDevice => exact changes_carryOut _ _ _ s (changes_configureDevice ..)
  | start => exact changes_carryOut _ _ _ s (changes_startDevice ..)
  | stop => exact changes_carryOut _ _ _ s (changes_stopDevice ..)
  | readDevice => exact changes_carryOut _ _ _ s .refl
  | takeAttention => exact changes_carryOut _ _ _ s (changes_takeAttention ..)
  | configureTarget => exact changes_carryOut _ _ _ s (changes_configureTarget ..)
  | removeTarget => exact changes_carryOut _ _ _ s (changes_removeTarget ..)
  | wakeTarget => exact changes_carryOut _ _ _ s (changes_wakeTarget ..)
  | parkTarget => exact changes_carryOut _ _ _ s (changes_parkTarget ..)
  | recoverTarget => exact changes_carryOut _ _ _ s (changes_recoverTarget ..)
  | readTarget => exact changes_carryOut _ _ _ s (changes_readTarget ..)
  | defineWindow => exact changes_carryOut _ _ _ s (changes_defineWindow ..)
  | amendWindow => exact changes_carryOut _ _ _ s (changes_amendWindow ..)
  | openWindow => exact changes_carryOut _ _ _ s (changes_openWindow ..)
  | closeWindow => exact changes_carryOut _ _ _ s (changes_closeWindow ..)
  | retireWindow => exact changes_carryOut _ _ _ s (changes_retireWindow ..)
  | readWindow => exact changes_carryOut _ _ _ s (changes_readWindow ..)
  | readLeases => exact changes_carryOut _ _ _ s (changes_readLeases ..)
  | revokeLease => exact changes_carryOut _ _ _ s (changes_revokeLease ..)
  | setQuota => exact changes_carryOut _ _ _ s (changes_setQuota ..)
  | readPool => exact changes_carryOut _ _ _ s .refl
  | unknownRequest => exact changes_carryOut _ _ _ s (changes_executeRequest ..)
  | badFrame bits => exact changes_next (changes_onFrame s _ (changes_takeFrame s bits))
  | ignoredFrame bits => exact changes_next (changes_onFrame s _ (changes_takeFrame s bits))
  | fetch n => exact changes_next (changes_onFrame s _ (changes_fetchFrame s n))
  | acquire | release | downgrade | upgrade | renew | abandon | queryWindow | readFault | takeNotice | setNotices
  | unknownCommit => exact changes_next (changes_request s ..)
  | commitRefused a => exact changes_next (changes_commitCycle s a)
  | controlApertureWrite | badControlCycle => exact changes_next (changes_controlCycle s ..)
  | dataCycle a c =>
    refine changes_next ?_
    split
    · exact changes_controlCycle s ..
    · exact changes_offerCycle s a c
  | addressDecode a q => exact changes_execAddressDecode a q s
  | admissionClaim a => exact changes_execAdmissionClaim a s
  | tack | terr => exact changes_next (changes_unless (changes_endTransfer s ..))
  | responseLimit first =>
    refine changes_next ?_
    split
    · exact changes_endTransfer s ..
    · exact .refl
  | outcomeReport => exact changes_execOutcomeReport s
  | accessDrop a => exact changes_execAccessDrop s a
  | portReset a => exact changes_execPortReset s a
  | prstnRise a => exact changes_execPrstnRise s a
  | busRequest => exact changes_execBusRequest s
  | withdrawal => exact changes_execWithdrawal s
  | tick => exact changes_execTick s
  | expiry w a => exact changes_execExpiry w a s
  | warningTime w a => exact changes_execWarningTime w a s
  | waitDeadline w a => exact changes_execWaitDeadline w a s
  | closeDeadline w => exact changes_execCloseDeadline w s
  | wakeTimeExpiry t => exact changes_execWakeTimeExpiry t s
  | parkTimeExpiry t => exact changes_execParkTimeExpiry t s
  | parkDelayExpiry t => exact changes_execParkDelayExpiry t s
  | emptyContextReport w => exact changes_execEmptyContextReport w s
  | responseHandoff a => exact changes_execResponseHandoff a s
  | noticeHandoff a k => exact changes_execNoticeHandoff a k s
  | attentionHandoff k => exact changes_execAttentionHandoff k s
  | microsecondStep => exact changes_execMicrosecondStep s

end Sys2Proof.Machine
end

