-- ==== Sys2Proof/Proofs/PinLaw.lean ====
section
/-! PROOF. Every step keeps the pins on the state (O51), with the way every law is kept: by each change and by a device
reset. -/

namespace Sys2Proof

namespace Tbl

variable {α : Type} {n : Nat}

theorem forall_set {P : α → Prop} {t : Tbl α n} {i : Fin n} {x : α} (new : P x) (old : ∀ j, P (t.get j)) :
    ∀ j, P ((t.set i x).get j) := by
  intro j
  rw [get_set]
  split
  · exact new
  · exact old j

theorem forall_map {β : Type} {P : β → Prop} {f : α → β} {t : Tbl α n} (h : ∀ j, P (f (t.get j))) :
    ∀ j, P ((t.map f).get j) := by
  intro j
  rw [get_map]
  exact h j

end Tbl

namespace Machine

open Sys2Proof.Safety

variable {g : Option Agent} {s t : State}

/-! ### How a law is kept -/

/-- A law that every change keeps, that holds after a device reset and that does not see the queue is kept by every
step. -/
theorem step_keeps {P : State → Prop} (change : ∀ g s t, Change g s t → P s → P t)
    (reset : ∀ (s : State) (resetn : Bool), P (s.deviceReset resetn))
    (queue : ∀ (s : State) (rest : List Instr), P s → P { s with pending := rest }) {s t : State} (h : P s)
    (stepped : step s = .next t) : P t := by
  unfold step at stepped
  split at stepped
  · cases stepped
    exact h
  · rename_i c rest _
    by_cases isReset : c = .deviceReset
    · subst isReset
      cases stepped
      exact reset _ _
    · obtain ⟨u, taken, changes⟩ := exec_changes c { s with pending := rest } isReset
      rw [taken] at stepped
      cases stepped
      clear taken
      induction changes with
      | refl => exact queue s rest h
      | tail _ last ih => exact change _ _ _ last ih

/-! ### The pins, record by record -/

/-- AIRQn follows the notice sets and the configuration (R158). -/
def Port.pinned (p : Port) : Prop := p.airqn = false ↔ ∃ k, (p.config.of k).enable = true ∧ p.notices.has k = true

/-- ATTN follows the attention sets and the mask (R176). -/
def Mgmt.pinned (m : Mgmt) : Prop := m.attn = true ↔ ∃ k, attnEnabled m.mask k = true ∧ attnSet m.attention k = true

/-- TWAKEn follows the target's state (R101). -/
def Target.pinned (x : Target) : Prop := x.twake = true ↔ x.state = .waking ∨ x.state = .ready ∨ x.state = .faulted

/-- BGNT follows the bus state (R139). -/
def Router.pinned (r : Router) : Prop := r.bgnt = true ↔ r.bus = .lent

theorem Port.pinned_of_driven {p : Port} (driven : p.airqn = airqLevel p.config p.notices) : p.pinned := by
  have every : ∀ k, k ∈ noticeKinds := by intro k; cases k <;> decide
  unfold Port.pinned
  rw [driven, airqLevel, Bool.not_eq_false', List.any_eq_true]
  simp only [Bool.and_eq_true, every, true_and]

theorem Port.Quiet.pinned {p q : Port} (quiet : p.Quiet q) (h : p.pinned) : q.pinned := by
  rcases quiet.pin with ⟨airqn, config, notices⟩ | ⟨-, driven⟩
  · unfold Port.pinned
    rw [airqn, config, notices]
    exact h
  · exact Port.pinned_of_driven driven

theorem Port.pinned_postEnding (p : Port) (code : Byte) (status : Status) (w : WindowId) (payload : List Byte) :
    (p.postEnding code status w payload).pinned := Port.pinned_of_driven rfl

theorem Port.pinned_takeResponse {p : Port} (h : p.pinned) (r : HandedResponse) : (p.takeResponse r).pinned := by
  unfold Port.takeResponse
  split
  · exact h
  · exact p.pinned_postEnding ..

theorem Port.pinned_takeResponses {p : Port} (h : p.pinned) : p.takeResponses.pinned := by
  unfold Port.takeResponses
  have all : ∀ (l : List HandedResponse) (q : Port), q.pinned → (l.foldl Port.takeResponse q).pinned := by
    intro l
    induction l with
    | nil => exact fun _ hq => hq
    | cons r l ih => exact fun q hq => ih _ (Port.pinned_takeResponse hq r)
  exact all _ _ h

theorem airqLevel_reset : airqLevel NoticeConfig.reset Notices.empty = true := by decide

theorem Port.pinned_reset (prstn : Bool) : (Port.reset prstn).pinned :=
  Port.pinned_of_driven airqLevel_reset.symm

theorem Mgmt.pinned_of_driven {m : Mgmt} (driven : m.attn = attnLevel m.mask m.attention) : m.pinned := by
  unfold Mgmt.pinned
  rw [driven]
  simp only [attnLevel, Bool.or_eq_true, Bool.and_eq_true]
  constructor
  · rintro (((h | h) | h) | h)
    · exact ⟨.targetFault, h⟩
    · exact ⟨.closeDone, h⟩
    · exact ⟨.openDone, h⟩
    · exact ⟨.poolRefusal, h⟩
  · rintro ⟨k, h⟩
    cases k
    · exact .inl (.inl (.inl h))
    · exact .inl (.inl (.inr h))
    · exact .inl (.inr h)
    · exact .inr h

theorem Mgmt.Quiet.pinned {m n : Mgmt} (quiet : m.Quiet n) (h : m.pinned) : n.pinned := by
  rcases quiet.pin with ⟨attn, mask, attention⟩ | driven
  · unfold Mgmt.pinned
    rw [attn, mask, attention]
    exact h
  · exact Mgmt.pinned_of_driven driven

theorem Target.pinned_of_driven {x : Target} (driven : x.twake = twakeLevel x.state) : x.pinned := by
  unfold Target.pinned
  rw [driven]
  cases x.state <;> simp [twakeLevel]

/-- Target records whose state and wake line are those of a pinned one. -/
theorem Target.pinned_of_eq {x y : Target} (state : y.state = x.state) (twake : y.twake = x.twake) (h : x.pinned) :
    y.pinned := by
  unfold Target.pinned
  rw [state, twake]
  exact h

theorem Target.startDelay_state (x : Target) (now : Tick) :
    (x.startDelay now).state = x.state ∧ (x.startDelay now).twake = x.twake := by
  unfold Target.startDelay
  split <;> exact ⟨rfl, rfl⟩

theorem Target.leave_state (x : Target) (now : Tick) :
    (x.leave now).state = x.state ∧ (x.leave now).twake = x.twake := by
  rw [leave_eq]
  exact ⟨rfl, rfl⟩

theorem Target.Move.pinned {x y : Target} (move : x.Move y) (h : x.pinned) : y.pinned := by
  cases move with
  | parkEnded =>
    unfold Target.parkEnded
    split <;> exact Target.pinned_of_driven rfl
  | wakeLater | wakeNever | succeeded | failed => exact Target.pinned_of_eq rfl rfl h
  | configure | wake | park | faulted => exact Target.pinned_of_driven rfl

theorem Target.Claimed.pinned {x y : Target} {st : WindowState} (claimed : x.Claimed y st) (h : x.pinned) :
    y.pinned := by
  cases claimed with
  | parked => exact Target.pinned_of_driven rfl
  | ready | waking | parking => exact Target.pinned_of_eq rfl rfl h

theorem Router.pinned_request {r : Router} (h : r.pinned) : r.request.pinned := by
  unfold Router.request
  split
  · exact ⟨fun _ => rfl, fun _ => rfl⟩
  · rename_i a running
    have low : ¬r.bgnt = true := fun e => by rw [h.mp e] at running; cases running
    exact ⟨fun e => absurd e low, fun e => nomatch e⟩
  all_goals exact h

theorem Router.pinned_withdraw {r : Router} (h : r.pinned) : r.withdraw.pinned := by
  unfold Router.withdraw
  split
  · rename_i a releasing
    have low : ¬r.bgnt = true := fun e => by rw [h.mp e] at releasing; cases releasing
    exact ⟨fun e => absurd e low, fun e => nomatch e⟩
  · exact ⟨fun e => Bool.noConfusion e, fun e => Bus.noConfusion e⟩
  all_goals exact h

theorem Router.pinned_afterTransfer {r : Router} (h : r.pinned) : r.afterTransfer.pinned := by
  unfold Router.afterTransfer
  split
  · rename_i a running
    have low : ¬r.bgnt = true := fun e => by rw [h.mp e] at running; cases running
    exact ⟨fun e => absurd e low, fun e => nomatch e⟩
  · exact ⟨fun _ => rfl, fun _ => rfl⟩
  all_goals exact h

/-! ### The law -/

/-- The ports' part of the law is kept where one port's record is replaced by a pinned one. -/
theorem pinLaw_port {p : Port} (h : PinLaw s) (a : Agent) (pinned : p.pinned) :
    PinLaw { s with ports := s.ports.set a p } :=
  ⟨Tbl.forall_set (P := Port.pinned) pinned h.1, h.2⟩

theorem pinLaw_target {x : Target} (h : PinLaw s) (i : TargetId) (pinned : x.pinned) :
    PinLaw { s with targets := s.targets.set i x } :=
  ⟨h.1, h.2.1, Tbl.forall_set (P := Target.pinned) pinned h.2.2.1, h.2.2.2⟩

theorem pinLaw_router {r : Router} (h : PinLaw s) (pinned : r.pinned) : PinLaw { s with router := r } :=
  ⟨h.1, h.2.1, h.2.2.1, pinned⟩

theorem pinLaw_targets {ts : Tbl Target 8} (h : PinLaw s) (pinned : ∀ i, (ts.get i).pinned) :
    PinLaw { s with targets := ts } := ⟨h.1, h.2.1, pinned, h.2.2.2⟩

theorem pinLaw_endHold (h : PinLaw s) (w : WindowId) (x : Hold) (cause : Cause) (reason : Option LostReason) :
    PinLaw (s.endHold w x cause reason) := by
  cases reason with
  | none => exact h
  | some r =>
    have told : PinLaw (((s.updCtx w fun c => c.dropHold x cause).freeEntry x.agent).handNotice x.agent (.lost w r)) :=
      pinLaw_port (s := (s.updCtx w fun c => c.dropHold x cause).freeEntry x.agent) h _ (h.1 x.agent)
    simp only [State.endHold]
    split
    · exact pinLaw_port told _ (told.1 x.agent)
    · exact told

theorem Change.keeps_pinLaw (c : Change g s t) (h : PinLaw s) : PinLaw t := by
  have port := h.1
  have target := h.2.2.1
  cases c
  case mgmt quiet => exact ⟨h.1, quiet.pinned h.2.1, h.2.2⟩
  case port a f quiet => exact pinLaw_port h a (quiet.pinned (port a))
  case take a r rest _ =>
    exact pinLaw_port h a (Port.pinned_takeResponse (p := { s.ports.get a with responses := rest }) (port a) r)
  case stop =>
    refine ⟨Tbl.forall_map (P := Port.pinned) fun a => ?_, h.2⟩
    split
    · exact Port.pinned_takeResponses (port a)
    · exact port a
  case fallen a _ => exact pinLaw_port h a (Port.pinned_reset false)
  case risen a _ _ => exact pinLaw_port h a (port a)
  case owe a _ => exact pinLaw_port h a (port a)
  case level a prstn _ => exact pinLaw_port h a (Port.pinned_reset prstn)
  case claim claimed => exact pinLaw_target (s := s) h _ (claimed.pinned (target _))
  case ready i _ =>
    exact pinLaw_target (s := s) h i (Target.pinned_of_driven (by
      rw [(Target.startDelay_state _ _).1, (Target.startDelay_state _ _).2]
      rfl))
  case closing w p _ _ _ =>
    unfold upgradeClosed
    split
    · exact h
    · rename_i x _
      exact pinLaw_port (s := upgradeCleared s w x.agent) h x.agent (port x.agent)
  case leave w win now _ _ =>
    exact pinLaw_target (s := s) h _
      (Target.pinned_of_eq (Target.leave_state _ now).1 (Target.leave_state _ now).2 (target _))
  case target i f move => exact pinLaw_target h i (move.pinned (target i))
  case remove i _ _ => exact pinLaw_target h i (Target.pinned_of_driven rfl)
  case reach now => exact pinLaw_targets (s := s) h (Tbl.forall_map (P := Target.pinned) target)
  case countDown => exact pinLaw_targets (s := s) h (Tbl.forall_map (P := Target.pinned) target)
  case queue a _ _ _ _ _ _ _ _ => exact pinLaw_port (s := s) h a (port a)
  case pend a _ _ _ _ _ _ _ _ _ _ => exact pinLaw_port (s := s) h a (port a)
  case grantHead x _ _ _ _ _ => exact pinLaw_port (s := s) h x.agent (port x.agent)
  case grantUpgrade x _ _ _ => exact pinLaw_port (s := s) h x.agent (port x.agent)
  case endHold w x cause reason _ _ => exact pinLaw_endHold h w x cause reason
  case endWait w a status _ => exact pinLaw_port (s := s) h a (port a)
  case endUpgrade w x status _ _ => exact pinLaw_port (s := s) h x.agent (port x.agent)
  case abandonWait a w code payload _ => exact pinLaw_port (s := s) h a (Port.pinned_postEnding ..)
  case abandonUpgrade a w code payload _ => exact pinLaw_port (s := s) h a (Port.pinned_postEnding ..)
  case request => exact pinLaw_router h (Router.pinned_request h.2.2.2)
  case withdraw => exact pinLaw_router h (Router.pinned_withdraw h.2.2.2)
  case start a x idle _ =>
    have low : ¬s.router.bgnt = true := fun e => by rw [h.2.2.2.mp e] at idle; cases idle
    exact pinLaw_router (s := s) h ⟨fun e => absurd e low, fun e => nomatch e⟩
  case complete => exact pinLaw_router (s := s) h (Router.pinned_afterTransfer h.2.2.2)
  all_goals exact h

theorem pinLaw_resetWith (pins : Pins) (transfers free : Nat) (pending : List Instr) :
    PinLaw (State.resetWith pins transfers free pending) := by
  refine ⟨Tbl.forall_map (P := Port.pinned) fun a => Port.pinned_reset _, ?_, fun i => ?_, ?_⟩
  · exact Mgmt.pinned_of_driven (m := Mgmt.reset pins.msel) (by cases pins.msel <;> decide)
  · simp only [State.resetWith, Tbl.get_fill]
    exact Target.pinned_of_driven rfl
  · exact ⟨fun e => Bool.noConfusion e, fun e => Bus.noConfusion e⟩

/-- Settles O51: each change drives the pin of what it changes, record by record. -/
theorem stepKeepsPinLaw : Obligations.StepKeepsPinLaw := by
  intro s t law stepped
  exact step_keeps (fun _ _ _ => Change.keeps_pinLaw) (fun s _ => pinLaw_resetWith _ _ _ _) (fun _ _ h => h) law stepped

end Machine
end Sys2Proof
end

