-- ==== Sys2Proof/Proofs/TargetLaw.lean ====
section
/-! PROOF. Every step keeps the target records legal (O53). -/

namespace Sys2Proof.Machine

open Sys2Proof.Safety

variable {g : Option Agent} {s t : State}

/-! ### The changes of a target record -/

theorem targetOk_startDelay {x : Target} (ok : targetOk x) (ready : x.state = .ready) (now : Tick) :
    targetOk (x.startDelay now) := by
  unfold Target.startDelay
  split
  · rename_i unused
    simp only [targetOk, ready] at ok ⊢
    simp_all
  · exact ok

theorem targetOk_becomeReady {x : Target} (ok : targetOk x) (state : x.state = .waking ∨ x.state = .faulted) :
    targetOk x.becomeReady := by
  rcases state with state | state <;>
  · simp only [targetOk, state, Target.becomeReady, Target.enter] at ok ⊢
    simp_all

theorem targetOk_startWake {x : Target} (ok : targetOk x) (state : x.state = .parked ∨ x.state = .parking) :
    targetOk x.startWake := by
  rcases state with state | state <;>
  · simp only [targetOk, state, Target.startWake, Target.enter] at ok ⊢
    simp_all

theorem targetOk_leave {x : Target} (ok : targetOk x) (now : Tick) : targetOk (x.leave now) := by
  have unused : targetOk { x with useCount := x.useCount - 1 } := by
    obtain ⟨faulted, few, fresh, waking, parking, delay, later, absent, times⟩ := ok
    refine ⟨faulted, few, fresh, waking, parking, fun some => ?_, later, absent, times⟩
    obtain ⟨ready, zero, long⟩ := delay some
    exact ⟨ready, by simp [zero], long⟩
  simp only [Target.leave]
  split
  · exact targetOk_startDelay unused ‹_› now
  · exact unused

theorem Target.Move.ok {x y : Target} (move : x.Move y) (ok : targetOk x) : targetOk y := by
  cases move with
  | configure wake park delay limit unused state times =>
    obtain ⟨wakeLow, wakeHigh, parkLow, parkHigh, limit⟩ := (timesOk_iff ..).mp times
    rcases state with state | state <;>
    · simp only [targetOk, state, Target.enter] at ok ⊢
      simp_all
  | wake state => exact targetOk_startWake ok (.inl state)
  | wakeLater state | wakeNever state =>
    simp only [targetOk, state] at ok ⊢
    simp_all
  | park state unused =>
    rcases state with state | state | state <;>
    · simp only [targetOk, state, Target.startPark, Target.enter] at ok ⊢
      simp_all
  | parkEnded state =>
    unfold Target.parkEnded
    split
    · exact targetOk_startWake ok (.inr state)
    · simp only [targetOk, state, Target.enter] at ok ⊢
      simp_all
  | succeeded state =>
    simp only [targetOk, state] at ok ⊢
    simp_all
  | failed state few =>
    have notThree : x.failures + 1 ≠ 3 ∧ x.failures + 1 ≤ 3 := by omega
    simp only [targetOk, state] at ok ⊢
    simp_all
  | faulted state =>
    simp only [targetOk, state, Target.enter] at ok ⊢
    simp_all

theorem Target.Claimed.ok {x y : Target} {st : WindowState} (claimed : x.Claimed y st) (ok : targetOk x) :
    targetOk y := by
  cases claimed with
  | ready state | waking state | parking state =>
    simp only [targetOk, state] at ok ⊢
    simp_all
  | parked state =>
    have used : targetOk { x with useCount := x.useCount + 1 } := by
      simp only [targetOk, state] at ok ⊢
      simp_all
    exact targetOk_startWake used (.inl state)

/-! ### The law -/

theorem Change.keeps_targetLaw (c : Change g s t) (law : TargetLaw s) : TargetLaw t := by
  cases c
  case claim claimed => exact Tbl.forall_set (claimed.ok (law _)) law
  case ready i state =>
    exact Tbl.forall_set (targetOk_startDelay (targetOk_becomeReady (law i) state) rfl _) law
  case closing =>
    rw [upgradeClosed_frame]
    exact law
  case leave => exact Tbl.forall_set (targetOk_leave (law _) _) law
  case target i f move => exact Tbl.forall_set (move.ok (law i)) law
  case remove i unnamed parked =>
    refine Tbl.forall_set ?_ law
    have ok := law i
    simp only [targetOk, parked, Target.enter] at ok ⊢
    simp_all
  case reach =>
    refine Tbl.forall_map fun i => ?_
    have ok := law i
    simp only [targetOk, Target.reach, Option.isSome_map] at ok ⊢
    exact ok
  case countDown =>
    refine Tbl.forall_map fun i => ?_
    obtain ⟨faulted, few, fresh, waking, parking, delay, later, absent, times⟩ := law i
    have runs (k : IntervalKind) (j : Option Interval) :
        (∃ n, j = some ⟨k, n⟩) ↔ ∃ n, (j.map fun x => { x with remaining := x.remaining - 1 }) = some ⟨k, n⟩ := by
      cases j with
      | none => simp
      | some x => cases x; simp
    exact ⟨faulted, few, fresh, waking.trans (runs _ _), parking.trans (runs _ _), delay, later, absent, times⟩
  case endHold w x cause reason _ _ =>
    rw [endHold_frame]
    exact law
  all_goals exact law

theorem targetLaw_resetWith (pins : Pins) (transfers free : Nat) (pending : List Instr) :
    TargetLaw (State.resetWith pins transfers free pending) := by
  intro i
  simp [State.resetWith, targetOk, Target.reset]

/-- Settles O53: each change of a target record keeps it legal. -/
theorem stepKeepsTargetLaw : Obligations.StepKeepsTargetLaw := by
  intro s t law stepped
  exact step_keeps (fun _ _ _ => Change.keeps_targetLaw) (fun s _ => targetLaw_resetWith _ _ _ _) (fun _ _ h => h) law
    stepped

end Sys2Proof.Machine
end

