-- ==== Sys2Proof/Proofs/WindowLaw.lean ====
section
/-! PROOF. Every step keeps the window table lawful (O52). -/

namespace Sys2Proof.Machine

open Sys2Proof.Safety

variable {g : Option Agent} {s t : State}

/-! ### One window, and two windows -/

/-- The law of one window, beside the targets that are not ABSENT. -/
structure Window.Lawful (present : TargetId → Prop) (win : Window) : Prop where
  vacant : win.state = .vacant → win = Window.empty
  pending : win.pending.isSome = true ↔ win.state = .closing
  close : win.pendingOk
  used : win.state ≠ .vacant →
    win.k ≤ 10 ∧ win.base.toNat % windowSize win.k = 0 ∧ win.offset.toNat % windowSize win.k = 0 ∧ win.term ≠ 0 ∧
    win.closeDeadline ≠ 0 ∧ win.endAddr ≤ 0xFF0000 ∧ present win.target

/-- Two windows share no address while neither is VACANT (R7). -/
def Window.Apart (v u : Window) : Prop :=
  v.state ≠ .vacant → u.state ≠ .vacant → v.endAddr ≤ u.base.toNat ∨ u.endAddr ≤ v.base.toNat

/-- The target is not ABSENT. -/
def State.present (s : State) (i : TargetId) : Prop := (s.targets.get i).state ≠ .absent

theorem windowLaw_iff (s : State) :
    WindowLaw s ↔ (∀ w, (s.windows.get w).Lawful s.present) ∧
      ∀ w v, w ≠ v → (s.windows.get w).Apart (s.windows.get v) := by
  constructor
  · rintro ⟨vacant, pending, close, used, apart⟩
    exact ⟨fun w => ⟨vacant w, pending w, close w, used w⟩, apart⟩
  · rintro ⟨each, apart⟩
    exact ⟨fun w => (each w).vacant, fun w => (each w).pending, fun w => (each w).close, fun w => (each w).used, apart⟩

theorem Window.Apart.symm {v u : Window} (h : v.Apart u) : u.Apart v := fun hu hv => (h hv hu).symm

/-- A window that keeps its addresses, and is VACANT where it was, stays apart. -/
theorem Window.Apart.of_kept {v v' u : Window} (h : v.Apart u) (base : v'.base = v.base) (k : v'.k = v.k)
    (state : v'.state ≠ .vacant → v.state ≠ .vacant) : v'.Apart u := by
  intro hv hu
  have stop : v'.endAddr = v.endAddr := by rw [Window.endAddr, Window.endAddr, base, k]
  rw [stop, base]
  exact h (state hv) hu

theorem Window.apart_empty (u : Window) : Window.empty.Apart u := fun used => absurd rfl used

theorem Window.lawful_empty (present : TargetId → Prop) : Window.empty.Lawful present where
  vacant := fun _ => rfl
  pending := by decide
  close := fun _ hp => nomatch hp
  used := fun used => absurd rfl used

theorem Window.Quiet.lawful {v u : Window} {present : TargetId → Prop} (quiet : v.Quiet u) (h : v.Lawful present) :
    u.Lawful present where
  vacant := fun vacant => quiet.empty (h.vacant (quiet.state ▸ vacant))
  pending := by rw [quiet.pending, quiet.state]; exact h.pending
  close := quiet.pendingOk h.close
  used := by
    intro used
    obtain ⟨size, base, offset, term, deadline, stop, target⟩ := h.used (quiet.state ▸ used)
    have kept : u.endAddr = v.endAddr := by rw [Window.endAddr, Window.endAddr, quiet.base, quiet.k]
    rw [kept, quiet.base, quiet.k, quiet.offset, quiet.target]
    exact ⟨size, base, offset, quiet.term term, quiet.closeDeadline deadline, stop, target⟩

/-- A window that enters another state but CLOSING, with no pending close. -/
theorem Window.Lawful.enter {v : Window} {present : TargetId → Prop} (h : v.Lawful present) (used : v.state ≠ .vacant)
    {st : WindowState} (named : st ≠ .vacant) (notClosing : st ≠ .closing) :
    ({ v with state := st, pending := none } : Window).Lawful present where
  vacant := fun vacant => absurd vacant named
  pending := ⟨fun some => Bool.noConfusion some, fun closing => absurd closing notClosing⟩
  close := fun _ hp => nomatch hp
  used := fun _ => h.used used

theorem Window.Lawful.pending_none {v : Window} {present : TargetId → Prop} (h : v.Lawful present)
    (notClosing : v.state ≠ .closing) : v.pending = none := by
  have := mt h.pending.mp notClosing
  simpa using this

/-- As above, for a window that has no pending close because it is not CLOSING. -/
theorem Window.Lawful.enter_kept {v : Window} {present : TargetId → Prop} (h : v.Lawful present)
    (used : v.state ≠ .vacant) (old : v.state ≠ .closing) {st : WindowState} (named : st ≠ .vacant)
    (notClosing : st ≠ .closing) : ({ v with state := st } : Window).Lawful present := by
  have same : ({ v with state := st } : Window) = { v with state := st, pending := none } := by
    rw [← h.pending_none old]
  rw [same]
  exact h.enter used named notClosing

theorem Window.Vacated.lawful {v u : Window} {present : TargetId → Prop} (vacated : v.Vacated u)
    (h : v.Lawful present) (used : v.state ≠ .vacant) : u.Lawful present := by
  rcases vacated with rfl | rfl | ⟨opening, rfl⟩
  · exact Window.lawful_empty present
  · exact h.enter used (by decide) (by decide)
  · exact h.enter_kept used (by simp [opening]) (by decide) (by decide)

theorem Window.Vacated.apart {v u x : Window} (vacated : v.Vacated u) (used : v.state ≠ .vacant) (h : v.Apart x) :
    u.Apart x := by
  rcases vacated with rfl | rfl | ⟨-, rfl⟩
  · exact Window.apart_empty x
  · exact h.of_kept rfl rfl fun _ => used
  · exact h.of_kept rfl rfl fun _ => used

/-! ### The law -/

theorem windowLaw_set {win : Window} (law : WindowLaw s) (w : WindowId) (lawful : win.Lawful s.present)
    (apart : ∀ v, w ≠ v → win.Apart (s.windows.get v)) : WindowLaw { s with windows := s.windows.set w win } := by
  obtain ⟨each, others⟩ := (windowLaw_iff s).mp law
  refine (windowLaw_iff _).mpr ⟨Tbl.forall_set lawful each, fun u v ne => ?_⟩
  simp only [Tbl.get_set]
  split
  · rename_i e
    subst e
    rw [if_neg ne]
    exact apart v ne
  · split
    · rename_i e
      subst e
      exact (apart u (Ne.symm ne)).symm
    · exact others u v ne

/-- A window that keeps its addresses. -/
theorem windowLaw_set_kept {win : Window} (law : WindowLaw s) (w : WindowId) (lawful : win.Lawful s.present)
    (base : win.base = (s.windows.get w).base) (k : win.k = (s.windows.get w).k)
    (state : win.state ≠ .vacant → (s.windows.get w).state ≠ .vacant) :
    WindowLaw { s with windows := s.windows.set w win } :=
  windowLaw_set law w lawful fun v ne => (((windowLaw_iff s).mp law).2 w v ne).of_kept base k state

/-- All windows change and keep their addresses. -/
theorem windowLaw_map {f : Window → Window} (law : WindowLaw s)
    (lawful : ∀ w, (f (s.windows.get w)).Lawful s.present) (base : ∀ win, (f win).base = win.base)
    (k : ∀ win, (f win).k = win.k) (state : ∀ win, (f win).state ≠ .vacant → win.state ≠ .vacant) :
    WindowLaw { s with windows := s.windows.map f } := by
  refine (windowLaw_iff _).mpr ⟨Tbl.forall_map lawful, fun w v ne => ?_⟩
  simp only [Tbl.get_map]
  have apart := ((windowLaw_iff s).mp law).2 w v ne
  exact ((apart.of_kept (base _) (k _) (state _)).symm.of_kept (base _) (k _) (state _)).symm

/-- The targets that windows name stay present. -/
theorem windowLaw_targets {ts : Tbl Target 8} (law : WindowLaw s)
    (present : ∀ w, (s.windows.get w).state ≠ .vacant → (s.targets.get (s.windows.get w).target).state ≠ .absent →
      (ts.get (s.windows.get w).target).state ≠ .absent) : WindowLaw { s with targets := ts } := by
  obtain ⟨each, apart⟩ := (windowLaw_iff s).mp law
  refine (windowLaw_iff _).mpr ⟨fun w => ⟨(each w).vacant, (each w).pending, (each w).close, fun used => ?_⟩, apart⟩
  obtain ⟨size, base, offset, term, deadline, stop, target⟩ := (each w).used used
  exact ⟨size, base, offset, term, deadline, stop, present w used target⟩

theorem windowLaw_set_target {x : Target} (law : WindowLaw s) (i : TargetId)
    (present : (s.targets.get i).state ≠ .absent → x.state ≠ .absent) :
    WindowLaw { s with targets := s.targets.set i x } := by
  refine windowLaw_targets law fun w _ old => ?_
  rw [Tbl.get_set]
  split
  · rename_i e
    exact present (e ▸ old)
  · exact old

theorem Target.Move.present {x y : Target} (move : x.Move y) (h : x.state ≠ .absent) : y.state ≠ .absent := by
  cases move with
  | parkEnded =>
    unfold Target.parkEnded
    split <;> exact fun e => TargetState.noConfusion e
  | wakeLater | wakeNever | succeeded | failed => exact h
  | configure | wake | park | faulted => exact fun e => TargetState.noConfusion e

theorem Target.Claimed.entered {x y : Target} {st : WindowState} (claimed : x.Claimed y st) :
    y.state ≠ .absent ∧ st ≠ .vacant ∧ st ≠ .closing := by
  cases claimed with
  | parked => exact ⟨fun e => TargetState.noConfusion e, by decide, by decide⟩
  | ready state | waking state | parking state => exact ⟨by simp [state], by decide, by decide⟩

theorem overlapsAny_eq_false {s : State} {base stop : Nat} (apart : s.overlapsAny base stop = false) (w : WindowId)
    (used : (s.windows.get w).state ≠ .vacant) :
    stop ≤ (s.windows.get w).base.toNat ∨ (s.windows.get w).endAddr ≤ base := by
  have := (List.any_eq_false.mp apart) w (List.mem_finRange w)
  simp only [overlaps, Bool.and_eq_true, bne_iff_ne, decide_eq_true_eq, not_and] at this
  have := this used
  omega

theorem Window.reach_quiet (win : Window) (now : Tick) : win.Quiet (win.reach now) where
  state := rfl
  base := rfl
  k := rfl
  target := rfl
  offset := rfl
  term := id
  closeDeadline := id
  pending := by simp [Window.reach]
  pendingOk := by
    intro ok p hp
    obtain ⟨q, hq, rfl⟩ := Option.map_eq_some_iff.mp hp
    simpa using ok q hq
  empty := by
    rintro rfl
    rfl

theorem Change.keeps_windowLaw (c : Change g s t) (law : WindowLaw s) : WindowLaw t := by
  obtain ⟨each, apart⟩ := (windowLaw_iff s).mp law
  cases c
  case define w win vacant staged closes size base offset term deadline stop target apart =>
    have used : win.state ≠ .vacant := by simp [staged]
    refine windowLaw_set law w ⟨fun e => absurd e used, ?_, ?_, fun _ => ?_⟩ fun v _ _ hv => ?_
    · simp [staged, closes]
    · intro p hp
      rw [closes] at hp
      cases hp
    · exact ⟨size, base, offset, term, deadline, stop, target⟩
    · exact overlapsAny_eq_false apart v hv
  case window w f quiet =>
    exact windowLaw_set_kept law w (quiet.lawful (each w)) quiet.base quiet.k fun h => quiet.state ▸ h
  case retire w _ =>
    exact windowLaw_set law w (Window.lawful_empty _) fun v _ => Window.apart_empty _
  case claim w st f staged claimed =>
    obtain ⟨present, named, notClosing⟩ := claimed.entered
    have used : (s.windows.get w).state ≠ .vacant := by simp [staged]
    have claimedLaw : WindowLaw (s.updTarget (s.windows.get w).target f) :=
      windowLaw_set_target law _ fun _ => present
    exact windowLaw_set_kept claimedLaw w
      ((((windowLaw_iff _).mp claimedLaw).1 w).enter_kept used (by simp [staged]) named notClosing) rfl rfl
        fun _ => used
  case ready i state =>
    have opened : WindowLaw { s with windows := s.windows.map fun win =>
        if win.state = .opening ∧ win.target = i then { win with state := .opened } else win } := by
      refine windowLaw_map law (fun w => ?_) (fun win => ?_) (fun win => ?_) fun win => ?_
      · split
        · rename_i h
          exact (each w).enter_kept (by simp [h.1]) (by simp [h.1]) (by decide) (by decide)
        · exact each w
      · split <;> rfl
      · split <;> rfl
      · split
        · rename_i h
          exact fun _ => by simp [h.1]
        · exact id
    exact windowLaw_set_target opened i fun _ => by
      rw [(Target.startDelay_state _ _).1]
      exact fun e => TargetState.noConfusion e
  case closing w p opened waits gentle =>
    have used : (s.windows.get w).state ≠ .vacant := by simp [opened]
    have closes : ({ s.windows.get w with state := .closing, pending := some p } : Window).Lawful s.present := by
      refine ⟨fun e => WindowState.noConfusion e, ⟨fun _ => rfl, fun _ => rfl⟩, ?_, fun _ => (each w).used used⟩
      rintro q ⟨⟩
      exact gentle
    rw [upgradeClosed_frame]
    exact windowLaw_set_kept law w closes rfl rfl fun _ => used
  case leave w win now ended vacated =>
    have used : (s.windows.get w).state ≠ .vacant := by
      rcases ended with ⟨h, -⟩ | ⟨h, -⟩ <;> simp [h]
    have left : WindowLaw (s.updWindow w fun _ => win) :=
      windowLaw_set law w (vacated.lawful (each w) used) fun v ne => vacated.apart used (apart w v ne)
    exact windowLaw_set_target left _ fun h => by
      rw [(Target.leave_state _ _).1]
      exact h
  case target i f move => exact windowLaw_set_target law i move.present
  case remove i unnamed _ =>
    refine windowLaw_targets law fun w used old => ?_
    have other : i ≠ (s.windows.get w).target := by
      intro e
      exact (naming_ne_zero_iff s i).mpr ⟨w, used, e.symm⟩ unnamed
    rw [Tbl.get_set_ne _ other]
    exact old
  case reach now =>
    have windows : WindowLaw { s with windows := s.windows.map (Window.reach now) } :=
      windowLaw_map law (fun w => ((s.windows.get w).reach_quiet now).lawful (each w)) (fun _ => rfl) (fun _ => rfl)
        fun _ => id
    exact windowLaw_targets windows fun w _ old => by
      rw [Tbl.get_map]
      exact old
  case countDown =>
    exact windowLaw_targets law fun w _ old => by
      rw [Tbl.get_map]
      exact old
  case endHold w x cause reason _ _ =>
    rw [endHold_frame]
    exact law
  all_goals exact law

theorem windowLaw_resetWith (pins : Pins) (transfers free : Nat) (pending : List Instr) :
    WindowLaw (State.resetWith pins transfers free pending) := by
  have empty (w : WindowId) : (State.resetWith pins transfers free pending).windows.get w = Window.empty := by
    simp [State.resetWith]
  refine (windowLaw_iff _).mpr ⟨fun w => ?_, fun w v _ => ?_⟩
  · rw [empty]
    exact Window.lawful_empty _
  · rw [empty]
    exact Window.apart_empty _

/-- Settles O52: each change of a window or of a target keeps every window lawful and apart from the others. -/
theorem stepKeepsWindowLaw : Obligations.StepKeepsWindowLaw := by
  intro s t law stepped
  exact step_keeps (fun _ _ _ => Change.keeps_windowLaw) (fun s _ => windowLaw_resetWith _ _ _ _) (fun _ _ h => h) law
    stepped

end Sys2Proof.Machine
end

