-- ==== Sys2Proof/Proofs/UseLaw.lean ====
section
/-! PROOF. Every step keeps the use counts and the target states that windows need (O54). -/

namespace Sys2Proof.Machine

open Sys2Proof.Safety

variable {g : Option Agent} {s t : State}

/-! ### Sums over the windows -/

/-- A sum over different indices, of which one summand changes. -/
theorem sum_map_of_eq_off {ι : Type} [DecidableEq ι] {F G : ι → Nat} {w : ι} :
    ∀ {l : List ι}, l.Nodup → w ∈ l → (∀ v, v ≠ w → F v = G v) → (l.map F).sum + G w = (l.map G).sum + F w
  | v :: l, distinct, mem, same => by
    obtain ⟨fresh, distinct⟩ := List.nodup_cons.mp distinct
    simp only [List.map_cons, List.sum_cons]
    by_cases e : v = w
    · subst e
      have rest : l.map F = l.map G := List.map_congr_left fun u hu => same u fun e => fresh (e ▸ hu)
      rw [rest]
      omega
    · have := sum_map_of_eq_off distinct ((List.mem_cons.mp mem).resolve_left (Ne.symm e)) same
      rw [same v e]
      omega

/-- A sum over all windows, of which one record is replaced. -/
theorem sum_allWindows_set {α : Type} (f : α → Nat) (tbl : Tbl α 32) (w : WindowId) (x : α) :
    (allWindows.map fun v => f ((tbl.set w x).get v)).sum + f (tbl.get w) =
      (allWindows.map fun v => f (tbl.get v)).sum + f x := by
  have := sum_map_of_eq_off (F := fun v => f ((tbl.set w x).get v)) (G := fun v => f (tbl.get v)) nodup_allWindows
    (List.mem_finRange w) fun v ne => by rw [Tbl.get_set_ne _ (Ne.symm ne)]
  simpa using this

theorem countP_eq_sum {ι : Type} (p : ι → Bool) (l : List ι) : l.countP p = (l.map fun i => bit (p i)).sum := by
  induction l with
  | nil => rfl
  | cons i l ih =>
    rw [List.countP_cons, List.map_cons, List.sum_cons, ih, bit]
    omega

/-- How many windows are as described, of which one record is replaced. -/
theorem countP_allWindows_set {α : Type} (p : α → Bool) (tbl : Tbl α 32) (w : WindowId) (x : α) :
    (allWindows.countP fun v => p ((tbl.set w x).get v)) + bit (p (tbl.get w)) =
      (allWindows.countP fun v => p (tbl.get v)) + bit (p x) := by
  rw [countP_eq_sum, countP_eq_sum]
  exact sum_allWindows_set (fun y => bit (p y)) tbl w x

/-! ### Windows and their targets -/

/-- The window uses the target: it names it, and is OPENING, OPEN or CLOSING (R4). -/
def Window.uses (win : Window) (i : TargetId) : Bool := win.state.live && win.target == i

/-- The target's state is one that the window's needs (R82). -/
def Window.Suits (win : Window) (x : Target) : Prop :=
  (win.state = .opening → x.state = .waking ∨ x.state = .parking) ∧
  (win.state = .opened ∨ win.state = .closing → x.state = .ready ∨ x.state = .faulted)

/-- A used target that is PARKING is to be woken (R82). -/
def Target.Awaited (x : Target) : Prop := x.state = .parking → x.useCount ≠ 0 → x.wakePending = true

theorem useLaw_iff (s : State) :
    UseLaw s ↔ (∀ i, (s.targets.get i).useCount = allWindows.countP fun w => (s.windows.get w).uses i) ∧
      (∀ w, (s.windows.get w).Suits (s.targets.get (s.windows.get w).target)) ∧
      ∀ i, (s.targets.get i).Awaited := by
  constructor
  · rintro ⟨counts, opening, opened, awaited⟩
    exact ⟨counts, fun w => ⟨opening w, opened w⟩, awaited⟩
  · rintro ⟨counts, suits, awaited⟩
    exact ⟨counts, fun w => (suits w).1, fun w => (suits w).2, awaited⟩

theorem Window.suits_of_not_live {win : Window} (h : win.state.live = false) (x : Target) : win.Suits x := by
  constructor
  · intro e
    rw [e] at h
    cases h
  · rintro (e | e) <;> rw [e] at h <;> cases h

theorem Window.Suits.of_state {win : Window} {x y : Target} (h : win.Suits x) (state : y.state = x.state) :
    win.Suits y := by
  unfold Window.Suits
  rw [state]
  exact h

/-- No window that is OPENING, OPEN or CLOSING suits a target in another state. -/
theorem Window.Suits.not_live {win : Window} {x : Target} (h : win.Suits x)
    (state : x.state = .parked ∨ x.state = .absent) : win.state.live = false := by
  obtain ⟨opening, opened⟩ := h
  rcases state with state | state <;>
  · cases e : win.state <;> simp_all [WindowState.live]

/-- Nothing uses a target whose use count is 0. -/
theorem not_live_of_unused (law : UseLaw s) {i : TargetId} (unused : (s.targets.get i).useCount = 0) (w : WindowId)
    (named : (s.windows.get w).target = i) : (s.windows.get w).state.live = false := by
  have counts := ((useLaw_iff s).mp law).1 i
  rw [unused, eq_comm, List.countP_eq_zero] at counts
  have := counts w (List.mem_finRange w)
  simpa [Window.uses, named] using this

/-- A window and the target it names change together. -/
theorem useLaw_replace {win : Window} {x : Target} (law : UseLaw s) (w : WindowId) (i : TargetId)
    (named : (s.windows.get w).target = i ∨ (s.windows.get w).state.live = false)
    (count : x.useCount + bit (s.windows.get w).state.live = (s.targets.get i).useCount + bit win.state.live)
    (names : win.state.live = true → win.target = i) (suits : win.Suits x)
    (others : ∀ v, w ≠ v → (s.windows.get v).target = i → (s.windows.get v).Suits x) (awaited : x.Awaited) :
    UseLaw { s with windows := s.windows.set w win, targets := s.targets.set i x } := by
  obtain ⟨counts, allSuit, allAwaited⟩ := (useLaw_iff s).mp law
  refine (useLaw_iff _).mpr ⟨fun j => ?_, fun v => ?_, Tbl.forall_set awaited allAwaited⟩
  · have sums := countP_allWindows_set (Window.uses · j) s.windows w win
    have old := counts j
    by_cases e : i = j
    · subst e
      have hold : bit ((s.windows.get w).uses i) = bit (s.windows.get w).state.live := by
        rcases named with h | h <;> simp [Window.uses, h]
      have hnew : bit (win.uses i) = bit win.state.live := by
        cases live : win.state.live
        · simp [Window.uses, live]
        · simp [Window.uses, live, names live]
      simp only [Tbl.get_set_self]
      omega
    · have hold : bit ((s.windows.get w).uses j) = 0 := by
        rcases named with h | h <;> simp [Window.uses, h, e, bit]
      have hnew : bit (win.uses j) = 0 := by
        cases live : win.state.live
        · simp [Window.uses, live, bit]
        · simp [Window.uses, names live, e, bit]
      simp only [Tbl.get_set_ne _ e]
      omega
  · simp only [Tbl.get_set]
    split
    · cases live : win.state.live
      · exact Window.suits_of_not_live live _
      · rw [if_pos (names live).symm]
        exact suits
    · rename_i ne
      split
      · rename_i e
        exact others v ne e.symm
      · exact allSuit v

/-- A window changes that stays out of use, or stays in use of its target. -/
theorem useLaw_set_window {win : Window} (law : UseLaw s) (w : WindowId)
    (live : win.state.live = (s.windows.get w).state.live)
    (names : win.state.live = true → win.target = (s.windows.get w).target)
    (suits : win.Suits (s.targets.get (s.windows.get w).target)) :
    UseLaw { s with windows := s.windows.set w win } := by
  obtain ⟨-, allSuit, allAwaited⟩ := (useLaw_iff s).mp law
  have := useLaw_replace law w _ (.inl rfl) (by rw [live]) names suits
    (fun v _ e => e ▸ allSuit v) (allAwaited _)
  rwa [Tbl.set_get] at this

/-- A target changes that stays in use as it is. -/
theorem useLaw_set_target {x : Target} (law : UseLaw s) (i : TargetId)
    (count : x.useCount = (s.targets.get i).useCount)
    (suits : ∀ w, (s.windows.get w).target = i → (s.windows.get w).Suits x) (awaited : x.Awaited) :
    UseLaw { s with targets := s.targets.set i x } := by
  obtain ⟨counts, allSuit, allAwaited⟩ := (useLaw_iff s).mp law
  refine (useLaw_iff _).mpr ⟨fun j => ?_, fun w => ?_, Tbl.forall_set awaited allAwaited⟩
  · refine Eq.trans ?_ (counts j)
    rw [Tbl.get_set]
    split
    · rename_i e
      rw [← e, count]
    · rfl
  · rw [Tbl.get_set]
    split
    · rename_i e
      exact suits w e.symm
    · exact allSuit w

/-! ### The changes of targets and windows -/

theorem Target.Move.useCount {x y : Target} (move : x.Move y) : y.useCount = x.useCount := by
  cases move with
  | parkEnded =>
    unfold Target.parkEnded
    split <;> rfl
  | _ => rfl

theorem Target.Move.awaited {x y : Target} (move : x.Move y) (ok : targetOk x) (h : x.Awaited) : y.Awaited := by
  cases move with
  | configure | wake | faulted => exact fun e => TargetState.noConfusion e
  | wakeLater => exact fun _ _ => rfl
  | wakeNever _ unused => exact fun _ used => absurd unused used
  | park state unused =>
    intro _ used
    refine absurd ?_ used
    rcases unused with unused | deadline
    · exact unused
    · obtain ⟨-, -, -, -, -, delay, -⟩ := ok
      exact (delay deadline).2.1
  | parkEnded =>
    unfold Target.parkEnded
    split <;> exact fun e => TargetState.noConfusion e
  | succeeded | failed => exact h

theorem Target.Move.suits {x y : Target} (move : x.Move y) (ok : targetOk x) (awaited : x.Awaited) {win : Window}
    (h : win.Suits x) (unused : x.useCount = 0 → win.state.live = false) : win.Suits y := by
  cases move with
  | configure _ _ _ _ zero => exact Window.suits_of_not_live (unused zero) _
  | wake state => exact Window.suits_of_not_live (h.not_live (.inl state)) _
  | wakeLater | wakeNever | succeeded | failed => exact h
  | park state zero =>
    refine Window.suits_of_not_live (unused ?_) _
    rcases zero with zero | deadline
    · exact zero
    · obtain ⟨-, -, -, -, -, delay, -⟩ := ok
      exact (delay deadline).2.1
  | parkEnded state =>
    have notUsed (e : win.state = .opened ∨ win.state = .closing) : False := by
      have := h.2 e
      simp [state] at this
    unfold Target.parkEnded
    split
    · exact ⟨fun _ => .inl rfl, fun e => (notUsed e).elim⟩
    · rename_i late
      refine Window.suits_of_not_live (unused ?_) _
      refine Classical.byContradiction fun used => ?_
      exact late (awaited state used)
  | faulted state =>
    refine ⟨fun e => ?_, fun _ => .inr rfl⟩
    have := h.1 e
    simp [state] at this

/-- OPEN WINDOW: the target suits the window it takes and the others it has. -/
theorem Target.Claimed.used {x y : Target} {st : WindowState} (claimed : x.Claimed y st) :
    y.useCount = x.useCount + 1 ∧ st.live = true ∧ y.Awaited ∧
    (∀ win : Window, win.state = st → win.Suits y) ∧ ∀ win : Window, win.Suits x → win.Suits y := by
  cases claimed with
  | ready state =>
    refine ⟨rfl, rfl, fun e => ?_, fun win e => ⟨fun e' => ?_, fun _ => .inl state⟩, fun _ h => h⟩
    · exact absurd (state.symm.trans e) (by decide)
    · exact absurd (e.symm.trans e') (by decide)
  | waking state =>
    refine ⟨rfl, rfl, fun e => ?_, fun win e => ⟨fun _ => .inl state, fun e' => ?_⟩, fun _ h => h⟩
    · exact absurd (state.symm.trans e) (by decide)
    · simp [e] at e'
  | parked state =>
    refine ⟨rfl, rfl, fun e => TargetState.noConfusion e, fun win e => ⟨fun _ => .inl rfl, fun e' => ?_⟩,
      fun win h => ?_⟩
    · simp [e] at e'
    · exact Window.suits_of_not_live (h.not_live (.inl state)) _
  | parking state =>
    refine ⟨rfl, rfl, fun _ _ => rfl, fun win e => ⟨fun _ => .inr state, fun e' => ?_⟩, fun _ h => h⟩
    simp [e] at e'

theorem Target.leave_used (x : Target) (now : Tick) :
    (x.leave now).state = x.state ∧ (x.leave now).useCount = x.useCount - 1 ∧
      (x.leave now).wakePending = x.wakePending := by
  rw [leave_eq]
  exact ⟨rfl, rfl, rfl⟩

theorem Target.startDelay_used (x : Target) (now : Tick) :
    (x.startDelay now).state = x.state ∧ (x.startDelay now).useCount = x.useCount := by
  rw [startDelay_eq]
  exact ⟨rfl, rfl⟩

theorem Window.Vacated.not_live {v u : Window} (vacated : v.Vacated u) : u.state.live = false := by
  rcases vacated with rfl | rfl | ⟨-, rfl⟩ <;> rfl

/-! ### The law -/

/-- The openings of a target that becomes READY. -/
theorem useLaw_ready {x : Target} (law : UseLaw s) (i : TargetId)
    (ready : x.state = .ready) (count : x.useCount = (s.targets.get i).useCount) :
    UseLaw { s with
      targets := s.targets.set i x
      windows := s.windows.map fun win =>
        if win.state = .opening ∧ win.target = i then { win with state := .opened } else win } := by
  obtain ⟨counts, allSuit, allAwaited⟩ := (useLaw_iff s).mp law
  have awaited : x.Awaited := fun e => absurd (ready.symm.trans e) (by decide)
  refine (useLaw_iff _).mpr ⟨fun j => ?_, fun w => ?_, Tbl.forall_set awaited allAwaited⟩
  · have same (w : WindowId) : ((s.windows.map fun win =>
        if win.state = .opening ∧ win.target = i then { win with state := .opened } else win).get w).uses j =
          (s.windows.get w).uses j := by
      rw [Tbl.get_map]
      split
      · rename_i h
        simp [Window.uses, h.1, WindowState.live]
      · rfl
    simp only [same, ← counts j, Tbl.get_set]
    split
    · rename_i e
      rw [← e, count]
    · rfl
  · simp only [Tbl.get_map]
    split
    · rename_i h
      simp only [h.2, Tbl.get_set_self]
      exact ⟨fun e => WindowState.noConfusion e, fun _ => .inl ready⟩
    · rename_i h
      rw [Tbl.get_set]
      split
      · rename_i e
        refine ⟨fun opening => absurd ⟨opening, e.symm⟩ h, fun _ => .inl ready⟩
      · exact allSuit w

theorem Change.keeps_useLaw (c : Change g s t) (targets : TargetLaw s) (law : UseLaw s) : UseLaw t := by
  obtain ⟨counts, allSuit, allAwaited⟩ := (useLaw_iff s).mp law
  cases c
  case define w win vacant staged _ _ _ _ _ _ _ _ _ =>
    have out : win.state.live = false := by rw [staged]; rfl
    exact useLaw_set_window law w (by rw [out, vacant]; rfl) (fun e => by rw [out] at e; cases e)
      (Window.suits_of_not_live out _)
  case window w f quiet =>
    refine useLaw_set_window law w (by rw [quiet.state]) (fun _ => quiet.target) ?_
    unfold Window.Suits
    rw [quiet.state]
    exact allSuit w
  case retire w staged =>
    exact useLaw_set_window law w (by rw [staged]; rfl) (fun e => Bool.noConfusion e) (Window.suits_of_not_live rfl _)
  case claim w st f staged claimed =>
    obtain ⟨count, live, awaited, suits, others⟩ := claimed.used
    have old : (s.windows.get w).state.live = false := by rw [staged]; rfl
    exact useLaw_replace law w _ (.inl rfl) (by rw [count, old, live]; rfl) (fun _ => rfl) (suits _ rfl)
      (fun v _ e => others _ (e ▸ allSuit v)) awaited
  case ready i _ =>
    have delayed := Target.startDelay_used (s.targets.get i).becomeReady s.tb.tick
    exact useLaw_ready law i delayed.1 delayed.2
  case closing w p opened waits gentle =>
    rw [upgradeClosed_frame]
    refine useLaw_set_window law w (by rw [opened]; rfl) (fun _ => rfl)
      ⟨fun e => WindowState.noConfusion e, fun _ => ?_⟩
    exact (allSuit w).2 (.inl opened)
  case leave w win now ended vacated =>
    obtain ⟨state, count, pending⟩ := Target.leave_used (s.targets.get (s.windows.get w).target) now
    have live : (s.windows.get w).state.live = true := by
      rcases ended with ⟨h, -⟩ | ⟨h, -⟩ <;> rw [h] <;> rfl
    have some : 1 ≤ (s.targets.get (s.windows.get w).target).useCount := by
      rw [counts]
      exact List.countP_pos_iff.mpr ⟨w, List.mem_finRange w, by simp [Window.uses, live]⟩
    have sum : ((s.targets.get (s.windows.get w).target).leave now).useCount + bit (s.windows.get w).state.live =
        (s.targets.get (s.windows.get w).target).useCount + bit win.state.live := by
      simp only [count, live, vacated.not_live, bit, if_true, Bool.false_eq_true, if_false]
      omega
    have awaited : ((s.targets.get (s.windows.get w).target).leave now).Awaited := by
      intro parking used
      rw [pending]
      exact allAwaited _ (state ▸ parking) (by omega)
    exact useLaw_replace law w _ (.inl rfl) sum (fun e => by rw [vacated.not_live] at e; cases e)
      (Window.suits_of_not_live vacated.not_live _) (fun v _ e => (e ▸ allSuit v).of_state state) awaited
  case target i f move =>
    exact useLaw_set_target law i move.useCount
      (fun w e => move.suits (targets i) (allAwaited i) (e ▸ allSuit w) fun zero => not_live_of_unused law zero w e)
      (move.awaited (targets i) (allAwaited i))
  case remove i unnamed parked =>
    exact useLaw_set_target law i rfl
      (fun w e => Window.suits_of_not_live ((e ▸ allSuit w : (s.windows.get w).Suits (s.targets.get i)).not_live
        (.inl parked)) _) fun e => TargetState.noConfusion e
  case reach now =>
    refine (useLaw_iff _).mpr ⟨fun i => ?_, fun w => ?_, Tbl.forall_map allAwaited⟩
    · simp only [Tbl.get_map]
      exact counts i
    · simp only [Tbl.get_map]
      exact allSuit w
  case countDown =>
    refine (useLaw_iff _).mpr ⟨fun i => ?_, fun w => ?_, Tbl.forall_map allAwaited⟩
    · simp only [Tbl.get_map]
      exact counts i
    · simp only [Tbl.get_map]
      exact allSuit w
  case endHold w x cause reason _ _ =>
    rw [endHold_frame]
    exact law
  all_goals exact law

theorem useLaw_resetWith (pins : Pins) (transfers free : Nat) (pending : List Instr) :
    UseLaw (State.resetWith pins transfers free pending) := by
  refine (useLaw_iff _).mpr ⟨fun i => ?_, fun w => ?_, fun i => ?_⟩
  · simp only [State.resetWith, Tbl.get_fill, Target.reset]
    exact (List.countP_eq_zero.mpr fun w _ => by simp [Window.uses, Window.empty, WindowState.live]).symm
  · simp only [State.resetWith, Tbl.get_fill]
    exact Window.suits_of_not_live rfl _
  · simp only [State.resetWith, Tbl.get_fill]
    exact fun e => TargetState.noConfusion e

/-- Settles O54: windows and targets change together, and the target law is kept beside it. -/
theorem stepKeepsUseLaw : Obligations.StepKeepsUseLaw := by
  intro s t targets law stepped
  exact (step_keeps (P := fun s => TargetLaw s ∧ UseLaw s)
    (fun _ _ _ c h => ⟨c.keeps_targetLaw h.1, c.keeps_useLaw h.1 h.2⟩)
    (fun s _ => ⟨targetLaw_resetWith _ _ _ _, useLaw_resetWith _ _ _ _⟩) (fun _ _ h => h) ⟨targets, law⟩ stepped).2

end Sys2Proof.Machine
end

