-- ==== Sys2Proof/Proofs/LeaseLaw.lean ====
section
/-! PROOF. Every step keeps the lease contexts lawful (O55). -/

namespace Sys2Proof.Machine

open Sys2Proof.Safety

variable {g : Option Agent} {s t : State} {st : WindowState} {c : LeaseCtx}

/-- Of at most one counted element there are no two. -/
theorem eq_of_countP_le_one {α : Type} {p : α → Bool} {l : List α} (one : l.countP p ≤ 1) {x y : α} (memX : x ∈ l)
    (memY : y ∈ l) (px : p x = true) (py : p y = true) : x = y := by
  rw [List.countP_eq_length_filter] at one
  have memX' := List.mem_filter.mpr ⟨memX, px⟩
  have memY' := List.mem_filter.mpr ⟨memY, py⟩
  obtain ⟨z, only⟩ := List.length_eq_one_iff.mp (Nat.le_antisymm one (List.length_pos_of_mem memX'))
  rw [only, List.mem_singleton] at memX' memY'
  rw [memX', memY']

theorem endHold_ctxs (s : State) (w : WindowId) (h : Hold) (cause : Cause) (reason : Option LostReason) :
    (s.endHold w h cause reason).ctxs = s.ctxs.set w ((s.ctxs.get w).dropHold h cause) := by
  cases reason with
  | none => rfl
  | some r =>
    simp only [State.endHold]
    split <;> rfl

/-! ### One context -/

/-- The law of one context, clause by clause. -/
structure LeaseCtx.Lawful (st : WindowState) (c : LeaseCtx) : Prop where
  distinct : (c.holders.map Hold.agent ++ c.waiters.map Wait.agent).Nodup
  alone : (∃ h ∈ c.holders, h.mode = .exclusive) → c.holders.length = 1
  oneUpgrade : (c.holders.countP fun h => h.upgrading) ≤ 1
  upgrade : ∀ h ∈ c.holders, h.upgrading = true → h.mode = .shared ∧ h.once = false ∧ st = .opened
  noDeadline : ∀ h ∈ c.holders, h.upgrading = false → h.deadline = none
  serials : ∀ h ∈ c.holders, h.serial ≠ 0
  serial : c.serial ≠ 0
  held : c.holders ≠ [] → st = .opened ∨ st = .closing
  waits : c.waiters ≠ [] → st = .opening ∨ st = .opened
  drain : c.drain = true → c.inflight ≠ 0

theorem ctxOk_iff : ctxOk st c ↔ c.Lawful st := by
  constructor
  · rintro ⟨h1, h2, h3, h4, h5, h6, h7, h8, h9, h10⟩
    exact ⟨h1, h2, h3, h4, h5, h6, h7, h8, h9, h10⟩
  · rintro ⟨h1, h2, h3, h4, h5, h6, h7, h8, h9, h10⟩
    exact ⟨h1, h2, h3, h4, h5, h6, h7, h8, h9, h10⟩

theorem LeaseCtx.Lawful.no_holder (h : c.Lawful st) (unheld : st ≠ .opened ∧ st ≠ .closing) : c.holders = [] := by
  refine Classical.byContradiction fun some => ?_
  exact (h.held some).elim unheld.1 unheld.2

theorem LeaseCtx.Lawful.no_waiter (h : c.Lawful st) (unawaited : st ≠ .opening ∧ st ≠ .opened) : c.waiters = [] := by
  refine Classical.byContradiction fun some => ?_
  exact (h.waits some).elim unawaited.1 unawaited.2

/-- The window of a context without holders may enter a state that its waits may stand in. -/
theorem LeaseCtx.Lawful.enter (h : c.Lawful st) (holders : c.holders = []) (st' : WindowState)
    (waits : c.waiters ≠ [] → st' = .opening ∨ st' = .opened) : c.Lawful st' where
  distinct := h.distinct
  alone := h.alone
  oneUpgrade := h.oneUpgrade
  upgrade := by simp [holders]
  noDeadline := h.noDeadline
  serials := h.serials
  serial := h.serial
  held := fun some => absurd holders some
  waits := waits
  drain := h.drain

/-- Holds and waits leave, and the drain flag keeps to its rule. -/
theorem LeaseCtx.Lawful.thinned (h : c.Lawful st) {c' : LeaseCtx} (holders : c'.holders.Sublist c.holders)
    (waiters : c'.waiters.Sublist c.waiters) (serial : c'.serial = c.serial)
    (drain : c'.drain = true → c'.inflight ≠ 0) : c'.Lawful st where
  distinct := h.distinct.sublist ((holders.map _).append (waiters.map _))
  alone := by
    rintro ⟨x, mem, exclusive⟩
    have few := holders.length_le
    rw [h.alone ⟨x, holders.subset mem, exclusive⟩] at few
    have := List.length_pos_of_mem mem
    omega
  oneUpgrade := Nat.le_trans holders.countP_le h.oneUpgrade
  upgrade := fun x mem => h.upgrade x (holders.subset mem)
  noDeadline := fun x mem => h.noDeadline x (holders.subset mem)
  serials := fun x mem => h.serials x (holders.subset mem)
  serial := serial ▸ h.serial
  held := fun some => h.held fun none => some (List.sublist_nil.mp (none ▸ holders))
  waits := fun some => h.waits fun none => some (List.sublist_nil.mp (none ▸ waiters))
  drain := drain

theorem LeaseCtx.Lawful.dropHold (h : c.Lawful st) (x : Hold) (cause : Cause) : (c.dropHold x cause).Lawful st := by
  refine h.thinned List.eraseP_sublist (List.Sublist.refl _) rfl fun drain => ?_
  simp only [LeaseCtx.dropHold, Bool.or_eq_true, Bool.and_eq_true] at drain
  rcases drain with drain | ⟨-, inflight⟩
  · exact h.drain drain
  · show c.inflight ≠ 0
    simpa using inflight

theorem LeaseCtx.Lawful.dropWait (h : c.Lawful st) (p : Wait → Bool) :
    ({ c with waiters := c.waiters.eraseP p } : LeaseCtx).Lawful st :=
  h.thinned (List.Sublist.refl _) List.eraseP_sublist rfl h.drain

/-- A completion or a drop: the drain flag is cleared with the last access in flight. -/
theorem LeaseCtx.Lawful.completed (h : c.Lawful st) : c.complete.Lawful st := by
  refine h.thinned (List.Sublist.refl _) (List.Sublist.refl _) rfl fun drain => ?_
  simp only [LeaseCtx.complete, Bool.and_eq_true, bne_iff_ne] at drain
  exact drain.2

theorem nextSerial_ne_zero {n : Serial} : nextSerial n ≠ 0 := by
  unfold nextSerial
  split
  · decide
  · rename_i h
    intro e
    apply h
    bv_omega

/-- A grant: the new hold joins the end, and the waiters are those that stay. -/
theorem LeaseCtx.Lawful.granted (h : c.Lawful .opened) {x : Hold} {waiters : List Wait}
    (distinct : ((c.holders ++ [x]).map Hold.agent ++ waiters.map Wait.agent).Nodup)
    (free : c.grantable x.mode = true) (upgrading : x.upgrading = false) (deadline : x.deadline = none)
    (serial : x.serial = c.serial) : ({ c.addHold x with waiters := waiters } : LeaseCtx).Lawful .opened where
  distinct := distinct
  alone := by
    rintro ⟨y, mem, exclusive⟩
    rcases (grantable_iff c x.mode).mp free with ⟨-, none, -⟩ | ⟨shared, others, -⟩
    · simp [LeaseCtx.addHold, none]
    · rcases List.mem_append.mp mem with mem | mem
      · rw [others y mem] at exclusive
        cases exclusive
      · rw [List.mem_singleton.mp mem, shared] at exclusive
        cases exclusive
  oneUpgrade := by
    simpa [LeaseCtx.addHold, upgrading] using h.oneUpgrade
  upgrade := by
    intro y mem pending
    rcases List.mem_append.mp mem with mem | mem
    · exact h.upgrade y mem pending
    · rw [List.mem_singleton.mp mem, upgrading] at pending
      cases pending
  noDeadline := by
    intro y mem none
    rcases List.mem_append.mp mem with mem | mem
    · exact h.noDeadline y mem none
    · rw [List.mem_singleton.mp mem]
      exact deadline
  serials := by
    intro y mem
    rcases List.mem_append.mp mem with mem | mem
    · exact h.serials y mem
    · rw [List.mem_singleton.mp mem, serial]
      exact h.serial
  serial := nextSerial_ne_zero
  held := fun _ => .inl rfl
  waits := fun _ => .inr rfl
  drain := h.drain

theorem LeaseCtx.without_iff (c : LeaseCtx) (a : Agent) :
    c.without a ↔ (∀ h ∈ c.holders, h.agent ≠ a) ∧ ∀ x ∈ c.waiters, x.agent ≠ a := by
  simp [LeaseCtx.without, LeaseCtx.holdOf, LeaseCtx.waitOf]

/-- The agents of holds and waits are distinct beside a new one. -/
theorem LeaseCtx.Lawful.distinct_with (h : c.Lawful st) {a : Agent} (fresh : c.without a) :
    (c.holders.map Hold.agent ++ [a] ++ c.waiters.map Wait.agent).Nodup := by
  obtain ⟨noHold, noWait⟩ := (c.without_iff a).mp fresh
  rw [List.append_assoc, List.singleton_append]
  refine List.perm_middle.nodup_iff.mpr (List.nodup_cons.mpr ⟨?_, h.distinct⟩)
  simp only [List.mem_append, List.mem_map, not_or, not_exists, not_and]
  exact ⟨fun x mem => noHold x mem, fun x mem => noWait x mem⟩

theorem LeaseCtx.Lawful.queued (h : c.Lawful st) {x : Wait} (fresh : c.without x.agent)
    (live : st = .opening ∨ st = .opened) (endings : Tbl (Option LastEnding) 4) :
    ({ c with waiters := c.waiters ++ [x], endings := endings } : LeaseCtx).Lawful st where
  distinct := by
    have perm : (c.holders.map Hold.agent ++ (c.waiters ++ [x]).map Wait.agent).Perm
        (c.holders.map Hold.agent ++ [x.agent] ++ c.waiters.map Wait.agent) := by
      rw [List.append_assoc, List.map_append]
      exact List.Perm.append_left _ List.perm_append_comm
    exact perm.nodup_iff.mpr (h.distinct_with fresh)
  alone := h.alone
  oneUpgrade := h.oneUpgrade
  upgrade := h.upgrade
  noDeadline := h.noDeadline
  serials := h.serials
  serial := h.serial
  held := h.held
  waits := fun _ => live
  drain := h.drain

/-- Holds change where they stand. -/
theorem LeaseCtx.Lawful.mapped (h : c.Lawful st) {f : Hold → Hold} (serial : c.serial ≠ 0)
    (agent : ∀ x, (f x).agent = x.agent) (upgrading : ∀ x, (f x).upgrading = true → x.upgrading = true)
    (once : ∀ x, (f x).once = x.once) (mode : ∀ x, (f x).mode = x.mode ∨ (f x).mode = .shared)
    (deadline : ∀ x ∈ c.holders, (f x).upgrading = false → (f x).deadline = none)
    (serials : ∀ x, (f x).serial = x.serial) : ({ c with holders := c.holders.map f } : LeaseCtx).Lawful st where
  distinct := by
    have same : (c.holders.map f).map Hold.agent = c.holders.map Hold.agent := by
      rw [List.map_map]
      exact List.map_congr_left fun x _ => agent x
    rw [same]
    exact h.distinct
  alone := by
    rintro ⟨y, mem, exclusive⟩
    obtain ⟨x, memX, rfl⟩ := List.mem_map.mp mem
    rw [List.length_map]
    refine h.alone ⟨x, memX, ?_⟩
    rcases mode x with e | e
    · exact e ▸ exclusive
    · rw [e] at exclusive
      cases exclusive
  oneUpgrade := by
    rw [List.countP_map]
    exact Nat.le_trans (List.countP_mono_left fun x _ => upgrading x) h.oneUpgrade
  upgrade := by
    intro y mem pending
    obtain ⟨x, memX, rfl⟩ := List.mem_map.mp mem
    obtain ⟨shared, long, opened⟩ := h.upgrade x memX (upgrading x pending)
    refine ⟨?_, (once x).trans long, opened⟩
    rcases mode x with e | e
    · exact e.trans shared
    · exact e
  noDeadline := by
    intro y mem none
    obtain ⟨x, memX, rfl⟩ := List.mem_map.mp mem
    exact deadline x memX none
  serials := by
    intro y mem
    obtain ⟨x, memX, rfl⟩ := List.mem_map.mp mem
    rw [serials]
    exact h.serials x memX
  serial := serial
  held := fun some => h.held fun none => some (by rw [none]; rfl)
  waits := h.waits
  drain := h.drain

theorem LeaseCtx.Lawful.changed (h : c.Lawful st) (a : Agent) {f : Hold → Hold} (quiet : ∀ x : Hold, x.Quiet (f x)) :
    (c.mapHold a f).Lawful st := by
  refine h.mapped h.serial (fun x => ?_) (fun x => ?_) (fun x => ?_) (fun x => ?_) (fun x mem => ?_) (fun x => ?_)
  all_goals split
  · exact (quiet x).agent
  · rfl
  · exact fun e => (quiet x).upgrading ▸ e
  · exact id
  · exact (quiet x).once
  · rfl
  · exact (quiet x).mode
  · exact .inl rfl
  · intro e
    rw [(quiet x).deadline]
    exact h.noDeadline x mem ((quiet x).upgrading ▸ e)
  · exact h.noDeadline x mem
  · exact (quiet x).serial
  · rfl

theorem LeaseCtx.Lawful.cleared (h : c.Lawful st) (a : Agent) :
    (c.mapHold a fun x => { x with upgrading := false, deadline := none }).Lawful st := by
  refine h.mapped h.serial (fun x => ?_) (fun x => ?_) (fun x => ?_) (fun x => ?_) (fun x mem => ?_) (fun x => ?_)
  all_goals split
  · rfl
  · rfl
  · exact fun e => Bool.noConfusion e
  · exact id
  · rfl
  · rfl
  · exact .inl rfl
  · exact .inl rfl
  · exact fun _ => rfl
  · exact h.noDeadline x mem
  · rfl
  · rfl

theorem LeaseCtx.Lawful.reached (h : c.Lawful st) (now : Tick) : (c.reach now).Lawful st := by
  have holds : ({ c with holders := c.holders.map (Hold.reach now) } : LeaseCtx).Lawful st :=
    h.mapped h.serial (fun _ => rfl) (fun _ => id) (fun _ => rfl) (fun _ => .inl rfl)
      (fun x mem none => by simp [Hold.reach, h.noDeadline x mem none]) fun _ => rfl
  have same : (c.waiters.map (Wait.reach now)).map Wait.agent = c.waiters.map Wait.agent := by
    rw [List.map_map]
    rfl
  obtain ⟨distinct, alone, oneUpgrade, upgrade, noDeadline, serials, serial, held, waits, drain⟩ := holds
  refine ⟨?_, alone, oneUpgrade, upgrade, noDeadline, serials, serial, held, fun some => ?_, drain⟩
  · show (_ ++ (c.waiters.map (Wait.reach now)).map Wait.agent).Nodup
    rw [same]
    exact distinct
  · exact waits fun none => some (List.map_eq_nil_iff.mpr none)

/-- What the start of a close makes of a context without waits: its pending upgrade ends. -/
def LeaseCtx.upgradeEnded (c : LeaseCtx) : LeaseCtx :=
  match c.upgrader with
  | none => c
  | some x => c.mapHold x.agent fun x => { x with upgrading := false, deadline := none }

theorem upgradeClosed_ctxs (s : State) (w : WindowId) :
    (upgradeClosed s w).ctxs = s.ctxs.set w (s.ctxs.get w).upgradeEnded := by
  cases found : (s.ctxs.get w).holders.find? fun h => h.upgrading with
  | none => simp [upgradeClosed, LeaseCtx.upgradeEnded, LeaseCtx.upgrader, found]
  | some x =>
    simp only [upgradeClosed, LeaseCtx.upgradeEnded, LeaseCtx.upgrader, found]
    rfl

/-- With the pending upgrade ended and no waits left, the window may enter CLOSING. -/
theorem LeaseCtx.Lawful.upgradeEnded (h : c.Lawful st) (waits : c.waiters = []) : c.upgradeEnded.Lawful .closing := by
  have settled : ∀ x ∈ c.upgradeEnded.holders, x.upgrading = false := by
    unfold LeaseCtx.upgradeEnded
    split
    · rename_i none
      exact fun x mem => by simpa using List.find?_eq_none.mp none x mem
    · rename_i y some
      intro x mem
      obtain ⟨z, memZ, rfl⟩ := List.mem_map.mp mem
      by_cases e : z.agent = y.agent
      · simp [e]
      · rw [if_neg e]
        refine Classical.byContradiction fun pending => ?_
        rw [Bool.not_eq_false] at pending
        exact e (congrArg Hold.agent
          (eq_of_countP_le_one h.oneUpgrade memZ (List.mem_of_find?_eq_some some) pending (List.find?_some some)))
  have kept : c.upgradeEnded.Lawful st := by
    unfold LeaseCtx.upgradeEnded
    split
    · exact h
    · exact h.cleared _
  have noWait : c.upgradeEnded.waiters = [] := by
    unfold LeaseCtx.upgradeEnded
    split <;> exact waits
  exact
    { kept with
      upgrade := fun x mem pending => absurd (settled x mem) (by simp [pending])
      held := fun _ => .inr rfl
      waits := fun some => absurd noWait some }

/-- The only hold becomes EXCLUSIVE with a new serial. -/
theorem LeaseCtx.Lawful.upgraded (h : c.Lawful st) {x : Hold} (held : c.holders = [x]) (now : Tick) (win : Window) :
    (c.grantUpgrade now win x.agent).Lawful st := by
  have only : (c.grantUpgrade now win x.agent).holders = [x.upgrade c now win] := by
    simp [LeaseCtx.grantUpgrade, LeaseCtx.mapHold, held]
  refine ⟨?_, fun _ => by rw [only]; rfl, ?_, ?_, ?_, ?_, nextSerial_ne_zero, fun _ => h.held (by simp [held]), h.waits,
    h.drain⟩
  · have distinct := h.distinct
    rw [held] at distinct
    rw [only]
    exact distinct
  · rw [only]
    exact Nat.zero_le 1
  · rw [only]
    intro y mem pending
    rw [List.mem_singleton.mp mem] at pending
    cases pending
  · rw [only]
    intro y mem _
    rw [List.mem_singleton.mp mem]
    rfl
  · rw [only]
    intro y mem
    rw [List.mem_singleton.mp mem]
    exact h.serial

theorem eq_of_nodup_map {α β : Type} {f : α → β} {l : List α} (distinct : (l.map f).Nodup) {x y : α} (memX : x ∈ l)
    (memY : y ∈ l) (same : f x = f y) : x = y := by
  induction l with
  | nil => cases memX
  | cons z l ih =>
    obtain ⟨fresh, distinct⟩ := List.nodup_cons.mp distinct
    rcases List.mem_cons.mp memX with rfl | inX
    · rcases List.mem_cons.mp memY with rfl | inY
      · rfl
      · exact absurd (same ▸ List.mem_map_of_mem inY) fresh
    · rcases List.mem_cons.mp memY with rfl | inY
      · exact absurd (same ▸ List.mem_map_of_mem inX) fresh
      · exact ih distinct inX inY

/-- A hold whose upgrade becomes pending, with no other pending. -/
theorem LeaseCtx.Lawful.pended (h : c.Lawful st) {a : Agent} {x : Hold} {d : Option Deadline}
    (held : c.holdOf a = some x) (long : x.once = false) (shared : x.mode = .shared) (live : st ≠ .closing)
    (noRival : (c.holders.any fun y => y.agent != a && y.upgrading) = false) :
    (c.mapHold a fun y => { y with upgrading := true, deadline := d }).Lawful st := by
  have mem := List.mem_of_find?_eq_some held
  have agent := LeaseCtx.agent_eq_of_holdOf held
  have opened : st = .opened := (h.held (List.ne_nil_of_mem mem)).resolve_right live
  have distinctHolds : (c.holders.map Hold.agent).Nodup := (List.nodup_append.mp h.distinct).1
  have only : ∀ y ∈ c.holders, y.agent = a → y = x := fun y memY e =>
    eq_of_nodup_map distinctHolds memY mem (e.trans agent.symm)
  have rivals : ∀ y ∈ c.holders, y.agent ≠ a → y.upgrading = false := by
    intro y memY ne
    have := List.any_eq_false.mp noRival y memY
    simpa [ne] using this
  refine ⟨?_, ?_, ?_, ?_, ?_, ?_, h.serial, fun some => h.held fun none => some (by simp [LeaseCtx.mapHold, none]),
    h.waits, h.drain⟩
  · have same : (c.holders.map fun y => if y.agent = a then { y with upgrading := true, deadline := d } else y).map
        Hold.agent = c.holders.map Hold.agent := by
      rw [List.map_map]
      refine List.map_congr_left fun y _ => ?_
      simp only [Function.comp_apply]
      split <;> rfl
    simp only [LeaseCtx.mapHold, same]
    exact h.distinct
  · rintro ⟨y, memY, exclusive⟩
    obtain ⟨z, memZ, rfl⟩ := List.mem_map.mp memY
    rw [LeaseCtx.mapHold, List.length_map]
    refine h.alone ⟨z, memZ, ?_⟩
    split at exclusive <;> exact exclusive
  · simp only [LeaseCtx.mapHold, List.countP_map]
    have count : c.holders.countP ((fun y : Hold => y.upgrading) ∘ fun y =>
        if y.agent = a then { y with upgrading := true, deadline := d } else y) =
        (c.holders.map Hold.agent).countP fun b => b == a := by
      rw [List.countP_map]
      refine List.countP_congr fun y memY => ?_
      by_cases e : y.agent = a
      · simp [e]
      · simp [e, rivals y memY e]
    rw [count]
    exact List.nodup_iff_count.mp distinctHolds a
  · intro y memY pending
    obtain ⟨z, memZ, rfl⟩ := List.mem_map.mp memY
    by_cases e : z.agent = a
    · rw [only z memZ e] at *
      simp only [agent, if_true]
      exact ⟨shared, long, opened⟩
    · simp only [e, if_false, rivals z memZ e] at pending
      cases pending
  · intro y memY none
    obtain ⟨z, memZ, rfl⟩ := List.mem_map.mp memY
    by_cases e : z.agent = a
    · simp [e] at none
    · simp only [e, if_false] at none ⊢
      exact h.noDeadline z memZ none
  · intro y memY
    obtain ⟨z, memZ, rfl⟩ := List.mem_map.mp memY
    have := h.serials z memZ
    split <;> exact this


/-! ### The law -/

theorem leaseLaw_iff (s : State) : LeaseLaw s ↔ ∀ w, (s.ctxs.get w).Lawful (s.windows.get w).state :=
  forall_congr' fun _ => ctxOk_iff

/-- A window changes with its context. -/
theorem leaseLaw_replace (law : ∀ w, (s.ctxs.get w).Lawful (s.windows.get w).state) (w : WindowId) {win : Window}
    (h : c.Lawful win.state) : LeaseLaw { s with windows := s.windows.set w win, ctxs := s.ctxs.set w c } := by
  refine (leaseLaw_iff _).mpr fun v => ?_
  by_cases e : w = v
  · subst e
    simpa using h
  · simpa only [Tbl.get_set_ne _ e] using law v

/-- A window changes beside its context. -/
theorem leaseLaw_set_window (law : ∀ w, (s.ctxs.get w).Lawful (s.windows.get w).state) (w : WindowId) {win : Window}
    (h : (s.ctxs.get w).Lawful win.state) : LeaseLaw { s with windows := s.windows.set w win } := by
  have := leaseLaw_replace law w h
  rwa [Tbl.set_get] at this

/-- A context changes beside its window. -/
theorem leaseLaw_set_ctx (law : ∀ w, (s.ctxs.get w).Lawful (s.windows.get w).state) (w : WindowId)
    (h : c.Lawful (s.windows.get w).state) : LeaseLaw { s with ctxs := s.ctxs.set w c } := by
  have := leaseLaw_replace law w h
  rwa [Tbl.set_get] at this

/-- The only holder of a context. -/
theorem LeaseCtx.holders_of_upgradeFree {x : Hold} (alone : c.upgradeFree = true) (mem : x ∈ c.holders) :
    c.holders = [x] := by
  obtain ⟨y, holders⟩ := List.length_eq_one_iff.mp ((upgradeFree_iff c).mp alone).1
  rw [holders] at mem ⊢
  rw [List.mem_singleton.mp mem]

theorem Change.keeps_leaseLaw (ch : Change g s t) (keeps : LeaseLaw s) : LeaseLaw t := by
  have law := (leaseLaw_iff s).mp keeps
  have enter (w : WindowId) (win : Window)
      (unheld : (s.windows.get w).state ≠ .opened ∧ (s.windows.get w).state ≠ .closing)
      (unawaited : (s.windows.get w).state ≠ .opening ∧ (s.windows.get w).state ≠ .opened) :
      LeaseLaw { s with windows := s.windows.set w win } :=
    leaseLaw_set_window law w ((law w).enter ((law w).no_holder unheld) _ fun some =>
      absurd ((law w).no_waiter unawaited) some)
  cases ch
  case define w win vacant staged _ _ _ _ _ _ _ _ _ => exact enter w win (by simp [vacant]) (by simp [vacant])
  case window w f quiet => exact leaseLaw_set_window law w (quiet.state ▸ law w)
  case retire w staged => exact enter w _ (by simp [staged]) (by simp [staged])
  case claim w st f staged claimed => exact enter w _ (by simp [staged]) (by simp [staged])
  case ready i _ =>
    refine (leaseLaw_iff _).mpr fun w => ?_
    simp only [Tbl.get_map]
    split
    · rename_i h
      exact (law w).enter ((law w).no_holder (by simp [h.1])) _ fun _ => .inr rfl
    · exact law w
  case closing w p opened waits gentle =>
    rw [upgradeClosed_frame, upgradeClosed_ctxs]
    exact leaseLaw_replace law w ((law w).upgradeEnded waits)
  case leave w win now ended vacated =>
    have empty : (s.ctxs.get w).holders = [] ∧ (s.ctxs.get w).waiters = [] := by
      rcases ended with ⟨opening, waits⟩ | ⟨closing, empty⟩
      · exact ⟨(law w).no_holder (by simp [opening]), waits⟩
      · refine ⟨?_, (law w).no_waiter (by simp [closing])⟩
        simp only [State.emptyContext, LeaseCtx.idle, Bool.and_eq_true, List.isEmpty_iff] at empty
        exact empty.1
    exact leaseLaw_set_window law w ((law w).enter empty.1 _ fun some => absurd empty.2 some)
  case reach now =>
    refine (leaseLaw_iff _).mpr fun w => ?_
    simp only [Tbl.get_map]
    exact (law w).reached now
  case grant a w m once asked opened fresh free room =>
    have here := law w
    refine leaseLaw_set_ctx law w (opened ▸ ?_)
    rw [opened] at here
    exact here.granted (by simpa [newHold, Hold.setTerm] using here.distinct_with fresh) free rfl rfl rfl
  case queue a w x agent live fresh room idle run =>
    exact leaseLaw_set_ctx law w ((law w).queued (agent ▸ fresh) live _)
  case upgrade a w x held alone idle =>
    have only := LeaseCtx.holders_of_upgradeFree alone (List.mem_of_find?_eq_some held)
    exact leaseLaw_set_ctx law w (LeaseCtx.agent_eq_of_holdOf held ▸ (law w).upgraded only _ _)
  case pend a w x d held long shared live noRival idle run =>
    exact leaseLaw_set_ctx law w ((law w).pended held long shared live noRival)
  case grantHead w x xs payload opened head free =>
    have here := law w
    refine leaseLaw_set_ctx law w (opened ▸ ?_)
    rw [opened] at here
    exact here.granted (by simpa [newHold, Hold.setTerm, head] using here.distinct) free rfl rfl rfl
  case grantUpgrade w x payload pending alone =>
    have only := LeaseCtx.holders_of_upgradeFree alone (List.mem_of_find?_eq_some pending)
    exact leaseLaw_set_ctx law w ((law w).upgraded only _ _)
  case hold w a f quiet => exact leaseLaw_set_ctx law w ((law w).changed a quiet)
  case endHold w x cause reason held silent =>
    rw [endHold_frame, endHold_ctxs]
    exact leaseLaw_set_ctx law w ((law w).dropHold x cause)
  case endWait w a status waits => exact leaseLaw_set_ctx law w ((law w).dropWait _)
  case dropWait w a waits reset => exact leaseLaw_set_ctx law w ((law w).dropWait _)
  case abandonWait a w code payload waits => exact leaseLaw_set_ctx law w ((law w).dropWait _)
  case endUpgrade w x status held pending => exact leaseLaw_set_ctx law w ((law w).cleared _)
  case abandonUpgrade a w code payload pending => exact leaseLaw_set_ctx law w ((law w).cleared _)
  case admitted a x admission =>
    exact leaseLaw_set_ctx law x.window ((law x.window).thinned (List.Sublist.refl _) (List.Sublist.refl _) rfl fun _ =>
      Nat.succ_ne_zero _)
  case complete a x d bus slot => exact leaseLaw_set_ctx law x.window (law x.window).completed
  case drop a x slot => exact leaseLaw_set_ctx law x.window (law x.window).completed
  all_goals exact keeps

theorem leaseLaw_resetWith (pins : Pins) (transfers free : Nat) (pending : List Instr) :
    LeaseLaw (State.resetWith pins transfers free pending) := by
  intro w
  simp [State.resetWith, ctxOk, LeaseCtx.reset]

/-- Settles O55. -/
theorem stepKeepsLeaseLaw : Obligations.StepKeepsLeaseLaw := by
  intro s t law stepped
  exact step_keeps (fun _ _ _ => Change.keeps_leaseLaw) (fun s _ => leaseLaw_resetWith _ _ _ _) (fun _ _ h => h) law
    stepped

end Sys2Proof.Machine
end

