-- ==== Sys2Proof/Proofs/PoolLaw.lean ====
section
/-! PROOF. Every step keeps the lease pool and the quotas (O56). -/

namespace Sys2Proof.Machine

open Sys2Proof.Safety

variable {g : Option Agent} {s t : State} {c : LeaseCtx}

/-! ### Counting the entries of a context -/

/-- Taking the first match out of a list takes it out of every count. -/
theorem countP_eraseP {α : Type} {p : α → Bool} (q : α → Bool) {x : α} :
    ∀ {l : List α}, l.find? p = some x → (l.eraseP p).countP q + bit (q x) = l.countP q
  | y :: l, found => by
    by_cases e : p y = true
    · rw [List.find?_cons_of_pos e] at found
      cases found
      rw [List.eraseP_cons_of_pos e, List.countP_cons]
      rfl
    · rw [List.find?_cons_of_neg e] at found
      have := countP_eraseP q found
      rw [List.eraseP_cons_of_neg e, List.countP_cons, List.countP_cons]
      omega

/-- Holds and waits of an agent in a context. -/
def LeaseCtx.leases (c : LeaseCtx) (a : Agent) : Nat :=
  (c.holders.countP fun h => h.agent == a) + c.waiters.countP fun x => x.agent == a

theorem leasesOf_eq (s : State) (a : Agent) :
    leasesOf s a = (allWindows.map fun w => (s.ctxs.get w).leases a).sum := rfl

/-- The entries over all windows, where one context is replaced. -/
theorem leasesOf_set (s : State) (w : WindowId) (c : LeaseCtx) (a : Agent) :
    leasesOf { s with ctxs := s.ctxs.set w c } a + (s.ctxs.get w).leases a = leasesOf s a + c.leases a := by
  rw [leasesOf_eq, leasesOf_eq]
  exact sum_allWindows_set (LeaseCtx.leases · a) s.ctxs w c

theorem LeaseCtx.leases_mapHold (c : LeaseCtx) (b : Agent) (f : Hold → Hold) (agent : ∀ h, (f h).agent = h.agent)
    (a : Agent) : (c.mapHold b f).leases a = c.leases a := by
  have same : (fun h : Hold => h.agent == a) ∘ (fun h => if h.agent = b then f h else h) = fun h => h.agent == a := by
    funext h
    simp only [Function.comp_apply]
    split
    · rw [agent]
    · rfl
  simp only [LeaseCtx.leases, LeaseCtx.mapHold, List.countP_map, same]

theorem LeaseCtx.leases_grantUpgrade (c : LeaseCtx) (now : Tick) (win : Window) (b a : Agent) :
    (c.grantUpgrade now win b).leases a = c.leases a :=
  c.leases_mapHold b (fun h => h.upgrade c now win) (fun _ => rfl) a

theorem LeaseCtx.leases_upgradeEnded (c : LeaseCtx) (a : Agent) : c.upgradeEnded.leases a = c.leases a := by
  unfold LeaseCtx.upgradeEnded
  split
  · rfl
  · exact c.leases_mapHold _ _ (by exact fun _ => rfl) a

theorem LeaseCtx.leases_reach (c : LeaseCtx) (now : Tick) (a : Agent) : (c.reach now).leases a = c.leases a := by
  simp only [LeaseCtx.leases, LeaseCtx.reach, List.countP_map]
  rfl

theorem LeaseCtx.leases_addHold (c : LeaseCtx) (h : Hold) (a : Agent) :
    (c.addHold h).leases a = c.leases a + bit (h.agent == a) := by
  simp only [LeaseCtx.leases, LeaseCtx.addHold, List.countP_append, List.countP_singleton, bit]
  omega

theorem LeaseCtx.leases_dropHold (c : LeaseCtx) {h : Hold} (held : c.holdOf h.agent = some h) (cause : Cause)
    (a : Agent) : (c.dropHold h cause).leases a + bit (h.agent == a) = c.leases a := by
  have := countP_eraseP (fun h : Hold => h.agent == a) held
  simp only [LeaseCtx.leases, LeaseCtx.dropHold]
  omega

theorem LeaseCtx.leases_dropWait (c : LeaseCtx) {b : Agent} (waits : (c.waitOf b).isSome = true) (a : Agent) :
    ({ c with waiters := c.waiters.eraseP fun x => x.agent == b } : LeaseCtx).leases a + bit (b == a) = c.leases a := by
  obtain ⟨x, found⟩ := Option.isSome_iff_exists.mp waits
  have agent : x.agent = b := by simpa using List.find?_some found
  have := countP_eraseP (fun x : Wait => x.agent == a) found
  simp only [LeaseCtx.leases]
  rw [← agent] at *
  omega

/-! ### The pool -/

/-- The entries in use over all agents, where one count is replaced. -/
theorem poolUse_set (s : State) (a : Agent) (n : Nat) :
    ({ s with inUse := s.inUse.set a n } : State).poolUse + s.inUse.get a = s.poolUse + n := by
  unfold State.poolUse
  match a with
  | 0 | 1 | 2 | 3 =>
    simp
    omega

/-- A context changes that holds as many entries as before. -/
theorem poolLaw_same (law : PoolLaw s) (w : WindowId) (same : ∀ a, c.leases a = (s.ctxs.get w).leases a) :
    PoolLaw { s with ctxs := s.ctxs.set w c } := by
  obtain ⟨agents, pool⟩ := law
  refine ⟨fun a => ?_, pool⟩
  obtain ⟨count, rest⟩ := agents a
  have := leasesOf_set s w c a
  rw [same a] at this
  refine ⟨?_, rest⟩
  show s.inUse.get a = leasesOf { s with ctxs := s.ctxs.set w c } a
  omega

/-- An entry is taken, for which there is room. -/
theorem poolLaw_take (law : PoolLaw s) (w : WindowId) {a : Agent} (room : s.roomFor a)
    (more : ∀ b, c.leases b = (s.ctxs.get w).leases b + bit (a == b)) :
    PoolLaw (({ s with ctxs := s.ctxs.set w c } : State).takeEntry a) := by
  obtain ⟨agents, pool⟩ := law
  obtain ⟨spare, quota⟩ := room
  refine ⟨fun b => ?_, ?_⟩
  · obtain ⟨count, limit, rest⟩ := agents b
    have counts := leasesOf_set s w c b
    rw [more b] at counts
    refine ⟨?_, ?_, rest⟩
    · show (s.inUse.set a _).get b = leasesOf { s with ctxs := s.ctxs.set w c } b
      rw [Tbl.get_set]
      by_cases e : a = b
      · subst e
        simp only [if_true, beq_self_eq_true, bit] at counts ⊢
        omega
      · simp only [if_neg e, beq_eq_false_iff_ne.mpr e, bit, Bool.false_eq_true, if_false] at counts ⊢
        omega
    · show (s.inUse.set a _).get b ≤ s.quotas.get b
      rw [Tbl.get_set]
      split
      · rename_i e
        exact e ▸ quota
      · exact limit
  · have sums := poolUse_set s a (s.inUse.get a + 1)
    show ({ s with inUse := s.inUse.set a (s.inUse.get a + 1) } : State).poolUse ≤ 24
    omega

/-- An entry is freed that stood in the context. -/
theorem poolLaw_free (law : PoolLaw s) (w : WindowId) {a : Agent}
    (fewer : ∀ b, c.leases b + bit (a == b) = (s.ctxs.get w).leases b) :
    PoolLaw (({ s with ctxs := s.ctxs.set w c } : State).freeEntry a) := by
  obtain ⟨agents, pool⟩ := law
  refine ⟨fun b => ?_, ?_⟩
  · obtain ⟨count, limit, rest⟩ := agents b
    have counts := leasesOf_set s w c b
    rw [← fewer b] at counts
    have left : (s.inUse.set a (s.inUse.get a - 1)).get b = leasesOf { s with ctxs := s.ctxs.set w c } b := by
      rw [Tbl.get_set]
      by_cases e : a = b
      · subst e
        simp only [if_true, beq_self_eq_true, bit] at counts ⊢
        omega
      · simp only [if_neg e, beq_eq_false_iff_ne.mpr e, bit, Bool.false_eq_true, if_false] at counts ⊢
        omega
    refine ⟨left, ?_, rest⟩
    show (s.inUse.set a (s.inUse.get a - 1)).get b ≤ s.quotas.get b
    omega
  · have sums := poolUse_set s a (s.inUse.get a - 1)
    show ({ s with inUse := s.inUse.set a (s.inUse.get a - 1) } : State).poolUse ≤ 24
    omega

/-! ### The law -/

theorem endHold_inUse (s : State) (w : WindowId) (h : Hold) (cause : Cause) (reason : Option LostReason) :
    (s.endHold w h cause reason).inUse = s.inUse.set h.agent (s.inUse.get h.agent - 1) := by
  cases reason with
  | none => rfl
  | some r =>
    simp only [State.endHold]
    split <;> rfl

theorem Change.keeps_poolLaw (ch : Change g s t) (law : PoolLaw s) : PoolLaw t := by
  cases ch
  case closing w p opened waits gentle =>
    rw [upgradeClosed_frame, upgradeClosed_ctxs]
    exact poolLaw_same law w (LeaseCtx.leases_upgradeEnded _)
  case reach now =>
    obtain ⟨agents, pool⟩ := law
    refine ⟨fun a => ?_, pool⟩
    simpa only [leasesOf_eq, Tbl.get_map, LeaseCtx.leases_reach] using agents a
  case quota a n low high fits =>
    obtain ⟨agents, pool⟩ := law
    refine ⟨fun b => ?_, pool⟩
    obtain ⟨count, quota⟩ := agents b
    refine ⟨count, ?_⟩
    show s.inUse.get b ≤ (s.quotas.set a n).get b ∧ _
    rw [Tbl.get_set]
    split
    · rename_i e
      exact ⟨e ▸ fits, low, high⟩
    · exact quota
  case grant a w m once asked opened fresh free room =>
    exact poolLaw_take law w room fun b => LeaseCtx.leases_addHold _ (newHold _ _ _ a m once asked) b
  case queue a w x agent live fresh room idle run =>
    refine poolLaw_take law w room fun b => ?_
    simp only [LeaseCtx.leases, List.countP_append, List.countP_singleton, agent, bit]
    omega
  case upgrade a w x held alone idle => exact poolLaw_same law w (LeaseCtx.leases_grantUpgrade _ _ _ _)
  case pend a w x d held long shared live noRival idle run =>
    exact poolLaw_same law w (LeaseCtx.leases_mapHold _ _ _ (by exact fun _ => rfl))
  case grantHead w x xs payload opened head free =>
    refine poolLaw_same law w fun a => ?_
    simp only [LeaseCtx.leases, LeaseCtx.addHold, newHold, Hold.setTerm, head, List.countP_append,
      List.countP_nil, List.countP_cons]
    omega
  case grantUpgrade w x payload pending alone => exact poolLaw_same law w (LeaseCtx.leases_grantUpgrade _ _ _ _)
  case hold w a f quiet => exact poolLaw_same law w (LeaseCtx.leases_mapHold _ _ _ fun h => (quiet h).agent)
  case endHold w x cause reason held silent =>
    rw [endHold_frame, endHold_ctxs, endHold_inUse]
    exact poolLaw_free law w (LeaseCtx.leases_dropHold _ held cause)
  case endWait w a status waits => exact poolLaw_free law w (LeaseCtx.leases_dropWait _ waits)
  case dropWait w a waits reset => exact poolLaw_free law w (LeaseCtx.leases_dropWait _ waits)
  case abandonWait a w code payload waits => exact poolLaw_free law w (LeaseCtx.leases_dropWait _ waits)
  case endUpgrade w x status held pending =>
    exact poolLaw_same law w (LeaseCtx.leases_mapHold _ _ _ (by exact fun _ => rfl))
  case abandonUpgrade a w code payload pending =>
    exact poolLaw_same law w (LeaseCtx.leases_mapHold _ _ _ (by exact fun _ => rfl))
  case admitted a x admission => exact poolLaw_same law x.window fun _ => rfl
  case complete a x d bus slot => exact poolLaw_same law x.window fun _ => rfl
  case drop a x slot => exact poolLaw_same law x.window fun _ => rfl
  all_goals exact law

theorem poolLaw_resetWith (pins : Pins) (transfers free : Nat) (pending : List Instr) :
    PoolLaw (State.resetWith pins transfers free pending) := by
  have none (a : Agent) : leasesOf (State.resetWith pins transfers free pending) a = 0 := by
    rw [leasesOf_eq]
    refine List.sum_eq_zero_iff_forall_eq_nat.mpr fun n mem => ?_
    obtain ⟨w, -, rfl⟩ := List.mem_map.mp mem
    simp only [State.resetWith, Tbl.get_fill]
    rfl
  refine ⟨fun a => ?_, by simp [State.poolUse, State.resetWith]⟩
  rw [none]
  simp [State.resetWith]

/-- Settles O56: each change of a context takes, keeps or frees the entry that it should. -/
theorem stepKeepsPoolLaw : Obligations.StepKeepsPoolLaw := by
  intro s t law stepped
  exact step_keeps (fun _ _ _ => Change.keeps_poolLaw) (fun s _ => poolLaw_resetWith _ _ _ _) (fun _ _ h => h) law
    stepped

end Sys2Proof.Machine
end

