-- ==== Sys2Proof/Proofs/DataPathLaw.lean ====
section
/-! PROOF. Every step keeps the data path's law (O58). -/

namespace Sys2Proof.Machine

open Sys2Proof.Safety

variable {g : Option Agent} {s t : State} {c : LeaseCtx} {p : Path} {r r' : Router}

/-! ### The in-flight counts -/

/-- How many agents are as described, of which one record is replaced. -/
theorem countP_allAgents_set {α : Type} (q : α → Bool) (tbl : Tbl α 4) (a : Agent) (x : α) :
    (allAgents.countP fun b => q ((tbl.set a x).get b)) + bit (q (tbl.get a)) =
      (allAgents.countP fun b => q (tbl.get b)) + bit (q x) := by
  have distinct : allAgents.Nodup := List.nodup_finRange 4
  have sums := sum_map_of_eq_off (F := fun b => bit (q ((tbl.set a x).get b))) (G := fun b => bit (q (tbl.get b)))
    distinct (List.mem_finRange a) fun b ne => by rw [Tbl.get_set_ne _ (Ne.symm ne)]
  simpa [countP_eq_sum] using sums

/-- The in-flight counts are the accesses in the slots. -/
def State.Counted (s : State) : Prop :=
  ∀ w, (s.ctxs.get w).inflight = allAgents.countP fun a => slotWindow (s.router.paths.get a).slot == some w

/-- One slot and the context of one window change, both by the same access. -/
theorem State.Counted.replace (counted : s.Counted) (w : WindowId) (a : Agent)
    (ctxs : t.ctxs = s.ctxs.set w c) (paths : t.router.paths = s.router.paths.set a p)
    (here : c.inflight + bit (slotWindow (s.router.paths.get a).slot == some w) =
      (s.ctxs.get w).inflight + bit (slotWindow p.slot == some w))
    (others : ∀ v, w ≠ v → (slotWindow p.slot == some v) = (slotWindow (s.router.paths.get a).slot == some v)) :
    t.Counted := by
  intro v
  have sums := countP_allAgents_set (fun q : Path => slotWindow q.slot == some v) s.router.paths a p
  have old := counted v
  rw [ctxs, paths]
  by_cases e : w = v
  · subst e
    rw [Tbl.get_set_self]
    omega
  · rw [Tbl.get_set_ne _ e]
    rw [others v e] at sums
    omega

/-- A slot changes that holds an access to the same window. -/
theorem State.Counted.same_window (counted : s.Counted) (a : Agent)
    (same : slotWindow p.slot = slotWindow (s.router.paths.get a).slot) (ctxs : t.ctxs = s.ctxs)
    (paths : t.router.paths = s.router.paths.set a p) : t.Counted := by
  intro v
  have sums := countP_allAgents_set (fun q : Path => slotWindow q.slot == some v) s.router.paths a p
  have old := counted v
  rw [ctxs, paths]
  rw [same] at sums
  omega

/-- Contexts change that keep their in-flight count. -/
theorem State.Counted.same_inflight (counted : s.Counted)
    (same : ∀ w, (t.ctxs.get w).inflight = (s.ctxs.get w).inflight)
    (slots : ∀ a, (t.router.paths.get a).slot = (s.router.paths.get a).slot) : t.Counted := by
  intro w
  simp only [same, slots]
  exact counted w

theorem State.Counted.admitted (counted : s.Counted) (a : Agent) (x : Access)
    (empty : (s.router.paths.get a).slot = .empty) :
    State.Counted ((s.updCtx x.window fun c => { c with inflight := c.inflight + 1 }).updPath a fun p =>
      { p with slot := .queued x, admission := none }) :=
  counted.replace x.window a rfl rfl (by simp [empty, slotWindow, bit]) fun v ne => by
    simp [empty, slotWindow, ne]

/-- An access leaves its slot with its completion. -/
theorem State.Counted.completed (counted : s.Counted) (a : Agent) (x : Access)
    (slot : slotWindow (s.router.paths.get a).slot = some x.window) (empty : p.slot = .empty)
    (ctxs : t.ctxs = s.ctxs.set x.window (s.ctxs.get x.window).complete)
    (paths : t.router.paths = s.router.paths.set a p) : t.Counted := by
  have none : slotWindow p.slot = none := by
    rw [empty]
    rfl
  refine counted.replace x.window a ctxs paths ?_ fun v ne => by simp [none, slot, ne]
  · have some : 1 ≤ (s.ctxs.get x.window).inflight := by
      rw [counted]
      exact List.countP_pos_iff.mpr ⟨a, List.mem_finRange a, by simp [slot]⟩
    simp only [LeaseCtx.complete, none, slot, bit, beq_self_eq_true, if_true, reduceCtorEq, beq_iff_eq, if_false]
    omega

/-! ### The bus -/

/-- The access whose transfer a slot has on the bus. -/
def Slot.running (x : Slot) : Option Access :=
  match x with
  | .active x _ => some x
  | .empty | .queued _ => none

theorem isActive_eq_running (x : Slot) : isActive x = x.running.isSome := by cases x <;> rfl

theorem exists_active_iff (x : Slot) (P : Access → Prop) :
    (∃ y d, x = .active y d ∧ P y) ↔ ∃ y, x.running = some y ∧ P y := by
  cases x <;> simp [Slot.running]

/-- What the lines carry for the access on the bus (R139). -/
def Access.lines (x : Access) : Lines :=
  .transfer x.target x.targetAddr x.cycle.write x.cycle.size x.cycle.data

/-- The access of the port's slot that is on the bus. -/
def Router.running (r : Router) (a : Agent) : Option Access := (r.paths.get a).slot.running

/-- The bus is as it should be, by the accesses on it. -/
theorem busOk_iff (r : Router) :
    busOk r ↔ match r.bus with
      | .ownedIdle => r.lines = .idle ∧ r.limit = none ∧ ∀ a, r.running a = none
      | .lent => r.lines = .floating ∧ r.limit = none ∧ ∀ a, r.running a = none
      | .transfer a | .releasing a =>
        (∃ x, r.running a = some x ∧ r.lines = x.lines) ∧ r.limit.isSome = true ∧ ∀ b, b ≠ a → r.running b = none := by
  unfold busOk
  cases r.bus <;>
  · simp only [isActive_eq_running, Option.isSome_eq_false_iff, Option.isNone_iff_eq_none, exists_active_iff]
    rfl

/-- The bus does not see what is in the slots beside the access on it. -/
theorem busOk_of_running (ok : busOk r) (bus : r'.bus = r.bus) (lines : r'.lines = r.lines)
    (limit : r'.limit.isSome = r.limit.isSome) (running : ∀ a, r'.running a = r.running a) : busOk r' := by
  rw [busOk_iff] at ok ⊢
  have none : r'.limit = none ↔ r.limit = none := by
    rw [← Option.isSome_eq_false_iff.trans Option.isNone_iff_eq_none, limit]
    exact Option.isSome_eq_false_iff.trans Option.isNone_iff_eq_none
  simpa only [bus, lines, limit, none, running] using ok

theorem Router.running_set (r : Router) (a : Agent) (p : Path) (b : Agent) :
    Router.running { r with paths := r.paths.set a p } b = if a = b then p.slot.running else r.running b := by
  simp only [Router.running, Tbl.get_set]
  split <;> rfl

/-- A slot changes that is not on the bus, or whose access stays on it. -/
theorem busOk_set_path (ok : busOk r) (a : Agent) (same : p.slot.running = r.running a) :
    busOk { r with paths := r.paths.set a p } := by
  refine busOk_of_running ok rfl rfl rfl fun b => ?_
  rw [Router.running_set]
  split
  · rename_i e
    rw [same, e]
  · rfl

theorem busOk_request (ok : busOk r) : busOk r.request := by
  unfold Router.request
  rw [busOk_iff] at ok ⊢
  cases bus : r.bus <;> simp only [bus] at ok ⊢
  · exact ⟨trivial, ok.2⟩
  all_goals exact ok

theorem busOk_withdraw (ok : busOk r) : busOk r.withdraw := by
  unfold Router.withdraw
  rw [busOk_iff] at ok ⊢
  cases bus : r.bus <;> simp only [bus] at ok ⊢
  case lent => exact ⟨trivial, ok.2⟩
  all_goals exact ok

theorem busOk_start (ok : busOk s.router) (a : Agent) (x : Access) (idle : s.router.bus = .ownedIdle) :
    busOk (s.startTransfer a x).router := by
  rw [busOk_iff] at ok ⊢
  simp only [idle] at ok
  obtain ⟨-, -, none⟩ := ok
  refine ⟨⟨x, ?_, rfl⟩, rfl, fun b ne => ?_⟩
  · exact (Router.running_set _ a _ a).trans (if_pos rfl)
  · exact ((Router.running_set _ a _ b).trans (if_neg (Ne.symm ne))).trans (none b)

/-- The transfer of a port's access ends, and its slot is emptied. -/
theorem busOk_complete (ok : busOk r) (a : Agent) (bus : r.bus = .transfer a ∨ r.bus = .releasing a)
    (empty : p.slot = .empty) : busOk { r.afterTransfer with paths := r.afterTransfer.paths.set a p } := by
  have none (rest : ∀ b, b ≠ a → r.running b = none) (b : Agent) :
      Router.running { r with paths := r.paths.set a p } b = none := by
    rw [Router.running_set]
    split
    · rw [empty]
      rfl
    · rename_i ne
      exact rest b (Ne.symm ne)
  rw [busOk_iff] at ok ⊢
  unfold Router.afterTransfer
  rcases bus with bus | bus <;>
  · simp only [bus] at ok ⊢
    exact ⟨trivial, trivial, none ok.2.2⟩

/-! ### The law -/

theorem dataPathLaw_iff (s : State) :
    DataPathLaw s ↔
      s.Counted ∧ (∀ a, (s.router.paths.get a).admission.isSome = true → (s.router.paths.get a).slot = .empty) ∧
        busOk s.router := Iff.rfl

theorem LeaseCtx.inflight_upgradeEnded (c : LeaseCtx) : c.upgradeEnded.inflight = c.inflight := by
  unfold LeaseCtx.upgradeEnded
  split <;> rfl

/-- A context changes that keeps its in-flight count. -/
theorem dataPathLaw_ctx (law : DataPathLaw s) (w : WindowId) (same : c.inflight = (s.ctxs.get w).inflight) :
    DataPathLaw { s with ctxs := s.ctxs.set w c } := by
  obtain ⟨counted, admissions, ok⟩ := law
  refine ⟨State.Counted.same_inflight (s := s) counted (fun v => ?_) fun _ => rfl, admissions, ok⟩
  show ((s.ctxs.set w c).get v).inflight = _
  rw [Tbl.get_set]
  split
  · rename_i e
    rw [← e, same]
  · rfl

theorem Change.keeps_dataPathLaw (ch : Change g s t) (law : DataPathLaw s) : DataPathLaw t := by
  obtain ⟨counted, admissions, ok⟩ := (dataPathLaw_iff s).mp law
  cases ch
  case closing w p opened waits gentle =>
    rw [upgradeClosed_frame, upgradeClosed_ctxs]
    exact dataPathLaw_ctx law w (LeaseCtx.inflight_upgradeEnded _)
  case reach now =>
    refine ⟨State.Counted.same_inflight (s := s) counted (fun w => ?_) fun _ => rfl, admissions, ok⟩
    simp only [Tbl.get_map]
    rfl
  case countDown => exact ⟨counted, admissions, busOk_of_running ok rfl rfl (by simp) fun _ => rfl⟩
  case grant a w m once asked _ _ _ _ => exact dataPathLaw_ctx law w rfl
  case queue a w x _ _ _ _ _ _ => exact dataPathLaw_ctx law w rfl
  case upgrade a w x _ _ _ => exact dataPathLaw_ctx law w rfl
  case pend a w x d _ _ _ _ _ _ _ => exact dataPathLaw_ctx law w rfl
  case grantHead w x xs payload _ _ _ => exact dataPathLaw_ctx law w rfl
  case grantUpgrade w x payload _ _ => exact dataPathLaw_ctx law w rfl
  case hold w a f _ => exact dataPathLaw_ctx law w rfl
  case endHold w x cause reason _ _ =>
    rw [endHold_frame, endHold_ctxs]
    exact dataPathLaw_ctx law w rfl
  case endWait w a status _ => exact dataPathLaw_ctx law w rfl
  case dropWait w a _ _ => exact dataPathLaw_ctx law w rfl
  case abandonWait a w code payload _ => exact dataPathLaw_ctx law w rfl
  case endUpgrade w x status _ _ => exact dataPathLaw_ctx law w rfl
  case abandonUpgrade a w code payload _ => exact dataPathLaw_ctx law w rfl
  case path a f quiet =>
    refine ⟨counted.same_window a (congrArg slotWindow quiet.slot) rfl rfl, ?_,
      busOk_set_path ok a (congrArg Slot.running quiet.slot)⟩
    refine Tbl.forall_set (P := fun p : Path => p.admission.isSome = true → p.slot = .empty) (fun some => ?_) admissions
    rw [quiet.slot]
    exact (quiet.admission some).elim (admissions a) id
  case discard a x d slot =>
    refine ⟨counted.same_window a (by simp [slot, slotWindow]) rfl rfl, ?_,
      busOk_set_path ok a (by simp [Router.running, slot, Slot.running])⟩
    refine Tbl.forall_set (P := fun p : Path => p.admission.isSome = true → p.slot = .empty) (fun some => ?_) admissions
    exact absurd ((admissions a some).symm.trans slot) (by simp)
  case turn pointer breq => exact ⟨counted, admissions, busOk_of_running ok rfl rfl rfl fun _ => rfl⟩
  case request =>
    have paths : s.router.request.paths = s.router.paths := by
      unfold Router.request
      split <;> rfl
    refine ⟨counted.same_inflight (fun _ => rfl) fun a => ?_, fun a => ?_, busOk_request ok⟩
    · exact congrArg (fun tbl : Tbl Path 4 => (tbl.get a).slot) paths
    · show (s.router.request.paths.get a).admission.isSome = true → (s.router.request.paths.get a).slot = .empty
      rw [paths]
      exact admissions a
  case withdraw =>
    have paths : s.router.withdraw.paths = s.router.paths := by
      unfold Router.withdraw
      split <;> rfl
    refine ⟨counted.same_inflight (fun _ => rfl) fun a => ?_, fun a => ?_, busOk_withdraw ok⟩
    · exact congrArg (fun tbl : Tbl Path 4 => (tbl.get a).slot) paths
    · show (s.router.withdraw.paths.get a).admission.isSome = true → (s.router.withdraw.paths.get a).slot = .empty
      rw [paths]
      exact admissions a
  case admitted a x admission =>
    have empty := admissions a admission
    refine ⟨counted.admitted a x empty, ?_, busOk_set_path ok a (by simp [Router.running, empty, Slot.running])⟩
    exact Tbl.forall_set (P := fun p : Path => p.admission.isSome = true → p.slot = .empty)
      (fun some => Bool.noConfusion some) admissions
  case start a x idle slot =>
    refine ⟨counted.same_window a (by simp [slot, slotWindow]) rfl rfl, ?_, busOk_start ok a x idle⟩
    refine Tbl.forall_set (P := fun p : Path => p.admission.isSome = true → p.slot = .empty) (fun some => ?_) admissions
    exact absurd ((admissions a some).symm.trans slot) (by simp)
  case complete a x d bus slot =>
    have paths : s.router.afterTransfer.paths = s.router.paths := by
      unfold Router.afterTransfer
      split <;> rfl
    refine ⟨counted.completed a x (by rw [slot]; rfl) rfl rfl (congrArg (Tbl.set · a _) paths), ?_,
      busOk_complete ok a bus rfl⟩
    show ∀ b, ((s.router.afterTransfer.paths.set a _).get b).admission.isSome = true →
      ((s.router.afterTransfer.paths.set a _).get b).slot = .empty
    rw [paths]
    exact Tbl.forall_set (P := fun p : Path => p.admission.isSome = true → p.slot = .empty) (fun _ => rfl) admissions
  case drop a x slot =>
    refine ⟨counted.completed a x (by rw [slot]; rfl) rfl rfl rfl, ?_,
      busOk_set_path ok a (by simp [Router.running, slot, Slot.running])⟩
    exact Tbl.forall_set (P := fun p : Path => p.admission.isSome = true → p.slot = .empty) (fun _ => rfl) admissions
  all_goals exact law

theorem dataPathLaw_resetWith (pins : Pins) (transfers free : Nat) (pending : List Instr) :
    DataPathLaw (State.resetWith pins transfers free pending) := by
  refine ⟨fun w => ?_, fun a => ?_, ?_⟩
  · simp only [State.resetWith, Tbl.get_fill, LeaseCtx.reset, Router.reset, Path.reset]
    exact (List.countP_eq_zero.mpr fun a _ => by simp [slotWindow]).symm
  · simp [State.resetWith, Router.reset, Path.reset]
  · simp [busOk, State.resetWith, Router.reset, Path.reset, isActive]

/-- Settles O58. -/
theorem stepKeepsDataPathLaw : Obligations.StepKeepsDataPathLaw := by
  intro s t law stepped
  exact step_keeps (fun _ _ _ => Change.keeps_dataPathLaw) (fun s _ => dataPathLaw_resetWith _ _ _ _) (fun _ _ h => h)
    law stepped

end Sys2Proof.Machine
end

