-- ==== Sys2Proof/Proofs/ResetLow.lean ====
section
/-! PROOF. What the commands do while RESETn is low: frames and agent cycles are not taken, events find nothing to
act on, and the input pins are followed (O60). -/

namespace Sys2Proof.Machine

open Sys2Proof.Safety

variable {s t : State} {pins : Pins} {transfers free : Nat} {pending : List Instr}

/-! ### Commands that come from outside -/

/-- Every frame is taken by the MP, or not at all. -/
theorem exec_frame {i : Instr} (frame : isFrame i = true) : ∃ f, ∀ s, exec i s = .next (s.onFrame f) := by
  cases i
  case configureDevice | start | stop | readDevice | takeAttention | configureTarget | removeTarget | wakeTarget
    | parkTarget | recoverTarget | readTarget | defineWindow | amendWindow | openWindow | closeWindow | retireWindow
    | readWindow | readLeases | revokeLease | setQuota | readPool | unknownRequest | badFrame | ignoredFrame
    | fetch => exact ⟨_, fun _ => rfl⟩
  all_goals exact absurd frame Bool.false_ne_true

theorem not_takesFrames (h : s.resetn = false ∨ s.mgmt.msel = false) : ¬takesFrames s := by
  rintro ⟨resetn, msel⟩
  rcases h with h | h
  · rw [resetn] at h
    cases h
  · rw [msel] at h
    cases h

/-- A frame that is not taken is one edge of MSEL. -/
theorem exec_frame_not_taken {i : Instr} (frame : isFrame i = true) (h : s.resetn = false ∨ s.mgmt.msel = false) :
    exec i s = .next { s with mgmt := { s.mgmt with msel := !s.mgmt.msel, mso := [] } } := by
  obtain ⟨f, taken⟩ := exec_frame frame
  rw [taken, onFrame_not_taken s f (not_takesFrames h)]

theorem request_shut {a : Agent} (shut : s.busShut a = true) (code : Byte) (bytes : List Byte) :
    s.request a code bytes = s := if_pos shut

theorem controlCycle_shut {a : Agent} (shut : s.busShut a = true) (offset : Half) (write : Bool) (size : Nat)
    (data : List Byte) : s.controlCycle a offset write size data = s := if_pos shut

theorem offerCycle_shut {a : Agent} (shut : s.busShut a = true) (c : BusCycle) : s.offerCycle a c = s :=
  if_pos (.inl shut)

/-- No agent cycle is answered on a port whose bus is shut. -/
theorem exec_cycle_shut {i : Instr} {a : Agent} (cycle : cycleAgent i = some a) (shut : s.busShut a = true) :
    exec i s = .next s := by
  cases i
  case acquire | release | downgrade | upgrade | renew | abandon | queryWindow | readFault | takeNotice | setNotices
    | unknownCommit =>
    cases cycle
    exact congrArg _ (request_shut shut _ _)
  case commitRefused =>
    cases cycle
    exact congrArg _ (if_pos shut)
  case controlApertureWrite | badControlCycle =>
    cases cycle
    exact congrArg _ (controlCycle_shut shut _ _ _ _)
  case dataCycle b c =>
    cases cycle
    simp only [exec, execDataCycle, controlCycle_shut shut, offerCycle_shut shut, ite_self]
  all_goals exact absurd cycle nofun

theorem busShut_of_low (low : s.resetn = false) (a : Agent) : s.busShut a = true := by
  simp [State.busShut, low]

/-! ### The reset values -/

/-- The reset values are the state that device reset gives, with the input pins as they stand. -/
theorem resetValues_iff (s : State) : resetValues s ↔ s = s.deviceReset s.resetn := by
  constructor
  · rintro ⟨windows, ctxs, quotas, targets, bus, pointer, limit, lines, bgnt, paths, ports, running, fill, lending,
      mask,       attention, attn, result, handed, mso, tb, outcomes, reports⟩
    have hwindows : s.windows = Tbl.fill 32 Window.empty := Tbl.ext_get fun w => by simp [windows w, Window.empty]
    have hctxs : s.ctxs = Tbl.fill 32 LeaseCtx.reset := Tbl.ext_get fun w => by simp [ctxs w, LeaseCtx.reset]
    have hquotas : s.quotas = Tbl.fill 4 8 := Tbl.ext_get fun a => by simp [(quotas a).1]
    have hinUse : s.inUse = Tbl.fill 4 0 := Tbl.ext_get fun a => by simp [(quotas a).2]
    have htargets : s.targets = Tbl.fill 8 Target.reset := Tbl.ext_get fun i => by simp [targets i, Target.reset]
    have hpaths : s.router.paths = Tbl.fill 4 Path.reset := Tbl.ext_get fun a => by simp [paths a]
    have hports : s.ports = (s.ports.map fun p => p.prstn).map Port.reset := Tbl.ext_get fun a => by
      obtain ⟨request, response, refused, notices, config, fault, airqn, responses, handed, ended, owed, state⟩ :=
        ports a
      simp only [Tbl.get_map, Port.reset]
      rw [Port.mk.injEq]
      exact ⟨state, request, response, refused, notices, config, fault, airqn, rfl, owed, ended, responses, handed⟩
    have hrouter : s.router = Router.reset s.router.breq := by
      rw [Router.mk.injEq]
      exact ⟨hpaths, bus, pointer, limit, lines, bgnt, rfl⟩
    have hmgmt : s.mgmt = Mgmt.reset s.mgmt.msel := by
      rw [Mgmt.mk.injEq]
      exact ⟨running, fill, lending, mask, attention, attn, result, rfl, mso, handed⟩
    rw [State.mk.injEq]
    exact ⟨rfl, hwindows, hctxs, hquotas, hinUse, htargets, hrouter, hports, hmgmt, tb, outcomes, reports, rfl, rfl,
      rfl⟩
  · intro h
    rw [h]
    simp [resetValues, State.deviceReset, State.resetWith, Window.empty, LeaseCtx.reset, Target.reset, Router.reset,
      Port.reset, RequestRecord.reset, ResponseRecord.reset, NoticeConfig.reset, Mgmt.reset, ResultRecord.reset,
      TimeBase.reset]

theorem resetValues_resetWith (pins : Pins) (transfers free : Nat) (pending : List Instr) :
    resetValues (State.resetWith pins transfers free pending) := by
  rw [resetValues_iff]
  simp only [State.deviceReset, State.resetWith, Mgmt.reset, Router.reset]
  congr 1
  exact Tbl.ext_get fun a => by simp [Port.reset]

/-- A state at its reset values, written as what device reset makes. -/
theorem exists_resetWith (values : resetValues s) :
    ∃ pins transfers free pending, s = State.resetWith pins transfers free pending ∧ pins.resetn = s.resetn :=
  ⟨_, _, _, _, (resetValues_iff s).mp values, rfl⟩

/-- The records of a state at its reset values, which events find nothing in to act on. -/
theorem held_records (values : resetValues s) :
    (∀ w, s.windows.get w = Window.empty) ∧ (∀ w, s.ctxs.get w = LeaseCtx.reset) ∧
      (∀ i, s.targets.get i = Target.reset) ∧ (∀ a, s.router.paths.get a = Path.reset) ∧
      s.router.bus = .ownedIdle ∧ s.mgmt.lending = false ∧ s.mgmt.handed = [] ∧ s.tb = TimeBase.reset ∧
      s.outcomes = [] ∧ s.emptyReports = [] ∧
      ∀ a, (s.ports.get a).responses = [] ∧ (s.ports.get a).handed = [] := by
  obtain ⟨pins, transfers, free, pending, rfl, -⟩ := exists_resetWith values
  simp [State.resetWith, Router.reset, Mgmt.reset, Port.reset]

/-- Events that answer, expire or hand over find nothing at the reset values. -/
theorem exec_event_held (values : resetValues s) :
    (∀ a q, exec (.addressDecode a q) s = .next s) ∧ (∀ a, exec (.admissionClaim a) s = .next s) ∧
      (∀ x, exec (.tack x) s = .next s) ∧ (∀ x, exec (.terr x) s = .next s) ∧
      (∀ b, exec (.responseLimit b) s = .next s) ∧ exec .outcomeReport s = .next s ∧ exec .tick s = .next s ∧
      exec .microsecondStep s = .next s ∧ (∀ w a, exec (.expiry w a) s = .next s) ∧
      (∀ w a, exec (.warningTime w a) s = .next s) ∧ (∀ w a, exec (.waitDeadline w a) s = .next s) ∧
      (∀ w, exec (.closeDeadline w) s = .next s) ∧ (∀ i, exec (.wakeTimeExpiry i) s = .next s) ∧
      (∀ i, exec (.parkTimeExpiry i) s = .next s) ∧ (∀ i, exec (.parkDelayExpiry i) s = .next s) ∧
      (∀ w, exec (.emptyContextReport w) s = .next s) ∧ (∀ a, exec (.responseHandoff a) s = .next s) ∧
      (∀ a k, exec (.noticeHandoff a k) s = .next s) ∧ ∀ k, exec (.attentionHandoff k) s = .next s := by
  obtain ⟨windows, ctxs, targets, paths, bus, lending, attention, tb, outcomes, reports, ports⟩ := held_records values
  have ended (o : Outcome) (beats : Tbl (BitVec 32) 8) (first : Bool) : s.endTransfer o beats first = s := by
    simp [State.endTransfer, bus]
  refine ⟨fun a q => ?_, fun a => ?_, fun x => ?_, fun x => ?_, fun b => ?_, ?_, ?_, ?_, fun w a => ?_, fun w a => ?_,
    fun w a => ?_, fun w => ?_, fun i => ?_, fun i => ?_, fun i => ?_, fun w => ?_, fun a => ?_, fun a k => ?_,
    fun k => ?_⟩
  · simp [exec, execAddressDecode, paths, Path.reset]
  · simp [exec, execAdmissionClaim, paths, Path.reset]
  · simp [exec, execTack, ended]
  · simp [exec, execTerr, ended]
  · simp [exec, execResponseLimit, ended]
  · simp [exec, execOutcomeReport, outcomes]
  · simp [exec, execTick, tb, TimeBase.reset]
  · simp [exec, execMicrosecondStep, tb, TimeBase.reset]
  · simp [exec, execExpiry, ctxs, LeaseCtx.reset, LeaseCtx.holdOf]
  · simp [exec, execWarningTime, ctxs, LeaseCtx.reset, LeaseCtx.holdOf]
  · simp [exec, execWaitDeadline, ctxs, LeaseCtx.reset, LeaseCtx.holdOf, LeaseCtx.waitOf]
  · simp [exec, execCloseDeadline, windows, Window.empty]
  · simp [exec, execWakeTimeExpiry, targets, Target.reset]
  · simp [exec, execParkTimeExpiry, targets, Target.reset]
  · simp [exec, execParkDelayExpiry, targets, Target.reset]
  · simp [exec, execEmptyContextReport, reports]
  · simp [exec, execResponseHandoff, ports]
  · simp [exec, execNoticeHandoff, ports]
  · simp [exec, execAttentionHandoff, attention]

/-! ### The input pins -/

/-- A port command while RESETn is low is a level of PRSTn. -/
theorem exec_level_low (low : s.resetn = false) (a : Agent) :
    exec (.portReset a) s = .next (s.setPrstn a false) ∧ exec (.accessDrop a) s = .next (s.setPrstn a false) ∧
      exec (.prstnRise a) s = .next (s.setPrstn a true) := by
  simp [exec, execPortReset, execAccessDrop, execPrstnRise, low]

theorem exec_breq_held (values : resetValues s) :
    exec .busRequest s = .next { s with router := { s.router with breq := true } } ∧
      exec .withdrawal s = .next { s with router := { s.router with breq := false } } := by
  obtain ⟨pins, transfers, free, pending, rfl, -⟩ := exists_resetWith values
  cases breq : pins.breq <;>
  · simp [exec, execBusRequest, execWithdrawal, State.resetWith, Router.reset, Mgmt.reset, State.updRouter, breq]

theorem resetValues_setPrstn (values : resetValues s) (a : Agent) (high : Bool) :
    resetValues (s.setPrstn a high) := by
  obtain ⟨pins, transfers, free, pending, rfl, -⟩ := exists_resetWith values
  have level : (State.resetWith pins transfers free pending).setPrstn a high =
      State.resetWith { pins with prstn := pins.prstn.set a high } transfers free pending := by
    simp only [State.setPrstn, State.updPort, State.resetWith]
    congr 1
    refine Tbl.ext_get fun b => ?_
    simp only [Tbl.get_set, Tbl.get_map]
    split <;> rfl
  rw [level]
  exact resetValues_resetWith _ _ _ _

theorem resetValues_breq (values : resetValues s) (breq : Bool) :
    resetValues { s with router := { s.router with breq := breq } } := by
  obtain ⟨pins, transfers, free, pending, rfl, -⟩ := exists_resetWith values
  exact resetValues_resetWith { pins with breq := breq } transfers free pending

theorem resetValues_msel (values : resetValues s) (msel : Bool) :
    resetValues { s with mgmt := { s.mgmt with msel := msel, mso := [] } } := by
  obtain ⟨pins, transfers, free, pending, rfl, -⟩ := exists_resetWith values
  exact resetValues_resetWith { pins with msel := msel } transfers free pending

/-! ### RESETn low -/

/-- Every command but an edge of RESETn leaves the reset values in place while RESETn is low. -/
theorem exec_keeps_resetValues {i : Instr} (low : s.resetn = false) (values : resetValues s) (edge : i ≠ .deviceReset)
    (stepped : exec i s = .next t) : resetValues t := by
  have stays (same : exec i s = .next s) : resetValues t := by
    rw [same] at stepped
    cases stepped
    exact values
  by_cases frame : isFrame i = true
  · rw [exec_frame_not_taken frame (.inl low)] at stepped
    cases stepped
    exact resetValues_msel values _
  by_cases cycle : ∃ a, cycleAgent i = some a
  · obtain ⟨a, cycle⟩ := cycle
    exact stays (exec_cycle_shut cycle (busShut_of_low low a))
  obtain ⟨decode, claim, tack, terr, limit, report, tick, micro, expiry, warning, wait, close, wake, park, delay, empty,
    response, notice, attention⟩ := exec_event_held values
  cases i
  case portReset a =>
    cases (exec_level_low low a).1.symm.trans stepped
    exact resetValues_setPrstn values a false
  case accessDrop a =>
    cases (exec_level_low low a).2.1.symm.trans stepped
    exact resetValues_setPrstn values a false
  case prstnRise a =>
    cases (exec_level_low low a).2.2.symm.trans stepped
    exact resetValues_setPrstn values a true
  case busRequest =>
    cases (exec_breq_held values).1.symm.trans stepped
    exact resetValues_breq values true
  case withdrawal =>
    cases (exec_breq_held values).2.symm.trans stepped
    exact resetValues_breq values false
  case deviceReset => exact absurd rfl edge
  case addressDecode a q => exact stays (decode a q)
  case admissionClaim a => exact stays (claim a)
  case tack x => exact stays (tack x)
  case terr x => exact stays (terr x)
  case responseLimit b => exact stays (limit b)
  case outcomeReport => exact stays report
  case tick => exact stays tick
  case microsecondStep => exact stays micro
  case expiry w a => exact stays (expiry w a)
  case warningTime w a => exact stays (warning w a)
  case waitDeadline w a => exact stays (wait w a)
  case closeDeadline w => exact stays (close w)
  case wakeTimeExpiry x => exact stays (wake x)
  case parkTimeExpiry x => exact stays (park x)
  case parkDelayExpiry x => exact stays (delay x)
  case emptyContextReport w => exact stays (empty w)
  case responseHandoff a => exact stays (response a)
  case noticeHandoff a k => exact stays (notice a k)
  case attentionHandoff k => exact stays (attention k)
  case acquire | release | downgrade | upgrade | renew | abandon | queryWindow | readFault | takeNotice | setNotices
    | unknownCommit | commitRefused | controlApertureWrite | badControlCycle | dataCycle => exact absurd ⟨_, rfl⟩ cycle
  all_goals exact absurd rfl frame

/-- Settles O60. -/
theorem nothingTakenWhileResetLow : Obligations.NothingTakenWhileResetLow := by
  refine ⟨fun i s frame low => exec_frame_not_taken frame low,
    fun i a s cycle low => exec_cycle_shut cycle (busShut_of_low low a), fun s low values => ?_, fun s a low => ?_,
    fun s low => ⟨?_, fun a => ?_, fun values => ?_⟩⟩
  · obtain ⟨-, -, tack, terr, -⟩ := exec_event_held values
    exact ⟨tack, terr, exec_breq_held values⟩
  · exact exec_level_low low a
  · simp [msoDriven, low]
  · simp [dataDriven, low]
  · obtain ⟨pins, transfers, free, pending, rfl, -⟩ := exists_resetWith values
    simp [State.resetWith, Mgmt.reset, Port.reset, Target.reset, Router.reset, tselLevel]

end Sys2Proof.Machine
end

