-- ==== Sys2Proof/Proofs/TimeLaw.lean ====
section
/-! PROOF. Every step keeps the Time Base lawful, and the reset values in place while RESETn is low (O59). -/

namespace Sys2Proof.Machine

open Sys2Proof.Safety

variable {g : Option Agent} {s t : State} {tb tb' : TimeBase}

/-! ### The Time Base -/

/-- The law of the Time Base, of the record alone. -/
def TimeBase.Lawful (tb : TimeBase) : Prop :=
  tb.steps ≤ 1000 ∧ (tb.divisor = none → tb.tick = 0 ∧ tb.steps = 0 ∧ tb.position = 0) ∧
    ∀ d, tb.divisor = some d →
      1000 ≤ d.toNat ∧ d.toNat ≤ 50000 ∧ (tb.steps = 1000 → tb.position = d.toNat) ∧
        1000 * tb.position ≤ tb.steps * d.toNat + 1000 ∧ tb.steps * d.toNat ≤ 1000 * tb.position + 1000

theorem timeLaw_iff (s : State) : TimeLaw s ↔ s.tb.Lawful := Iff.rfl

/-- A free value kept between bounds stays between them. -/
theorem le_stepMoment_free {low high n : Nat} (ordered : low ≤ high) :
    low ≤ low + n % (high + 1 - low) ∧ low + n % (high + 1 - low) ≤ high := by
  have := Nat.mod_lt n (y := high + 1 - low) (by omega)
  omega

/-- A step's moment is exact where the divisor is a multiple of 1000 and for the last step, and otherwise within one
REFCLK period of the exact moment (R65). -/
theorem stepMoment_bounds (d k last draw : Nat) (inRange : last ≤ (k * d + 1000) / 1000) :
    (d % 1000 = 0 ∨ k = 1000 → stepMoment d k last draw = k * d / 1000) ∧
      1000 * stepMoment d k last draw ≤ k * d + 1000 ∧ k * d ≤ 1000 * stepMoment d k last draw + 1000 := by
  unfold stepMoment
  split
  · exact ⟨fun _ => rfl, by omega, by omega⟩
  · rename_i inexact
    refine ⟨fun exact => absurd exact inexact, ?_⟩
    have bounds := le_stepMoment_free (low := max last ((k * d - 1) / 1000)) (high := (k * d + 1000) / 1000)
      (n := Config.freeMoment draw) (by omega)
    dsimp only
    omega

theorem TimeBase.lawful_of_new_tick {d : Half} (low : 1000 ≤ d.toNat) (high : d.toNat ≤ 50000) (n : Tick) :
    TimeBase.Lawful { divisor := some d, tick := n, position := 0, steps := 0 } := by
  refine ⟨Nat.zero_le _, fun none => by simp at none, fun x e => ?_⟩
  cases e
  simp [low, high]

theorem TimeBase.Next.lawful (next : tb.Next tb') (law : tb.Lawful) : tb'.Lawful := by
  obtain ⟨steps, unset, ranges⟩ := law
  cases next with
  | divisor d low high =>
    unfold TimeBase.setDivisor
    split
    · exact ⟨steps, unset, ranges⟩
    · exact lawful_of_new_tick low high _
  | tick set =>
    obtain ⟨d, set⟩ := Option.isSome_iff_exists.mp set
    obtain ⟨low, high, -⟩ := ranges d set
    rw [set]
    exact lawful_of_new_tick low high _
  | step d draw set more =>
    obtain ⟨low, high, -, upper, lower⟩ := ranges d set
    refine ⟨more, fun none => ?_, fun x e => ?_⟩
    · rw [set] at none
      cases none
    · cases set.symm.trans e
      have product : (tb.steps + 1) * d.toNat = tb.steps * d.toNat + d.toNat := Nat.succ_mul _ _
      obtain ⟨exact, below, above⟩ := stepMoment_bounds d.toNat (tb.steps + 1) tb.position draw (by omega)
      refine ⟨low, high, fun last => ?_, below, above⟩
      show stepMoment _ _ _ _ = _
      rw [exact (.inr last), show tb.steps + 1 = 1000 from last]
      omega

theorem Change.keeps_timeLaw (ch : Change g s t) (law : TimeLaw s) : TimeLaw t := by
  cases ch
  case time tb next => exact next.lawful law
  case stop =>
    rw [timeLaw_iff]
    simpa using (timeLaw_iff s).mp law
  case closing w p _ _ _ =>
    rw [upgradeClosed_frame]
    exact law
  case endHold w x cause reason _ _ =>
    rw [endHold_frame]
    exact law
  all_goals exact law

theorem timeLaw_resetWith (pins : Pins) (transfers free : Nat) (pending : List Instr) :
    TimeLaw (State.resetWith pins transfers free pending) :=
  ⟨Nat.zero_le _, fun _ => ⟨rfl, rfl, rfl⟩, fun _ e => nomatch e⟩

/-! ### RESETn -/

/-- Only its own edge changes RESETn. -/
theorem Change.resetn (ch : Change g s t) : t.resetn = s.resetn := by
  cases ch
  case closing =>
    rw [upgradeClosed_frame]
    rfl
  case endHold => rw [endHold_frame]
  all_goals rfl

theorem Changes.resetn (changes : Changes g s t) : t.resetn = s.resetn := by
  induction changes with
  | refl => rfl
  | tail _ last ih => exact last.resetn.trans ih

theorem exec_resetn {i : Instr} (edge : i ≠ .deviceReset) (stepped : exec i s = .next t) : t.resetn = s.resetn := by
  obtain ⟨u, taken, changes⟩ := exec_changes i s edge
  cases taken.symm.trans stepped
  exact changes.resetn

theorem exec_keeps_resetLaw {i : Instr} (law : ResetLaw s) (stepped : exec i s = .next t) : ResetLaw t := by
  intro low
  by_cases edge : i = .deviceReset
  · subst edge
    cases stepped
    exact resetValues_resetWith _ _ _ _
  · have low' : s.resetn = false := (exec_resetn edge stepped).symm.trans low
    exact exec_keeps_resetValues low' (law low') edge stepped

theorem step_keeps_resetLaw (law : ResetLaw s) (stepped : step s = .next t) : ResetLaw t := by
  unfold step at stepped
  split at stepped
  · cases stepped
    exact law
  · rename_i rest _
    exact exec_keeps_resetLaw (s := { s with pending := rest }) law stepped

theorem resetLaw_resetWith (pins : Pins) (transfers free : Nat) (pending : List Instr) :
    ResetLaw (State.resetWith pins transfers free pending) := fun _ => resetValues_resetWith _ _ _ _

/-- Settles O59. -/
theorem stepKeepsTimeAndResetLaws : Obligations.StepKeepsTimeAndResetLaws := by
  refine ⟨fun s t law stepped => ?_, fun s t law stepped => step_keeps_resetLaw law stepped⟩
  exact step_keeps (fun _ _ _ => Change.keeps_timeLaw) (fun s _ => timeLaw_resetWith _ _ _ _) (fun _ _ h => h) law
    stepped

end Sys2Proof.Machine
end

