-- ==== Sys2Proof/Proofs/PortFall.lean ====
section
/-! PROOF. The Lease Engine's step at a port reset, window by window: what each leaves unchanged, and that the agent's
leases are gone after it. -/

namespace Sys2Proof.Machine

open Sys2Proof.Safety

variable {s t u : State} {st : WindowState} {c : LeaseCtx} {a : Agent} {w : WindowId}

/-! ### An agent without a lease -/

theorem LeaseCtx.without_iff_leases (c : LeaseCtx) (a : Agent) : c.without a ↔ c.leases a = 0 := by
  rw [without_iff, leases, Nat.add_eq_zero_iff, List.countP_eq_zero, List.countP_eq_zero]
  simp only [beq_iff_eq]

theorem LeaseCtx.Lawful.leases_le_one (h : c.Lawful st) (a : Agent) : c.leases a ≤ 1 := by
  have one := List.nodup_iff_count.mp h.distinct a
  rw [List.count, List.countP_append, List.countP_map, List.countP_map] at one
  exact one

theorem LeaseCtx.Lawful.dropHold_without (law : c.Lawful st) {h : Hold} (held : c.holdOf h.agent = some h)
    (cause : Cause) : (c.dropHold h cause).without h.agent := by
  rw [without_iff_leases]
  have one := law.leases_le_one h.agent
  have fewer := c.leases_dropHold held cause h.agent
  rw [beq_self_eq_true, bit, if_pos rfl] at fewer
  omega

theorem LeaseCtx.Lawful.dropWait_without (law : c.Lawful st) (waits : (c.waitOf a).isSome = true) :
    ({ c with waiters := c.waiters.eraseP fun x => x.agent == a } : LeaseCtx).without a := by
  rw [without_iff_leases]
  have one := law.leases_le_one a
  have fewer := c.leases_dropWait waits a
  rw [beq_self_eq_true, bit, if_pos rfl] at fewer
  omega

/-! ### An evaluation hands nothing to an agent without a lease -/

theorem handResponse_port_ne (s : State) {b : Agent} (ne : b ≠ a) (code : Byte) (status : Status) (w : WindowId)
    (payload : List Byte) : (s.handResponse b code status w payload).ports.get a = s.ports.get a := by
  simp [State.handResponse, State.updPort, ne]

theorem handGrants_port_ne (s : State) (w : WindowId) (grants : List (Hold × Half))
    (others : ∀ g ∈ grants, g.1.agent ≠ a) : (s.handGrants w grants).ports.get a = s.ports.get a := by
  induction grants generalizing s with
  | nil => rfl
  | cons g grants ih =>
    obtain ⟨first, rest⟩ := List.forall_mem_cons.mp others
    exact (ih _ rest).trans (handResponse_port_ne s first _ _ _ _)

/-- The grants of an evaluation, seen from an agent that has no lease. -/
theorem grantHeads_without (now : Tick) (win : Window) (xs : List Wait) (c : LeaseCtx)
    (noHold : ∀ h ∈ c.holders, h.agent ≠ a) (noWait : ∀ x ∈ xs, x.agent ≠ a) :
    let r := LeaseCtx.grantHeads now win xs c
    r.1.without a ∧ r.1.endings.get a = c.endings.get a ∧ ∀ g ∈ r.2, g.1.agent ≠ a := by
  induction xs generalizing c with
  | nil =>
    refine ⟨(LeaseCtx.without_iff _ _).mpr ⟨noHold, by simp [LeaseCtx.grantHeads]⟩, rfl, ?_⟩
    simp [LeaseCtx.grantHeads]
  | cons x xs ih =>
    obtain ⟨first, rest⟩ := List.forall_mem_cons.mp noWait
    simp only [LeaseCtx.grantHeads]
    split
    · have noHold' : ∀ h ∈ (c.addHold (newHold c now win x.agent x.mode x.once x.term)).holders, h.agent ≠ a := by
        intro h mem
        rcases List.mem_append.mp mem with mem | mem
        · exact noHold h mem
        · rw [List.mem_singleton.mp mem]
          exact first
      obtain ⟨without, endings, others⟩ := ih _ noHold' rest
      refine ⟨without, endings.trans (Tbl.get_set_ne _ first _), List.forall_mem_cons.mpr ⟨first, others⟩⟩
    · refine ⟨(LeaseCtx.without_iff _ _).mpr ⟨noHold, noWait⟩, rfl, ?_⟩
      simp

theorem LeaseCtx.without_mapHold (without : c.without a) (b : Agent) (f : Hold → Hold)
    (agent : ∀ h, (f h).agent = h.agent) : (c.mapHold b f).without a := by
  rw [without_iff_leases] at without ⊢
  rw [leases_mapHold c b f agent, without]

theorem evaluate_without (s : State) (w : WindowId) (without : (s.ctxs.get w).without a) :
    ((s.evaluate w).ctxs.get w).without a ∧
      ((s.evaluate w).ctxs.get w).endings.get a = (s.ctxs.get w).endings.get a ∧
      (s.evaluate w).ports.get a = s.ports.get a := by
  obtain ⟨noHold, noWait⟩ := (LeaseCtx.without_iff _ _).mp without
  simp only [State.evaluate]
  split
  · split
    · rename_i h pending
      have other : h.agent ≠ a := noHold h (List.mem_of_find?_eq_some pending)
      split
      · refine ⟨?_, ?_, handResponse_port_ne _ other _ _ _ _⟩
        · rw [State.handResponse_ctxs, State.updCtx_get]
          exact LeaseCtx.without_mapHold without _ (fun g => g.upgrade _ _ _) fun _ => rfl
        · rw [State.handResponse_ctxs, State.updCtx_get]
          rfl
      · exact ⟨without, rfl, rfl⟩
    · obtain ⟨granted, endings, others⟩ :=
        grantHeads_without s.tb.tick (s.windows.get w) (s.ctxs.get w).waiters (s.ctxs.get w) noHold noWait
      rw [handGrants_ports]
      refine ⟨?_, ?_, ?_⟩
      · simpa using granted
      · simpa using endings
      · exact handGrants_port_ne (s.updCtx w _) w _ others
  · exact ⟨without, rfl, rfl⟩

theorem settleWindow_without (s : State) (w : WindowId) (without : (s.ctxs.get w).without a) :
    ((s.settleWindow w).ctxs.get w).without a ∧
      ((s.settleWindow w).ctxs.get w).endings.get a = (s.ctxs.get w).endings.get a ∧
      (s.settleWindow w).ports.get a = s.ports.get a := by
  have ctxs : (s.settleWindow w).ctxs = (s.evaluate w).ctxs := by
    unfold State.settleWindow State.reportIfEmpty
    split <;> rfl
  rw [ctxs, State.settleWindow, reportIfEmpty_ports]
  exact evaluate_without s w without

/-! ### One window -/

/-- What the end of an agent's lease on one window can change. -/
structure Released (a : Agent) (w : WindowId) (s t : State) : Prop where
  frame : t = { s with ctxs := t.ctxs, inUse := t.inUse, ports := t.ports, emptyReports := t.emptyReports }
  ctxs : ∀ v, v ≠ w → t.ctxs.get v = s.ctxs.get v
  inUse : ∀ b, b ≠ a → t.inUse.get b = s.inUse.get b
  ports : ∀ b, ∃ more, t.ports.get b = { s.ports.get b with responses := (s.ports.get b).responses ++ more }

theorem Released.settled (frame : u = { s with ctxs := u.ctxs, inUse := u.inUse })
    (ctxs : ∀ v, v ≠ w → u.ctxs.get v = s.ctxs.get v) (inUse : ∀ b, b ≠ a → u.inUse.get b = s.inUse.get b) :
    Released a w s (u.settleWindow w) := by
  have reported : (u.settleWindow w) = { u.evaluate w with emptyReports := (u.settleWindow w).emptyReports } := by
    unfold State.settleWindow State.reportIfEmpty
    split <;> rfl
  have evaluated := evaluate_frame u w
  have frame' : u.settleWindow w =
      { u with
        ctxs := (u.evaluate w).ctxs, ports := (u.evaluate w).ports
        emptyReports := (u.settleWindow w).emptyReports } := by
    rw [evaluated] at reported
    exact reported
  have hports : u.ports = s.ports := (congrArg State.ports frame).trans rfl
  refine ⟨?_, fun v ne => ?_, fun b ne => ?_, fun b => ?_⟩
  · rw [frame']
    generalize (u.evaluate w).ctxs = cs, (u.evaluate w).ports = ps, (u.settleWindow w).emptyReports = es
    rw [frame]
  · rw [frame']
    exact (evaluate_other_ctx u ne).trans (ctxs v ne)
  · rw [frame']
    exact inUse b ne
  · rw [frame', ← hports]
    exact evaluate_port u w b

theorem released_releaseLeases (s : State) (a : Agent) (w : WindowId) : Released a w s (s.releaseLeases a w) := by
  unfold State.releaseLeases
  split
  · rename_i h held
    have agent := LeaseCtx.agent_eq_of_holdOf held
    refine .settled rfl (fun v ne => ?_) fun b ne => ?_
    · rw [endHold_ctxs, Tbl.get_set_ne _ ne.symm]
    · rw [endHold_inUse, agent, Tbl.get_set_ne _ ne.symm]
  split
  · refine .settled rfl (fun v ne => ?_) fun b ne => ?_
    · exact Tbl.get_set_ne _ ne.symm _
    · exact Tbl.get_set_ne _ ne.symm _
  · exact ⟨rfl, fun _ _ => rfl, fun _ _ => rfl, fun b => ⟨[], by simp⟩⟩

/-- A window on which the agent has no lease is not touched. -/
theorem releaseLeases_without (without : (s.ctxs.get w).without a) : s.releaseLeases a w = s := by
  obtain ⟨noHold, noWait⟩ := without
  simp [State.releaseLeases, noHold, noWait]

/-- The agent has no lease on the window after the step, and nothing was handed to its port. -/
theorem releaseLeases_gone (law : (s.ctxs.get w).Lawful st) :
    ((s.releaseLeases a w).ctxs.get w).without a ∧ (s.releaseLeases a w).ports.get a = s.ports.get a ∧
      ∀ h, (s.ctxs.get w).holdOf a = some h →
        ((s.releaseLeases a w).ctxs.get w).endings.get a = some ⟨h.serial, .released⟩ := by
  cases held : (s.ctxs.get w).holdOf a with
  | some h =>
    have agent := LeaseCtx.agent_eq_of_holdOf held
    have ctx := endHold_ctx s w h .released none
    have without : ((s.endHold w h .released none).ctxs.get w).without a := by
      rw [ctx, ← agent]
      exact law.dropHold_without (LeaseCtx.holdOf_agent held) .released
    obtain ⟨gone, endings, port⟩ := settleWindow_without _ w without
    simp only [State.releaseLeases, held]
    refine ⟨gone, port, fun g e => ?_⟩
    cases e
    rw [endings, ctx]
    simp [LeaseCtx.dropHold, agent]
  | none =>
    cases waits : (s.ctxs.get w).waitOf a with
    | some x =>
      have without : ((s.dropWait w a).ctxs.get w).without a := by
        rw [dropWait_ctx]
        exact law.dropWait_without (by rw [waits]; rfl)
      obtain ⟨gone, endings, port⟩ := settleWindow_without _ w without
      simp only [State.releaseLeases, held, waits]
      exact ⟨gone, port, fun g e => nomatch e⟩
    | none =>
      rw [releaseLeases_without ⟨held, waits⟩]
      exact ⟨⟨held, waits⟩, rfl, fun g e => nomatch e⟩

/-! ### All windows -/

/-- The Lease Engine's steps on the windows listed. -/
def State.releaseOn (s : State) (a : Agent) (l : List WindowId) : State := l.foldl (fun u w => u.releaseLeases a w) s

theorem releaseOn_cons (s : State) (a : Agent) (w : WindowId) (l : List WindowId) :
    s.releaseOn a (w :: l) = (s.releaseLeases a w).releaseOn a l := rfl

theorem releaseOn_frame (s : State) (a : Agent) (l : List WindowId) :
    s.releaseOn a l =
      { s with
        ctxs := (s.releaseOn a l).ctxs, inUse := (s.releaseOn a l).inUse, ports := (s.releaseOn a l).ports
        emptyReports := (s.releaseOn a l).emptyReports } := by
  induction l generalizing s with
  | nil => rfl
  | cons w l ih =>
    have first := (released_releaseLeases s a w).frame
    rw [releaseOn_cons]
    have rest := ih (s.releaseLeases a w)
    generalize (s.releaseLeases a w).releaseOn a l = r at rest ⊢
    rw [rest]
    generalize s.releaseLeases a w = q at first ⊢
    rw [first]

theorem releaseOn_inUse (s : State) {a b : Agent} (ne : b ≠ a) (l : List WindowId) :
    (s.releaseOn a l).inUse.get b = s.inUse.get b := by
  induction l generalizing s with
  | nil => rfl
  | cons w l ih => exact (ih _).trans ((released_releaseLeases s a w).inUse b ne)

theorem releaseOn_port (s : State) (a b : Agent) (l : List WindowId) :
    ∃ more, (s.releaseOn a l).ports.get b =
      { s.ports.get b with responses := (s.ports.get b).responses ++ more } := by
  induction l generalizing s with
  | nil => exact ⟨[], by simp [State.releaseOn]⟩
  | cons w l ih =>
    obtain ⟨first, e⟩ := (released_releaseLeases s a w).ports b
    obtain ⟨rest, e'⟩ := ih (s.releaseLeases a w)
    refine ⟨first ++ rest, ?_⟩
    rw [releaseOn_cons, e', e]
    simp

theorem releaseOn_other_ctx (s : State) (a : Agent) {l : List WindowId} {v : WindowId} (other : v ∉ l) :
    (s.releaseOn a l).ctxs.get v = s.ctxs.get v := by
  induction l generalizing s with
  | nil => rfl
  | cons w l ih =>
    obtain ⟨ne, rest⟩ := List.ne_and_not_mem_of_not_mem_cons other
    exact (ih _ rest).trans ((released_releaseLeases s a w).ctxs v ne)

theorem releaseOn_without (s : State) {l : List WindowId} {v : WindowId} (without : (s.ctxs.get v).without a) :
    (s.releaseOn a l).ctxs.get v = s.ctxs.get v := by
  induction l generalizing s with
  | nil => rfl
  | cons w l ih =>
    have first : (s.releaseLeases a w).ctxs.get v = s.ctxs.get v := by
      by_cases e : v = w
      · rw [releaseLeases_without (e ▸ without)]
      · exact (released_releaseLeases s a w).ctxs v e
    rw [releaseOn_cons, ih _ (first ▸ without), first]

/-- The agent's leases on the windows listed are gone, and nothing was handed to its port. -/
theorem releaseOn_gone (s : State) (a : Agent) {l : List WindowId} (distinct : l.Nodup)
    (law : ∀ w ∈ l, ∃ st, (s.ctxs.get w).Lawful st) :
    (s.releaseOn a l).ports.get a = s.ports.get a ∧ ∀ w ∈ l, ((s.releaseOn a l).ctxs.get w).without a ∧
      ∀ h, (s.ctxs.get w).holdOf a = some h →
        ((s.releaseOn a l).ctxs.get w).endings.get a = some ⟨h.serial, .released⟩ := by
  induction l generalizing s with
  | nil => exact ⟨rfl, fun _ mem => nomatch mem⟩
  | cons w l ih =>
    obtain ⟨fresh, distinct⟩ := List.nodup_cons.mp distinct
    obtain ⟨st, here⟩ := law w List.mem_cons_self
    obtain ⟨gone, port, endings⟩ := releaseLeases_gone (a := a) here
    have kept : ∀ v ∈ l, (s.releaseLeases a w).ctxs.get v = s.ctxs.get v := fun v mem =>
      (released_releaseLeases s a w).ctxs v fun e => fresh (e ▸ mem)
    obtain ⟨rest_port, rest⟩ := ih (s.releaseLeases a w) distinct fun v mem => by
      rw [kept v mem]
      exact law v (List.mem_cons_of_mem w mem)
    refine ⟨rest_port.trans port, fun v mem => ?_⟩
    rw [releaseOn_cons]
    rcases List.mem_cons.mp mem with rfl | mem
    · rw [releaseOn_other_ctx _ a fresh]
      exact ⟨gone, endings⟩
    · rw [← kept v mem]
      exact rest v mem

end Sys2Proof.Machine
end

