-- ==== Sys2Proof/Proofs/PortLaw.lean ====
section
/-! PROOF. Every step keeps the ports' law (O57). -/

namespace Sys2Proof.Machine

open Sys2Proof.Safety

variable {g : Option Agent} {s t : State} {st : WindowState} {c : LeaseCtx} {a b : Agent} {w : WindowId} {p q : Port}

/-! ### Counting the waits of a context -/

/-- WAIT entries and pending upgrades of an agent in a context. -/
def LeaseCtx.waits (c : LeaseCtx) (a : Agent) : Nat :=
  (c.waiters.countP fun x => x.agent == a) + c.holders.countP fun h => h.agent == a && h.upgrading

theorem waitsOf_eq (s : State) (a : Agent) : waitsOf s a = (allWindows.map fun w => (s.ctxs.get w).waits a).sum := rfl

/-- The waits over all windows, where one context is replaced. -/
theorem waitsOf_set (ctxs : t.ctxs = s.ctxs.set w c) (a : Agent) :
    waitsOf t a + (s.ctxs.get w).waits a = waitsOf s a + c.waits a := by
  rw [waitsOf_eq, waitsOf_eq, ctxs]
  exact sum_allWindows_set (LeaseCtx.waits · a) s.ctxs w c

theorem waitsOf_congr (same : ∀ w, (t.ctxs.get w).waits a = (s.ctxs.get w).waits a) : waitsOf t a = waitsOf s a := by
  simp only [waitsOf_eq, same]

theorem waits_le_waitsOf (s : State) (w : WindowId) (a : Agent) : (s.ctxs.get w).waits a ≤ waitsOf s a := by
  have := waitsOf_set (s := s) (t := { s with ctxs := s.ctxs.set w LeaseCtx.reset }) rfl a
  have none : LeaseCtx.reset.waits a = 0 := rfl
  omega

theorem LeaseCtx.waits_of_without (without : c.without a) : c.waits a = 0 := by
  obtain ⟨noHold, noWait⟩ := (LeaseCtx.without_iff c a).mp without
  rw [waits, Nat.add_eq_zero_iff, List.countP_eq_zero, List.countP_eq_zero]
  exact ⟨fun x mem => by simpa using noWait x mem, fun x mem => by simp [noHold x mem]⟩

theorem LeaseCtx.waits_addHold (c : LeaseCtx) {h : Hold} (settled : h.upgrading = false) (a : Agent) :
    (c.addHold h).waits a = c.waits a := by
  simp [waits, addHold, settled]

theorem LeaseCtx.waits_mapHold (c : LeaseCtx) (b : Agent) (f : Hold → Hold) (agent : ∀ h, (f h).agent = h.agent)
    (upgrading : ∀ h, (f h).upgrading = h.upgrading) (a : Agent) : (c.mapHold b f).waits a = c.waits a := by
  have same : (fun h : Hold => h.agent == a && h.upgrading) ∘ (fun h => if h.agent = b then f h else h) =
      fun h => h.agent == a && h.upgrading := by
    funext h
    simp only [Function.comp_apply]
    split
    · rw [agent, upgrading]
    · rfl
  simp only [waits, mapHold, List.countP_map, same]

theorem LeaseCtx.waits_reach (c : LeaseCtx) (now : Tick) (a : Agent) : (c.reach now).waits a = c.waits a := by
  simp only [waits, reach, List.countP_map]
  rfl

theorem LeaseCtx.waits_dropHold (c : LeaseCtx) {h : Hold} (held : c.holdOf h.agent = some h) (cause : Cause)
    (a : Agent) : (c.dropHold h cause).waits a + bit (h.agent == a && h.upgrading) = c.waits a := by
  have := countP_eraseP (fun h : Hold => h.agent == a && h.upgrading) held
  simp only [waits, dropHold]
  omega

theorem LeaseCtx.waits_dropWait (c : LeaseCtx) (waits : (c.waitOf b).isSome = true) (a : Agent) :
    ({ c with waiters := c.waiters.eraseP fun x => x.agent == b } : LeaseCtx).waits a + bit (b == a) = c.waits a := by
  obtain ⟨x, found⟩ := Option.isSome_iff_exists.mp waits
  have agent : x.agent = b := by simpa using List.find?_some found
  have := countP_eraseP (fun x : Wait => x.agent == a) found
  simp only [LeaseCtx.waits]
  rw [← agent] at *
  omega

/-- The only hold is granted its upgrade. -/
theorem LeaseCtx.waits_grantUpgrade {x : Hold} (only : c.holders = [x]) (now : Tick) (win : Window) (a : Agent) :
    (c.grantUpgrade now win x.agent).waits a + bit (x.agent == a && x.upgrading) = c.waits a := by
  have granted : (c.grantUpgrade now win x.agent).holders = [x.upgrade c now win] := by
    simp [grantUpgrade, mapHold, only]
  simp only [waits, granted, only, List.countP_singleton, bit, Hold.upgrade, Bool.and_false]
  rfl

/-- The pending upgrade of a context, of which there is one, is taken back. -/
theorem LeaseCtx.Lawful.waits_cleared (law : c.Lawful st) {x : Hold} (mem : x ∈ c.holders)
    (pending : x.upgrading = true)
    (a : Agent) :
    (c.mapHold x.agent fun h => { h with upgrading := false, deadline := none }).waits a + bit (x.agent == a) =
      c.waits a := by
  have only : ∀ y ∈ c.holders, y.upgrading = true → y = x := fun y memY pendingY =>
    eq_of_countP_le_one law.oneUpgrade memY mem pendingY pending
  have none : ((c.mapHold x.agent fun h => { h with upgrading := false, deadline := none }).holders.countP
      fun h => h.agent == a && h.upgrading) = 0 := by
    rw [List.countP_eq_zero]
    intro y memY
    obtain ⟨z, memZ, rfl⟩ := List.mem_map.mp memY
    by_cases e : z.agent = x.agent
    · simp [e]
    · have settled : z.upgrading ≠ true := fun pendingZ => e (congrArg Hold.agent (only z memZ pendingZ))
      simp [e, settled]
  have one : (c.holders.countP fun h => h.agent == a && h.upgrading) = bit (x.agent == a) := by
    by_cases e : x.agent = a
    · have few : (c.holders.countP fun h => h.agent == a && h.upgrading) ≤ 1 :=
        Nat.le_trans (List.countP_mono_left fun y _ h => (Bool.and_eq_true_iff.mp h).2) law.oneUpgrade
      have some := List.countP_pos_iff (p := fun h : Hold => h.agent == a && h.upgrading).mpr
        ⟨x, mem, by simp [e, pending]⟩
      simp only [e, beq_self_eq_true, bit, if_true]
      omega
    · simp only [beq_eq_false_iff_ne.mpr e, bit, Bool.false_eq_true, if_false, List.countP_eq_zero]
      intro y memY
      by_cases pendingY : y.upgrading = true
      · rw [only y memY pendingY]
        simp [e]
      · simp [pendingY]
  simp only [LeaseCtx.waits, none, one]
  rfl

theorem LeaseCtx.waits_mapHold_ne (c : LeaseCtx) (f : Hold → Hold) (agent : ∀ h, (f h).agent = h.agent) (ne : b ≠ a) :
    (c.mapHold b f).waits a = c.waits a := by
  have same : (fun h : Hold => h.agent == a && h.upgrading) ∘ (fun h => if h.agent = b then f h else h) =
      fun h => h.agent == a && h.upgrading := by
    funext h
    simp only [Function.comp_apply]
    split
    · rename_i here
      rw [agent, here, beq_eq_false_iff_ne.mpr ne, Bool.false_and, Bool.false_and]
    · rfl
  simp only [waits, mapHold, List.countP_map, same]

/-- A hold whose upgrade becomes pending is a wait. -/
theorem LeaseCtx.Lawful.waits_pended (law : c.Lawful st) {h : Hold} {d : Option Deadline} (held : c.holdOf a = some h)
    (idle : c.waits a = 0) : (c.mapHold a fun h => { h with upgrading := true, deadline := d }).waits a = 1 := by
  have agent := LeaseCtx.agent_eq_of_holdOf held
  have pended : (fun h : Hold => h.agent == a && h.upgrading) ∘
      (fun h => if h.agent = a then { h with upgrading := true, deadline := d } else h) = fun h => h.agent == a := by
    funext y
    simp only [Function.comp_apply]
    split
    · simp
    · rename_i ne
      simp [ne]
  have one : (c.holders.countP fun h => h.agent == a) = 1 := by
    have few := law.leases_le_one a
    have some := List.countP_pos_iff (p := fun h : Hold => h.agent == a).mpr
      ⟨h, List.mem_of_find?_eq_some held, by simp [agent]⟩
    unfold LeaseCtx.leases at few
    omega
  simp only [LeaseCtx.waits, mapHold, List.countP_map, pended, one] at idle ⊢
  omega

/-! ### One port -/

/-- The law of a port with the given waits and endings, clause by clause. -/
structure Port.Lawful (running : Bool) (waits : Nat) (p : Port) : Prop where
  running : running = false → p.state ≠ .waiting
  few : waits ≤ 1
  waiting : p.state = .waiting ↔ waits = 1
  reset : p.state = .inReset ↔ p.prstn = false ∧ p.fallOwed = false
  quiet : p.state = .inReset → p.notices = .empty

/-- Waits of an agent, with the endings that its port has still to take. -/
def State.waitsAt (s : State) (a : Agent) : Nat := waitsOf s a + endingsHanded (s.ports.get a)

/-- The law of one port of the state. -/
def State.LawfulAt (s : State) (a : Agent) : Prop := (s.ports.get a).Lawful s.mgmt.running (s.waitsAt a)

theorem portLaw_iff (s : State) : PortLaw s ↔ ∀ a, s.LawfulAt a := by
  constructor
  · intro law a
    obtain ⟨running, few, waiting, reset, quiet⟩ := law a
    exact ⟨running, few, waiting, reset, quiet⟩
  · intro law a
    obtain ⟨running, few, waiting, reset, quiet⟩ := law a
    exact ⟨running, few, waiting, reset, quiet⟩

/-- A port that does not wait has no wait. -/
theorem State.LawfulAt.none (law : s.LawfulAt a) (idle : (s.ports.get a).state ≠ .waiting) : s.waitsAt a = 0 := by
  have few := law.few
  have one := mt law.waiting.mpr idle
  omega

/-- A port that has a wait is WAITING, and has one. -/
theorem State.LawfulAt.one (law : s.LawfulAt a) (some : 1 ≤ s.waitsAt a) :
    s.waitsAt a = 1 ∧ (s.ports.get a).state = .waiting := by
  have few := law.few
  exact ⟨by omega, law.waiting.mpr (by omega)⟩

theorem Port.Lawful.of_eq {running : Bool} {n m : Nat} (law : p.Lawful running n) (state : q.state = p.state)
    (prstn : q.prstn = p.prstn) (fallOwed : q.fallOwed = p.fallOwed) (notices : q.notices = p.notices) (waits : m = n) :
    q.Lawful running m := by
  subst waits
  exact ⟨state ▸ law.running, law.few, state ▸ law.waiting, by rw [state, prstn, fallOwed]; exact law.reset,
    by rw [state, notices]; exact law.quiet⟩

/-- A port becomes IDLE with its last wait over. -/
theorem Port.Lawful.idle {running : Bool} {n : Nat} (law : p.Lawful running n) (up : p.state ≠ .inReset)
    (state : q.state = .idle) (prstn : q.prstn = p.prstn) (fallOwed : q.fallOwed = p.fallOwed) :
    q.Lawful running 0 := by
  refine ⟨fun _ e => ?_, Nat.zero_le 1, ⟨fun e => ?_, fun e => absurd e (by decide)⟩, ⟨fun e => ?_, fun e => ?_⟩,
    fun e => ?_⟩
  · exact absurd (state.symm.trans e) (by decide)
  · exact absurd (state.symm.trans e) (by decide)
  · exact absurd (state.symm.trans e) (by decide)
  · rw [prstn, fallOwed] at e
    exact absurd (law.reset.mpr e) up
  · exact absurd (state.symm.trans e) (by decide)

/-- An IDLE port becomes WAITING with its first wait. -/
theorem Port.Lawful.wait {n : Nat} (law : p.Lawful true n) (idle : p.state = .idle) (state : q.state = .waiting)
    (prstn : q.prstn = p.prstn) (fallOwed : q.fallOwed = p.fallOwed) : q.Lawful true 1 := by
  refine ⟨fun e => Bool.noConfusion e, Nat.le_refl 1, ⟨fun _ => rfl, fun _ => state⟩, ⟨fun e => ?_, fun e => ?_⟩,
    fun e => ?_⟩
  · exact absurd (state.symm.trans e) (by decide)
  · rw [prstn, fallOwed] at e
    exact absurd (idle.symm.trans (law.reset.mpr e)) (by decide)
  · exact absurd (state.symm.trans e) (by decide)

theorem Port.Lawful.posted {running : Bool} {n : Nat} (law : p.Lawful running n) (up : p.state ≠ .inReset) (code : Byte)
    (status : Status) (w : WindowId) (payload : List Byte) : (p.postEnding code status w payload).Lawful running 0 :=
  law.idle up rfl rfl rfl

/-! ### What a change makes of the ports -/

theorem endingsHanded_handResponse (s : State) (a b : Agent) (code : Byte) (status : Status) (w : WindowId)
    (payload : List Byte) :
    endingsHanded ((s.handResponse a code status w payload).ports.get b) =
      endingsHanded (s.ports.get b) + bit (a == b) := by
  by_cases e : a = b
  · subst e
    simp [State.handResponse, State.updPort, endingsHanded, bit]
  · simp [State.handResponse, State.updPort, e, bit]

theorem handResponse_lawful_fields (s : State) (a b : Agent) (code : Byte) (status : Status) (w : WindowId)
    (payload : List Byte) :
    ∃ l, (s.handResponse a code status w payload).ports.get b = { s.ports.get b with responses := l } := by
  simp only [State.handResponse, State.updPort, Tbl.get_set]
  split
  · rename_i e
    exact ⟨_, by rw [e]⟩
  · exact ⟨(s.ports.get b).responses, rfl⟩

/-- Neither the port nor its waits change. -/
theorem State.LawfulAt.same (law : s.LawfulAt b) (running : t.mgmt.running = s.mgmt.running)
    (port : t.ports.get b = s.ports.get b) (waits : waitsOf t b = waitsOf s b) : t.LawfulAt b := by
  unfold State.LawfulAt State.waitsAt
  rw [running, port, waits]
  exact law

/-- A context changes, and the waits that leave it are answered to their ports. -/
theorem State.LawfulAt.answered (law : s.LawfulAt b) (w : WindowId) (inUse : Tbl Nat 4) (a : Agent) (code : Byte)
    (status : Status) (payload : List Byte) (swap : c.waits b + bit (a == b) = (s.ctxs.get w).waits b) :
    (({ s with ctxs := s.ctxs.set w c, inUse := inUse } : State).handResponse a code status w payload).LawfulAt b := by
  have sums := waitsOf_set (s := s) (t := { s with ctxs := s.ctxs.set w c, inUse := inUse }) rfl b
  generalize ht : ({ s with ctxs := s.ctxs.set w c, inUse := inUse } : State) = t at sums ⊢
  have ports : t.ports = s.ports := by rw [← ht]
  have mgmt : t.mgmt = s.mgmt := by rw [← ht]
  have handed := endingsHanded_handResponse t a b code status w payload
  obtain ⟨l, port⟩ := handResponse_lawful_fields t a b code status w payload
  have waits : (t.handResponse a code status w payload).waitsAt b = s.waitsAt b := by
    unfold State.waitsAt
    rw [handed, ports]
    have : waitsOf (t.handResponse a code status w payload) b = waitsOf t b := rfl
    omega
  unfold State.LawfulAt
  rw [State.handResponse_mgmt, mgmt, port, ports, waits]
  exact Port.Lawful.of_eq (p := s.ports.get b) law rfl rfl rfl rfl rfl

/-- A context changes that holds as many waits as before. -/
theorem State.LawfulAt.ctx (law : s.LawfulAt b) (w : WindowId) (inUse : Tbl Nat 4) (router : Router)
    (waits : c.waits b = (s.ctxs.get w).waits b) :
    ({ s with ctxs := s.ctxs.set w c, inUse := inUse, router := router } : State).LawfulAt b := by
  have sums := waitsOf_set (s := s) (t := { s with ctxs := s.ctxs.set w c, inUse := inUse, router := router }) rfl b
  exact law.same rfl rfl (by omega)

/-- A context changes together with the port of an agent, which then has `m` waits on the window. -/
theorem State.LawfulAt.ctx_port (law : s.LawfulAt b) (w : WindowId) (inUse : Tbl Nat 4) (a : Agent) {m : Nat}
    (others : a ≠ b → c.waits b = (s.ctxs.get w).waits b) (count : a = b → c.waits b = m)
    (responses : p.responses = (s.ports.get a).responses)
    (here : a = b → ∀ n, n + (s.ctxs.get w).waits b = s.waitsAt b + m → p.Lawful s.mgmt.running n) :
    ({ s with ctxs := s.ctxs.set w c, inUse := inUse, ports := s.ports.set a p } : State).LawfulAt b := by
  have sums :=
    waitsOf_set (s := s) (t := { s with ctxs := s.ctxs.set w c, inUse := inUse, ports := s.ports.set a p }) rfl b
  by_cases e : a = b
  · subst e
    have endings : endingsHanded p = endingsHanded (s.ports.get a) := by
      unfold endingsHanded
      rw [responses]
    rw [count rfl] at sums
    unfold State.LawfulAt State.waitsAt
    rw [Tbl.get_set_self]
    refine here rfl _ ?_
    unfold State.waitsAt
    omega
  · exact law.same rfl (Tbl.get_set_ne _ e _) (by have := others e; omega)

theorem handNotice_lawfulAt (law : s.LawfulAt b) (a : Agent) (i : NoticeItem) : (s.handNotice a i).LawfulAt b := by
  unfold State.LawfulAt State.waitsAt
  simp only [State.handNotice, State.updPort, Tbl.get_set]
  split
  · rename_i e
    subst e
    exact Port.Lawful.of_eq (p := s.ports.get a) law rfl rfl rfl rfl rfl
  · exact law

theorem handNotice_handResponse (s : State) (a : Agent) (i : NoticeItem) (code : Byte) (status : Status) (w : WindowId)
    (payload : List Byte) :
    (s.handNotice a i).handResponse a code status w payload =
      (s.handResponse a code status w payload).handNotice a i := by
  simp [State.handNotice, State.handResponse, State.updPort]

/-- A port changes beside the contexts. -/
theorem State.LawfulAt.port (law : s.LawfulAt b) (a : Agent) (f : Port → Port)
    (here : (s.ports.get a).Lawful s.mgmt.running (s.waitsAt a) → a = b →
      (f (s.ports.get a)).Lawful s.mgmt.running (waitsOf s a + endingsHanded (f (s.ports.get a)))) :
    (s.updPort a f).LawfulAt b := by
  by_cases e : a = b
  · subst e
    unfold State.LawfulAt State.waitsAt
    rw [State.updPort_get]
    exact here law rfl
  · exact law.same rfl (by simp [State.updPort, e]) rfl

theorem Port.lawful_takeResponse {running : Bool} {n : Nat} {r : HandedResponse} {rest : List HandedResponse}
    (oldest : p.responses = r :: rest) (law : p.Lawful running (n + endingsHanded p)) :
    (({ p with responses := rest } : Port).takeResponse r).Lawful running
      (n + endingsHanded (({ p with responses := rest } : Port).takeResponse r)) := by
  have count : endingsHanded p = endingsHanded { p with responses := rest } + bit !r.stale := by
    simp only [endingsHanded, oldest, List.countP_cons, bit]
  have left : endingsHanded (({ p with responses := rest } : Port).takeResponse r) =
      endingsHanded { p with responses := rest } := by
    simp only [endingsHanded, takeResponse_responses]
  rw [left]
  cases stale : r.stale
  · rw [stale] at count
    simp only [bit, Bool.not_false, if_true] at count
    have few := law.few
    have waiting := law.waiting.mpr (by omega)
    have none : n + endingsHanded { p with responses := rest } = 0 := by omega
    have up : p.state ≠ .inReset := by simp [waiting]
    rw [none, takeResponse_eq _ _ (by exact up), stale]
    exact law.idle up rfl rfl rfl
  · rw [stale] at count
    simp only [bit, Bool.not_true, Bool.false_eq_true, if_false, Nat.add_zero] at count
    simp only [Port.takeResponse, stale, true_or, if_true]
    exact Port.Lawful.of_eq law rfl rfl rfl rfl (by rw [count])

theorem Port.lawful_takeResponses {running : Bool} {n : Nat} (law : p.Lawful running (n + endingsHanded p)) :
    p.takeResponses.Lawful running (n + endingsHanded p.takeResponses) := by
  generalize h : p.responses = rs
  induction rs generalizing p with
  | nil => rwa [takeResponses_nil p h]
  | cons r rest ih =>
    rw [takeResponses_cons p r rest h]
    exact ih (p.lawful_takeResponse h law) (takeResponse_responses _ r)

theorem Port.takeResponses_none (p : Port) : p.takeResponses.responses = [] := by
  generalize h : p.responses = rs
  induction rs generalizing p with
  | nil => rwa [takeResponses_nil p h]
  | cons r rest ih =>
    rw [takeResponses_cons p r rest h]
    exact ih _ (takeResponse_responses _ r)

/-! ### The law of the ports that are not reset -/

theorem Port.Lawful.stopped {running : Bool} (law : p.Lawful running 0) : p.Lawful false 0 where
  running := fun _ waits => absurd (law.waiting.mp waits) (by decide)
  few := law.few
  waiting := law.waiting
  reset := law.reset
  quiet := law.quiet

/-- An accepted STOP leaves no port WAITING: with no window in use there is no wait, only endings to be taken. -/
theorem State.LawfulAt.stop (law : s.LawfulAt b) (leases : LeaseLaw s)
    (unused : ∀ w, (s.windows.get w).state.live = false) :
    (s.settleWaits.updMgmt fun m => { m with running := false }).LawfulAt b := by
  have none : waitsOf s b = 0 := by
    rw [waitsOf_eq]
    refine List.sum_eq_zero_iff_forall_eq_nat.mpr fun n mem => ?_
    obtain ⟨w, -, rfl⟩ := List.mem_map.mp mem
    have ctx := (leaseLaw_iff s).mp leases w
    refine LeaseCtx.waits_of_without ((LeaseCtx.without_iff _ b).mpr ⟨?_, ?_⟩)
    · rw [ctx.no_holder ⟨fun e => by simpa [e, WindowState.live] using unused w,
        fun e => by simpa [e, WindowState.live] using unused w⟩]
      exact fun _ mem => nomatch mem
    · rw [ctx.no_waiter ⟨fun e => by simpa [e, WindowState.live] using unused w,
        fun e => by simpa [e, WindowState.live] using unused w⟩]
      exact fun _ mem => nomatch mem
  have port : ((s.settleWaits.updMgmt fun m => { m with running := false }).ports.get b) =
      if (s.ports.get b).state = .waiting then (s.ports.get b).takeResponses else s.ports.get b := by
    rw [State.updMgmt_ports, State.settleWaits_get]
  have waits : waitsOf (s.settleWaits.updMgmt fun m => { m with running := false }) b = waitsOf s b := rfl
  unfold State.LawfulAt State.waitsAt
  rw [port, waits, none]
  unfold State.LawfulAt State.waitsAt at law
  rw [none] at law
  split
  · have taken := Port.lawful_takeResponses law
    have left : endingsHanded (s.ports.get b).takeResponses = 0 := by
      simp [endingsHanded, Port.takeResponses_none]
    rw [left] at taken ⊢
    exact taken.stopped
  · rename_i idle
    have zero := State.LawfulAt.none (s := s) (a := b) (by unfold State.LawfulAt State.waitsAt; rwa [none]) idle
    unfold State.waitsAt at zero
    rw [none] at zero
    rw [zero] at law ⊢
    exact law.stopped

/-- The holder whose port does not wait has no pending upgrade. -/
theorem State.LawfulAt.not_upgrading (law : s.LawfulAt b) {h : Hold} (held : (s.ctxs.get w).holdOf h.agent = some h)
    (agent : h.agent = b) (idle : (s.ports.get b).state ≠ .waiting) : h.upgrading = false := by
  refine Classical.byContradiction fun pending => ?_
  have pending : h.upgrading = true := by simpa using pending
  have none := law.none idle
  have le := waits_le_waitsOf s w b
  have some := List.countP_pos_iff (p := fun h : Hold => h.agent == b && h.upgrading).mpr
    ⟨h, List.mem_of_find?_eq_some held, by simp [agent, pending]⟩
  unfold State.waitsAt at none
  unfold LeaseCtx.waits at le
  omega

/-- A hold ends: its pending upgrade is answered, or there is none. -/
theorem State.LawfulAt.endHold (law : s.LawfulAt b) {h : Hold} {cause : Cause} {reason : Option LostReason}
    (held : (s.ctxs.get w).holdOf h.agent = some h)
    (told : reason = Option.none → h.agent = b → h.upgrading = false) : (s.endHold w h cause reason).LawfulAt b := by
  have fewer := LeaseCtx.waits_dropHold _ held cause b
  have kept (settled : h.agent = b → h.upgrading = false) :
      ((s.ctxs.get w).dropHold h cause).waits b = (s.ctxs.get w).waits b := by
    have nothing : (h.agent == b && h.upgrading) = false := by
      by_cases e : h.agent = b
      · simp [settled e]
      · simp [e]
    rwa [nothing] at fewer
  cases reason with
  | none => exact law.ctx w _ s.router (kept (told rfl))
  | some r =>
    simp only [State.endHold]
    split
    · rename_i pending
      rw [handNotice_handResponse]
      rw [pending, Bool.and_true] at fewer
      exact handNotice_lawfulAt (law.answered w _ h.agent _ _ _ fewer) _ _
    · rename_i settled
      exact handNotice_lawfulAt (law.ctx w _ s.router (kept fun _ => by simpa using settled)) _ _

theorem Change.keeps_lawfulAt (ch : Change g s t) (high : s.resetn = true) (leases : LeaseLaw s)
    (law : ∀ b, g ≠ some b → s.LawfulAt b) (b : Agent) (other : g ≠ some b) : t.LawfulAt b := by
  have ctxs := (leaseLaw_iff s).mp leases
  have here := law b other
  cases ch
  case mgmt f quiet =>
    refine ⟨fun stopped => ?_, here.few, here.waiting, here.reset, here.quiet⟩
    rcases quiet.run with same | run
    · exact here.running (same ▸ stopped)
    · exact absurd (run.symm.trans stopped) (by decide)
  case port a f quiet =>
    refine here.port a f fun port _ => ?_
    have waits : endingsHanded (f (s.ports.get a)) = endingsHanded (s.ports.get a) := by
      unfold endingsHanded
      rw [quiet.responses]
    rw [waits]
    refine ⟨quiet.state ▸ port.running, port.few, quiet.state ▸ port.waiting, ?_, fun down => ?_⟩
    · rw [quiet.state, quiet.prstn, quiet.fallOwed]
      exact port.reset
    · rw [quiet.state] at down
      rcases quiet.pin with ⟨-, -, notices⟩ | ⟨up, -⟩
      · rw [notices]
        exact port.quiet down
      · exact absurd down up
  case take a r rest oldest =>
    exact here.port a _ fun port _ => Port.lawful_takeResponse oldest port
  case stop unused => exact here.stop leases unused
  case fallen a reset => exact here.port a _ fun _ e => absurd (reset.trans (congrArg some e)) other
  case risen a low taken =>
    refine here.port a _ fun port _ => ?_
    have none := State.LawfulAt.none (s := s) port (by simp [port.reset.mpr ⟨low, taken⟩])
    have kept : waitsOf s a + endingsHanded { s.ports.get a with state := .idle, prstn := true } = 0 := none
    rw [kept]
    exact ⟨fun _ => by simp, Nat.zero_le 1, by simp, by simp, by simp⟩
  case owe a up =>
    refine here.port a _ fun port _ => ⟨port.running, port.few, port.waiting, ?_, port.quiet⟩
    have := port.reset
    simp only [up] at this
    simpa using this
  case level a prstn low => rw [high] at low; cases low
  case closing w p opened waits gentle =>
    unfold upgradeClosed
    split
    · exact here
    · rename_i x pending
      have swap := (ctxs w).waits_cleared (List.mem_of_find?_eq_some pending) (List.find?_some pending) b
      exact here.answered w s.inUse x.agent _ _ _ swap
  case reach now =>
    refine here.same rfl rfl (waitsOf_congr fun w => ?_)
    rw [Tbl.get_map, LeaseCtx.waits_reach]
  case grant a w m once asked opened fresh free room =>
    exact here.ctx w _ s.router (LeaseCtx.waits_addHold _ rfl b)
  case queue a w x agent live fresh room idle run =>
    have more : ({ s.ctxs.get w with
        waiters := (s.ctxs.get w).waiters ++ [x], endings := (s.ctxs.get w).endings.set a none } : LeaseCtx).waits b =
          (s.ctxs.get w).waits b + bit (a == b) := by
      simp only [LeaseCtx.waits, List.countP_append, List.countP_singleton, agent, bit]
      omega
    refine here.ctx_port w _ a (fun ne => ?_) (fun _ => more) rfl fun e n sum => ?_
    · rwa [beq_eq_false_iff_ne.mpr ne] at more
    · subst e
      have none := here.none (by simp [idle])
      rw [beq_self_eq_true, bit, if_pos rfl] at sum
      have one : n = 1 := by omega
      unfold State.LawfulAt at here
      rw [run] at here
      rw [one, run]
      exact here.wait idle rfl rfl rfl
  case upgrade a w x held alone idle =>
    have agent := LeaseCtx.agent_eq_of_holdOf held
    have granted := LeaseCtx.waits_grantUpgrade
      (LeaseCtx.holders_of_upgradeFree alone (List.mem_of_find?_eq_some held)) s.tb.tick (s.windows.get w) b
    have settled : (x.agent == b && x.upgrading) = false := by
      by_cases e : x.agent = b
      · rw [here.not_upgrading (LeaseCtx.holdOf_agent held) e (by rw [← e, agent, idle]; decide), Bool.and_false]
      · simp [e]
    rw [settled, agent] at granted
    exact here.ctx w s.inUse s.router granted
  case pend a w x d held long shared live noRival idle run =>
    have zero (e : a = b) : s.waitsAt a = 0 ∧ (s.ctxs.get w).waits a = 0 := by
      have none := (e ▸ here).none (by simp [idle])
      have := waits_le_waitsOf s w a
      unfold State.waitsAt at none ⊢
      omega
    refine here.ctx_port w s.inUse a (LeaseCtx.waits_mapHold_ne _ _ (by exact fun _ => rfl))
      (m := 1) (fun e => ?_) rfl fun e n sum => ?_
    · subst e
      exact (ctxs w).waits_pended held (zero rfl).2
    subst e
    obtain ⟨none, clear⟩ := zero rfl
    have one : n = 1 := by omega
    unfold State.LawfulAt at here
    rw [run] at here
    rw [one, run]
    exact here.wait idle rfl rfl rfl
  case grantHead w x xs payload opened head free =>
    refine here.answered w _ x.agent _ _ _ ?_
    simp only [LeaseCtx.waits, LeaseCtx.addHold, newHold, Hold.setTerm, head, List.countP_append, List.countP_cons,
      List.countP_nil, bit, Bool.and_false, Bool.false_eq_true, if_false]
    omega
  case grantUpgrade w x payload pending alone =>
    have only := LeaseCtx.holders_of_upgradeFree alone (List.mem_of_find?_eq_some pending)
    refine here.answered w _ x.agent _ _ _ ?_
    have := LeaseCtx.waits_grantUpgrade only s.tb.tick (s.windows.get w) b
    have up : x.upgrading = true := List.find?_some pending
    rwa [up, Bool.and_true] at this
  case hold w a f quiet =>
    exact here.ctx w _ s.router
      (LeaseCtx.waits_mapHold _ _ _ (fun x => (quiet x).agent) (fun x => (quiet x).upgrading) b)
  case endHold w x cause reason held silent =>
    refine here.endHold held fun none e => ?_
    rcases silent none with once | idle | gone
    · have mem := List.mem_of_find?_eq_some held
      refine Classical.byContradiction fun pending => ?_
      have long := ((ctxs w).upgrade x mem (by simpa using pending)).2.1
      exact absurd (once.symm.trans long) (by decide)
    · exact here.not_upgrading held e (by rw [← e, idle]; decide)
    · exact absurd (e ▸ gone) other
  case endWait w a status waits =>
    exact here.answered w _ a _ _ _ (LeaseCtx.waits_dropWait _ waits b)
  case dropWait w a waits reset =>
    have fewer := LeaseCtx.waits_dropWait _ waits b
    have ne : a ≠ b := fun e => absurd (reset.trans (congrArg some e)) other
    rw [beq_eq_false_iff_ne.mpr ne] at fewer
    exact here.ctx w _ s.router fewer
  case endUpgrade w x status held pending =>
    exact here.answered w _ x.agent _ _ _ ((ctxs w).waits_cleared held pending b)
  case abandonWait a w code payload waits =>
    have fewer := LeaseCtx.waits_dropWait _ waits b
    refine here.ctx_port w _ a (fun ne => ?_) (fun _ => Nat.eq_sub_of_add_eq fewer) rfl fun e n sum => ?_
    · rwa [beq_eq_false_iff_ne.mpr ne] at fewer
    · subst e
      rw [beq_self_eq_true, bit, if_pos rfl] at fewer sum
      have le := waits_le_waitsOf s w a
      obtain ⟨one, waiting⟩ := here.one (by unfold State.waitsAt; omega)
      have zero : n = 0 := by omega
      rw [zero]
      exact here.posted (by simp [waiting]) _ _ _ _
  case abandonUpgrade a w code payload pending =>
    obtain ⟨x, mem, is⟩ := List.any_eq_true.mp pending
    obtain ⟨agent, up⟩ := Bool.and_eq_true_iff.mp is
    have agent : x.agent = a := by simpa using agent
    have fewer := (ctxs w).waits_cleared mem up b
    rw [agent] at fewer
    refine here.ctx_port w s.inUse a (LeaseCtx.waits_mapHold_ne _ _ (by exact fun _ => rfl))
      (fun _ => Nat.eq_sub_of_add_eq fewer) rfl fun e n sum => ?_
    subst e
    rw [beq_self_eq_true, bit, if_pos rfl] at fewer sum
    have le := waits_le_waitsOf s w a
    obtain ⟨one, waiting⟩ := here.one (by unfold State.waitsAt; omega)
    have zero : n = 0 := by omega
    rw [zero]
    exact here.posted (by simp [waiting]) _ _ _ _
  case admitted a x admission => exact here.ctx x.window s.inUse _ rfl
  case complete a x d bus slot => exact here.ctx x.window s.inUse _ rfl
  case drop a x slot => exact here.ctx x.window s.inUse _ rfl
  all_goals exact here

/-! ### The port that is reset -/

/-- The port that has taken the fall of PRSTn has no wait and no ending to take. -/
theorem lawfulAt_portFall (s : State) (a : Agent) (low : (s.ports.get a).prstn = false) (leases : LeaseLaw s) :
    (s.portFall a).LawfulAt a ∧ ((s.portFall a).ports.get a).state = .inReset := by
  have ctxs := (leaseLaw_iff s).mp leases
  let u := (s.updPort a Port.takeFall).updPath a fun p =>
    { p with held := none, abandoned := p.admission.isSome || p.slot != .empty }
  obtain ⟨port, gone⟩ := releaseOn_gone u a nodup_allWindows fun w _ => ⟨_, ctxs w⟩
  have fell : (s.portFall a).ports.get a = (s.ports.get a).takeFall := port.trans (State.updPort_get _ _ _)
  have none : waitsOf (s.portFall a) a = 0 := by
    rw [waitsOf_eq]
    refine List.sum_eq_zero_iff_forall_eq_nat.mpr fun n mem => ?_
    obtain ⟨w, memW, rfl⟩ := List.mem_map.mp mem
    exact LeaseCtx.waits_of_without (gone w memW).1
  have taken : endingsHanded (s.ports.get a).takeFall = 0 := by
    simp [endingsHanded, Port.takeFall]
  refine ⟨?_, by rw [fell]; rfl⟩
  unfold State.LawfulAt State.waitsAt
  rw [fell, none, taken]
  refine ⟨fun _ => ?_, Nat.zero_le 1, ?_, ⟨fun _ => ⟨low, rfl⟩, fun _ => rfl⟩, fun _ => rfl⟩
  · simp [Port.takeFall, Port.reset]
  · simp [Port.takeFall, Port.reset]

theorem lawfulAt_portReset (law : s.LawfulAt a) (leases : LeaseLaw s) (high : s.resetn = true)
    (stepped : exec (.portReset a) s = .next t) : t.LawfulAt a := by
  cases stepped
  simp only [high, Bool.not_true, Bool.false_eq_true, if_false]
  split
  · refine (lawfulAt_portFall _ a ?_ ?_).1
    · simp
    · exact leases
  split
  · rename_i low _
    exact (lawfulAt_portFall s a (by simpa using low) leases).1
  · exact law

/-- A port IN_RESET with no wait becomes IDLE. -/
theorem State.LawfulAt.risen (law : s.LawfulAt a) (down : (s.ports.get a).state = .inReset) :
    (s.updPort a fun p => { p with state := .idle, prstn := true }).LawfulAt a := by
  refine law.port a _ fun port _ => ?_
  have none := State.LawfulAt.none (s := s) port (by simp [down])
  have kept : waitsOf s a + endingsHanded { s.ports.get a with state := .idle, prstn := true } = 0 := none
  rw [kept]
  exact ⟨fun _ => by simp, Nat.zero_le 1, by simp, by simp, by simp⟩

theorem lawfulAt_prstnRise (law : s.LawfulAt a) (leases : LeaseLaw s) (high : s.resetn = true)
    (stepped : exec (.prstnRise a) s = .next t) : t.LawfulAt a := by
  cases stepped
  simp only [high, Bool.not_true, Bool.false_eq_true, if_false]
  split
  · exact law
  · rename_i low
    have low : (s.ports.get a).prstn = false := by simpa using low
    split
    · obtain ⟨fell, down⟩ := lawfulAt_portFall s a low leases
      exact fell.risen down
    · rename_i owed
      exact law.risen (law.reset.mpr ⟨low, by simpa using owed⟩)

/-! ### The law -/

theorem Changes.keep_lawfulAt (changes : Changes g s t) (high : s.resetn = true) (leases : LeaseLaw s)
    (law : ∀ b, g ≠ some b → s.LawfulAt b) : ∀ b, g ≠ some b → t.LawfulAt b := by
  have kept : t.resetn = true ∧ LeaseLaw t ∧ ∀ b, g ≠ some b → t.LawfulAt b := by
    induction changes with
    | refl => exact ⟨high, leases, law⟩
    | tail _ last ih =>
      obtain ⟨high, leases, law⟩ := ih
      exact ⟨last.resetn.trans high, last.keeps_leaseLaw leases, last.keeps_lawfulAt high leases law⟩
  exact kept.2.2

/-- At the reset values no port waits. -/
theorem portLaw_of_resetValues (values : resetValues s) : PortLaw s := by
  obtain ⟨pins, transfers, free, pending, rfl, -⟩ := exists_resetWith values
  refine (portLaw_iff _).mpr fun a => ?_
  have none : waitsOf (State.resetWith pins transfers free pending) a = 0 := by
    rw [waitsOf_eq]
    exact List.sum_eq_zero_iff_forall_eq_nat.mpr fun n mem => by
      obtain ⟨w, -, rfl⟩ := List.mem_map.mp mem
      simp [State.resetWith, LeaseCtx.waits, LeaseCtx.reset]
  unfold State.LawfulAt State.waitsAt
  rw [none]
  cases level : pins.prstn.get a <;>
  · simp only [State.resetWith, Tbl.get_map, level, endingsHanded, Port.reset, List.countP_nil]
    exact ⟨by simp, by simp, by simp, by simp, by simp⟩

theorem exec_keeps_portLaw {i : Instr} (held : ResetLaw s) (leases : LeaseLaw s) (law : PortLaw s)
    (stepped : exec i s = .next t) : PortLaw t := by
  by_cases edge : i = .deviceReset
  · subst edge
    cases stepped
    exact portLaw_of_resetValues (resetValues_resetWith _ _ _ _)
  cases high : s.resetn with
  | false => exact portLaw_of_resetValues (exec_keeps_resetValues high (held high) edge stepped)
  | true =>
    have ports := (portLaw_iff s).mp law
    obtain ⟨u, taken, changes⟩ := exec_changes i s edge
    cases taken.symm.trans stepped
    have others := changes.keep_lawfulAt high leases fun b _ => ports b
    refine (portLaw_iff _).mpr fun b => ?_
    by_cases here : resets i = some b
    · cases i <;> simp only [resets, reduceCtorEq, Option.some.injEq] at here
      · subst here
        exact lawfulAt_portReset (ports _) leases high stepped
      · subst here
        exact lawfulAt_prstnRise (ports _) leases high stepped
    · exact others b here

/-- Settles O57: the ports that a command does not reset keep their law change by change; the one that it does reset has
no lease left. -/
theorem stepKeepsPortLaw : Obligations.StepKeepsPortLaw := by
  intro s t held leases law stepped
  unfold step at stepped
  split at stepped
  · cases stepped
    exact law
  · rename_i rest _
    exact exec_keeps_portLaw (s := { s with pending := rest }) held leases law stepped

end Sys2Proof.Machine
end

