-- ==== Sys2Proof/Proofs/FrameContents.lean ====
section
/-! PROOF. The queue and the reset values (O1, O2, O50), the CRC (O9), the frames of the management port by their bits
(O7, O8), and CONFIGURE DEVICE (O4). -/

namespace Sys2Proof.Machine

open Sys2Proof.Safety

variable {s : State} {i : Instr} {code : Byte} {payload : List Byte}

/-! ### The queue and the resets -/

/-- Settles O1. -/
theorem stepTakesFrontCommand : Obligations.StepTakesFrontCommand :=
  ⟨fun _ _ _ => rfl, fun s empty => by rw [step, empty]⟩

theorem resetWith_port_state (pins : Pins) (transfers free : Nat) (pending : List Instr) (a : Agent) :
    ((State.resetWith pins transfers free pending).ports.get a).prstn = pins.prstn.get a ∧
      ((State.resetWith pins transfers free pending).ports.get a).state =
        if pins.prstn.get a then .idle else .inReset := by
  simp [State.resetWith, Port.reset]

/-- Settles O2. -/
theorem resetGivesResetValues : Obligations.ResetGivesResetValues := by
  refine ⟨fun s => ⟨_, rfl, resetValues_resetWith _ _ _ _, ?_, rfl, fun a => ?_, rfl, rfl, rfl, rfl⟩,
    resetValues_resetWith _ _ _ _, rfl, rfl, fun a => ?_, rfl, rfl⟩
  · show (!s.resetn) = true ↔ s.resetn = false
    cases s.resetn <;> simp
  · have port := resetWith_port_state
      { resetn := !s.resetn, msel := s.mgmt.msel, prstn := s.ports.map fun p => p.prstn, breq := s.router.breq }
      s.transfers s.free s.pending a
    simp only [Tbl.get_map] at port
    exact port
  · exact (resetWith_port_state { resetn := true, msel := true, prstn := Tbl.fill 4 true, breq := false } 0 0 []
      a).2.trans
      (by rw [Tbl.get_fill]; rfl)

/-- Settles O50. -/
theorem lawsHoldAtReset : Obligations.LawsHoldAtReset :=
  ⟨pinLaw_resetWith _ _ _ _, windowLaw_resetWith _ _ _ _, targetLaw_resetWith _ _ _ _, useLaw_resetWith _ _ _ _,
    leaseLaw_resetWith _ _ _ _, poolLaw_resetWith _ _ _ _, portLaw_of_resetValues (resetValues_resetWith _ _ _ _),
    dataPathLaw_resetWith _ _ _ _, timeLaw_resetWith _ _ _ _, resetLaw_resetWith _ _ _ _⟩

/-! ### The CRC (R166) -/

theorem crc8_append (bytes : List Byte) (b : Byte) : crc8 (bytes ++ [b]) = crcByte (crc8 bytes) b := by
  simp [crc8]

/-- Settles O9. -/
theorem crcRegister : Obligations.CrcRegister := by
  refine ⟨rfl, fun bytes b => ?_, by decide, by decide +kernel⟩
  rw [crc8_append]
  rfl

/-! ### Bits and bytes (R164) -/

theorem bitsOfBytes_append (bs cs : List Byte) : bitsOfBytes (bs ++ cs) = bitsOfBytes bs ++ bitsOfBytes cs :=
  List.flatMap_append

theorem bitsOfByte_byteOfBits (b7 b6 b5 b4 b3 b2 b1 b0 : Bool) :
    bitsOfByte (byteOfBits b7 b6 b5 b4 b3 b2 b1 b0) = [b7, b6, b5, b4, b3, b2, b1, b0] := by
  revert b7 b6 b5 b4 b3 b2 b1 b0
  decide

/-- A frame is the bits of its complete bytes, and up to seven bits left over. -/
theorem bits_eq_frameBytes (bits : List Bool) :
    ∃ part, part.length < 8 ∧ bits = bitsOfBytes (frameBytes bits) ++ part := by
  induction bits using frameBytes.induct with
  | case1 b7 b6 b5 b4 b3 b2 b1 b0 rest ih =>
    obtain ⟨part, short, e⟩ := ih
    refine ⟨part, short, ?_⟩
    rw [frameBytes, bitsOfBytes_cons, bitsOfByte_byteOfBits, List.append_assoc, ← e]
    rfl
  | case2 bits short =>
    have none : frameBytes bits = [] := by
      unfold frameBytes
      split
      · exact absurd rfl (short _ _ _ _ _ _ _ _ _)
      · rfl
    refine ⟨bits, ?_, by rw [none]; rfl⟩
    refine Classical.byContradiction fun long => ?_
    match bits, short, long with
    | b7 :: b6 :: b5 :: b4 :: b3 :: b2 :: b1 :: b0 :: rest, short, _ => exact short _ _ _ _ _ _ _ _ _ rfl
    | [], _, long | [_], _, long | [_, _], _, long | [_, _, _], _, long | [_, _, _, _], _, long
    | [_, _, _, _, _], _, long | [_, _, _, _, _, _], _, long | [_, _, _, _, _, _, _], _, long =>
      exact long (by simp)

/-! ### REQUEST frames (R165, R169) -/

/-- Every supervisor request is carried out by what it is at its owner. -/
theorem exec_performRequest (h : requestBytes i = some (code, payload)) :
    ∃ f, (∀ s, performRequest i s = some (f s)) ∧ ∀ s, exec i s = carryOut code payload.length f s := by
  cases i <;> simp only [requestBytes, Option.some.injEq, Prod.mk.injEq, reduceCtorEq] at h
  all_goals
    obtain ⟨rfl, rfl⟩ := h
    exact ⟨_, fun _ => rfl, fun _ => rfl⟩

theorem exec_request (h : requestBytes i = some (code, payload)) (s : State) :
    exec i s = carryOut code payload.length (executeRequest code payload) s := by
  obtain ⟨f, performed, carried⟩ := exec_performRequest h
  have same : executeRequest code payload = f := by
    funext s
    rw [executeRequest, (requestOf_requestBytes i code payload h).1, Option.bind_some, performed]
  rw [same, carried]

/-- The command that a REQUEST frame with a correct CRC is (R169). -/
def RequestOf (i : Instr) (code : Byte) (payload : List Byte) : Prop :=
  requestBytes i = some (code, payload) ∨
    requestLength code ≠ some payload.length ∧ i = .unknownRequest code payload

theorem RequestOf.exec (h : RequestOf i code payload) (s : State) :
    exec i s = carryOut code payload.length (executeRequest code payload) s := by
  rcases h with h | ⟨-, rfl⟩
  · exact exec_request h s
  · rfl

theorem requestOf_none (unnamed : requestLength code ≠ some payload.length) : requestOf code payload = none := by
  refine Classical.byContradiction fun named => ?_
  obtain ⟨i, named⟩ := Option.ne_none_iff_exists'.mp named
  exact unnamed (requestOf_length code payload i named)

theorem RequestOf.command (h : RequestOf i code payload) :
    (requestOf code payload).getD (.unknownRequest code payload) = i := by
  rcases h with h | ⟨unnamed, rfl⟩
  · rw [(requestOf_requestBytes i code payload h).1]
    rfl
  · rw [requestOf_none unnamed]
    rfl

theorem frameBytes_request (code : Byte) (payload extra : List Byte) {part : List Bool} (short : part.length < 8) :
    frameBytes (bitsOfBytes (requestFrame code payload ++ extra) ++ part) =
      requestKind :: (requestFrame code payload ++ extra).tail := by
  rw [frameBytes_bitsOfBytes _ part short]
  rfl

theorem settleFrame_request (code : Byte) (payload extra : List Byte) (few : payload.length ≤ 15) :
    settleFrame (requestKind :: (requestFrame code payload ++ extra).tail) = .request code payload :=
  settleFrame_requestFrame code payload extra few

/-- The frame of a request is read back as that request, whatever follows it. -/
theorem RequestOf.frameCommand (h : RequestOf i code payload) (few : payload.length ≤ 15) (extra : List Byte)
    {part : List Bool} (short : part.length < 8) :
    frameCommand (bitsOfBytes (requestFrame code payload ++ extra) ++ part) = i := by
  unfold Sys2Proof.frameCommand
  rw [frameBytes_request code payload extra short]
  simp only [if_true, settleFrame_request code payload extra few]
  exact h.command

/-- The frame of a request settles as the request, with its own bits on MSO. -/
theorem takeFrame_request (s : State) (few : payload.length ≤ 15) (extra : List Byte) {part : List Bool}
    (short : part.length < 8) :
    s.takeFrame (bitsOfBytes (requestFrame code payload ++ extra) ++ part) =
      settle code (bitsOfBytes (requestFrame code payload ++ extra) ++ part).length
        (executeRequest code payload s) := by
  unfold State.takeFrame
  rw [frameBytes_request code payload extra short]
  simp only [if_true, settleFrame_request code payload extra few]

theorem length_requestFrame (code : Byte) (payload : List Byte) :
    (bitsOfBytes (requestFrame code payload)).length = requestBits payload.length := by
  rw [length_bitsOfBytes, requestFrame, requestBits]
  simp
  omega

/-- The frame that carries a request executes it. -/
theorem exec_badFrame_request (h : requestBytes i = some (code, payload)) (s : State) :
    exec (.badFrame (bitsOfBytes (requestFrame code payload))) s = exec i s := by
  have few := (requestOf_requestBytes i code payload h).2
  have taken := takeFrame_request (code := code) s few [] (part := []) (by decide)
  rw [List.append_nil, List.append_nil, length_requestFrame] at taken
  rw [exec_request h]
  show Host.Outcome.next (s.onFrame fun s => s.takeFrame _) = _
  by_cases frame : takesFrames s
  · rw [onFrame_taken s _ frame, carryOut, onFrame_taken s _ frame, taken]
  · rw [onFrame_not_taken s _ frame, carryOut_not_taken _ _ _ s frame]

/-! ### Frames that carry no request -/

section NoRequest

variable {bits : List Bool} (taken : takesFrames s)
include taken

theorem exec_ignoredFrame_other (request : (frameBytes bits).head? ≠ some 0xA5)
    (fetch : (frameBytes bits).head? ≠ some 0x5A) : exec (.ignoredFrame bits) s = .next (unposted s bits.length) := by
  show Host.Outcome.next (s.onFrame fun s => s.takeFrame bits) = _
  rw [onFrame_taken s _ taken, State.takeFrame]
  cases e : frameBytes bits with
  | nil => rfl
  | cons kind rest =>
    rw [e] at request fetch
    have notRequest : kind ≠ requestKind := fun same => request (by rw [same]; rfl)
    have notFetch : kind ≠ fetchKind := fun same => fetch (by rw [same]; rfl)
    simp only [notRequest, notFetch, if_false]
    rfl

/-- A frame with the kind byte of a REQUEST, by the table of R165. -/
theorem exec_badFrame_settled {rest : List Byte} (bytes : frameBytes bits = 0xA5 :: rest) {outcome : FrameOutcome}
    (settled : settleFrame (0xA5 :: rest) = outcome) :
    exec (.badFrame bits) s = .next (match outcome with
      | .discarded => unposted s bits.length
      | .bad code => posted s code .badFrame [] bits.length
      | .request code payload => settle code bits.length (executeRequest code payload s)) := by
  show Host.Outcome.next (s.onFrame fun s => s.takeFrame bits) = _
  rw [onFrame_taken s _ taken, State.takeFrame, bytes]
  simp only [requestKind, if_true, settled]
  cases outcome <;> rfl

end NoRequest

section Settled

variable {code len : Byte} {rest : List Byte}

theorem settleFrame_short (short : rest.length < 2) : settleFrame (0xA5 :: rest) = .discarded := by
  match rest, short with
  | [], _ | [_], _ => rfl

theorem settleFrame_long (long : 15 < len.toNat) : settleFrame (0xA5 :: code :: len :: rest) = .bad code := by
  simp only [settleFrame, long, if_true]

theorem settleFrame_cut (legal : len.toNat ≤ 15) (cut : rest.length < len.toNat + 1) :
    settleFrame (0xA5 :: code :: len :: rest) = .discarded := by
  simp only [settleFrame, Nat.not_lt.mpr legal, if_false, cut, if_true]

theorem settleFrame_wrong_crc {payload extra : List Byte} {crc : Byte} (legal : len.toNat ≤ 15)
    (length : payload.length = len.toNat) (wrong : crc ≠ crc8 (0xA5 :: code :: len :: payload)) :
    settleFrame (0xA5 :: code :: len :: (payload ++ crc :: extra)) = .bad code := by
  rw [← length] at legal
  have enough : ¬(payload ++ crc :: extra).length < payload.length + 1 := by simp
  have last : (payload ++ crc :: extra).getD payload.length 0 = crc := by
    rw [List.getD_eq_getElem?_getD, List.getElem?_append_right (Nat.le_refl _), Nat.sub_self]
    rfl
  simp only [settleFrame, ← length, Nat.not_lt.mpr legal, if_false, enough, List.take_left, last, Ne.symm wrong]

end Settled

/-! ### The statements -/

theorem exec_unknownRequest_unnamed (taken : takesFrames s) (unnamed : requestLength code ≠ some payload.length) :
    exec (.unknownRequest code payload) s =
      .next
        (afterResult s code payload.length (if (requestLength code).isSome then .badArgument else .unknown) []) := by
  refine carryOut_of_reply taken ?_
  rw [executeRequest, requestOf_none unnamed]
  rfl

/-- Settles O7. -/
theorem framesByContent : Obligations.FramesByContent := by
  refine ⟨⟨fun b => ?_, bitsOfBytes_append, bits_eq_frameBytes⟩, fun s bits taken => ?_, fun code payload s taken => ?_,
    fun i bytes s encoded => ?_, fun i code payload extra part s taken few short is => ?_⟩
  · exact (bitsOfBytes_eq_flatMap [b]).trans (List.flatMap_singleton _ _)
  · refine ⟨exec_ignoredFrame_other taken, fun rest bytes short => ?_, fun code len rest bytes long => ?_,
      fun code len rest bytes legal cut => ?_, fun code len payload crc extra bytes legal length wrong => ?_⟩
    · exact exec_badFrame_settled taken bytes (settleFrame_short short)
    · exact exec_badFrame_settled taken bytes (settleFrame_long long)
    · exact exec_badFrame_settled taken bytes (settleFrame_cut legal cut)
    · exact exec_badFrame_settled taken bytes (settleFrame_wrong_crc legal length wrong)
  · refine ⟨fun none => ?_, fun n known length => ?_⟩
    · rw [exec_unknownRequest_unnamed taken (by simp [none]), none]
      rfl
    · rw [exec_unknownRequest_unnamed taken (by simpa [known] using Ne.symm length), known]
      rfl
  · obtain ⟨⟨code, payload⟩, request, rfl⟩ := Option.map_eq_some_iff.mp encoded
    exact exec_badFrame_request request s
  · have request : RequestOf i code payload := is
    refine ⟨request.frameCommand few extra short, _, request.exec s, ?_⟩
    show Host.Outcome.next (s.onFrame fun s => s.takeFrame _) = _
    rw [onFrame_taken s _ taken, takeFrame_request s few extra short, onFrame_taken s _ taken]
    rfl

/-- Settles O8. -/
theorem requestFrameReadsBack : Obligations.RequestFrameReadsBack := by
  intro i bytes extra part encoded short
  obtain ⟨⟨code, payload⟩, request, rfl⟩ := Option.map_eq_some_iff.mp encoded
  exact RequestOf.frameCommand (.inl request) (requestOf_requestBytes i code payload request).2 extra short

/-! ### CONFIGURE DEVICE (R171) -/

section ConfigureDevice

variable {refclk : Half} {fill : BitVec 32} {flags : Byte}

theorem clearFrom_five_iff (flags : Byte) : clearFrom flags 5 = true ↔ flags.toNat < 32 := clearFrom_iff flags 5

theorem Bus.owned_iff (bus : Bus) : bus.owned = true ↔ bus = .ownedIdle ∨ ∃ a, bus = .transfer a := by
  cases bus <;> simp [Bus.owned]

/-- The bus is not lent, or lending stays enabled. -/
def State.lendable (s : State) (flags : Byte) : Prop := flags.getLsbD 0 = true ∨ s.router.bus.owned = true

/-- The state with the device configuration written. -/
def State.configured (s : State) (refclk : Half) (fill : BitVec 32) (flags : Byte) : State :=
  { s with
    mgmt :=
      { s.mgmt with
        fill := fill, lending := flags.getLsbD 0, mask := maskOf flags
        attn := attnLevel (maskOf flags) s.mgmt.attention }
    tb := s.tb.setDivisor refclk }

theorem configureDevice_running (running : s.mgmt.running = true) :
    configureDevice refclk fill flags s = replyOnly s .badState := by
  simp only [configureDevice, running, if_true]

variable (configuring : s.mgmt.running = false)
include configuring

theorem configureDevice_bad_argument
    (bad : ¬(1000 ≤ refclk.toNat ∧ refclk.toNat ≤ 50000 ∧ clearFrom flags 5 = true)) :
    configureDevice refclk fill flags s = replyOnly s .badArgument := by
  simp only [configureDevice, configuring, Bool.false_eq_true, if_false, bad, not_false_eq_true, if_true]

variable (range : 1000 ≤ refclk.toNat ∧ refclk.toNat ≤ 50000 ∧ clearFrom flags 5 = true)
include range

theorem configureDevice_lent (lent : ¬s.lendable flags) :
    configureDevice refclk fill flags s = replyOnly s .badState := by
  unfold State.lendable at lent
  simp only [configureDevice, configuring, Bool.false_eq_true, if_false, range, not_true_eq_false, and_self, lent,
    not_false_eq_true, if_true]

theorem configureDevice_writes (lendable : s.lendable flags) :
    configureDevice refclk fill flags s =
      ⟨if s.mgmt.lending = false ∧ flags.getLsbD 0 = true ∧ s.router.breq = true then
          (s.configured refclk fill flags).updRouter Router.request else s.configured refclk fill flags,
        .ok, be16 refclk ++ be32 fill ++ [flags]⟩ := by
  unfold State.lendable at lendable
  simp only [configureDevice, configuring, Bool.false_eq_true, if_false, range, not_true_eq_false, and_self, lendable,
    Bool.not_eq_true']
  rfl

end ConfigureDevice

/-- Settles O4. -/
theorem configureDeviceChecksThenWrites : Obligations.ConfigureDeviceChecksThenWrites := by
  intro refclk fill flags s taken inRange owned mask written result
  have range : inRange → 1000 ≤ refclk.toNat ∧ refclk.toNat ≤ 50000 ∧ clearFrom flags 5 = true := fun h =>
    ⟨h.1, h.2.1, (clearFrom_five_iff flags).mpr h.2.2⟩
  have lendable : s.lendable flags ↔ flags.getLsbD 0 = true ∨ owned := or_congr_right (Bus.owned_iff _)
  refine ⟨fun running => ?_, fun configuring bad => ?_, fun configuring ok disable lent => ?_,
    fun configuring ok free quiet => ?_, fun configuring ok disabled enable request idle => ?_⟩
  · exact carryOut_of_reply taken (configureDevice_running running)
  · refine carryOut_of_reply taken (configureDevice_bad_argument configuring fun ok => bad ?_)
    exact ⟨ok.1, ok.2.1, (clearFrom_five_iff flags).mp ok.2.2⟩
  · refine carryOut_of_reply taken (configureDevice_lent configuring (range ok) ?_)
    rw [lendable, disable]
    rintro (h | h)
    · cases h
    · exact lent h
  · refine carryOut_of_reply taken ((configureDevice_writes configuring (range ok) (lendable.mpr free)).trans ?_)
    rw [if_neg]
    · rfl
    · rintro ⟨disabled, enable, request⟩
      rcases quiet with enabled | disable | low
      · exact absurd (disabled.symm.trans enabled) (by decide)
      · exact absurd (enable.symm.trans disable) (by decide)
      · exact absurd (request.symm.trans low) (by decide)
  · refine carryOut_of_reply taken
      ((configureDevice_writes configuring (range ok) (lendable.mpr (.inl enable))).trans ?_)
    rw [if_pos ⟨disabled, enable, request⟩, State.updRouter,
      Router.request_ownedIdle (r := (s.configured refclk fill flags).router) idle]
    rfl

end Sys2Proof.Machine
end

