-- ==== Sys2Proof/Proofs/TargetRequests.lean ====
section
/-! PROOF. WAKE, PARK and RECOVER TARGET (O11), the target expiries (O12) and the outcome reports (O13). -/

namespace Sys2Proof.Machine

open Sys2Proof.Safety

variable {s u : State} {t : TargetId} {w : WindowId} {target : Byte}

/-! ### A target becomes READY (R106, R116) -/

theorem windowOpened_frame (s : State) (w : WindowId) :
    windowOpened s w =
      { s with
        windows := s.windows.set w { s.windows.get w with state := .opened }
        ctxs := (windowOpened s w).ctxs, ports := (windowOpened s w).ports
        mgmt := { s.mgmt with handed := s.mgmt.handed ++ [.openDone w] } } := by
  have frame := evaluate_frame
    { withWindow s w { s.windows.get w with state := .opened } with
      mgmt := { s.mgmt with handed := s.mgmt.handed ++ [AttnItem.openDone w] } } w
  exact frame.trans rfl

theorem windowOpened_with_targets (s : State) (w : WindowId) (targets : Tbl Target 8) :
    windowOpened { s with targets := targets } w = { windowOpened s w with targets := targets } := by
  let opened : State :=
    { withWindow s w { s.windows.get w with state := .opened } with
      mgmt := { s.mgmt with handed := s.mgmt.handed ++ [AttnItem.openDone w] } }
  have seen := evaluate_with opened w opened.windows targets opened.mgmt rfl
  have windows : (opened.evaluate w).windows = opened.windows := evaluate_windows opened w
  have mgmt : (opened.evaluate w).mgmt = opened.mgmt := by rw [evaluate_frame]
  refine seen.trans ?_
  rw [← windows, ← mgmt]
  rfl

theorem foldl_windowOpened_with_targets (l : List WindowId) (s : State) (targets : Tbl Target 8) :
    l.foldl windowOpened { s with targets := targets } = { l.foldl windowOpened s with targets := targets } := by
  induction l generalizing s with
  | nil => rfl
  | cons w l ih => rw [List.foldl_cons, windowOpened_with_targets, ih, List.foldl_cons]

/-- A target that becomes READY is written once, before its windows open. -/
theorem targetReady_eq (s : State) (t : TargetId) :
    s.targetReady t = windowsOpened (s.updTarget t fun x => x.becomeReady.startDelay s.tb.tick) t := by
  have once : s.updTarget t (fun x => x.becomeReady.startDelay s.tb.tick) =
      { s.updTarget t Target.becomeReady with
        targets := s.targets.set t ((s.targets.get t).becomeReady.startDelay s.tb.tick) } := rfl
  have targets : (windowsOpened (s.updTarget t Target.becomeReady) t).targets =
      (s.updTarget t Target.becomeReady).targets := foldl_windowOpened_targets _ _
  rw [once]
  refine Eq.trans ?_ (foldl_windowOpened_with_targets _ _ _).symm
  simp only [State.targetReady, readyReport_eq]
  rw [State.updTarget, targets]
  simp only [State.updTarget, Tbl.get_set_self, Tbl.set_set]
  rfl

/-- The openings change nothing else. -/
theorem foldl_windowOpened_frame (l : List WindowId) (s : State) :
    l.foldl windowOpened s =
      { s with
        windows := (l.foldl windowOpened s).windows, ctxs := (l.foldl windowOpened s).ctxs
        ports := (l.foldl windowOpened s).ports
        mgmt := { s.mgmt with handed := s.mgmt.handed ++ l.map AttnItem.openDone } } := by
  induction l generalizing s with
  | nil => simp
  | cons w l ih =>
    rw [List.foldl_cons, ih, List.map_cons]
    have first := windowOpened_frame s w
    generalize windowOpened s w = v at first ⊢
    rw [first]
    simp

theorem foldl_windowOpened_port (l : List WindowId) (s : State) (a : Agent) :
    ∃ more, (l.foldl windowOpened s).ports.get a =
      { s.ports.get a with responses := (s.ports.get a).responses ++ more } := by
  induction l generalizing s with
  | nil => exact ⟨[], by simp⟩
  | cons w l ih =>
    obtain ⟨first, e⟩ := evaluate_port
      { withWindow s w { s.windows.get w with state := .opened } with
        mgmt := { s.mgmt with handed := s.mgmt.handed ++ [AttnItem.openDone w] } } w a
    obtain ⟨rest, e'⟩ := ih (windowOpened s w)
    refine ⟨first ++ rest, ?_⟩
    have e : (windowOpened s w).ports.get a =
      { s.ports.get a with responses := (s.ports.get a).responses ++ first } := e
    rw [List.foldl_cons, e', e]
    simp

/-- An evaluation reads the window, its context and the tick count. -/
theorem evaluate_ctx_congr (window : u.windows.get w = s.windows.get w) (ctx : u.ctxs.get w = s.ctxs.get w)
    (tick : u.tb = s.tb) : (u.evaluate w).ctxs.get w = (s.evaluate w).ctxs.get w := by
  simp only [State.evaluate, window, ctx, tick]
  split
  · split
    · split
      · simp [ctx]
      · exact ctx
    · rw [handGrants_ports, handGrants_ports (s.updCtx w _)]
      simp
  · exact ctx

theorem windowOpened_other_ctx (s : State) {w v : WindowId} (ne : v ≠ w) :
    (windowOpened s w).ctxs.get v = s.ctxs.get v := evaluate_other_ctx _ ne

/-- Each window's context is evaluated as the window opens; the others stay. -/
theorem foldl_windowOpened_ctx (l : List WindowId) (distinct : l.Nodup) (s : State) (v : WindowId) :
    (l.foldl windowOpened s).ctxs.get v =
      if v ∈ l then (State.evaluate (withWindow s v { s.windows.get v with state := .opened }) v).ctxs.get v
      else s.ctxs.get v := by
  induction l generalizing s with
  | nil => rfl
  | cons w l ih =>
    obtain ⟨fresh, distinct⟩ := List.nodup_cons.mp distinct
    rw [List.foldl_cons, ih distinct]
    by_cases e : v = w
    · subst e
      simp only [fresh, if_false, List.mem_cons_self, if_true]
      exact evaluate_ctx_congr rfl rfl rfl
    · have window : (windowOpened s w).windows.get v = s.windows.get v := by
        rw [windowOpened_windows, Tbl.get_set_ne _ (Ne.symm e)]
      have tb : (windowOpened s w).tb = s.tb := (congrArg State.tb (windowOpened_frame s w)).trans rfl
      simp only [List.mem_cons, e, false_or, windowOpened_other_ctx s e, window]
      split
      · refine evaluate_ctx_congr ?_ (windowOpened_other_ctx s e) tb
        simp [withWindow]
      · rfl

/-- The record of a target that has become READY. -/
theorem becomeReady_startDelay (x : Target) (now : Tick) :
    x.becomeReady.startDelay now =
      { x with
        state := .ready, twake := true, failures := 0, interval := none
        parkDeadline :=
          if x.useCount = 0 ∧ x.parkDelay ≠ 0 then some ⟨now + BitVec.ofNat 32 x.parkDelay.toNat, false⟩
          else x.parkDeadline } := by
  rw [startDelay_eq]
  rfl

theorem windowsOpened_none (s : State) (t : TargetId)
    (none : ∀ w, (s.windows.get w).state = .opening → (s.windows.get w).target ≠ t) : windowsOpened s t = s := by
  have empty : (allWindows.filter fun w => (s.windows.get w).state == .opening && (s.windows.get w).target == t) = [] :=
    List.filter_eq_nil_iff.mpr fun w _ => by simpa using none w
  rw [windowsOpened, empty]
  rfl

/-! ### WAKE, PARK and RECOVER TARGET (R105, R107, R116) -/

section Requests

variable (named : t.val = target.toNat)
include named

omit named in
theorem targetReply_of_state {code : Byte} (state : (u.targets.get t).state.code = code) :
    targetReply u t = ⟨u, .ok, [code]⟩ := by rw [targetReply, state]

/-- WAKE TARGET, by the target's state. -/
theorem wakeTarget_eq :
    wakeTarget target s = match (s.targets.get t).state with
      | .absent => replyOnly s .noTarget
      | .faulted => replyOnly s .badState
      | .parked => ⟨withTarget s t (s.targets.get t).startWake, .ok, [2]⟩
      | .parking => ⟨s.updTarget t fun x => { x with wakePending := true }, .ok, [4]⟩
      | .waking => ⟨s, .ok, [2]⟩
      | .ready => ⟨s, .ok, [3]⟩ := by
  simp only [wakeTarget, targetOf_of_val t named]
  cases state : (s.targets.get t).state with
  | absent | faulted => rfl
  | parked => exact targetReply_updTarget s t _
  | parking =>
    refine targetReply_of_state (u := s.updTarget t _) (code := 4) ?_
    rw [State.updTarget_get]
    exact congrArg TargetState.code state
  | waking | ready => exact targetReply_of_state (congrArg TargetState.code state)

/-- PARK TARGET on a target that is present and unused, by its state. -/
theorem parkTarget_eq (present : (s.targets.get t).state ≠ .absent) (unused : (s.targets.get t).useCount = 0) :
    parkTarget target s = match (s.targets.get t).state with
      | .ready | .waking | .faulted => ⟨withTarget s t (s.targets.get t).startPark, .ok, [4]⟩
      | .parking => ⟨s.updTarget t fun x => { x with wakePending := false }, .ok, [4]⟩
      | .parked | .absent => ⟨s, .ok, [1]⟩ := by
  simp only [parkTarget, targetOf_of_val t named, present, if_false, unused, ne_eq, not_true_eq_false]
  cases state : (s.targets.get t).state with
  | absent => exact absurd state present
  | ready | waking | faulted => exact targetReply_updTarget s t _
  | parking =>
    refine targetReply_of_state (u := s.updTarget t _) (code := 4) ?_
    rw [State.updTarget_get]
    exact congrArg TargetState.code state
  | parked => exact targetReply_of_state (congrArg TargetState.code state)

theorem parkTarget_absent (absent : (s.targets.get t).state = .absent) :
    parkTarget target s = replyOnly s .noTarget := by
  simp only [parkTarget, targetOf_of_val t named, absent, if_true]

theorem parkTarget_in_use (present : (s.targets.get t).state ≠ .absent) (used : (s.targets.get t).useCount ≠ 0) :
    parkTarget target s = replyOnly s .inUse := by
  simp only [parkTarget, targetOf_of_val t named, present, if_false, used, ne_eq, not_false_eq_true, if_true]

theorem recoverTarget_refuses (sound : (s.targets.get t).state ≠ .faulted) :
    recoverTarget target s = replyOnly s .badState := by
  simp only [recoverTarget, targetOf_of_val t named, sound, if_false]

/-- RECOVER TARGET where no window waits for the target. -/
theorem recoverTarget_readies (faulted : (s.targets.get t).state = .faulted)
    (none : ∀ w, (s.windows.get w).state = .opening → (s.windows.get w).target ≠ t) :
    recoverTarget target s =
      ⟨withTarget s t ((s.targets.get t).becomeReady.startDelay s.tb.tick), .ok, [3]⟩ := by
  have ready : s.targetReady t = withTarget s t ((s.targets.get t).becomeReady.startDelay s.tb.tick) := by
    rw [targetReady_eq, windowsOpened_none _ t (by exact none)]
    rfl
  simp only [recoverTarget, targetOf_of_val t named, faulted, if_true, ready, targetReply, withTarget,
    Tbl.get_set_self, becomeReady_startDelay]
  rfl

end Requests

/-- Settles O11. -/
theorem wakeParkAndRecoverTarget : Obligations.WakeParkAndRecoverTarget := by
  refine ⟨fun target s taken => ⟨fun bad => ?_, fun t named => ?_⟩,
    fun target s taken => ⟨fun bad => ?_, fun t named => ?_⟩, fun target s taken => ⟨fun bad => ?_, fun t named => ?_⟩⟩
  · exact carryOut_of_reply taken (by rw [wakeTarget, targetOf_of_le bad]; rfl)
  · have reply := wakeTarget_eq (s := s) named
    refine ⟨fun state => ?_, fun state => ?_, fun state => ?_, fun state => ?_, fun state => ?_, fun state => ?_⟩
    all_goals
      rw [state] at reply
      exact carryOut_of_reply taken reply
  · exact carryOut_of_reply taken (by rw [parkTarget, targetOf_of_le bad]; rfl)
  · refine ⟨fun absent => ?_, fun present used => ?_, fun unused state => ?_, fun unused state => ?_,
      fun unused state => ?_⟩
    · exact carryOut_of_reply taken (parkTarget_absent named absent)
    · exact carryOut_of_reply taken (parkTarget_in_use named present used)
    · rcases state with state | state | state
      all_goals
        have reply := parkTarget_eq named (by rw [state]; decide) unused
        rw [state] at reply
        exact carryOut_of_reply taken reply
    all_goals
      have reply := parkTarget_eq named (by rw [state]; decide) unused
      rw [state] at reply
      exact carryOut_of_reply taken reply
  · exact carryOut_of_reply taken (by rw [recoverTarget, targetOf_of_le bad]; rfl)
  · refine ⟨fun sound => carryOut_of_reply taken (recoverTarget_refuses named sound), fun faulted none => ?_⟩
    have reply := recoverTarget_readies named faulted none
    rw [becomeReady_startDelay] at reply
    exact carryOut_of_reply taken reply

/-! ### The target expiries (R106, R108, R111) -/

theorem ranOut_iff (x : Target) (k : IntervalKind) : x.ranOut k = true ↔ x.interval = some ⟨k, 0⟩ := beq_iff_eq

theorem isDue_iff (d : Option Deadline) : isDue d = true ↔ ∃ x, d = some x ∧ x.due = true := by
  cases d <;> simp [isDue]

/-- Settles O12. -/
theorem targetExpiriesAct : Obligations.TargetExpiriesAct := by
  refine ⟨fun t s => ⟨fun early => ?_, fun waking out => ?_⟩, fun t s =>
    ⟨fun early => ?_, fun ended settled => ?_, fun ended pending => ?_, fun early => ?_, fun overdue => ?_⟩⟩
  · rw [← ranOut_iff] at early
    exact congrArg _ (if_neg early)
  · intro ready u
    have due : (s.targets.get t).state = .waking ∧ (s.targets.get t).ranOut .wake = true :=
      ⟨waking, (ranOut_iff _ _).mpr out⟩
    have opened : s.targetReady t = u := by
      rw [targetReady_eq, State.updTarget, becomeReady_startDelay]
      rfl
    have frame := foldl_windowOpened_frame (allWindows.filter fun w =>
      (ready.windows.get w).state == .opening && (ready.windows.get w).target == t) ready
    have windows := windowsOpened_windows ready t
    have ctxs := foldl_windowOpened_ctx (allWindows.filter fun w =>
      (ready.windows.get w).state == .opening && (ready.windows.get w).target == t) (nodup_allWindows.filter _) ready
    have mem (w : WindowId) : (w ∈ allWindows.filter fun w =>
        (ready.windows.get w).state == .opening && (ready.windows.get w).target == t) ↔
          (s.windows.get w).state = .opening ∧ (s.windows.get w).target = t := by
      simp [allWindows, ready, withTarget]
    refine ⟨?_, ?_, fun w => ?_, ?_, fun w other => ?_, fun w opening here => ?_, fun a => ?_, ?_⟩
    · exact congrArg _ ((if_pos due).trans opened)
    · exact (congrArg State.targets frame).trans rfl
    · exact (congrArg (Tbl.get · w) windows).trans (Tbl.get_map _ _ _)
    · exact (congrArg State.mgmt frame).trans rfl
    · exact (ctxs w).trans (if_neg fun h => other ((mem w).mp h))
    · refine ((ctxs w).trans (if_pos ((mem w).mpr ⟨opening, here⟩))).trans ?_
      exact evaluate_ctx_congr rfl rfl rfl
    · exact foldl_windowOpened_port _ ready a
    · exact ⟨(congrArg State.resetn frame).trans rfl, (congrArg State.transfers frame).trans rfl,
        (congrArg State.quotas frame).trans rfl, (congrArg State.inUse frame).trans rfl,
        (congrArg State.router frame).trans rfl, (congrArg State.tb frame).trans rfl,
        (congrArg State.outcomes frame).trans rfl, (congrArg State.emptyReports frame).trans rfl,
        (congrArg State.pending frame).trans rfl⟩
  · rw [← ranOut_iff] at early
    exact congrArg _ (if_neg early)
  · rw [← ranOut_iff] at ended
    refine congrArg _ ((if_pos ended).trans (congrArg (withTarget s t) ?_))
    exact if_neg (by simp [settled])
  · rw [← ranOut_iff] at ended
    refine congrArg _ ((if_pos ended).trans (congrArg (withTarget s t) ?_))
    exact if_pos pending
  · rw [← isDue_iff] at early
    exact congrArg _ (if_neg early)
  · rw [← isDue_iff] at overdue
    exact congrArg _ (if_pos overdue)

/-! ### Outcome reports (R113, R114) -/

section Outcomes

variable {o : Outcome} {later : List (TargetId × Outcome)}

theorem takeOutcome_not_ready (notReady : (s.targets.get t).state ≠ .ready) : s.takeOutcome t o = s := if_neg notReady

variable (ready : (s.targets.get t).state = .ready)
include ready

theorem takeOutcome_success : s.takeOutcome t .success = withTarget s t { s.targets.get t with failures := 0 } :=
  if_pos ready

theorem takeOutcome_failure (failed : o ≠ .success) :
    s.takeOutcome t o =
      if (s.targets.get t).failures + 1 < 3 then
        withTarget s t { s.targets.get t with failures := (s.targets.get t).failures + 1 }
      else
        withTarget { s with mgmt := { s.mgmt with handed := s.mgmt.handed ++ [.targetFault t] } } t
          { s.targets.get t with state := .faulted, twake := true, failures := 3, parkDeadline := none } := by
  cases o with
  | success => exact absurd rfl failed
  | targetError | targetTimeout => exact if_pos ready

end Outcomes

/-- Settles O13. -/
theorem outcomeReportCounts : Obligations.OutcomeReportCounts := by
  intro s
  refine ⟨fun none => ⟨?_, ?_⟩, fun t o later reports => ?_⟩
  · simp only [exec, execOutcomeReport, none]
  · rw [State.takeOutcomes, none, List.foldl_nil, ← none]
  · intro x u
    have oldest : exec .outcomeReport s = .next (u.takeOutcome t o) := by
      simp only [exec, execOutcomeReport, reports]
      rfl
    refine ⟨⟨_, oldest, takeOutcome_keeps u t o, takeOutcomes_cons s t o later reports⟩, fun notReady => ?_,
      fun ready success => ?_, fun ready failed few => ?_, fun ready failed third => ?_⟩
    · rw [oldest, takeOutcome_not_ready (s := u) notReady]
    · rw [oldest, success, takeOutcome_success (s := u) ready]
    · rw [oldest, takeOutcome_failure (s := u) ready failed]
      exact congrArg _ (if_pos (show x.failures + 1 < 3 by omega))
    · rw [oldest, takeOutcome_failure (s := u) ready failed]
      exact congrArg _ (if_neg (show ¬x.failures + 1 < 3 by omega))

end Sys2Proof.Machine
end

