-- ==== Sys2Proof/Proofs/WindowRequests.lean ====
section
/-! PROOF. DEFINE WINDOW (O14), AMEND WINDOW where no agent is removed (O15), and OPEN WINDOW (O17). -/

namespace Sys2Proof.Machine

open Sys2Proof.Safety

variable {s : State} {w : WindowId} {t : TargetId}

/-! ### DEFINE WINDOW (R5, R6) -/

theorem targetOf_isSome (target : Byte) : (targetOf target).isSome = true ↔ target.toNat < 8 := by
  unfold targetOf
  split <;> simp_all

theorem overlapsAny_iff (s : State) (base stop : Nat) :
    s.overlapsAny base stop = true ↔
      ∃ v, (s.windows.get v).state ≠ .vacant ∧ base < (s.windows.get v).endAddr ∧
        (s.windows.get v).base.toNat < stop := by
  simp [State.overlapsAny, overlaps, allWindows]

section Define

variable {window k target attrs margin : Byte} {base offset : Addr} {term deadline : Half}

theorem defineWindow_out_of_range (out : 32 ≤ window.toNat) :
    defineWindow window base k target attrs offset term margin deadline s = replyOnly s .badArgument := by
  simp only [defineWindow, windowOf_of_le out]

variable (named : w.val = window.toNat)
include named

theorem defineWindow_in_use (used : (s.windows.get w).state ≠ .vacant) :
    defineWindow window base k target attrs offset term margin deadline s = replyOnly s .inUse := by
  simp only [defineWindow, windowOf_of_val w named, used, ne_eq, not_false_eq_true, if_true]

variable (vacant : (s.windows.get w).state = .vacant)
include vacant

theorem defineWindow_bad_argument (bad : ¬defineArgsOk base k target attrs offset term deadline = true) :
    defineWindow window base k target attrs offset term margin deadline s = replyOnly s .badArgument := by
  simp only [defineWindow, windowOf_of_val w named, vacant, ne_eq, not_true_eq_false, if_false, bad, Bool.not_false,
    if_true]

variable (legal : defineArgsOk base k target attrs offset term deadline = true)
include legal

theorem defineWindow_overlap (taken : 0xFF0000 < base.toNat + windowSize k.toNat ∨
      s.overlapsAny base.toNat (base.toNat + windowSize k.toNat) = true) :
    defineWindow window base k target attrs offset term margin deadline s = replyOnly s .overlap := by
  obtain ⟨t, found⟩ := Option.isSome_iff_exists.mp ((defineArgsOk_iff ..).mp legal).2.2.2.1
  simp only [defineWindow, windowOf_of_val w named, vacant, ne_eq, not_true_eq_false, if_false, legal, Bool.not_true,
    Bool.false_eq_true, found]
  by_cases control : 0xFF0000 < base.toNat + windowSize k.toNat
  · rw [if_pos control]
  · rw [if_neg control, if_pos (taken.resolve_left control)]

variable (target_eq : t.val = target.toNat) (below : ¬0xFF0000 < base.toNat + windowSize k.toNat)
  (apart : ¬s.overlapsAny base.toNat (base.toNat + windowSize k.toNat) = true)
include target_eq below apart

theorem defineWindow_no_target (absent : (s.targets.get t).state = .absent) :
    defineWindow window base k target attrs offset term margin deadline s = replyOnly s .noTarget := by
  simp only [defineWindow, windowOf_of_val w named, vacant, ne_eq, not_true_eq_false, if_false, legal, Bool.not_true,
    Bool.false_eq_true, targetOf_of_val t target_eq, below, apart, absent, if_true]

theorem defineWindow_stages (present : (s.targets.get t).state ≠ .absent) :
    defineWindow window base k target attrs offset term margin deadline s =
      ⟨withWindow s w
          { state := .staged, base := base, k := k.toNat, target := t, offset := offset, rule := ruleOf attrs,
            admitSet := admitOf attrs, term := term, margin := margin, closeDeadline := deadline, pending := none },
        .ok, []⟩ := by
  simp only [defineWindow, windowOf_of_val w named, vacant, ne_eq, not_true_eq_false, if_false, legal, Bool.not_true,
    Bool.false_eq_true, targetOf_of_val t target_eq, below, apart, present]
  rfl

end Define

/-- Settles O14. -/
theorem defineWindowChecksThenStages : Obligations.DefineWindowChecksThenStages := by
  intro window base k target attrs offset term margin deadline s taken result size argsOk inControl overlap
  have legal : defineArgsOk base k target attrs offset term deadline = true ↔ argsOk := by
    rw [defineArgsOk_iff, targetOf_isSome, clearFrom_five_iff]
    rfl
  have shared : s.overlapsAny base.toNat (base.toNat + windowSize k.toNat) = true ↔ overlap := overlapsAny_iff s _ _
  refine ⟨fun out => ?_, fun w named => ⟨fun used => ?_, fun vacant bad => ?_, fun vacant ok taken' => ?_,
    fun t target_eq vacant ok below apart => ⟨fun absent => ?_, fun present => ?_⟩⟩⟩
  · exact carryOut_of_reply taken (defineWindow_out_of_range out)
  · exact carryOut_of_reply taken (defineWindow_in_use named used)
  · exact carryOut_of_reply taken (defineWindow_bad_argument named vacant (mt legal.mp bad))
  · exact carryOut_of_reply taken
      (defineWindow_overlap named vacant (legal.mpr ok) (taken'.imp id shared.mpr))
  · exact carryOut_of_reply taken
      (defineWindow_no_target named vacant (legal.mpr ok) target_eq below (mt shared.mp apart) absent)
  · exact carryOut_of_reply taken
      (defineWindow_stages named vacant (legal.mpr ok) target_eq below (mt shared.mp apart) present)

/-! ### AMEND WINDOW (R9) -/

theorem amendArgs_iff (select attrs : Byte) (term deadline : Half) :
    amendArgsOk select attrs term deadline = true ↔
      select.toNat < 32 ∧ (select.getLsbD 0 = true ∨ select.getLsbD 4 = true → attrs.toNat < 32) ∧
        (select.getLsbD 1 = true → term ≠ 0) ∧ (select.getLsbD 3 = true → deadline ≠ 0) := by
  rw [amendArgsOk_iff, clearFrom_five_iff, clearFrom_five_iff]

/-- The agents that an amended record no longer admits. -/
def Window.removes (win new : Window) : List Agent := allAgents.filter fun a => win.admits a && !new.admits a

section Amend

variable {window select attrs margin : Byte} {term deadline : Half}

theorem amendWindow_out_of_range (out : 32 ≤ window.toNat) :
    amendWindow window select attrs term margin deadline s = replyOnly s .badArgument := by
  simp only [amendWindow, windowOf_of_le out]

variable (named : w.val = window.toNat)
include named

theorem amendWindow_vacant (vacant : (s.windows.get w).state = .vacant) :
    amendWindow window select attrs term margin deadline s = replyOnly s .badState := by
  simp only [amendWindow, windowOf_of_val w named, vacant, if_true]

variable (used : (s.windows.get w).state ≠ .vacant)
include used

theorem amendWindow_bad_argument (bad : ¬amendArgsOk select attrs term deadline = true) :
    amendWindow window select attrs term margin deadline s = replyOnly s .badArgument := by
  simp only [amendWindow, windowOf_of_val w named, used, if_false, bad, Bool.not_false, if_true]

variable (legal : amendArgsOk select attrs term deadline = true)
include legal

theorem amendWindow_rule_fixed (rule : select.getLsbD 4 = true) (live : (s.windows.get w).state ≠ .staged) :
    amendWindow window select attrs term margin deadline s = replyOnly s .badState := by
  simp only [amendWindow, windowOf_of_val w named, used, if_false, legal, Bool.not_true, Bool.false_eq_true, rule, live,
    ne_eq, not_false_eq_true, and_self, if_true]

/-- An accepted amend writes the record, and ends the leases of the agents that it removes. -/
theorem amendWindow_accepted (rule : select.getLsbD 4 = true → (s.windows.get w).state = .staged) :
    amendWindow window select attrs term margin deadline s =
      let new := (s.windows.get w).amend select attrs term margin deadline
      let removed := (s.windows.get w).removes new
      if removed.isEmpty then ⟨withWindow s w new, .ok, []⟩
      else ⟨(removed.foldl (fun u a => leaseRevoked u w a) (withWindow s w new)).settleWindow w, .ok, []⟩ := by
  have fixed : ¬(select.getLsbD 4 = true ∧ (s.windows.get w).state ≠ .staged) := fun h => h.2 (rule h.1)
  simp only [amendWindow, windowOf_of_val w named, used, if_false, legal, Bool.not_true, Bool.false_eq_true, fixed]
  rfl

end Amend

theorem mem_allAgents (a : Agent) : a ∈ allAgents := by
  revert a
  decide

theorem Window.removes_eq_nil {win new : Window} :
    win.removes new = [] ↔ ∀ a : Agent, win.admitSet.getLsbD a.val = true → new.admitSet.getLsbD a.val = true := by
  simp only [Window.removes, Window.admits, List.filter_eq_nil_iff, Bool.and_eq_true, Bool.not_eq_true', not_and,
    Bool.not_eq_false]
  exact ⟨fun h a => h a (mem_allAgents a), fun h a _ => h a⟩

/-- Settles O15. -/
theorem amendWindowChecksThenWrites : Obligations.AmendWindowChecksThenWrites := by
  intro window select attrs term margin deadline s taken result argsOk
  have legal : amendArgsOk select attrs term deadline = true ↔ argsOk := amendArgs_iff ..
  refine ⟨fun out => ?_, fun w named => ⟨fun vacant => ?_, fun used bad => ?_, fun used ok rule live => ?_,
    fun used ok rule kept => ?_⟩⟩
  · exact carryOut_of_reply taken (amendWindow_out_of_range out)
  · exact carryOut_of_reply taken (amendWindow_vacant named vacant)
  · exact carryOut_of_reply taken (amendWindow_bad_argument named used (mt legal.mp bad))
  · exact carryOut_of_reply taken (amendWindow_rule_fixed named used (legal.mpr ok) rule live)
  · have none : (s.windows.get w).removes ((s.windows.get w).amend select attrs term margin deadline) = [] :=
      Window.removes_eq_nil.mpr kept
    have accepted := amendWindow_accepted (margin := margin) named used (legal.mpr ok) rule
    simp only [none, List.isEmpty_nil, if_true] at accepted
    exact carryOut_of_reply taken accepted

/-! ### OPEN WINDOW (R81, R82) -/

/-- One more window uses the target. -/
def State.counted (s : State) (t : TargetId) : State := s.updTarget t fun x => { x with useCount := x.useCount + 1 }

section Open

variable {window : Byte}

theorem openWindow_not_running (stopped : s.mgmt.running = false) : openWindow window s = replyOnly s .notRunning := by
  simp only [openWindow, stopped, Bool.not_false, if_true]

variable (run : s.mgmt.running = true)
include run

theorem openWindow_out_of_range (out : 32 ≤ window.toNat) : openWindow window s = replyOnly s .badArgument := by
  simp only [openWindow, run, Bool.not_true, Bool.false_eq_true, if_false, windowOf_of_le out]

variable (named : w.val = window.toNat)
include named

theorem openWindow_bad_state (other : (s.windows.get w).state ≠ .staged) :
    openWindow window s = replyOnly s .badState := by
  simp only [openWindow, run, Bool.not_true, Bool.false_eq_true, if_false, windowOf_of_val w named, other, ne_eq,
    not_false_eq_true, if_true]

variable (staged : (s.windows.get w).state = .staged)
include staged

/-- OPEN WINDOW on a STAGED window, by the state of its target. -/
theorem openWindow_staged (names : (s.windows.get w).target = t) :
    openWindow window s = match (s.targets.get t).state with
      | .faulted => replyOnly s .targetFaulted
      | .ready => openReply (((s.counted t).updTarget t fun x => { x with parkDeadline := none }).openNow w) w t
      | .waking => openReply ((s.counted t).openLater w) w t
      | .parked => openReply (((s.counted t).updTarget t Target.startWake).openLater w) w t
      | .parking => openReply (((s.counted t).updTarget t fun x => { x with wakePending := true }).openLater w) w t
      | .absent => replyOnly s .badState := by
  subst names
  simp only [openWindow, run, Bool.not_true, Bool.false_eq_true, if_false, windowOf_of_val w named, staged, ne_eq,
    not_true_eq_false]
  rfl

end Open

theorem openWindow_of_states {window : Byte} {u : State} {c d : Byte} (reply : openWindow window s = openReply u w t)
    (record : (u.windows.get w).state.code = c) (target : (u.targets.get t).state.code = d) :
    openWindow window s = ⟨u, .accepted, [c, d]⟩ := by
  rw [reply, openReply, record, target]

theorem openNow_states (u : State) (w : WindowId) (t : TargetId) :
    (((u.openNow w).windows.get w).state = .opened) ∧ (u.openNow w).targets.get t = u.targets.get t := by
  rw [openNow_eq]
  refine ⟨?_, by rw [windowOpened_targets]⟩
  rw [windowOpened_windows, Tbl.get_set_self]

/-- Settles O17. -/
theorem openWindowClaimsTarget : Obligations.OpenWindowClaimsTarget := by
  intro window s taken result
  refine ⟨fun stopped => ?_, fun run out => ?_, fun w named run => ⟨fun other => ?_, fun staged faulted => ?_,
    fun staged ready => ?_, fun staged waking => ?_, fun staged parked => ?_, fun staged parking => ?_⟩⟩
  · exact carryOut_of_reply taken (openWindow_not_running stopped)
  · exact carryOut_of_reply taken (openWindow_out_of_range run out)
  · exact carryOut_of_reply taken (openWindow_bad_state run named other)
  all_goals have reply := openWindow_staged run named staged rfl
  · rw [faulted] at reply
    exact carryOut_of_reply taken reply
  · rw [ready] at reply
    refine carryOut_of_reply taken ((openWindow_of_states (c := 3) (d := 3) reply ?_ ?_).trans ?_)
    · rw [(openNow_states _ w (s.windows.get w).target).1, WindowState.code]
    · rw [(openNow_states _ w _).2]
      simp [State.counted, ready, TargetState.code]
    · simp only [State.counted, State.updTarget_updTarget]
      rfl
  · rw [waking] at reply
    refine carryOut_of_reply taken ((openWindow_of_states (c := 2) (d := 2) reply ?_ ?_).trans rfl)
    · simp [State.openLater, WindowState.code]
    · simp [State.openLater, State.counted, waking, TargetState.code]
  · rw [parked] at reply
    refine carryOut_of_reply taken ((openWindow_of_states (c := 2) (d := 2) reply ?_ ?_).trans ?_)
    · simp [State.openLater, WindowState.code]
    · simp [State.openLater, Target.startWake, Target.enter, TargetState.code]
    · simp only [State.counted, State.updTarget_updTarget]
      rfl
  · rw [parking] at reply
    refine carryOut_of_reply taken ((openWindow_of_states (c := 2) (d := 4) reply ?_ ?_).trans ?_)
    · simp [State.openLater, WindowState.code]
    · simp [State.openLater, State.counted, parking, TargetState.code]
    · simp only [State.counted, State.updTarget_updTarget]
      rfl

end Sys2Proof.Machine
end

