-- ==== Sys2Proof/Proofs/CloseRequests.lean ====
section
/-! PROOF. Closing: what the sweeps leave of the window's context, the completion of a close, and the statements about
refused closes and RETIRE WINDOW (O18), the close of an OPEN window (O20), the turn to FORCE (O21) and the report of an
empty context (O22). -/

namespace Sys2Proof.Machine

open Sys2Proof.Safety

variable {s u : State} {w : WindowId}

/-! ### The sweeps -/

theorem endHolds_windows (s : State) (w : WindowId) (hs : List Hold) (cause : Cause) (reason : Option LostReason) :
    (s.endHolds w hs cause reason).windows = s.windows := by
  induction hs generalizing s with
  | nil => rfl
  | cons h hs ih =>
    refine (ih (s.endHold w h cause reason)).trans ?_
    rw [endHold_frame]

theorem endHolds_inflight (s : State) (w : WindowId) (hs : List Hold) (cause : Cause) (reason : Option LostReason) :
    ((s.endHolds w hs cause reason).ctxs.get w).inflight = (s.ctxs.get w).inflight := by
  induction hs generalizing s with
  | nil => rfl
  | cons h hs ih =>
    refine (ih (s.endHold w h cause reason)).trans ?_
    rw [endHold_ctx]
    rfl

theorem waitsClosed_ctx (s : State) (w : WindowId) :
    (waitsClosed s w).ctxs.get w = { s.ctxs.get w with waiters := [] } :=
  (changes_endWaits (g := none) s w .closed).2

theorem forceSweep_eq (s : State) (w : WindowId) : s.forceSweep w = holdsClosed (waitsClosed s w) w := by
  rw [← endHolds_closed, waitsClosed_ctx]
  rfl

theorem forceSweep_windows (s : State) (w : WindowId) : (s.forceSweep w).windows = s.windows :=
  (endHolds_windows ..).trans (waitsClosed_windows s w)

/-- A forced sweep leaves no holder, so the context is empty unless something is in flight. -/
theorem forceSweep_empty (s : State) (w : WindowId) :
    (s.forceSweep w).emptyContext w = ((s.ctxs.get w).inflight == 0) := by
  have noHold := (changes_forceSweep (g := none) s w).2.1
  have inflight : ((s.forceSweep w).ctxs.get w).inflight = (s.ctxs.get w).inflight := by
    refine (endHolds_inflight ..).trans ?_
    rw [endWaits_closed, waitsClosed_ctx]
  rw [State.emptyContext, LeaseCtx.idle, noHold, inflight]
  rfl

theorem LeaseCtx.upgradeEnded_shape (c : LeaseCtx) :
    c.upgradeEnded.holders.map Hold.agent = c.holders.map Hold.agent ∧ c.upgradeEnded.inflight = c.inflight := by
  unfold LeaseCtx.upgradeEnded
  split
  · exact ⟨rfl, rfl⟩
  · refine ⟨?_, rfl⟩
    rw [LeaseCtx.mapHold, List.map_map]
    refine List.map_congr_left fun x _ => ?_
    simp only [Function.comp_apply]
    split <;> rfl

theorem foldl_handNotice_ctxs (s : State) (i : NoticeItem) (hs : List Hold) :
    (hs.foldl (fun s h => s.handNotice h.agent i) s).ctxs = s.ctxs ∧
      (hs.foldl (fun s h => s.handNotice h.agent i) s).windows = s.windows := by
  induction hs generalizing s with
  | nil => exact ⟨rfl, rfl⟩
  | cons h hs ih => exact ih (s.handNotice h.agent i)

/-- The sweep of a gentle close: the waits, the pending upgrade, and a CLOSING item for each holder that stays. -/
theorem gentleSweep_closed (s : State) (w : WindowId) :
    s.gentleSweep w = closingHanded (upgradeClosed (waitsClosed s w) w) w := by
  rw [gentleSweep_eq, endWaits_closed, closingHanded, upgradeClosed_ctxs, Tbl.get_set_self, waitsClosed_ctx]
  have agents (hs : List Hold) (u : State) :
      hs.foldl (fun s h => s.handNotice h.agent (.closing w)) u =
        (hs.map Hold.agent).foldl (fun s a => s.handNotice a (.closing w)) u := by
    rw [List.foldl_map]
  rw [agents, agents, (LeaseCtx.upgradeEnded_shape _).1]

theorem gentleSweep_windows (s : State) (w : WindowId) : (s.gentleSweep w).windows = s.windows := by
  rw [gentleSweep_closed, closingHanded, (foldl_handNotice_ctxs ..).2, upgradeClosed_frame, waitsClosed_windows]

/-- A gentle sweep keeps the holders. -/
theorem gentleSweep_empty (s : State) (w : WindowId) :
    (s.gentleSweep w).emptyContext w = ((s.ctxs.get w).holders.isEmpty && (s.ctxs.get w).inflight == 0) := by
  rw [gentleSweep_closed, State.emptyContext, closingHanded, (foldl_handNotice_ctxs ..).1, upgradeClosed_ctxs,
    Tbl.get_set_self, waitsClosed_ctx]
  obtain ⟨agents, inflight⟩ := LeaseCtx.upgradeEnded_shape { s.ctxs.get w with waiters := [] }
  rw [LeaseCtx.idle, inflight, ← List.isEmpty_map (f := Hold.agent), agents, List.isEmpty_map]

/-! ### The completion (R86, R94, R96) -/

theorem completeClose_eq (s : State) (w : WindowId) : s.completeClose w = closeCompleted s w := by
  unfold State.completeClose closeCompleted
  simp only [leave_eq]
  cases (s.windows.get w).pending <;> rfl

/-- The end of a close step on a CLOSING window: no evaluation, and the completion where the context is empty. -/
theorem closeEnd_eq (closing : (u.windows.get w).state = .closing) :
    (u.evaluate w).closeIfEmpty w = if u.emptyContext w then closeCompleted u w else u := by
  rw [evaluate_not_open u w (by rw [closing]; decide)]
  simp only [State.closeIfEmpty, closing, true_and, completeClose_eq]

theorem closeCompleted_state (u : State) (w : WindowId) :
    ((closeCompleted u w).windows.get w).state =
      if (u.windows.get w).pending.any fun p => p.retire then .vacant else .staged := by
  simp only [closeCompleted, withTarget, withWindow, Tbl.get_set_self]
  split <;> rfl

/-- The reply of a close step tells the window's state after it. -/
theorem closeReply_eq {p : PendingClose} (closing : (u.windows.get w).state = .closing)
    (pending : (u.windows.get w).pending = some p) (status : Status) (waits holds : Nat) :
    closeReply ((u.evaluate w).closeIfEmpty w) w status waits holds =
      ⟨if u.emptyContext w then closeCompleted u w else u, status,
        [closedCode (u.emptyContext w) p.retire, BitVec.ofNat 8 waits, BitVec.ofNat 8 holds,
          BitVec.ofNat 8 (bit (u.emptyContext w))]⟩ := by
  rw [closeEnd_eq closing]
  cases u.emptyContext w with
  | false =>
    simp only [Bool.false_eq_true, if_false, closeReply, closing]
    rfl
  | true =>
    simp only [if_true, closeReply, closeCompleted_state, pending, Option.any_some]
    cases p.retire <;> rfl

/-- Settles O22. -/
theorem emptyContextReportCompletesClose : Obligations.EmptyContextReportCompletesClose := by
  intro w s u empty
  have taken (handed : w ∈ s.emptyReports) : exec (.emptyContextReport w) s = .next (u.closeIfEmpty w) := by
    show Host.Outcome.next _ = _
    rw [if_pos handed]
  have stands : (u.windows.get w).state = .closing ∧ u.emptyContext w = true ↔ empty :=
    and_congr_right fun _ => emptyContext_iff u w
  refine ⟨fun absent => ?_, fun handed other => ?_, fun handed here => ?_⟩
  · show Host.Outcome.next _ = _
    rw [if_neg absent]
  · rw [taken handed, State.closeIfEmpty, if_neg (mt stands.mp other)]
  · rw [taken handed, State.closeIfEmpty, if_pos (stands.mpr here), completeClose_eq]

/-! ### A close that is refused, and RETIRE WINDOW (R86, R90, R98) -/

section Refused

variable {window flags : Byte}

theorem closeWindow_out_of_range (out : 32 ≤ window.toNat) : closeWindow window flags s = closeOutOfRange s := by
  simp only [closeWindow, windowOf_of_le out]

theorem closeWindow_bad_flags (named : w.val = window.toNat) (bad : 4 ≤ flags.toNat) :
    closeWindow window flags s = closeRefused s w .badArgument := by
  have unclear : clearFrom flags 2 = false := by
    rw [← Bool.not_eq_true, clearFrom_iff]
    omega
  simp only [closeWindow, windowOf_of_val w named, unclear, Bool.not_false, if_true]

theorem closeLive_bad_state (force retire : Bool)
    (other : (s.windows.get w).state = .vacant ∨ (s.windows.get w).state = .staged) :
    closeLive w force retire s = closeRefused s w .badState := by
  rcases other with state | state <;> simp only [closeLive, state]

theorem closeLive_closing (closing : (s.windows.get w).state = .closing) (force retire : Bool) :
    closeLive w force retire s = closeClosing w force retire s := by
  simp only [closeLive, closing]

theorem retireWindow_out_of_range (out : 32 ≤ window.toNat) : retireWindow window s = closeOutOfRange s := by
  simp only [retireWindow, windowOf_of_le out]

theorem retireWindow_live (named : w.val = window.toNat) (live : (s.windows.get w).state.live = true) :
    retireWindow window s = closeWindow window 2 s := by
  rw [closeWindow_eq_closeLive named (by decide)]
  simp only [retireWindow, windowOf_of_val w named]
  cases state : (s.windows.get w).state
  case vacant | staged =>
    rw [state] at live
    cases live
  all_goals rfl

theorem closeRefused_reply (s : State) (w : WindowId) (status : Status) :
    closeRefused s w status = ⟨s, status, [(s.windows.get w).state.code, 0, 0, 0]⟩ := rfl

theorem setRetire_true (s : State) (w : WindowId) :
    s.setRetire w true =
      withWindow s w
        { s.windows.get w with pending := (s.windows.get w).pending.map fun p => { p with retire := true } } := by
  simp only [State.setRetire, Bool.or_true]
  rfl

end Refused

/-- Settles O18. -/
theorem closeRefusedAndRetireWindow : Obligations.CloseRefusedAndRetireWindow := by
  refine ⟨fun window flags s taken => ⟨fun out => ?_, fun w named => ⟨fun bad => ?_, fun ok other => ?_, ?_, ?_⟩⟩,
    fun window s taken => ⟨fun out => ?_, fun w named => ⟨fun vacant => ?_, fun staged => ?_, fun live => ?_⟩⟩⟩
  · exact carryOut_of_reply taken (closeWindow_out_of_range out)
  · exact carryOut_of_reply taken (closeWindow_bad_flags named bad)
  · exact carryOut_of_reply taken ((closeWindow_eq_closeLive named ok).trans (closeLive_bad_state _ _ other))
  · rintro rfl closing
    refine carryOut_of_reply taken
      ((closeWindow_eq_closeLive named (by decide)).trans ((closeLive_closing closing _ _).trans ?_))
    exact (closeRefused_reply s w .badState).trans (by rw [closing, WindowState.code])
  · rintro rfl closing
    refine carryOut_of_reply taken
      ((closeWindow_eq_closeLive named (by decide)).trans ((closeLive_closing closing _ _).trans ?_))
    show closeReply (s.setRetire w true) w .ok 0 0 = _
    have state : ((s.setRetire w true).windows.get w).state = .closing := by
      rw [State.setRetire, State.updWindow_get, closing]
    rw [closeReply, state, setRetire_true]
    rfl
  · exact carryOut_of_reply taken (retireWindow_out_of_range out)
  · refine carryOut_of_reply taken ?_
    simp only [retireWindow, windowOf_of_val w named, vacant, closeRefused_reply, WindowState.code]
  · refine carryOut_of_reply taken ?_
    simp only [retireWindow, windowOf_of_val w named, staged]
    rfl
  · exact ⟨_, _, _, exec_closeWindow_taken taken, carryOut_of_reply taken (retireWindow_live named live)⟩

/-! ### The close of an OPEN window (R88, R89) -/

theorem bit_upgrader (c : LeaseCtx) : c.waiters.length + bit c.upgrader.isSome = waitCount c := by
  rw [waitCount, LeaseCtx.upgrader, List.isSome_find?]
  cases c.holders.any fun h => h.upgrading <;> rfl

/-- The window with its close begun. -/
def State.closing (s : State) (w : WindowId) (p : PendingClose) : State :=
  withWindow s w { s.windows.get w with state := .closing, pending := some p }

theorem closeLive_opened (opened : (s.windows.get w).state = .opened) (force retire : Bool) :
    closeLive w force retire s = closeOpen w force retire s := by
  simp only [closeLive, opened]

theorem closing_record {p : PendingClose} (same : u.windows = (s.closing w p).windows) :
    (u.windows.get w).state = .closing ∧ (u.windows.get w).pending = some p := by
  rw [same, State.closing, withWindow, Tbl.get_set_self]
  exact ⟨rfl, rfl⟩

theorem closeOpen_gentle (w : WindowId) (retire : Bool) (s : State) :
    closeOpen w false retire s =
      let deadline : Deadline := ⟨s.tb.tick + BitVec.ofNat 32 (s.windows.get w).closeDeadline.toNat, false⟩
      let swept := (s.closing w ⟨false, retire, some deadline⟩).gentleSweep w
      let empty := (s.ctxs.get w).holders.isEmpty && (s.ctxs.get w).inflight == 0
      ⟨if empty then closeCompleted swept w else swept, .accepted,
        [closedCode empty retire, BitVec.ofNat 8 (waitCount (s.ctxs.get w)), 0, BitVec.ofNat 8 (bit empty)]⟩ := by
  obtain ⟨state, pending⟩ := closing_record (gentleSweep_windows
    (s.closing w ⟨false, retire, some ⟨s.tb.tick + BitVec.ofNat 32 (s.windows.get w).closeDeadline.toNat, false⟩⟩) w)
  have reply := closeReply_eq state pending .accepted (waitCount (s.ctxs.get w)) 0
  rw [gentleSweep_empty] at reply
  rw [← bit_upgrader] at reply ⊢
  exact reply

theorem closeOpen_forced (w : WindowId) (retire : Bool) (s : State) :
    closeOpen w true retire s =
      let swept := (s.closing w ⟨true, retire, none⟩).forceSweep w
      let empty := (s.ctxs.get w).inflight == 0
      ⟨if empty then closeCompleted swept w else swept, .accepted,
        [closedCode empty retire, BitVec.ofNat 8 (s.ctxs.get w).waiters.length,
          BitVec.ofNat 8 (s.ctxs.get w).holders.length, BitVec.ofNat 8 (bit empty)]⟩ := by
  obtain ⟨state, pending⟩ := closing_record (forceSweep_windows (s.closing w ⟨true, retire, none⟩) w)
  have reply := closeReply_eq state pending .accepted (s.ctxs.get w).waiters.length (s.ctxs.get w).holders.length
  rw [forceSweep_empty] at reply
  exact reply

/-- Settles O20. -/
theorem closeOfOpenWindow : Obligations.CloseOfOpenWindow := by
  refine ⟨?_, ?_⟩
  all_goals
    intro window flags s w taken named kind opened win c retire
    have legal : flags.toNat < 4 := by rcases kind with rfl | rfl <;> decide
  · have gentle : flags.getLsbD 0 = false := by rcases kind with rfl | rfl <;> rfl
    intro deadline begun swept empty
    refine carryOut_of_reply taken ((closeWindow_eq_closeLive named legal).trans ?_)
    rw [closeLive_opened opened, gentle, closeOpen_gentle]
    dsimp only
    rw [gentleSweep_closed]
    rfl
  · have force : flags.getLsbD 0 = true := by rcases kind with rfl | rfl <;> rfl
    intro begun swept empty
    refine carryOut_of_reply taken ((closeWindow_eq_closeLive named legal).trans ?_)
    rw [closeLive_opened opened, force, closeOpen_forced]
    dsimp only
    rw [forceSweep_eq]
    rfl

/-! ### The turn to FORCE (R90, R94) -/

theorem waitsClosed_of_no_waiter (none : (s.ctxs.get w).waiters = []) : waitsClosed s w = s := by
  rw [waitsClosed, none]
  rfl

theorem setRetire_forcePending (s : State) (w : WindowId) (retire : Bool) :
    (s.setRetire w retire).forcePending w = nowForced s w retire := by
  rw [State.forcePending, State.setRetire, State.updWindow_updWindow]
  simp only [Option.map_map]
  rfl

theorem forcePending_eq (s : State) (w : WindowId) : s.forcePending w = nowForced s w false := by
  rw [State.forcePending, nowForced]
  simp only [Bool.or_false]
  rfl

section Force

variable {p : PendingClose} {retire : Bool} (closing : (s.windows.get w).state = .closing)
  (pending : (s.windows.get w).pending = some p) (noWait : (s.ctxs.get w).waiters = [])
include closing pending noWait

theorem nowForced_swept :
    ((nowForced s w retire).forceSweep w = holdsClosed (nowForced s w retire) w) ∧
      ((holdsClosed (nowForced s w retire) w).windows.get w).state = .closing ∧
      ((holdsClosed (nowForced s w retire) w).windows.get w).pending = some ⟨true, p.retire || retire, none⟩ ∧
      (holdsClosed (nowForced s w retire) w).emptyContext w = ((s.ctxs.get w).inflight == 0) := by
  have swept : (nowForced s w retire).forceSweep w = holdsClosed (nowForced s w retire) w := by
    rw [forceSweep_eq, waitsClosed_of_no_waiter (s := nowForced s w retire) noWait]
  refine ⟨swept, ?_, ?_, ?_⟩
  · rw [← swept, forceSweep_windows, nowForced, withWindow, Tbl.get_set_self, closing]
  · rw [← swept, forceSweep_windows, nowForced, withWindow, Tbl.get_set_self, pending]
    rfl
  · rw [← swept, forceSweep_empty]
    rfl

theorem forceClose_ends :
    (((nowForced s w retire).forceSweep w).evaluate w).closeIfEmpty w =
      if (s.ctxs.get w).inflight == 0 then closeCompleted (holdsClosed (nowForced s w retire) w) w
      else holdsClosed (nowForced s w retire) w := by
  obtain ⟨swept, state, -, empty⟩ := nowForced_swept (retire := retire) closing pending noWait
  rw [swept, closeEnd_eq state, empty]

theorem closeClosing_forced :
    closeClosing w true retire s =
      let swept := holdsClosed (nowForced s w retire) w
      let empty := (s.ctxs.get w).inflight == 0
      ⟨if empty then closeCompleted swept w else swept, .ok,
        [closedCode empty (p.retire || retire), 0, BitVec.ofNat 8 (s.ctxs.get w).holders.length,
          BitVec.ofNat 8 (bit empty)]⟩ := by
  obtain ⟨swept, state, record, empty⟩ := nowForced_swept (retire := retire) closing pending noWait
  have reply := closeReply_eq state record .ok 0 (s.ctxs.get w).holders.length
  rw [empty] at reply
  simp only [closeClosing, if_true, State.forceClose, setRetire_forcePending, swept, noWait, List.length_nil]
  exact reply

end Force

/-- Settles O21. -/
theorem closeTurnsToForce : Obligations.CloseTurnsToForce := by
  intro s w win c empty forced
  refine ⟨fun closing noWait p pending => ⟨fun window flags taken named kind => ?_, fun gentle due => ?_⟩,
    fun other => ?_⟩
  · have legal : flags.toNat < 4 := by rcases kind with rfl | rfl <;> decide
    have force : flags.getLsbD 0 = true := by rcases kind with rfl | rfl <;> rfl
    refine carryOut_of_reply taken ((closeWindow_eq_closeLive named legal).trans ?_)
    rw [closeLive_closing closing, force, closeClosing_forced closing pending noWait]
  · have runs : (win.pending.any fun p => !p.force && isDue p.deadline) = true := by
      simpa only [win, pending, Option.any_some, gentle, Bool.not_false, Bool.true_and, isDue_iff] using due
    show Host.Outcome.next (if _ then s.forceClose w else s) = _
    rw [if_pos ⟨closing, runs⟩, State.forceClose, forcePending_eq, forceClose_ends closing pending noWait]
  · show Host.Outcome.next (if _ then s.forceClose w else s) = _
    rw [if_neg]
    rintro ⟨closing, runs⟩
    obtain ⟨p, pending, gentle⟩ := (Option.any_eq_true _ _).mp runs
    rw [Bool.and_eq_true, Bool.not_eq_true', isDue_iff] at gentle
    obtain ⟨gentle, d, deadline, due⟩ := gentle
    exact other ⟨closing, p, d, pending, gentle, deadline, due⟩

end Sys2Proof.Machine
end

