-- ==== Sys2Proof/Proofs/LeaseRemoval.lean ====
section
/-! PROOF. AMEND WINDOW where agents are removed (O16): what the end of one agent's lease changes for it and leaves for
the others, the removal of several, and the step that closes the request. -/

namespace Sys2Proof.Machine

open Sys2Proof.Safety

variable {s t u : State} {st : WindowState} {a b : Agent} {w : WindowId}

/-! ### One agent -/

theorem find?_eraseP_of_disjoint {α : Type} {p q : α → Bool} (disjoint : ∀ x, p x = true → q x = false) (l : List α) :
    (l.eraseP p).find? q = l.find? q := by
  induction l with
  | nil => rfl
  | cons x l ih =>
    cases hp : p x with
    | true => rw [List.eraseP_cons_of_pos hp, List.find?_cons_of_neg (by simp [disjoint x hp])]
    | false => rw [List.eraseP_cons_of_neg (by simp [hp]), List.find?_cons, List.find?_cons, ih]

theorem beq_agent_disjoint (ne : a ≠ b) {x : Agent} (h : (x == a) = true) : (x == b) = false := by
  rw [beq_iff_eq] at h
  rw [h]
  exact beq_false_of_ne ne

/-- What the agent has on the window is the same in both states, and nothing was handed to its port. -/
structure SameLease (b : Agent) (w : WindowId) (s t : State) : Prop where
  hold : (t.ctxs.get w).holdOf b = (s.ctxs.get w).holdOf b
  wait : (t.ctxs.get w).waitOf b = (s.ctxs.get w).waitOf b
  ending : (t.ctxs.get w).endings.get b = (s.ctxs.get w).endings.get b
  inUse : t.inUse.get b = s.inUse.get b
  port : t.ports.get b = s.ports.get b

/-- The agent's lease on the window is gone, and its end was told. -/
structure LeaseGone (a : Agent) (w : WindowId) (s t : State) : Prop where
  without : (t.ctxs.get w).without a
  inUse : t.inUse.get a =
    s.inUse.get a - if (s.ctxs.get w).holdOf a ≠ none ∨ (s.ctxs.get w).waitOf a ≠ none then 1 else 0
  lost : ∀ h, (s.ctxs.get w).holdOf a = some h →
    ⟨.lost w .revoked, false⟩ ∈ (t.ports.get a).handed ∧
      (t.ctxs.get w).endings.get a = some ⟨h.serial, .revoked⟩ ∧
      (h.upgrading = true → ⟨0x04, .lost, w, [windowByte w], false⟩ ∈ (t.ports.get a).responses)
  refused : ∀ x, (s.ctxs.get w).waitOf a = some x →
    ⟨0x01, .notAdmitted, w, [windowByte w], false⟩ ∈ (t.ports.get a).responses

/-- What the end of leases on one window can change. -/
structure OnLeases (w : WindowId) (s t : State) : Prop where
  frame : t = { s with ctxs := t.ctxs, inUse := t.inUse, ports := t.ports }
  ctxs : ∀ v, v ≠ w → t.ctxs.get v = s.ctxs.get v

theorem SameLease.refl : SameLease b w s s := ⟨rfl, rfl, rfl, rfl, rfl⟩

theorem SameLease.trans (h : SameLease b w s t) (k : SameLease b w t u) : SameLease b w s u :=
  ⟨k.hold.trans h.hold, k.wait.trans h.wait, k.ending.trans h.ending, k.inUse.trans h.inUse, k.port.trans h.port⟩

/-- What happened to the agent is not changed by steps before and after that do not concern it. -/
theorem LeaseGone.before (h : SameLease a w s t) (gone : LeaseGone a w t u) : LeaseGone a w s u := by
  obtain ⟨without, inUse, lost, refused⟩ := gone
  rw [h.hold, h.wait, h.inUse] at inUse
  rw [h.hold] at lost
  rw [h.wait] at refused
  exact ⟨without, inUse, lost, refused⟩

theorem LeaseGone.after (gone : LeaseGone a w s t) (h : SameLease a w t u) : LeaseGone a w s u := by
  obtain ⟨without, inUse, lost, refused⟩ := gone
  rw [← h.inUse] at inUse
  simp only [← h.ending, ← h.port] at lost refused
  obtain ⟨noHold, noWait⟩ := without
  exact ⟨⟨h.hold.trans noHold, h.wait.trans noWait⟩, inUse, lost, refused⟩

theorem holdLost_port_ne (s : State) (w : WindowId) (h : Hold) (cause : Cause) (reason : LostReason)
    (ne : h.agent ≠ b) : (holdLost s w h cause reason).ports.get b = s.ports.get b := by
  unfold holdLost holdEnded
  split <;> simp [State.handNotice, State.handResponse, State.updPort, withCtx, ne]

theorem holdLost_port (s : State) (w : WindowId) (h : Hold) (cause : Cause) (reason : LostReason) :
    ⟨.lost w reason, false⟩ ∈ ((holdLost s w h cause reason).ports.get h.agent).handed ∧
      (h.upgrading = true →
        ⟨0x04, .lost, w, [windowByte w], false⟩ ∈ ((holdLost s w h cause reason).ports.get h.agent).responses) := by
  unfold holdLost
  split
  · refine ⟨?_, fun _ => ?_⟩ <;> simp [State.handNotice, State.handResponse]
  · refine ⟨?_, fun pending => absurd pending ‹_›⟩
    simp [State.handNotice]

theorem onLeases_leaseRevoked (s : State) (w : WindowId) (a : Agent) : OnLeases w s (leaseRevoked s w a) := by
  unfold leaseRevoked
  split
  · rw [← endHold_told]
    exact ⟨endHold_frame .., fun v ne => by rw [endHold_ctxs, Tbl.get_set_ne _ ne.symm]⟩
  split
  · exact ⟨rfl, fun v ne => Tbl.get_set_ne _ ne.symm _⟩
  · exact ⟨rfl, fun _ _ => rfl⟩

theorem sameLease_leaseRevoked (s : State) (w : WindowId) (ne : a ≠ b) : SameLease b w s (leaseRevoked s w a) := by
  unfold leaseRevoked
  split
  · rename_i h held
    have agent := LeaseCtx.agent_eq_of_holdOf held
    have other : h.agent ≠ b := agent ▸ ne
    rw [← endHold_told]
    refine ⟨?_, ?_, ?_, ?_, holdLost_port_ne s w h _ _ other⟩
    · rw [endHold_ctx]
      exact find?_eraseP_of_disjoint (fun x e => beq_agent_disjoint other e) _
    · rw [endHold_ctx]
      rfl
    · rw [endHold_ctx]
      exact Tbl.get_set_ne _ other _
    · rw [endHold_inUse, Tbl.get_set_ne _ other]
  split
  · rw [← endWait_eq]
    refine ⟨?_, ?_, ?_, Tbl.get_set_ne _ ne _, ?_⟩
    · rw [endWait_ctx]
      rfl
    · rw [endWait_ctx]
      exact find?_eraseP_of_disjoint (fun x e => beq_agent_disjoint ne e) _
    · rw [endWait_ctx]
    · exact handResponse_port_ne _ ne ..
  · exact .refl

theorem leaseGone_leaseRevoked (law : (s.ctxs.get w).Lawful st) (a : Agent) :
    LeaseGone a w s (leaseRevoked s w a) := by
  cases held : (s.ctxs.get w).holdOf a with
  | some h =>
    have agent := LeaseCtx.agent_eq_of_holdOf held
    have noWait : (s.ctxs.get w).waitOf h.agent = none :=
      (law.dropHold_without (LeaseCtx.holdOf_agent held) .revoked).2
    rw [agent] at noWait
    simp only [leaseRevoked, held]
    rw [← endHold_told]
    obtain ⟨handed, answered⟩ := holdLost_port s w h .revoked .revoked
    rw [agent] at handed answered
    refine ⟨?_, ?_, fun g e => ?_, fun x e => ?_⟩
    · rw [endHold_ctx, ← agent]
      exact law.dropHold_without (LeaseCtx.holdOf_agent held) .revoked
    · rw [endHold_inUse, agent, Tbl.get_set_self, held]
      simp
    · obtain rfl : h = g := Option.some.inj (held.symm.trans e)
      refine ⟨handed, ?_, answered⟩
      rw [endHold_ctx]
      simp [LeaseCtx.dropHold, agent]
    · rw [noWait] at e
      cases e
  | none =>
    cases waits : (s.ctxs.get w).waitOf a with
    | some x =>
      simp only [leaseRevoked, held, waits]
      rw [← endWait_eq]
      refine ⟨?_, ?_, fun g e => ?_, fun y e => ?_⟩
      · rw [endWait_ctx]
        exact law.dropWait_without (by rw [waits]; rfl)
      · rw [waits]
        simp [endWait_eq, waitRemoved]
      · rw [held] at e
        cases e
      · simp [endWait_eq, waitRemoved, State.handResponse]
    | none =>
      simp only [leaseRevoked, held, waits]
      refine ⟨⟨held, waits⟩, ?_, fun g e => ?_, fun y e => ?_⟩
      · simp [held, waits]
      · rw [held] at e
        cases e
      · rw [waits] at e
        cases e

theorem lawful_leaseRevoked (law : (s.ctxs.get w).Lawful st) (a : Agent) :
    ((leaseRevoked s w a).ctxs.get w).Lawful st := by
  unfold leaseRevoked
  split
  · rw [← endHold_told, endHold_ctx]
    exact law.dropHold _ _
  split
  · rw [← endWait_eq, endWait_ctx]
    exact law.dropWait _
  · exact law

/-! ### Several agents -/

/-- The leases of the agents listed end on the window, in order. -/
def State.revokeAll (s : State) (w : WindowId) (l : List Agent) : State := l.foldl (fun u a => leaseRevoked u w a) s

theorem revokeAll_cons (s : State) (w : WindowId) (a : Agent) (l : List Agent) :
    s.revokeAll w (a :: l) = (leaseRevoked s w a).revokeAll w l := rfl

theorem onLeases_revokeAll (s : State) (w : WindowId) (l : List Agent) : OnLeases w s (s.revokeAll w l) := by
  induction l generalizing s with
  | nil => exact ⟨rfl, fun _ _ => rfl⟩
  | cons a l ih =>
    have first := onLeases_leaseRevoked s w a
    have rest := ih (leaseRevoked s w a)
    refine ⟨?_, fun v ne => (rest.ctxs v ne).trans (first.ctxs v ne)⟩
    have now := first.frame
    have later := rest.frame
    rw [revokeAll_cons]
    generalize (leaseRevoked s w a).revokeAll w l = r at later ⊢
    rw [later]
    generalize leaseRevoked s w a = q at now ⊢
    rw [now]

theorem sameLease_revokeAll (s : State) (w : WindowId) {l : List Agent} (other : b ∉ l) :
    SameLease b w s (s.revokeAll w l) := by
  induction l generalizing s with
  | nil => exact .refl
  | cons a l ih =>
    obtain ⟨ne, rest⟩ := List.ne_and_not_mem_of_not_mem_cons other
    exact (sameLease_leaseRevoked s w ne.symm).trans (ih _ rest)

theorem leaseGone_revokeAll (law : (s.ctxs.get w).Lawful st) {l : List Agent} (distinct : l.Nodup) (mem : a ∈ l) :
    LeaseGone a w s (s.revokeAll w l) := by
  induction l generalizing s with
  | nil => cases mem
  | cons b l ih =>
    obtain ⟨fresh, distinct⟩ := List.nodup_cons.mp distinct
    rcases List.mem_cons.mp mem with rfl | mem
    · exact (leaseGone_leaseRevoked law a).after (sameLease_revokeAll _ w fresh)
    · have ne : b ≠ a := fun e => fresh (e ▸ mem)
      exact .before (sameLease_leaseRevoked s w ne) (ih (lawful_leaseRevoked law b) distinct mem)

/-! ### The step -/

theorem settleWindow_frame (s : State) (w : WindowId) :
    s.settleWindow w =
      { s with
        ctxs := (s.evaluate w).ctxs, ports := (s.evaluate w).ports
        emptyReports := (s.settleWindow w).emptyReports } := by
  have reported : s.settleWindow w = { s.evaluate w with emptyReports := (s.settleWindow w).emptyReports } := by
    unfold State.settleWindow State.reportIfEmpty
    split <;> rfl
  rw [evaluate_frame s w] at reported
  exact reported

theorem settleWindow_inUse (s : State) (w : WindowId) : (s.settleWindow w).inUse = s.inUse := by
  rw [settleWindow_frame]

/-- The evaluation that closes the step gives an agent without a lease nothing. -/
theorem LeaseGone.settled (gone : LeaseGone a w s t) : LeaseGone a w s (t.settleWindow w) := by
  obtain ⟨without, ending, port⟩ := settleWindow_without t w gone.without
  obtain ⟨-, inUse, lost, refused⟩ := gone
  refine ⟨without, ?_, ?_, ?_⟩
  · rw [settleWindow_inUse, inUse]
  · rw [ending, port]
    exact lost
  · rw [port]
    exact refused

theorem admits_admitOf (attrs : Byte) (a : Agent) : (admitOf attrs).getLsbD a.val = attrs.getLsbD a.val := by
  simp [admitOf, a.isLt]

theorem removes_of_select (win : Window) {select attrs margin : Byte} {term deadline : Half}
    (admits : select.getLsbD 0 = true) :
    win.removes (win.amend select attrs term margin deadline) =
      allAgents.filter fun a => win.admitSet.getLsbD a.val && !attrs.getLsbD a.val := by
  simp only [Window.removes, Window.admits, Window.amend, admits, if_true, admits_admitOf]

/-- Settles O16. -/
theorem amendWindowEndsRemovedLeases : Obligations.AmendWindowEndsRemovedLeases := by
  intro window select attrs term margin deadline s w taken named used small admits clear lasting timed rule win c
    removes removed some written t
  let start := withWindow s w written
  have legal : amendArgsOk select attrs term deadline = true :=
    (amendArgs_iff ..).mpr ⟨small, fun _ => clear, lasting, timed⟩
  have reply := amendWindow_accepted (margin := margin) named used legal rule
  have record : (s.windows.get w).amend select attrs term margin deadline = written := by
    simp only [Window.amend, admits, if_true]
    rfl
  have same : (s.windows.get w).removes written = removed := record ▸ removes_of_select _ admits
  have ended : t = (start.revokeAll w removed).settleWindow w := rfl
  have onLeases := onLeases_revokeAll start w removed
  have frame : t =
      { start with ctxs := t.ctxs, inUse := t.inUse, ports := t.ports, emptyReports := t.emptyReports } := by
    have now := onLeases.frame
    have later := settleWindow_frame (start.revokeAll w removed) w
    rw [← ended] at later
    generalize (start.revokeAll w removed).evaluate w = v at later
    generalize start.revokeAll w removed = r at now later
    generalize t = t at later
    rw [later, now]
  have inRemoved (a : Agent) : a ∈ removed ↔ removes a = true := by
    rw [List.mem_filter]
    exact and_iff_right (mem_allAgents a)
  have distinct : removed.Nodup := List.filter_sublist.nodup (by decide)
  refine ⟨?_, ?_, fun v ne => ?_, ?_, ?_, ?_, ?_, ?_, ?_, ?_, ?_, ?_, fun law => ?_⟩
  · simp only [record, same] at reply
    rw [if_neg (by simpa using some)] at reply
    exact carryOut_of_reply taken reply
  · rw [frame]
    rfl
  · rw [ended, settleWindow_frame]
    exact (evaluate_other_ctx _ ne).trans (onLeases.ctxs v ne)
  iterate 9
    · rw [frame]
      rfl
  · have here : (start.ctxs.get w).Lawful (s.windows.get w).state := (leaseLaw_iff s).mp law w
    have gone (a : Agent) (out : removes a = true) : LeaseGone a w start t :=
      (leaseGone_revokeAll here distinct ((inRemoved a).mpr out)).settled
    refine ⟨fun a => ?_, fun a out => ?_⟩
    · cases out : removes a with
      | true =>
        simp only [true_and]
        exact (gone a out).inUse
      | false =>
        have kept := (sameLease_revokeAll start w (mt (inRemoved a).mp (by simp [out]))).inUse
        simp only [Bool.false_eq_true, false_and, if_false, Nat.sub_zero, ended, settleWindow_inUse]
        exact kept
    · obtain ⟨⟨noHold, noWait⟩, -, lost, refused⟩ := gone a out
      exact ⟨noHold, noWait, lost, refused⟩

end Sys2Proof.Machine
end

