-- ==== Sys2Proof/Proofs/ReadRequests.lean ====
section
/-! PROOF. The requests that read: READ DEVICE, READ POOL, READ TARGET, READ WINDOW and READ LEASES (O23). -/

namespace Sys2Proof.Machine

open Sys2Proof.Safety

variable {s : State} {w : WindowId} {t : TargetId} {target window : Byte}

theorem poolPayload_eq (s : State) :
    poolPayload s =
      [BitVec.ofNat 8 (s.inUse.get 0 + s.inUse.get 1 + s.inUse.get 2 + s.inUse.get 3),
        BitVec.ofNat 8 (s.inUse.get 0), BitVec.ofNat 8 (s.quotas.get 0),
        BitVec.ofNat 8 (s.inUse.get 1), BitVec.ofNat 8 (s.quotas.get 1),
        BitVec.ofNat 8 (s.inUse.get 2), BitVec.ofNat 8 (s.quotas.get 2),
        BitVec.ofNat 8 (s.inUse.get 3), BitVec.ofNat 8 (s.quotas.get 3)] := rfl

theorem readTarget_out_of_range (out : 8 ≤ target.toNat) : readTarget target s = replyOnly s .badArgument := by
  simp only [readTarget, targetOf_of_le out]

theorem readTarget_named (named : t.val = target.toNat) : readTarget target s = ⟨s, .ok, targetPayload s t⟩ := by
  simp only [readTarget, targetOf_of_val t named]

theorem readWindow_out_of_range (out : 32 ≤ window.toNat) : readWindow window s = replyOnly s .badArgument := by
  simp only [readWindow, windowOf_of_le out]

theorem readWindow_named (named : w.val = window.toNat) : readWindow window s = ⟨s, .ok, windowPayload s w⟩ := by
  simp only [readWindow, windowOf_of_val w named]

theorem readLeases_out_of_range (out : 32 ≤ window.toNat) : readLeases window s = replyOnly s .badArgument := by
  simp only [readLeases, windowOf_of_le out]

theorem readLeases_named (named : w.val = window.toNat) : readLeases window s = ⟨s, .ok, leasesPayload s w⟩ := by
  simp only [readLeases, windowOf_of_val w named]

theorem closeTime_eq (win : Window) : win.closeTime = win.pending.bind fun p => p.deadline := by
  unfold Window.closeTime
  cases win.pending <;> rfl

theorem leasesPayload_eq (s : State) (w : WindowId) :
    leasesPayload s w =
      [BitVec.ofNat 8 ((s.ctxs.get w).holders.length + (s.ctxs.get w).waiters.length)] ++
        be16 (remainingOr ((s.ctxs.get w).upgrader.bind fun h => h.deadline) s.tb.tick 0xFFFF) ++
        (s.ctxs.get w).holders.flatMap (holdEntry s.tb.tick) ++
        (s.ctxs.get w).waiters.flatMap (waitEntry s.tb.tick) := by
  rw [leasesPayload]
  cases (s.ctxs.get w).upgrader <;> rfl

/-- Settles O23. -/
theorem readRequestsReport : Obligations.ReadRequestsReport := by
  refine ⟨fun s taken => ⟨?_, ?_⟩, fun target s taken => ⟨fun out => ?_, fun t named => ?_⟩,
    fun window s taken => ⟨fun out => ⟨?_, ?_⟩, fun w named => ?_⟩, ?_⟩
  · exact carryOut_of_reply taken (f := readDevice) rfl
  · exact carryOut_of_reply taken (f := readPool) (congrArg (Reply.mk s .ok) (poolPayload_eq s))
  · exact carryOut_of_reply taken (readTarget_out_of_range out)
  · refine carryOut_of_reply taken ((readTarget_named named).trans ?_)
    rw [targetPayload]
    cases (s.targets.get t).parkDeadline
    all_goals
      rcases (s.targets.get t).interval with _ | ⟨kind, remaining⟩
      · rfl
      · cases kind <;> rfl
  · exact carryOut_of_reply taken (readWindow_out_of_range out)
  · exact carryOut_of_reply taken (readLeases_out_of_range out)
  · intro win c upgrader ticks
    have shown (d : Option Deadline) (absent : Half) : ticks d absent = remainingOr d s.tb.tick absent := by
      cases d <;> rfl
    refine ⟨carryOut_of_reply taken ((readWindow_named named).trans ?_),
      carryOut_of_reply taken ((readLeases_named named).trans ?_)⟩
    · simp only [windowPayload, closeTime_eq, shown]
      rfl
    · simp only [leasesPayload_eq, shown]
      rfl
  · exact ⟨⟨rfl, rfl, rfl, rfl, rfl⟩, ⟨rfl, rfl, rfl, rfl, rfl, rfl⟩, ⟨rfl, fun _ => rfl, fun _ => rfl, rfl⟩,
      ⟨rfl, rfl, rfl⟩, ⟨rfl, rfl⟩, rfl, rfl⟩

end Sys2Proof.Machine
end

