-- ==== Sys2Proof/Proofs/GrantEvaluation.lean ====
section
/-! PROOF. The grant evaluation (O26): its branches, one grant of a head, and what it leaves unchanged. -/

namespace Sys2Proof.Machine

open Sys2Proof.Safety

variable {s : State} {w : WindowId}

section Opened

variable (opened : (s.windows.get w).state = .opened)
include opened

theorem evaluate_upgrade {h : Hold} (pending : (s.ctxs.get w).upgrader = some h) :
    s.evaluate w =
      if (s.ctxs.get w).upgradeFree then
        (upgradeGranted s w h).handResponse h.agent 0x04 .granted w
          (tokenPayload w (upgradedHold s w h) (s.windows.get w).term)
      else s := by
  simp only [State.evaluate, opened, if_true, pending, grantUpgrade_eq]
  rfl

theorem evaluate_heads (settled : (s.ctxs.get w).upgrader = none) :
    s.evaluate w =
      let r := LeaseCtx.grantHeads s.tb.tick (s.windows.get w) (s.ctxs.get w).waiters (s.ctxs.get w)
      (s.updCtx w fun _ => r.1).handGrants w r.2 := by
  simp only [State.evaluate, opened, if_true, settled]

/-- A head that cannot be granted stays, and so do those behind it. -/
theorem evaluate_head_blocked (settled : (s.ctxs.get w).upgrader = none) {x : Wait} {xs : List Wait}
    (head : (s.ctxs.get w).waiters = x :: xs) (blocked : ¬(s.ctxs.get w).grantable x.mode = true) :
    s.evaluate w = s := by
  have same : ({ s.ctxs.get w with waiters := x :: xs } : LeaseCtx) = s.ctxs.get w := by rw [← head]
  rw [evaluate_heads opened settled]
  simp [head, LeaseCtx.grantHeads, blocked, same, State.updCtx, State.handGrants]

/-- The grant of a head is followed by the evaluation of what is left. -/
theorem evaluate_head_granted (settled : (s.ctxs.get w).upgrader = none) {x : Wait} {xs : List Wait}
    (head : (s.ctxs.get w).waiters = x :: xs) (fits : (s.ctxs.get w).grantable x.mode = true) :
    let h := grantedHold s w x.agent x.mode x.once x.term
    s.evaluate w =
      State.evaluate
        ((withCtx s w (grantedCtx { s.ctxs.get w with waiters := xs } h)).handResponse x.agent 0x01 .granted w
          (tokenPayload w h (selectedTerm (s.windows.get w) x.term)))
        w := by
  intro h
  let c := s.ctxs.get w
  generalize hp : tokenPayload w h (selectedTerm (s.windows.get w) x.term) = payload
  let u := (withCtx s w (grantedCtx { c with waiters := xs } h)).handResponse x.agent 0x01 .granted w payload
  have ctx : u.ctxs.get w = { c.addHold h with waiters := xs } := Tbl.get_set_self ..
  have opened' : (u.windows.get w).state = .opened := opened
  have settled' : (u.ctxs.get w).upgrader = none := by
    rw [ctx]
    simp only [LeaseCtx.upgrader, LeaseCtx.addHold, List.find?_append, Option.or_eq_none_iff]
    exact ⟨settled, rfl⟩
  show s.evaluate w = u.evaluate w
  rw [evaluate_heads opened settled, evaluate_heads opened' settled', ctx]
  simp only [head, LeaseCtx.grantHeads, fits, if_true, grantHeads_with_waiters]
  simp only [State.handGrants, List.foldl_cons]
  congr 1
  simp only [u, State.updCtx, State.handResponse, State.updPort, withCtx, Tbl.set_set, ← hp]
  rfl

end Opened

theorem upgrader_eq_none_iff (c : LeaseCtx) : c.upgrader = none ↔ ∀ h ∈ c.holders, h.upgrading = false := by
  simp [LeaseCtx.upgrader]

/-- Settles O26. -/
theorem grantEvaluation : Obligations.GrantEvaluation := by
  refine ⟨fun s w => ⟨fun other => evaluate_not_open s w other, fun opened h pending => ⟨fun single idle => ?_,
    fun crowded => ?_⟩, fun opened none => ?_⟩, fun s w => ⟨⟨fun empty => ?_, fun other => ?_⟩, evaluate_frame s w,
    fun v ne => evaluate_other_ctx s ne, (evaluate_inflight s w).1, (evaluate_inflight s w).2, fun a => ?_,
    fun a => ?_⟩⟩
  · rw [evaluate_upgrade opened pending, if_pos ((upgradeFree_iff _).mpr ⟨single, idle⟩)]
  · rw [evaluate_upgrade opened pending, if_neg]
    rw [upgradeFree_iff]
    rintro ⟨single, idle⟩
    exact crowded.elim (absurd single) (absurd idle)
  · have settled := (upgrader_eq_none_iff _).mpr none
    refine ⟨fun noWait => evaluate_empty s w noWait none, fun x xs head => ⟨fun blocked => ?_, fun fits => ?_⟩⟩
    · exact evaluate_head_blocked opened settled head (mt (grantable_iff _ _).mp blocked)
    · exact evaluate_head_granted opened settled head ((grantable_iff _ _).mpr fits)
  · have same : (s.evaluate w).windows = s.windows := evaluate_windows s w
    rw [State.settleWindow, State.reportIfEmpty, if_pos]
    rw [same, emptyContext_iff]
    exact empty
  · have same : (s.evaluate w).windows = s.windows := evaluate_windows s w
    rw [State.settleWindow, State.reportIfEmpty, if_neg]
    rw [same, emptyContext_iff]
    exact other
  · obtain ⟨more, e⟩ := evaluate_port s w a
    rw [e]
  · obtain ⟨more, e⟩ := evaluate_port s w a
    exact ⟨more, by rw [e]⟩

end Sys2Proof.Machine
end

