-- ==== Sys2Proof/Proofs/Abandon.lean ====
section
/-! PROOF. ABANDON (O32): the window of the agent's one wait, what taking the wait back leaves, and the two answers. -/

namespace Sys2Proof.Machine

open Sys2Proof.Safety

variable {s : State} {a : Agent} {w : WindowId}

/-- The agent waits on the window, as a queued WAIT or with a pending upgrade. -/
def LeaseCtx.awaits (c : LeaseCtx) (a : Agent) : Bool :=
  (c.waitOf a).isSome || c.holders.any fun h => h.agent == a && h.upgrading

theorem LeaseCtx.awaits_eq_false_iff (c : LeaseCtx) (a : Agent) :
    c.awaits a = false ↔ c.waitOf a = none ∧ ∀ h ∈ c.holders, ¬(h.agent = a ∧ h.upgrading = true) := by
  simp [LeaseCtx.awaits]

theorem LeaseCtx.awaits_of_upgrading {c : LeaseCtx} {h : Hold} (held : c.holdOf a = some h)
    (pending : h.upgrading = true) : c.awaits a = true := by
  have mem := List.mem_of_find?_eq_some held
  have agent := LeaseCtx.agent_eq_of_holdOf held
  rw [LeaseCtx.awaits, Bool.or_eq_true, List.any_eq_true]
  exact .inr ⟨h, mem, by simp [agent, pending]⟩

theorem waitWindow_eq (s : State) (a : Agent) :
    s.waitWindow a = allWindows.find? fun v => (s.ctxs.get v).awaits a := rfl

theorem waitWindow_eq_none (quiet : ∀ v, (s.ctxs.get v).awaits a = false) : s.waitWindow a = none := by
  refine List.find?_eq_none.mpr fun v _ => ?_
  rw [Bool.not_eq_true]
  exact quiet v

theorem mem_allWindows (w : WindowId) : w ∈ allWindows := by
  revert w
  decide

theorem waitWindow_eq_some (here : (s.ctxs.get w).awaits a = true)
    (only : ∀ v, v ≠ w → (s.ctxs.get v).awaits a = false) :
    s.waitWindow a = some w := by
  cases found : s.waitWindow a with
  | none =>
    exact absurd here (List.find?_eq_none.mp found w (mem_allWindows w))
  | some v =>
    have waits : (s.ctxs.get v).awaits a = true :=
      List.find?_some (p := fun v => (s.ctxs.get v).awaits a) (waitWindow_eq s a ▸ found)
    by_cases e : v = w
    · rw [e]
    · rw [only v e] at waits
      cases waits

theorem settleAbandon_not_running (stopped : s.mgmt.running = false) :
    settleAbandon a s = afterResponse s a 0x06 .notRunning [] := by
  simp only [settleAbandon, stopped, Bool.not_false, if_true, answer_eq]

section Running

variable (run : s.mgmt.running = true)
include run

theorem settleAbandon_nothing (quiet : ∀ v, (s.ctxs.get v).awaits a = false) :
    settleAbandon a s = afterResponse s a 0x06 .nothing [] := by
  simp only [settleAbandon, run, Bool.not_true, Bool.false_eq_true, if_false, waitWindow_eq_none quiet, answer_eq]

theorem settleAbandon_ends (here : (s.ctxs.get w).awaits a = true)
    (only : ∀ v, v ≠ w → (s.ctxs.get v).awaits a = false) :
    settleAbandon a s = (afterResponse (s.endAbandoned a w) a 0x06 .ok [windowByte w]).evaluate w := by
  simp only [settleAbandon, run, Bool.not_true, Bool.false_eq_true, if_false, waitWindow_eq_some here only, answer_eq]

end Running

/-- The wait's own ABANDONED response, then the OK: what the port posts last stands in its response record. -/
theorem afterResponse_postAbandoned (s : State) (a : Agent) (code : Byte) (w : WindowId) (payload : List Byte) :
    afterResponse (s.postAbandoned a code w payload) a 0x06 .ok [windowByte w] =
      let q := s.ports.get a
      let replied : Notices := { q.notices with reply := q.notices.reply.set w true }
      withPort s a
        { q with
          state := .idle, notices := replied, airqn := airqLevel q.config replied
          response := { code := 0x06, status := .ok, seq := q.response.seq + 1 + 1, payload := [windowByte w] } } := by
  simp only [afterResponse, State.postAbandoned, State.updPort, withPort, Tbl.get_set_self, Tbl.set_set]
  rfl

theorem endAbandoned_wait {x : Wait} (waits : (s.ctxs.get w).waitOf a = some x) :
    s.endAbandoned a w = (waitRemoved s w a).postAbandoned a 0x01 w [windowByte w] := by
  simp only [State.endAbandoned, waits, dropWait_eq]
  rfl

theorem endAbandoned_upgrade {h : Hold} (noWait : (s.ctxs.get w).waitOf a = none)
    (held : (s.ctxs.get w).holdOf a = some h) :
    s.endAbandoned a w = (upgradeCleared s w a).postAbandoned a 0x04 w (keptPayload w h) := by
  simp only [State.endAbandoned, noWait, held, clearUpgrade_eq]
  rfl

/-- Settles O32. -/
theorem abandonEndsTheWait : Obligations.AbandonEndsTheWait := by
  intro a s up free u p q result noWaitBut noWait replied ended
  have down : (s.ports.get a).down = false := by
    rw [← Bool.not_eq_true, down_iff]
    exact up
  have port : u.ports.get a = p := rfl
  have state : p.state ≠ .inReset := by
    simp only [p, u, asked, withPort, Tbl.get_set_self]
    exact fun e => up (.inl e)
  have taken : u.takeResponses a = withPort u a q := by
    rw [State.takeResponses, State.updPort, takeResponses_eq _ state]
    rfl
  have settles : result = .next (settleAbandon a (withPort u a q)) := by
    rw [← taken]
    exact exec_abandon_taken a s down free
  have record : (withPort u a q).ports.get a = q := Tbl.get_set_self ..
  have quiet {v : WindowId} (h : (s.ctxs.get v).waitOf a = none ∧
      ∀ h ∈ (s.ctxs.get v).holders, ¬(h.agent = a ∧ h.upgrading = true)) : (s.ctxs.get v).awaits a = false :=
    (LeaseCtx.awaits_eq_false_iff _ a).mpr h
  refine ⟨fun stopped => ?_, fun run none => ?_, fun run w others => ⟨fun x waits => ?_,
    fun h noQueue held pending => ?_⟩⟩
  · rw [settles, settleAbandon_not_running (s := withPort u a q) stopped]
  · rw [settles, settleAbandon_nothing (s := withPort u a q) run fun v => quiet (none v)]
  · have here : (s.ctxs.get w).awaits a = true := by simp [LeaseCtx.awaits, waits]
    rw [settles, settleAbandon_ends (s := withPort u a q) run here fun v ne => quiet (others v ne),
      endAbandoned_wait (s := withPort u a q) waits, afterResponse_postAbandoned]
    have same : (waitRemoved (withPort u a q) w a).ports.get a = q := record
    rw [same]
    simp only [ended, waitRemoved, withCtx, withPort, Tbl.set_set]
    rfl
  · have here : (s.ctxs.get w).awaits a = true := LeaseCtx.awaits_of_upgrading held pending
    rw [settles, settleAbandon_ends (s := withPort u a q) run here fun v ne => quiet (others v ne),
      endAbandoned_upgrade (s := withPort u a q) noQueue held, afterResponse_postAbandoned]
    have same : (upgradeCleared (withPort u a q) w a).ports.get a = q := record
    rw [same]
    simp only [ended, upgradeCleared, holdChanged, withCtx, withPort, Tbl.set_set]
    rfl

end Sys2Proof.Machine
end

