-- ==== Sys2Proof/Proofs/AgentReads.lean ====
section
/-! PROOF. What an agent asks of its own port: QUERY WINDOW (O33), READ FAULT (O34), TAKE NOTICE and
SET NOTICES (O35). -/

namespace Sys2Proof.Machine

open Sys2Proof.Safety

variable {s : State} {a : Agent} {w : WindowId}

/-! ### QUERY WINDOW (R41, R181) -/

theorem queryWindow_out_of_range {window : Byte} (out : 32 ≤ window.toNat) :
    queryWindow a window s = afterResponse s a 0x08 .badArgument [] := by
  simp only [queryWindow, windowOf_of_le out, answer_eq]

theorem queryWindow_named {window : Byte} (named : w.val = window.toNat) :
    queryWindow a window s = afterResponse s a 0x08 .ok (queryPayload s a w) := by
  simp only [queryWindow, windowOf_of_val w named, answer_eq]

theorem queryLease_hold {h : Hold} (held : (s.ctxs.get w).holdOf a = some h) :
    queryLease s a w =
      [BitVec.ofNat 8 (1 + 4 * h.mode.code + 8 * bit h.once + 16 * bit h.warned + 32 * bit h.upgrading), 0] ++
        le16 (h.serial.setWidth 16) ++ le16 (h.expiry.remaining s.tb.tick) := by
  simp only [queryLease, held, wideSerial]

section NoHold

variable (noHold : (s.ctxs.get w).holdOf a = none)
include noHold

theorem queryLease_wait {x : Wait} (waits : (s.ctxs.get w).waitOf a = some x) :
    queryLease s a w =
      [BitVec.ofNat 8 (2 + 4 * x.mode.code + 8 * bit x.once), 0, 0, 0] ++
        le16 (remainingOr x.deadline s.tb.tick 0xFFFF) := by
  simp only [queryLease, noHold, waits]
  rfl

variable (noWait : (s.ctxs.get w).waitOf a = none)
include noWait

theorem queryLease_ending {e : LastEnding} (ended : (s.ctxs.get w).endings.get a = some e) :
    queryLease s a w = [0, e.cause.code] ++ le16 (e.serial.setWidth 16) ++ [0, 0] := by
  simp only [queryLease, noHold, noWait, ended]
  rfl

theorem queryLease_none (fresh : (s.ctxs.get w).endings.get a = none) : queryLease s a w = [0, 0, 0, 0, 0, 0] := by
  simp only [queryLease, noHold, noWait, fresh]
  rfl

end NoHold

/-- Settles O33. -/
theorem queryWindowReports : Obligations.QueryWindowReports := by
  intro a window s can result
  have asks : result = .next (queryWindow a window (asked s a 0x08 [window])) := exec_queryWindow_idle a window s can
  refine ⟨fun out => ?_, ?_⟩
  · rw [asks, queryWindow_out_of_range out]
    rfl
  intro w named win c ticks answers
  have tells (lease : List Byte) (same : queryLease (asked s a 0x08 [window]) a w = lease) : answers lease := by
    show result = _
    rw [asks, queryWindow_named named, queryPayload, same]
    rfl
  refine ⟨fun h held => tells _ (queryLease_hold (s := asked s a 0x08 [window]) held), fun x noHold waits => ?_,
    fun e noHold noWait ended => tells _ (queryLease_ending (s := asked s a 0x08 [window]) noHold noWait ended),
    fun noHold noWait fresh => tells _ (queryLease_none (s := asked s a 0x08 [window]) noHold noWait fresh),
    rfl, rfl, rfl, rfl, rfl⟩
  refine tells _ ((queryLease_wait (s := asked s a 0x08 [window]) noHold waits).trans ?_)
  cases x.deadline <;> rfl

/-! ### READ FAULT (R134, R181) -/

theorem sizeCode_pow (i : Fin 6) : sizeCode (2 ^ i.val) = some (BitVec.ofNat 3 i.val) := by
  revert i
  decide

theorem sizeCode_eq_none {size : Nat} (odd : ∀ i : Fin 6, size ≠ 2 ^ i.val) : sizeCode size = none := by
  have one : size ≠ 1 := odd 0
  have two : size ≠ 2 := odd 1
  have four : size ≠ 4 := odd 2
  have eight : size ≠ 8 := odd 3
  have sixteen : size ≠ 16 := odd 4
  have all : size ≠ 32 := odd 5
  simp only [sizeCode, one, two, four, eight, sixteen, all, if_false]

theorem readFault_empty (empty : (s.ports.get a).fault = none) :
    readFault a s = afterResponse s a 0x09 .nothing [] := by
  simp only [readFault, empty, answer_eq]

section Fault

variable {f : FaultRecord} (full : (s.ports.get a).fault = some f)
include full

theorem readFault_legal {size : BitVec 3} (legal : sizeCode f.size = some size) :
    readFault a s =
      afterResponse (withPort s a { s.ports.get a with fault := none }) a 0x09 .ok (faultPayload f size) := by
  simp only [readFault, full, legal, answer_eq]
  rfl

theorem readFault_illegal (illegal : sizeCode f.size = none) :
    readFault a s =
      { afterResponse (withPort s a { s.ports.get a with fault := none }) a 0x09 .ok
          (faultPayload f (Config.freeSizeCode s.free)) with free := s.free + 1 } := by
  simp only [readFault, full, illegal, answer_eq]
  rfl

end Fault

/-- Settles O34. -/
theorem readFaultEmptiesTheRecord : Obligations.ReadFaultEmptiesTheRecord := by
  intro a s can u
  have asks : exec (.readFault a) s = .next (readFault a u) := exec_readFault_idle a s can
  have record : (u.ports.get a).fault = (s.ports.get a).fault := by simp only [u, asked, withPort, Tbl.get_set_self]
  refine ⟨fun empty => ?_, ?_⟩
  · rw [asks, readFault_empty (record.trans empty)]
    rfl
  intro f full payload answered
  have full := record.trans full
  have told (size : BitVec 3) : faultPayload f size = payload size := by
    simp only [payload, faultPayload]
    cases f.window <;> rfl
  refine ⟨fun i size => ?_, fun odd => ⟨Config.freeSizeCode s.free, ?_⟩, by decide⟩
  · rw [asks, readFault_legal full (size ▸ sizeCode_pow i), told]
  · rw [asks, readFault_illegal full (sizeCode_eq_none odd)]
    show Host.Outcome.next { afterResponse _ a 0x09 .ok (faultPayload f (Config.freeSizeCode s.free)) with
      free := s.free + 1 } = _
    rw [told]

/-! ### TAKE NOTICE (R159, R181) -/

/-- The kinds before a kind have smaller codes. -/
theorem noticeKinds_split (k : NoticeKind) :
    ∃ before after, noticeKinds = before ++ k :: after ∧ ∀ j ∈ before, (noticeCode j).toNat < (noticeCode k).toNat := by
  cases k
  · exact ⟨[], [.lost, .closing, .warning, .reply], rfl, by decide⟩
  · exact ⟨[.fault], [.closing, .warning, .reply], rfl, by decide⟩
  · exact ⟨[.fault, .lost], [.warning, .reply], rfl, by decide⟩
  · exact ⟨[.fault, .lost, .closing], [.reply], rfl, by decide⟩
  · exact ⟨[.fault, .lost, .closing, .warning], [], rfl, by decide⟩

section Pick

variable {p : Port} {k : NoticeKind}

/-- The kind is more urgent than the one chosen so far. -/
def Port.beats (p : Port) (k : NoticeKind) (best : Option NoticeKind) : Prop :=
  ∀ b, best = some b → (p.config.of b).urgency.toNat < (p.config.of k).urgency.toNat

theorem beats_foldl {best : Option NoticeKind} (ahead : p.beats k best) {l : List NoticeKind}
    (less : ∀ j ∈ l, p.notices.has j = true → (p.config.of j).urgency.toNat < (p.config.of k).urgency.toNat) :
    p.beats k (l.foldl (betterKind p) best) := by
  induction l generalizing best with
  | nil => exact ahead
  | cons j l ih =>
    obtain ⟨first, rest⟩ := List.forall_mem_cons.mp less
    refine ih ?_ rest
    unfold betterKind
    split
    · exact ahead
    · rename_i holds
      have holds : p.notices.has j = true := by simpa using holds
      split
      · rintro b e
        cases e
        exact first holds
      · split
        · rintro b e
          cases e
          exact first holds
        · exact ahead

theorem betterKind_of_beats (holds : p.notices.has k = true) {best : Option NoticeKind} (ahead : p.beats k best) :
    betterKind p best k = some k := by
  cases best with
  | none => simp [betterKind, holds]
  | some b => simp [betterKind, holds, ahead b rfl]

theorem foldl_betterKind_stays {l : List NoticeKind}
    (least : ∀ j ∈ l, p.notices.has j = true → (p.config.of j).urgency.toNat ≤ (p.config.of k).urgency.toNat) :
    l.foldl (betterKind p) (some k) = some k := by
  induction l with
  | nil => rfl
  | cons j l ih =>
    obtain ⟨first, rest⟩ := List.forall_mem_cons.mp least
    have stays : betterKind p (some k) j = some k := by
      cases holds : p.notices.has j with
      | false => simp [betterKind, holds]
      | true => simp [betterKind, holds, Nat.not_lt.mpr (first holds)]
    rw [List.foldl_cons, stays, ih rest]

theorem pickKind_none (empty : ∀ j, p.notices.has j = false) : p.pickKind = none := by
  have stays (l : List NoticeKind) : l.foldl (betterKind p) none = none := by
    induction l with
    | nil => rfl
    | cons j l ih => simp [betterKind, empty j, ih]
  exact stays noticeKinds

/-- The kind of the highest urgency is picked, and among equals the first. -/
theorem pickKind_of_first (holds : p.notices.has k = true)
    (first : ∀ j, p.notices.has j = true →
      (p.config.of j).urgency.toNat < (p.config.of k).urgency.toNat ∨
        (p.config.of j).urgency = (p.config.of k).urgency ∧ (noticeCode k).toNat ≤ (noticeCode j).toNat) :
    p.pickKind = some k := by
  obtain ⟨before, after, split, smaller⟩ := noticeKinds_split k
  have ahead : p.beats k (before.foldl (betterKind p) none) := by
    refine beats_foldl (fun b e => by cases e) fun j mem has => (first j has).resolve_right fun h => ?_
    exact absurd h.2 (Nat.not_le.mpr (smaller j mem))
  rw [Port.pickKind, split, List.foldl_append, List.foldl_cons, betterKind_of_beats holds ahead]
  refine foldl_betterKind_stays fun j _ has => ?_
  rcases first j has with less | ⟨same, -⟩
  · exact Nat.le_of_lt less
  · exact Nat.le_of_eq (congrArg BitVec.toNat same)

end Pick

theorem takeNotice_nothing (none : (s.ports.get a).pickKind = none) :
    takeNotice a s = afterResponse s a 0x0A .nothing [] := by
  simp only [takeNotice, none, answer_eq]

theorem takeNotice_picks {k : NoticeKind} (picked : (s.ports.get a).pickKind = some k) {rest : Notices}
    {payload : List Byte} (taken : (s.ports.get a).notices.takeKind k = (rest, payload)) :
    takeNotice a s =
      afterResponse
        (withPort s a
          { s.ports.get a with notices := rest, airqn := airqLevel (s.ports.get a).config rest })
        a 0x0A .ok payload := by
  simp only [takeNotice, picked, taken, answer_eq]
  rfl

theorem takeKind_lost {n : Notices} {r : LostReason} (here : n.lost.get w = some r)
    (below : ∀ v, v < w → n.lost.get v = none) :
    n.takeKind .lost = ({ n with lost := n.lost.set w none }, [1, windowByte w, r.code]) := by
  have first : lowest (lostSet n.lost) = some w :=
    lowest_eq_some _ w (by simp [lostSet_get, here]) fun v lt => by simp [lostSet_get, below v lt]
  simp only [Notices.takeKind, first, here]
  rfl

/-! ### SET NOTICES (R157, R180) -/

theorem setNotices_bad {b1 b2 b3 b4 b5 : Byte} (bad : ∃ b ∈ [b1, b2, b3, b4, b5], b.extractLsb' 2 5 ≠ 0) :
    setNotices a b1 b2 b3 b4 b5 s = afterResponse s a 0x0B .badArgument [] := by
  obtain ⟨b, mem, reserved⟩ := bad
  rw [setNotices, if_neg, answer_eq]
  intro legal
  exact reserved (by simpa [settingOk] using List.all_eq_true.mp legal b mem)

theorem setNotices_writes {b1 b2 b3 b4 b5 : Byte} (legal : ∀ b ∈ [b1, b2, b3, b4, b5], b.extractLsb' 2 5 = 0) :
    setNotices a b1 b2 b3 b4 b5 s =
      let p := s.ports.get a
      let config : NoticeConfig := ⟨settingOf b1, settingOf b2, settingOf b3, settingOf b4, settingOf b5⟩
      afterResponse (withPort s a { p with config := config, airqn := airqLevel config p.notices }) a 0x0B .ok
        [b1, b2, b3, b4, b5] := by
  rw [setNotices, if_pos, answer_eq]
  · rfl
  · exact List.all_eq_true.mpr fun b mem => by simpa [settingOk] using legal b mem

/-- Settles O35. -/
theorem takeAndSetNotices : Obligations.TakeAndSetNotices := by
  refine ⟨fun a s can => ?_, fun a b1 b2 b3 b4 b5 s can => ?_, ⟨rfl, rfl, rfl⟩, rfl, rfl, rfl, rfl, rfl⟩
  · intro u p n picked took
    have asks : exec (.takeNotice a) s = .next (takeNotice a u) := exec_takeNotice_idle a s can
    have takes {k : NoticeKind} {rest : Notices} {payload : List Byte} (first : picked k)
        (taken : n.takeKind k = (rest, payload)) : took rest payload := by
      show exec (.takeNotice a) s = _
      rw [asks, takeNotice_picks (pickKind_of_first (p := p) first.1 first.2) taken]
    refine ⟨fun empty => ?_, fun first => takes first rfl,
      fun first w r here below => takes first (takeKind_lost here below),
      fun first w here below => takes first ?_, fun first w here below => takes first ?_,
      fun first w here below => takes first ?_⟩
    · rw [asks, takeNotice_nothing (pickKind_none (p := p) empty)]
      rfl
    all_goals
      simp only [Notices.takeKind, lowest_eq_some _ w here below]
      rfl
  · intro args u p legal read config result
    have asks : result = .next (setNotices a b1 b2 b3 b4 b5 u) := exec_setNotices_idle a b1 b2 b3 b4 b5 s can
    refine ⟨fun bad => ?_, fun legal => ?_⟩
    · rw [asks, setNotices_bad bad]
      rfl
    · rw [asks, setNotices_writes legal]
      rfl

end Sys2Proof.Machine
end

