-- ==== Sys2Proof/Proofs/PortCycles.lean ====
section
/-! PROOF. Commits in every port state (O36), and the cycles of the control aperture (O37). -/

namespace Sys2Proof.Machine

open Sys2Proof.Safety

variable {s : State} {a : Agent}

/-! ### Commits (R148, R150, R151) -/

theorem down_eq_false {p : Port} (up : ¬portDown p) : p.down = false := by
  rw [← Bool.not_eq_true, down_iff]
  exact up

/-- A code that names no request. -/
abbrev unnamedCode (code : Byte) : Prop := code.toNat = 0 ∨ code.toNat = 7 ∨ 12 ≤ code.toNat

theorem unnamedCode.ne {code : Byte} (unnamed : unnamedCode code) {n : Byte} (known : ¬unnamedCode n) : code ≠ n := by
  rintro rfl
  exact known unnamed

theorem dispatch_unnamed {r : RequestRecord} (unnamed : unnamedCode r.code) :
    dispatch a r s = afterResponse s a r.code .unknown [] := by
  have other {n : Byte} (known : ¬unnamedCode n) : r.code ≠ n := unnamed.ne known
  simp only [dispatch, other (n := 0x01) (by decide), other (n := 0x02) (by decide), other (n := 0x03) (by decide),
    other (n := 0x04) (by decide), other (n := 0x05) (by decide), other (n := 0x06) (by decide),
    other (n := 0x08) (by decide), other (n := 0x09) (by decide), other (n := 0x0A) (by decide),
    other (n := 0x0B) (by decide), if_false, answer_eq]

/-- The commit cycle of an agent whose bus is free. -/
theorem commitCycle_free (free : s.busShut a = false) :
    s.commitCycle a = (withPort s a { s.ports.get a with ended := some (.write false) }).commit a := by
  rw [State.commitCycle, if_neg (by simp [free])]
  rfl

theorem commit_down (down : portDown (s.ports.get a)) : s.commit a = s := by
  simp only [State.commit, (down_iff _).mpr down, if_true]

theorem commit_waiting (up : ¬portDown (s.ports.get a)) (waiting : (s.ports.get a).state = .waiting)
    (other : (s.ports.get a).request.code ≠ 0x06) :
    s.commit a = withPort s a { s.ports.get a with commitRefused := true } := by
  have refused : s.commit a = s.setRefused a true := by
    simp only [State.commit, down_eq_false up, Bool.false_eq_true, if_false, waiting, other]
  exact refused

theorem commitCycle_down (free : s.busShut a = false) (down : portDown (s.ports.get a)) :
    s.commitCycle a = withPort s a { s.ports.get a with ended := some (.write false) } := by
  rw [commitCycle_free free, commit_down]
  simp only [withPort, Tbl.get_set_self]
  exact down

theorem commitCycle_waiting (free : s.busShut a = false) (up : ¬portDown (s.ports.get a))
    (waiting : (s.ports.get a).state = .waiting) (other : (s.ports.get a).request.code ≠ 0x06) :
    s.commitCycle a =
      withPort s a { s.ports.get a with commitRefused := true, ended := some (.write false) } := by
  rw [commitCycle_free free, commit_waiting]
  · simp only [withPort, Tbl.get_set_self, Tbl.set_set]
  all_goals simp only [withPort, Tbl.get_set_self]
  · exact up
  · exact waiting
  · exact other

theorem request_shut_or (s : State) (a : Agent) (code : Byte) (bytes : List Byte) :
    s.request a code bytes = (if s.busShut a then s else s.writeRequest a code bytes).commitCycle a := by
  unfold State.request
  split
  · rename_i shut
    rw [State.commitCycle, if_pos shut]
  · rfl

theorem writeRequest_down (down : portDown (s.ports.get a)) (code : Byte) (bytes : List Byte) :
    s.writeRequest a code bytes = s := by
  simp only [State.writeRequest, State.updPort, (down_iff _).mpr down, if_true, Tbl.set_get]

theorem writeRequest_up (up : ¬portDown (s.ports.get a)) (code : Byte) (bytes : List Byte) :
    s.writeRequest a code bytes =
      withPort s a { s.ports.get a with request := ⟨code, writeArgs (s.ports.get a).request.args bytes⟩ } := by
  simp only [State.writeRequest, State.updPort, down_eq_false up, Bool.false_eq_true, if_false]
  rfl

/-- To write what the record holds writes nothing. -/
theorem writeRequest_same {code : Byte} {bytes : List Byte}
    (same : (s.ports.get a).request = ⟨code, writeArgs (s.ports.get a).request.args bytes⟩) :
    s.writeRequest a code bytes = s := by
  simp only [State.writeRequest, State.updPort, ← same, ite_self, Tbl.set_get]

theorem request_same {code : Byte} {bytes : List Byte}
    (same : (s.ports.get a).request = ⟨code, writeArgs (s.ports.get a).request.args bytes⟩) :
    s.request a code bytes = s.commitCycle a := by
  rw [request_shut_or, writeRequest_same same, ite_self]

theorem request_down (free : s.busShut a = false) (down : portDown (s.ports.get a)) (code : Byte)
    (bytes : List Byte) :
    s.request a code bytes = withPort s a { s.ports.get a with ended := some (.write false) } := by
  rw [request_shut_or, writeRequest_down down, ite_self, commitCycle_down free down]

theorem request_waiting (free : s.busShut a = false) (up : ¬portDown (s.ports.get a))
    (waiting : (s.ports.get a).state = .waiting) {code : Byte} (other : code ≠ 0x06) (bytes : List Byte) :
    s.request a code bytes =
      withPort s a
        { s.ports.get a with
          request := ⟨code, writeArgs (s.ports.get a).request.args bytes⟩, commitRefused := true
          ended := some (.write false) } := by
  have record : (s.writeRequest a code bytes).ports.get a =
      { s.ports.get a with request := ⟨code, writeArgs (s.ports.get a).request.args bytes⟩ } := by
    rw [writeRequest_up up, withPort, Tbl.get_set_self]
  have free' : (s.writeRequest a code bytes).busShut a = false := free
  rw [request_shut_or, if_neg (by simp [free]), commitCycle_waiting free' (by rw [record]; exact up)
    (by rw [record]; exact waiting) (by rw [record]; exact other), record, writeRequest_up up]
  simp only [withPort, Tbl.set_set]

/-- Settles O36. -/
theorem commitsByPortState : Obligations.CommitsByPortState := by
  intro a s b1 b2 b3 b4 b5 h1 h2 tok code p rows none1
  have known (unnamed : none1) : ∀ r ∈ rows, r.2.1 ≠ 0x06 := by
    have other : code ≠ 0x06 := unnamedCode.ne unnamed (by decide)
    simpa [rows] using other
  have asks : ∀ r ∈ (.abandon a, 0x06, []) :: rows, exec r.1 s = .next (s.request a r.2.1 r.2.2) := by
    intro r mem
    simp only [rows, List.mem_cons, List.not_mem_nil, or_false] at mem
    rcases mem with rfl | rfl | rfl | rfl | rfl | rfl | rfl | rfl | rfl | rfl | rfl <;> rfl
  have each {P : Instr → Prop} (record : P (.commitRefused a))
      (all : ∀ r ∈ (.abandon a, 0x06, []) :: rows, P r.1) :
      ∀ i ∈ .commitRefused a :: .abandon a :: rows.map Prod.fst, P i := by
    intro i mem
    rcases List.mem_cons.mp mem with rfl | mem
    · exact record
    obtain ⟨r, here, rfl⟩ := List.mem_map.mp (show i ∈ ((.abandon a, 0x06, []) :: rows).map Prod.fst from mem)
    exact all r here
  refine ⟨fun can unnamed => ?_, fun free up waiting unnamed r mem => ?_, fun free up waiting other => ?_,
    fun r mem same => ?_, fun free down => each ?_ fun r mem => ?_, fun shut => each ?_ fun r mem => ?_⟩
  · show Host.Outcome.next (s.request a code []) = _
    rw [request_idle s a code [] can, dispatch_unnamed unnamed]
    rfl
  · rw [asks r (List.mem_cons_of_mem _ mem), request_waiting free up waiting (known unnamed r mem)]
  · show Host.Outcome.next (s.commitCycle a) = _
    rw [commitCycle_waiting free up waiting other]
  · rw [asks r mem, request_same same]
    rfl
  · show Host.Outcome.next (s.commitCycle a) = _
    rw [commitCycle_down free down]
  · rw [asks r mem, request_down free down]
  · show Host.Outcome.next (s.commitCycle a) = _
    rw [State.commitCycle, if_pos shut]
  · rw [asks r mem, request_shut shut]

/-! ### Writes in the control aperture (R148, R179) -/

/-- What a write of bytes at an offset makes of the byte at a place. -/
def writtenByte (offset : Nat) (bytes : List Byte) (place : Nat) (old : Byte) : Byte :=
  if offset ≤ place ∧ place < offset + bytes.length then bytes.getD (place - offset) 0 else old

theorem writtenByte_cons (offset : Nat) (b : Byte) (bytes : List Byte) (place : Nat) (old : Byte) :
    writtenByte (offset + 1) bytes place (if place = offset then b else old) =
      writtenByte offset (b :: bytes) place old := by
  unfold writtenByte
  rw [List.length_cons]
  by_cases first : place = offset
  · subst first
    rw [if_neg (by omega), if_pos rfl, if_pos ⟨Nat.le_refl _, by omega⟩, Nat.sub_self]
    rfl
  · rw [if_neg first]
    by_cases later : offset + 1 ≤ place ∧ place < offset + 1 + bytes.length
    · rw [if_pos later, if_pos ⟨by omega, by omega⟩, show place - offset = place - (offset + 1) + 1 by omega]
      rfl
    · rw [if_neg later, if_neg (by omega)]

theorem writeByte_request (p : Port) (offset : Nat) (b : Byte) :
    ∃ args : Tbl Byte 8,
      (∀ i, args.get i = if 0x12 + i.val = offset then b else p.request.args.get i) ∧
      p.writeByte offset b = { p with request := ⟨if 0x10 = offset then b else p.request.code, args⟩ } := by
  unfold Port.writeByte
  split
  · rename_i code
    refine ⟨p.request.args, fun i => ?_, ?_⟩
    · rw [if_neg (by omega)]
    · rw [if_pos code.symm]
  · rename_i other
    split
    · rename_i arg
      refine ⟨p.request.args.set ⟨offset - 0x12, by omega⟩ b, fun i => ?_, ?_⟩
      · rw [Tbl.get_set]
        simp only [Fin.ext_iff]
        by_cases here : 0x12 + i.val = offset
        · rw [if_pos here, if_pos (by omega)]
        · rw [if_neg here, if_neg (by omega)]
      · rw [if_neg (fun e => other e.symm)]
    · rename_i outside
      refine ⟨p.request.args, fun i => ?_, ?_⟩
      · rw [if_neg]
        have := i.isLt
        omega
      · rw [if_neg (fun e => other e.symm)]

theorem writeBytes_request (p : Port) (offset : Nat) (bytes : List Byte) :
    ∃ args : Tbl Byte 8,
      (∀ i, args.get i = writtenByte offset bytes (0x12 + i.val) (p.request.args.get i)) ∧
      p.writeBytes offset bytes = { p with request := ⟨writtenByte offset bytes 0x10 p.request.code, args⟩ } := by
  induction bytes generalizing p offset with
  | nil =>
    have kept (place : Nat) (old : Byte) : writtenByte offset [] place old = old := by
      rw [writtenByte, if_neg (by simp)]
    exact ⟨p.request.args, fun i => (kept ..).symm, by rw [kept]; rfl⟩
  | cons b bytes ih =>
    obtain ⟨first, first_get, first_eq⟩ := writeByte_request p offset b
    obtain ⟨args, get, eq⟩ := ih (p.writeByte offset b) (offset + 1)
    refine ⟨args, fun i => ?_, ?_⟩
    · rw [get, first_eq, first_get, writtenByte_cons]
    · rw [Port.writeBytes, eq, first_eq, writtenByte_cons]

theorem goodControl_iff (offset : Half) (size : Nat) :
    goodControl offset size = true ↔ (size = 1 ∨ size = 2 ∨ size = 4) ∧ offset.toNat % size = 0 := by
  simp [goodControl, or_assoc]

theorem isCommit_iff (offset : Half) : isCommit offset = true ↔ 0x40 ≤ offset.toNat ∧ offset.toNat < 0x44 := by
  simp [isCommit]

section Cycle

variable {offset : Half} {size : Nat} {data : List Byte} (free : s.busShut a = false)
include free

theorem controlCycle_bad (bad : ¬goodControl offset size = true) (write : Bool) :
    s.controlCycle a offset write size data =
      withPort s a { s.ports.get a with ended := some (aerrEnd s.mgmt.fill write size) } := by
  rw [State.controlCycle, if_neg (by simp [free]), if_pos (by simpa using bad)]
  rfl

variable (good : goodControl offset size = true)
include good

theorem controlCycle_read :
    s.controlCycle a offset false size data =
      withPort s a { s.ports.get a with ended := some (.bytes (controlRead s a offset.toNat size)) } := by
  rw [State.controlCycle, if_neg (by simp [free]), if_neg (by simp [good]), if_neg Bool.false_ne_true]
  rfl

theorem controlCycle_commit (commit : isCommit offset = true) :
    s.controlCycle a offset true size data = s.commitCycle a := by
  rw [State.controlCycle, if_neg (by simp [free]), if_neg (by simp [good]), if_pos rfl, State.controlWrite,
    if_pos commit, commitCycle_free free]
  rfl

theorem controlCycle_write (other : ¬isCommit offset = true) :
    s.controlCycle a offset true size data =
      withPort s a
        (if (s.ports.get a).down then { s.ports.get a with ended := some (.write false) }
         else ({ s.ports.get a with ended := some (.write false) } : Port).writeBytes offset.toNat
            (data.take size)) := by
  rw [State.controlCycle, if_neg (by simp [free]), if_neg (by simp [good]), if_pos rfl, State.controlWrite,
    if_neg other]
  simp only [State.endCycle, State.updPort, Tbl.get_set_self, Tbl.set_set, withPort]
  rfl

end Cycle

/-! ### Reads in the control aperture (R147, R155, R179) -/

/-- The fields of the status word, from bit 31 down. -/
theorem status_fields (reply warning closing lost fault full run refused : Bool) (seq : Byte) (state : BitVec 2) :
    let word :=
      (0 : BitVec 11) ++ BitVec.ofBool reply ++ BitVec.ofBool warning ++ BitVec.ofBool closing ++ BitVec.ofBool lost ++
        BitVec.ofBool fault ++ seq ++ (0 : BitVec 3) ++ BitVec.ofBool full ++ BitVec.ofBool run ++
        BitVec.ofBool refused ++ state
    word.extractLsb' 0 2 = state ∧ word.getLsbD 2 = refused ∧ word.getLsbD 3 = run ∧ word.getLsbD 4 = full ∧
      word.extractLsb' 5 3 = 0 ∧ word.extractLsb' 8 8 = seq ∧ word.getLsbD 16 = fault ∧ word.getLsbD 17 = lost ∧
      word.getLsbD 18 = closing ∧ word.getLsbD 19 = warning ∧ word.getLsbD 20 = reply ∧
      word.extractLsb' 21 11 = 0 := by
  intro word
  refine ⟨?_, ?_, ?_, ?_, ?_, ?_, ?_, ?_, ?_, ?_, ?_, ?_⟩
  case refine_1 | refine_5 | refine_6 | refine_12 =>
    simp only [word, BitVec.extractLsb'_append_eq_of_le, BitVec.extractLsb'_append_eq_right, Nat.reduceLeDiff,
      Nat.reduceSub, Nat.le_refl, Nat.sub_self, BitVec.extractLsb'_eq_self]
  all_goals
    simp only [word, BitVec.getLsbD_append]
    simp

theorem controlByte_status {i : Nat} (lt : i < 4) :
    controlByte s a i = (statusWord s a).extractLsb' (8 * i) 8 := by
  simp only [controlByte, lt, if_true]
  have place : i = 0 ∨ i = 1 ∨ i = 2 ∨ i = 3 := by omega
  rcases place with rfl | rfl | rfl | rfl <;> rfl

theorem controlByte_arg (i : Fin 8) : controlByte s a (0x12 + i.val) = (s.ports.get a).request.args.get i := by
  have lt := i.isLt
  rw [controlByte, if_neg (by omega), if_neg (by omega), if_pos (by omega)]
  rw [Nat.add_sub_cancel_left, List.getD_eq_getElem?_getD, List.getElem?_eq_getElem, Option.getD_some]
  rfl

theorem controlByte_response {i : Nat} (lt : i < 0x20) :
    controlByte s a (0x80 + i) = (responseBytes (s.ports.get a).response).getD i 0 := by
  rw [controlByte, if_neg (by omega), if_neg (by omega), if_neg (by omega), if_pos (by omega), Nat.add_sub_cancel_left]

theorem controlByte_elsewhere {i : Nat} (status : 4 ≤ i) (code : i ≠ 0x10) (args : ¬(0x12 ≤ i ∧ i < 0x1A))
    (response : ¬(0x80 ≤ i ∧ i < 0xA0)) : controlByte s a i = 0 := by
  rw [controlByte, if_neg (by omega), if_neg code, if_neg args, if_neg response]

/-- Settles O37. -/
theorem controlApertureCycles : Obligations.ControlApertureCycles := by
  refine ⟨fun a offset size data s free => ?_, fun a s => ?_⟩
  · intro p good atCommit written
    have isGood : goodControl offset size = true ↔ good := goodControl_iff offset size
    have isAt : isCommit offset = true ↔ atCommit := isCommit_iff offset
    have write : exec (.controlApertureWrite a offset size data) s = .next (s.controlCycle a offset true size data) :=
      rfl
    refine ⟨fun ok other whole up => ?_, fun ok other down => ?_, fun ok here => ?_, fun write bad => ?_, fun ok => ?_,
      rfl⟩
    · have same (place : Nat) (old : Byte) : writtenByte offset.toNat data place old = written place old := by
        rw [writtenByte, whole]
      obtain ⟨args, get, eq⟩ :=
        writeBytes_request ({ s.ports.get a with ended := some (.write false) } : Port) offset.toNat data
      simp only [same] at get eq
      refine ⟨args, get, ?_⟩
      rw [write, controlCycle_write free (isGood.mpr ok) (mt isAt.mp other), down_eq_false up,
        List.take_of_length_le (by omega), if_neg Bool.false_ne_true, eq]
    · rw [write, controlCycle_write free (isGood.mpr ok) (mt isAt.mp other), if_pos ((down_iff _).mpr down)]
    · rw [write, controlCycle_commit free (isGood.mpr ok) (isAt.mpr here)]
      rfl
    · show Host.Outcome.next (s.controlCycle a offset write size data) = _
      rw [controlCycle_bad free (mt isGood.mp bad)]
      rfl
    · show Host.Outcome.next (s.controlCycle a offset false size data) = _
      rw [controlCycle_read free (isGood.mpr ok)]
      rfl
  · intro p byte word
    obtain ⟨state, refused, run, full, zero, seq, fault, lost, closing, warning, reply, top⟩ :=
      status_fields (p.notices.has .reply) (p.notices.has .warning) (p.notices.has .closing) (p.notices.has .lost)
        (p.notices.has .fault) p.fault.isSome s.mgmt.running p.commitRefused p.response.seq (p.state.code.setWidth 2)
    refine ⟨⟨state.trans ?_, refused, run, full, zero, seq, fault, ?_, ?_, ?_, ?_, top⟩, fun i lt =>
      controlByte_status lt, rfl, controlByte_arg, ⟨rfl, rfl, rfl, rfl, fun i lt => ?_⟩, fun i =>
      controlByte_elsewhere⟩
    · cases p.state <;> rfl
    · rw [show word.getLsbD 17 = p.notices.has .lost from lost, Notices.has, anySet_iff]
      simp only [lostSet_get, Option.isSome_iff_ne_none]
    · rw [show word.getLsbD 18 = p.notices.has .closing from closing, Notices.has, anySet_iff]
    · rw [show word.getLsbD 19 = p.notices.has .warning from warning, Notices.has, anySet_iff]
    · rw [show word.getLsbD 20 = p.notices.has .reply from reply, Notices.has, anySet_iff]
    · have place : 0x84 + i = 0x80 + (i + 4) := by omega
      show controlByte s a (0x84 + i) = _
      rw [place, controlByte_response (by omega)]
      rfl

end Sys2Proof.Machine
end

