-- ==== Sys2Proof/Proofs/DataPath.lean ====
section
/-! PROOF. The data path: the Router takes a cycle (O38), the decode and the target read (O39), the claim (O40), the
arbiter (O41) and the end of a transfer (O42). -/

namespace Sys2Proof.Machine

open Sys2Proof.Safety

variable {s : State} {a : Agent} {w : WindowId}

/-! ### A cycle of the data aperture (R119, R121, R136) -/

theorem outstanding_iff (p : Path) :
    p.outstanding = true ↔
      p.held ≠ none ∨
        p.abandoned = false ∧
          (p.admission ≠ none ∨ (∃ x, p.slot = .queued x) ∨ ∃ x, p.slot = .active x false) := by
  rw [Path.outstanding]
  cases p.slot <;> simp [Option.isSome_iff_ne_none]

theorem busShut_iff (s : State) (a : Agent) :
    s.busShut a = true ↔ s.resetn = false ∨ (s.router.paths.get a).outstanding = true := by
  simp [State.busShut]

theorem exec_dataCycle {c : BusCycle} (outside : c.addr.toNat < 0xFF0000) :
    exec (.dataCycle a c) s = .next (s.offerCycle a c) := by
  have region : inControlRegion c.addr = false := by
    rw [inControlRegion, decide_eq_false_iff_not, Nat.not_le]
    exact outside
  show Host.Outcome.next (if inControlRegion c.addr then _ else _) = _
  rw [region, if_neg Bool.false_ne_true]

theorem offerCycle_ignored {c : BusCycle} (shut : s.busShut a = true ∨ portDown (s.ports.get a)) :
    s.offerCycle a c = s :=
  if_pos (shut.imp id (down_iff _).mpr)

section Offer

variable {c : BusCycle} (free : s.busShut a = false) (up : ¬portDown (s.ports.get a))
include free up

theorem offerCycle_taken (idle : (s.router.paths.get a).slot = .empty ∧ (s.router.paths.get a).admission = none) :
    s.offerCycle a c = cycleTaken s a c := by
  rw [State.offerCycle, if_neg (by simp [free, down_eq_false up]), if_pos ((free_iff _).mpr idle), takeCycle_eq]

theorem offerCycle_held (busy : ¬((s.router.paths.get a).slot = .empty ∧ (s.router.paths.get a).admission = none)) :
    s.offerCycle a c = withPath s a { s.router.paths.get a with held := some c } := by
  rw [State.offerCycle, if_neg (by simp [free, down_eq_false up]), if_neg (mt (free_iff _).mp busy)]
  rfl

end Offer

/-- Settles O38. -/
theorem dataCycleTakenOrRefused : Obligations.DataCycleTakenOrRefused := by
  intro a c s outside result path idle
  have offers : result = .next (s.offerCycle a c) := exec_dataCycle outside
  refine ⟨?_, fun ignored => ?_, fun free up => ⟨fun idle stopped => ?_, fun idle run skewed => ?_,
    fun idle run good => ?_, fun busy => ?_⟩⟩
  · rw [busShut_iff, outstanding_iff]
  · rw [offers, offerCycle_ignored ignored]
  · rw [offers, offerCycle_taken free up idle, cycleTaken, if_pos stopped]
  · rw [offers, offerCycle_taken free up idle, cycleTaken, if_neg (by simp [run]), if_pos skewed]
  · rw [offers, offerCycle_taken free up idle, cycleTaken, if_neg (by simp [run]),
      if_neg (Classical.not_not.mpr good)]
  · rw [offers, offerCycle_held free up busy]

/-! ### The decode and the target read (R16, R121) -/

/-- The window answers the decode of the address. -/
def State.answers (s : State) (addr : Addr) (w : WindowId) : Prop :=
  ((s.windows.get w).state = .opened ∨ (s.windows.get w).state = .closing) ∧
    (s.windows.get w).base.toNat ≤ addr.toNat ∧ addr.toNat < (s.windows.get w).endAddr

theorem covers_iff (win : Window) (addr : Nat) :
    win.covers addr = true ↔ win.base.toNat ≤ addr ∧ addr < win.endAddr := by simp [Window.covers]

theorem decodeAddr_none {addr : Addr} (unanswered : ∀ w, ¬s.answers addr w) : s.decodeAddr addr = none := by
  rw [State.decodeAddr]
  cases found : s.coveringWindow addr with
  | none => rfl
  | some w =>
    have covers := List.find?_some found
    simp only [Bool.and_eq_true, covers_iff] at covers
    have quiet (other : (s.windows.get w).state = .opened ∨ (s.windows.get w).state = .closing) : False :=
      unanswered w ⟨other, covers.2⟩
    cases state : (s.windows.get w).state
    case opened => exact (quiet (.inl state)).elim
    case closing => exact (quiet (.inr state)).elim
    all_goals simp only [state]

/-- Windows do not overlap, so the one that answers is the one found. -/
theorem coveringWindow_eq {addr : Addr} (law : WindowLaw s) (here : s.answers addr w) :
    s.coveringWindow addr = some w := by
  obtain ⟨-, -, -, -, apart⟩ := law
  obtain ⟨live, low, high⟩ := here
  have used : (s.windows.get w).state ≠ .vacant := by rcases live with e | e <;> rw [e] <;> decide
  cases found : s.coveringWindow addr with
  | none =>
    have missed := List.find?_eq_none.mp found w (mem_allWindows w)
    simp only [Bool.and_eq_true, covers_iff, bne_iff_ne] at missed
    exact absurd ⟨used, low, high⟩ missed
  | some v =>
    have covers := List.find?_some found
    simp only [Bool.and_eq_true, covers_iff, bne_iff_ne] at covers
    obtain ⟨used', low', high'⟩ := covers
    by_cases e : v = w
    · rw [e]
    · exact absurd (apart v w e used' used) (by omega)

theorem decodeAddr_some {addr : Addr} (law : WindowLaw s) (here : s.answers addr w) :
    s.decodeAddr addr =
      let win := s.windows.get w
      some
        { window := w, state := win.state, target := win.target, readOnly := win.rule == .readOnly,
          endAddr := win.endAddr, targetAddr := win.offset + (addr - win.base) } := by
  rw [State.decodeAddr, coveringWindow_eq law here]
  rcases here.1 with state | state <;> simp only [state]

section Asked

variable {d : Admission} (asked : (s.router.paths.get a).admission = some d)
include asked

theorem exec_decode (phase : d.phase = .decode) :
    exec (.addressDecode a .decode) s = .next (s.answerDecode a d) := by
  simp only [exec, execAddressDecode, asked, phase]

theorem exec_target {hit : Hit} (phase : d.phase = .target hit) :
    exec (.addressDecode a .target) s = .next (s.answerTarget a d hit) := by
  simp only [exec, execAddressDecode, asked, phase]

end Asked

/-- Settles O39. -/
theorem decodeAndTargetReadAnswer : Obligations.DecodeAndTargetReadAnswer := by
  refine ⟨fun a d s asked phase law => ⟨fun unanswered => ?_, fun w here => ?_⟩, fun a d hit s asked phase =>
    ⟨fun faulted => ?_, fun well => ?_⟩, fun a s => ⟨fun other => ?_, fun other => ?_⟩⟩
  · rw [exec_decode asked phase, State.answerDecode, decodeAddr_none unanswered, refuse_eq]
  · rw [exec_decode asked phase, State.answerDecode, decodeAddr_some law here]
    rfl
  · rw [exec_target asked phase, State.answerTarget, if_pos faulted, refuse_eq]
  · rw [exec_target asked phase, State.answerTarget, if_neg well]
    rfl
  · cases asked : (s.router.paths.get a).admission with
    | none => simp only [exec, execAddressDecode, asked]
    | some d =>
      cases phase : d.phase with
      | decode => exact absurd phase (other d asked)
      | target | claim => simp only [exec, execAddressDecode, asked, phase]
  · cases asked : (s.router.paths.get a).admission with
    | none => simp only [exec, execAddressDecode, asked]
    | some d =>
      cases phase : d.phase with
      | target hit => exact absurd phase (other d hit asked)
      | decode | claim => simp only [exec, execAddressDecode, asked, phase]

/-! ### The claim (R34, R121 checks 5 to 8, R125, R135) -/

theorem pastEnd_iff (c : BusCycle) (hit : Hit) : pastEnd c hit = true ↔ hit.endAddr < c.addr.toNat + c.size := by
  simp [pastEnd]

section Claim

variable {c : BusCycle} {hit : Hit}

theorem claimCheck_noLease (none : (s.ctxs.get hit.window).holdOf a = none) :
    claimCheck s a c hit = .error .noLease := by simp only [claimCheck, none]

variable {h : Hold} (held : (s.ctxs.get hit.window).holdOf a = some h)
include held

theorem claimCheck_readOnly (write : c.write = true) (readOnly : hit.readOnly = true) :
    claimCheck s a c hit = .error .readOnly := by
  simp only [claimCheck, held, write, readOnly, and_self, if_true]

theorem claimCheck_sharedWrite (write : c.write = true) (writable : hit.readOnly = false) (shared : h.mode = .shared) :
    claimCheck s a c hit = .error .sharedWrite := by
  simp [claimCheck, held, write, writable, shared]

variable (may : c.write = true → hit.readOnly = false ∧ h.mode = .exclusive)
include may

theorem claimCheck_may : claimCheck s a c hit = if pastEnd c hit then .error .boundary else .ok h := by
  have writable : ¬(c.write = true ∧ hit.readOnly = true) := fun k => by simp [(may k.1).1] at k
  have alone : ¬(c.write = true ∧ h.mode ≠ .exclusive) := fun k => k.2 (may k.1).2
  simp only [claimCheck, held, writable, alone, if_false]

theorem claimCheck_boundary (past : hit.endAddr < c.addr.toNat + c.size) :
    claimCheck s a c hit = .error .boundary := by
  rw [claimCheck_may held may, if_pos ((pastEnd_iff c hit).mpr past)]

theorem claimCheck_ok (inside : c.addr.toNat + c.size ≤ hit.endAddr) : claimCheck s a c hit = .ok h := by
  rw [claimCheck_may held may, if_neg (mt (pastEnd_iff c hit).mp (by omega))]

end Claim

theorem takeClaim_refuses {d : Admission} {hit : Hit} {r : Reason} (refused : claimCheck s a d.cycle hit = .error r) :
    s.takeClaim a d hit = refusalSettled s a r d.cycle (some hit.window) := by
  rw [State.takeClaim, refused, ← refuse_eq]

theorem takeClaim_admits {d : Admission} {hit : Hit} {h : Hold} (passed : claimCheck s a d.cycle hit = .ok h) :
    s.takeClaim a d hit = s.admitAccess a d hit h := by
  rw [State.takeClaim, passed]

/-- A transfer in progress keeps the arbiter from deciding. -/
theorem arbitrate_busy (busy : s.router.bus ≠ .ownedIdle) (n : Nat) : State.arbitrate n s = s := by
  cases n with
  | zero => rfl
  | succ n => rw [State.arbitrate, if_neg busy]

/-- The access that an admission makes under a hold. -/
def accessOf (d : Admission) (hit : Hit) (h : Hold) : Access where
  window := hit.window
  target := hit.target
  targetAddr := hit.targetAddr
  cycle := d.cycle
  serial := h.serial
  once := h.once

/-- The state with the access counted and QUEUED. -/
def State.admitted (s : State) (a : Agent) (d : Admission) (hit : Hit) (h : Hold) : State :=
  let x := s.ctxs.get hit.window
  withPath (withCtx s hit.window { x with inflight := x.inflight + 1 }) a
    { s.router.paths.get a with slot := .queued (accessOf d hit h), admission := none }

theorem admitAccess_eq (s : State) (a : Agent) (d : Admission) (hit : Hit) (h : Hold) :
    s.admitAccess a d hit h =
      if d.drop then accessDropped (s.admitted a d hit h) a (accessOf d hit h)
      else State.arbitrate 4 (s.admitted a d hit h) := by
  rw [← dropQueued_eq]
  rfl

theorem exec_claim {d : Admission} {hit : Hit} (asked : (s.router.paths.get a).admission = some d)
    (phase : d.phase = .claim hit ∨ d.phase = .target hit ∧ (s.targets.get hit.target).state ≠ .faulted) :
    exec (.admissionClaim a) s = .next (s.takeClaim a d hit) := by
  rcases phase with phase | ⟨phase, well⟩
  · simp only [exec, execAdmissionClaim, asked, phase]
  · simp only [exec, execAdmissionClaim, asked, phase, well, if_false]

/-- Settles O40. -/
theorem claimChecksThenAdmits : Obligations.ClaimChecksThenAdmits := by
  refine ⟨fun a d hit s asked phase => ?_, fun a d hit s asked phase faulted => ?_, fun a s early => ?_⟩
  · intro c result x refused
    have claims : result = .next (s.takeClaim a d hit) := exec_claim asked phase
    have refuses {r : Reason} (check : claimCheck s a d.cycle hit = .error r) : refused r := by
      show result = _
      rw [claims, takeClaim_refuses check]
    refine ⟨fun none => refuses (claimCheck_noLease none), fun h held => ?_⟩
    intro access admitted passes
    have admits (pass : passes) : result = .next (s.admitAccess a d hit h) := by
      rw [claims, takeClaim_admits (claimCheck_ok held pass.1 pass.2)]
    refine ⟨fun write readOnly => refuses (claimCheck_readOnly held write readOnly),
      fun write writable shared => refuses (claimCheck_sharedWrite held write writable shared),
      fun may past => refuses (claimCheck_boundary held may past), fun pass drop => ?_, fun pass kept busy => ?_,
      fun pass kept idle => ?_⟩
    · rw [admits pass, admitAccess_eq, if_pos drop]
      rfl
    · rw [admits pass, admitAccess_eq, if_neg (by simp [kept]), arbitrate_busy]
      · rfl
      · exact busy
    · rw [admits pass, admitAccess_eq, if_neg (by simp [kept])]
      rfl
  · simp only [exec, execAdmissionClaim, asked, phase, faulted, if_true, refuse_eq]
  · cases asked : (s.router.paths.get a).admission with
    | none => simp only [exec, execAdmissionClaim, asked]
    | some d => simp only [exec, execAdmissionClaim, asked, early d asked]

/-! ### The arbiter (R127, R128) -/

/-- Settles O41. -/
theorem arbiterServesFromThePointer : Obligations.ArbiterServesFromThePointer := by
  intro n s queued
  refine ⟨fun none => ?_, fun d x idle here first => ?_⟩
  · rcases none with busy | none
    · exact arbitrate_busy busy _
    · rw [State.arbitrate, nextQueued_none s none, ite_self]
  · intro a u
    have next : s.nextQueued = some (a, x) := nextQueued_first s d x here first
    refine ⟨fun ready => ?_, fun faulted => ?_⟩
    · simp only [State.arbitrate, idle, if_true, next, State.updRouter_targets, ready]
      rfl
    · simp only [State.arbitrate, idle, if_true, next, State.updRouter_targets, faulted, complete_not_run]
      rfl

/-! ### The end of a transfer (R129, R131, R136, R141) -/

theorem endTransfer_carrying {x : Access} {discard : Bool} (runs : carrying s a x discard) (o : Outcome)
    (beats : Tbl (BitVec 32) 8) (first : Bool) :
    s.endTransfer o beats first =
      let t := transferDone s a x discard o beats
      State.arbitrate 4 (if first then t.takeOutcomes else t) := by
  obtain ⟨bus, slot⟩ := runs
  rcases bus with bus | bus <;> simp only [State.endTransfer, bus, slot, complete_ran]

theorem endTransfer_none (none : s.router.bus = .ownedIdle ∨ s.router.bus = .lent) (o : Outcome)
    (beats : Tbl (BitVec 32) 8) (first : Bool) : s.endTransfer o beats first = s := by
  rcases none with bus | bus <;> simp only [State.endTransfer, bus]

/-- An answer to another transfer, or with none on the bus, is ignored. -/
theorem endTransfer_ignored {n : Nat} (ignored : s.router.bus = .ownedIdle ∨ s.router.bus = .lent ∨ n ≠ s.transfers)
    (o : Outcome) (beats : Tbl (BitVec 32) 8) (first : Bool) :
    (if s.inTime n then s.endTransfer o beats first else s) = s := by
  rcases ignored with bus | bus | late
  · rw [endTransfer_none (.inl bus), ite_self]
  · rw [endTransfer_none (.inr bus), ite_self]
  · rw [State.inTime, if_neg (by simpa using late)]

/-- Settles O42. -/
theorem transferEnds : Obligations.TransferEnds := by
  refine ⟨fun s beats => ⟨fun n ignored => ⟨?_, fun first => ?_⟩, fun a x discard runs => ?_⟩, fun s first =>
    ⟨fun running => ?_, fun a x discard runs out => ?_⟩⟩
  · exact congrArg Host.Outcome.next (endTransfer_ignored ignored ..)
  · exact congrArg Host.Outcome.next (endTransfer_ignored ignored ..)
  · have now : s.inTime s.transfers = true := beq_self_eq_true s.transfers
    refine ⟨?_, ?_, ?_⟩
    · exact congrArg Host.Outcome.next ((if_pos now).trans (endTransfer_carrying runs _ _ false))
    · exact congrArg Host.Outcome.next ((if_pos now).trans (endTransfer_carrying runs _ _ false))
    · exact congrArg Host.Outcome.next ((if_pos now).trans (endTransfer_carrying runs _ _ true))
  · exact congrArg Host.Outcome.next (if_neg running)
  · exact congrArg Host.Outcome.next ((if_pos out).trans (endTransfer_carrying runs _ _ first))

end Sys2Proof.Machine
end

