-- ==== Sys2Proof/Proofs/PortReset.lean ====
section
/-! PROOF. The fall of PRSTn at the port (O44), its rise, and the Router's step for the fall (O45). -/

namespace Sys2Proof.Machine

open Sys2Proof.Safety

variable {g : Option Agent} {s t : State} {a : Agent} {w : WindowId}

/-! ### What the port and the Router's mark become (R160, R136) -/

/-- The port with its records at their reset values, and what was handed to it stale. -/
def Port.fallen (p : Port) : Port where
  state := .inReset
  request := ⟨0, Tbl.fill 8 0⟩
  response := ⟨0, .nothing, 0, []⟩
  commitRefused := false
  notices := .empty
  config := .reset
  fault := none
  airqn := true
  prstn := false
  fallOwed := false
  ended := p.ended
  responses := p.responses.map fun r => { r with stale := true }
  handed := p.handed.map fun n => { n with stale := true }

/-- The Router's record of the port with its cycle abandoned, and one that the handshake holds withdrawn. -/
def Path.fallen (q : Path) : Path :=
  { q with held := none, abandoned := q.admission.isSome || q.slot != .empty }

/-- The state before the Lease Engine's step, with the Router's record of the port given. -/
def State.fallStart (s : State) (a : Agent) (q : Path) : State :=
  withPath (withPort s a (s.ports.get a).fallen) a q.fallen

theorem portFallen_eq (s : State) (a : Agent) :
    portFallen s a = (s.fallStart a (s.router.paths.get a)).releaseOn a allWindows := rfl

/-- A new fall of PRSTn, which the Router still owes. -/
theorem portFallen_owed (s : State) (a : Agent) (q : Path) :
    portFallen (withPath s a q) a = (s.fallStart a q).releaseOn a allWindows := by
  rw [portFallen_eq]
  simp only [State.fallStart, withPath, withPort, Tbl.get_set_self, Tbl.set_set]

/-- The pool's count of the agent's entries is 0 once it has no lease. -/
theorem inUse_of_without (law : PoolLaw s) (none : ∀ w, (s.ctxs.get w).without a) : s.inUse.get a = 0 := by
  rw [(law.1 a).1, leasesOf_eq]
  refine List.sum_eq_zero_iff_forall_eq_nat.mpr fun n mem => ?_
  obtain ⟨w, -, rfl⟩ := List.mem_map.mp mem
  exact (LeaseCtx.without_iff_leases _ a).mp (none w)

theorem Changes.keep_poolLaw (changes : Changes g s t) (law : PoolLaw s) : PoolLaw t := by
  induction changes with
  | refl => exact law
  | tail _ last ih => exact last.keeps_poolLaw ih

theorem releaseOn_keeps_poolLaw (law : PoolLaw s) (l : List WindowId) : PoolLaw (s.releaseOn a l) :=
  (Changes.foldl (g := some a) (fun u w => u.releaseLeases a w) (fun u w => changes_releaseLeases u a w) l
    s).keep_poolLaw law

/-! ### The fall of PRSTn at the port -/

section Fall

variable {q : Path}

theorem fall_port (s : State) (a : Agent) (q : Path) :
    ∃ more, ((s.fallStart a q).releaseOn a allWindows).ports.get a =
      { (s.ports.get a).fallen with responses := (s.ports.get a).fallen.responses ++ more } := by
  obtain ⟨more, e⟩ := releaseOn_port (s.fallStart a q) a a allWindows
  refine ⟨more, e.trans ?_⟩
  simp only [State.fallStart, withPath, withPort, Tbl.get_set_self]

theorem fall_other_port (s : State) (q : Path) {a b : Agent} (ne : b ≠ a) :
    ∃ more, ((s.fallStart a q).releaseOn a allWindows).ports.get b =
      { s.ports.get b with responses := (s.ports.get b).responses ++ more } := by
  obtain ⟨more, e⟩ := releaseOn_port (s.fallStart a q) a b allWindows
  refine ⟨more, e.trans ?_⟩
  simp only [State.fallStart, withPath, withPort, Tbl.get_set_ne _ ne.symm]

theorem fall_frame (s : State) (a : Agent) (q : Path) :
    let t := (s.fallStart a q).releaseOn a allWindows
    t =
      { s with
        router := { s.router with paths := s.router.paths.set a q.fallen }
        ctxs := t.ctxs, inUse := t.inUse, ports := t.ports, emptyReports := t.emptyReports } :=
  releaseOn_frame (s.fallStart a q) a allWindows

theorem fall_leases (law : LeaseLaw s) (w : WindowId) :
    (((s.fallStart a q).releaseOn a allWindows).ctxs.get w).without a ∧
      ∀ h, (s.ctxs.get w).holdOf a = some h →
        (((s.fallStart a q).releaseOn a allWindows).ctxs.get w).endings.get a = some ⟨h.serial, .released⟩ :=
  (releaseOn_gone (s.fallStart a q) a nodup_allWindows fun w _ => ⟨_, (leaseLaw_iff s).mp law w⟩).2 w (mem_allWindows w)

theorem fall_inUse (leases : LeaseLaw s) (pool : PoolLaw s) :
    ((s.fallStart a q).releaseOn a allWindows).inUse = s.inUse.set a 0 := by
  refine Tbl.ext_get fun b => ?_
  by_cases e : a = b
  · subst e
    rw [Tbl.get_set_self]
    exact inUse_of_without (releaseOn_keeps_poolLaw (s := s.fallStart a q) pool allWindows)
      fun w => (fall_leases leases w).1
  · rw [Tbl.get_set_ne _ e]
    exact releaseOn_inUse (s.fallStart a q) (Ne.symm e) allWindows

end Fall

/-- The Router's record of the port at the fall, by whether the fall is a new one. -/
def Path.marked (q : Path) (fresh : Bool) : Path := if fresh then { q with dropOwed := true, dropStale := false } else q

theorem exec_portReset_none (high : s.resetn = true) (low : (s.ports.get a).prstn = false)
    (taken : (s.ports.get a).fallOwed = false) : exec (.portReset a) s = .next s := by
  show Host.Outcome.next _ = _
  simp [high, low, taken]

theorem exec_portReset_falls (high : s.resetn = true)
    (falls : (s.ports.get a).prstn = true ∨ (s.ports.get a).fallOwed = true) :
    exec (.portReset a) s =
      .next ((s.fallStart a ((s.router.paths.get a).marked (s.ports.get a).prstn)).releaseOn a allWindows) := by
  cases level : (s.ports.get a).prstn with
  | true =>
    have reset : exec (.portReset a) s =
        .next (((s.updPort a fun p => { p with prstn := false }).updPath a fun q =>
          { q with dropOwed := true, dropStale := false }).portFall a) := by
      show Host.Outcome.next _ = _
      simp only [high, level, Bool.not_true, Bool.false_eq_true, if_false, if_true]
    rw [reset, portFall_eq _ _ (by simp), portFallen_eq]
    simp only [State.fallStart, State.updPort, State.updPath, State.updRouter, withPath, withPort, Tbl.get_set_self,
      Tbl.set_set]
    rfl
  | false =>
    have owed : (s.ports.get a).fallOwed = true := falls.resolve_left (by simp [level])
    have reset : exec (.portReset a) s = .next (s.portFall a) := by
      show Host.Outcome.next _ = _
      simp only [high, level, owed, Bool.not_true, Bool.false_eq_true, if_false, if_true]
    rw [reset, portFall_eq _ _ level, portFallen_eq]
    rfl

/-- Settles O44. -/
theorem portResetClearsThePort : Obligations.PortResetClearsThePort := by
  intro a s high p path fallen
  have same : fallen = (s.fallStart a (path.marked p.prstn)).releaseOn a allWindows := by
    simp only [fallen]
    split
    · rename_i level
      rw [portFallen_owed, Path.marked, if_pos level]
    · rename_i level
      rw [portFallen_eq, Path.marked, if_neg level]
  clear_value fallen
  rw [same]
  clear same
  refine ⟨fun low taken => exec_portReset_none high low taken, fun falls => exec_portReset_falls high falls, ?_,
    fun b ne => fall_other_port s _ ne, fun w noHold noWait => ?_, ?_⟩
  · obtain ⟨more, e⟩ := fall_port s a (path.marked p.prstn)
    rw [e]
    exact ⟨rfl, rfl, rfl, rfl, rfl, rfl, rfl, rfl, rfl, rfl,
      fun r mem => List.mem_append_left _ (List.mem_map.mpr ⟨r, mem, rfl⟩), rfl⟩
  · exact releaseOn_without (s.fallStart a _) (v := w) ⟨noHold, noWait⟩
  have frame := fall_frame s a (path.marked p.prstn)
  have slot : (path.marked p.prstn).fallen.slot = path.slot := by
    unfold Path.marked
    split <;> rfl
  have admission : (path.marked p.prstn).fallen.admission = path.admission := by
    unfold Path.marked
    split <;> rfl
  refine ⟨?_, ?_, ?_, ?_, ?_, ?_, ?_, ?_, ?_, ?_, ?_, fun law => ⟨fun w => ?_, fun w h held => ?_⟩, fall_inUse⟩
  · rw [frame]
    exact (congrArg Path.slot (Tbl.get_set_self ..)).trans slot
  · rw [frame]
    exact (congrArg Path.admission (Tbl.get_set_self ..)).trans admission
  · rw [frame]
    exact congrArg Path.held (Tbl.get_set_self ..)
  iterate 8
    · rw [frame]
  · exact (fall_leases law w).1
  · exact (fall_leases law w).2 h held

/-! ### The rise of PRSTn (R162, R152) -/

theorem exec_prstnRise (high : s.resetn = true) (low : (s.ports.get a).prstn = false) :
    exec (.prstnRise a) s =
      .next
        ((if (s.ports.get a).fallOwed then portFallen s a else s).updPort a fun p =>
          { p with state := .idle, prstn := true }) := by
  show Host.Outcome.next _ = _
  simp only [high, low, Bool.not_true, Bool.false_eq_true, if_false, portFall_eq s a low]

/-! ### The Router's step for a fall of PRSTn (R135) -/

theorem exec_accessDrop (high : s.resetn = true) :
    exec (.accessDrop a) s =
      .next
        (let q := s.router.paths.get a
         let settled : Path := { q with dropOwed := false, dropStale := false }
         if q.dropOwed then if q.dropStale then withPath s a settled else (withPath s a settled).routerFall a
         else if (s.ports.get a).prstn then
           (withPort s a { s.ports.get a with prstn := false, fallOwed := true }).routerFall a
         else s) := by
  show Host.Outcome.next _ = _
  simp only [high, Bool.not_true, Bool.false_eq_true, if_false]
  rfl

/-- The Router's step, by what it has in hand for the port. -/
theorem routerFall_cases {p : Path} (path : s.router.paths.get a = p) :
    (∀ d, p.admission = some d → s.routerFall a = withPath s a { p with admission := some { d with drop := true } }) ∧
      (p.admission = none →
        (p.slot = .empty → s.routerFall a = s) ∧
        (∀ x, p.slot = .queued x → s.routerFall a = accessDropped s a x) ∧
        ∀ x d, p.slot = .active x d → s.routerFall a = withPath s a { p with slot := .active x true }) := by
  subst path
  rw [routerFall_eq]
  refine ⟨fun d asked => ?_, fun none => ⟨fun empty => ?_, fun x queued => ?_, fun x d active => ?_⟩⟩
  · simp only [asked]
  · simp only [none, empty]
  · simp only [none, queued]
  · simp only [none, active]

/-- Settles O45. -/
theorem prstnRiseAndAccessDrop : Obligations.PrstnRiseAndAccessDrop := by
  refine ⟨fun a s high => ⟨fun up => ?_, fun low taken => ?_, fun low owed => ?_⟩, fun a s high => ?_⟩
  · show Host.Outcome.next _ = _
    simp [high, up]
  · rw [exec_prstnRise high low, if_neg (by simp [taken])]
    rfl
  · rw [exec_prstnRise high low, if_pos owed]
    rfl
  · intro p q taken drops settled
    have step : taken = _ := exec_accessDrop (a := a) high
    have falls {u : State} {path : Path} (record : u.router.paths.get a = path)
        (goes : taken = .next (u.routerFall a)) : drops u path := by
      obtain ⟨asked, none⟩ := routerFall_cases record
      refine ⟨fun d e => goes.trans (congrArg _ (asked d e)), fun e => ?_⟩
      obtain ⟨empty, queued, active⟩ := none e
      exact ⟨fun e => goes.trans (congrArg _ (empty e)), fun x e => goes.trans (congrArg _ (queued x e)),
        fun x d e => goes.trans (congrArg _ (active x d e))⟩
    refine ⟨fun unowed low => ?_, fun owed stale => ?_, fun owed fresh => ?_, fun unowed up => ?_⟩
    · exact step.trans (congrArg _ ((if_neg (Bool.eq_false_iff.mp unowed)).trans (if_neg (Bool.eq_false_iff.mp low))))
    · exact step.trans (congrArg _ ((if_pos owed).trans (if_pos stale)))
    · exact falls (Tbl.get_set_self ..)
        (step.trans (congrArg _ ((if_pos owed).trans (if_neg (Bool.eq_false_iff.mp fresh)))))
    · exact falls rfl (step.trans (congrArg _ ((if_neg (Bool.eq_false_iff.mp unowed)).trans (if_pos up))))

end Sys2Proof.Machine
end

