-- ==== Sys2Proof/Proofs/TimeAndHandoffs.lean ====
section
/-! PROOF. Time and hand-offs: TICK (O46), MICROSECOND STEP (O47), the deadlines of leases (O48), and the items
handed to the MP and to ports (O49). -/

namespace Sys2Proof.Machine

open Sys2Proof.Safety

variable {s : State} {a : Agent} {w : WindowId}

/-! ### Time (R64 to R67) -/

theorem exec_tick_none (early : s.tb.divisor = none ∨ s.tb.steps < 1000) : exec .tick s = .next s := by
  show Host.Outcome.next (if _ then s.advance else s) = _
  rw [if_neg]
  rintro ⟨set, due⟩
  rcases early with unset | few
  · rw [unset] at set
    cases set
  · omega

theorem exec_tick_due (set : s.tb.divisor ≠ none) (due : 1000 ≤ s.tb.steps) : exec .tick s = .next s.advance := by
  show Host.Outcome.next (if _ then s.advance else s) = _
  rw [if_pos ⟨Option.isSome_iff_ne_none.mpr set, due⟩]

/-- Settles O46. -/
theorem tickMakesDeadlinesDue : Obligations.TickMakesDeadlinesDue := by
  intro s now due
  refine ⟨exec_tick_none, fun set full => ⟨s.advance, exec_tick_due set full, rfl, rfl, fun w => ?_, fun w => ?_,
    fun i => ?_⟩⟩
  · exact Tbl.get_map ..
  · exact Tbl.get_map ..
  · exact Tbl.get_map ..

theorem exec_microsecondStep_none (none : s.tb.divisor = none ∨ 1000 ≤ s.tb.steps) :
    exec .microsecondStep s = .next s := by
  show Host.Outcome.next _ = _
  cases divisor : s.tb.divisor with
  | none => rfl
  | some d =>
    have full : ¬s.tb.steps < 1000 := by
      rcases none with unset | full
      · rw [divisor] at unset
        cases unset
      · omega
    simp only [full, if_false]

theorem exec_microsecondStep_counts {d : Half} (divisor : s.tb.divisor = some d) (few : s.tb.steps < 1000) :
    exec .microsecondStep s = .next (s.countStep d) := by
  show Host.Outcome.next _ = _
  simp only [divisor, few, if_true]

/-- Settles O47. -/
theorem microsecondStepCountsIntervalsDown : Obligations.MicrosecondStepCountsIntervalsDown := by
  intro s
  refine ⟨exec_microsecondStep_none, fun d divisor few inRange => ?_⟩
  intro k
  have product : k * d.toNat = s.tb.steps * d.toNat + d.toNat := Nat.succ_mul _ _
  obtain ⟨exact, below, above⟩ := stepMoment_bounds d.toNat k s.tb.position s.free (by omega)
  exact ⟨_, _, exec_microsecondStep_counts divisor few, rfl, fun i => Tbl.get_map .., exact, below, above⟩

/-! ### The deadlines of leases (R53, R73, R75) -/

theorem exec_expiry_held {h : Hold} (held : (s.ctxs.get w).holdOf a = some h) :
    exec (.expiry w a) s =
      .next (if h.expiry.due then (holdLost s w h .expired .expired).settleWindow w else s) := by
  simp only [exec, execExpiry, held, endHold_told]

theorem exec_warningTime_held {h : Hold} (held : (s.ctxs.get w).holdOf a = some h) :
    exec (.warningTime w a) s =
      .next
        (if isDue h.warning ∧ !h.warned then
          (holdChanged s w a fun g => { g with warned := true }).handNotice a (.warning w)
        else s) := by
  simp only [exec, execWarningTime, held, updCtx_mapHold]

theorem exec_waitDeadline_wait {x : Wait} (waits : (s.ctxs.get w).waitOf a = some x) :
    exec (.waitDeadline w a) s =
      .next
        (if isDue x.deadline then
          ((waitRemoved s w a).handResponse a 0x01 .timedOut w [windowByte w]).settleWindow w
        else s) := by
  simp only [exec, execWaitDeadline, waits, endWait_eq]

theorem exec_waitDeadline_hold (noWait : (s.ctxs.get w).waitOf a = none) {h : Hold}
    (held : (s.ctxs.get w).holdOf a = some h) :
    exec (.waitDeadline w a) s =
      .next
        (if h.upgrading ∧ isDue h.deadline then
          ((upgradeCleared s w a).handResponse a 0x04 .timedOut w
            ([windowByte w, 0] ++ le16 (h.serial.setWidth 16))).settleWindow w
        else s) := by
  have agent := LeaseCtx.agent_eq_of_holdOf held
  simp only [exec, execWaitDeadline, noWait, held, endUpgrade_eq, agent]

/-- Settles O48. -/
theorem leaseDeadlinesAct : Obligations.LeaseDeadlinesAct := by
  refine ⟨fun w a s => ⟨fun none => ⟨?_, ?_⟩, fun h held => ⟨fun early => ?_, fun due => ?_, fun quiet => ?_,
    fun warns => ?_⟩⟩, fun w a s => ⟨fun x waits => ⟨fun early => ?_, fun due => ?_⟩, fun noWait h held =>
    ⟨fun early => ?_, fun pending due => ?_⟩, fun noWait noHold => ?_⟩⟩
  · simp only [exec, execExpiry, none]
  · simp only [exec, execWarningTime, none]
  · rw [exec_expiry_held held, if_neg (by simp [early])]
  · rw [exec_expiry_held held, if_pos due]
  · rw [exec_warningTime_held held, if_neg]
    rw [isDue_iff, Bool.not_eq_true']
    exact quiet
  · rw [exec_warningTime_held held, if_pos]
    rw [isDue_iff, Bool.not_eq_true']
    exact warns
  · rw [exec_waitDeadline_wait waits, if_neg (mt (isDue_iff _).mp early)]
  · rw [exec_waitDeadline_wait waits, if_pos ((isDue_iff _).mpr due)]
  · rw [exec_waitDeadline_hold noWait held, if_neg]
    rw [isDue_iff]
    exact early
  · rw [exec_waitDeadline_hold noWait held, if_pos ⟨pending, (isDue_iff _).mpr due⟩]
  · simp only [exec, execWaitDeadline, noWait, noHold]

/-! ### Hand-offs (R51, R153, R156, R175) -/

section Oldest

variable {α : Type} {p : α → Bool} {before later : List α} {x : α}

theorem find?_oldest (others : ∀ y ∈ before, p y = false) (here : p x = true) :
    (before ++ x :: later).find? p = some x := by
  rw [List.find?_append, List.find?_eq_none.mpr fun y mem => by simp [others y mem], Option.none_or,
    List.find?_cons_of_pos here]

theorem eraseP_oldest (others : ∀ y ∈ before, p y = false) (here : p x = true) :
    (before ++ x :: later).eraseP p = before ++ later := by
  rw [List.eraseP_append_right _ fun y mem => by simp [others y mem], List.eraseP_cons_of_pos here]

end Oldest

section Attention

variable {k : AttnKind}

theorem exec_attentionHandoff_none (absent : ∀ i ∈ s.mgmt.handed, i.kind ≠ k) :
    exec (.attentionHandoff k) s = .next s := by
  have found : s.mgmt.handed.find? (fun i => i.kind == k) = none :=
    List.find?_eq_none.mpr fun i mem => by simpa using absent i mem
  simp only [exec, execAttentionHandoff, found]

theorem exec_attentionHandoff_oldest {before later : List AttnItem} {i : AttnItem}
    (handed : s.mgmt.handed = before ++ i :: later) (others : ∀ j ∈ before, j.kind ≠ k) (here : i.kind = k) :
    exec (.attentionHandoff k) s =
      .next
        (withAttention { s with mgmt := { s.mgmt with handed := before ++ later } } (s.mgmt.attention.join i)) := by
  have others : ∀ j ∈ before, (j.kind == k) = false := fun j mem => beq_false_of_ne (others j mem)
  have here : (i.kind == k) = true := beq_iff_eq.mpr here
  simp only [exec, execAttentionHandoff, handed, find?_oldest others here, State.updMgmt, eraseP_oldest others here]
  rfl

end Attention

theorem exec_responseHandoff_none (none : (s.ports.get a).responses = []) : exec (.responseHandoff a) s = .next s := by
  simp only [exec, execResponseHandoff, none]

theorem exec_responseHandoff_oldest {r : HandedResponse} {later : List HandedResponse}
    (handed : (s.ports.get a).responses = r :: later) :
    exec (.responseHandoff a) s =
      .next (withPort s a (({ s.ports.get a with responses := later } : Port).takeResponse r)) := by
  simp only [exec, execResponseHandoff, handed]
  rfl

section Notice

variable {k : NoticeKind}

theorem exec_noticeHandoff_none (absent : ∀ n ∈ (s.ports.get a).handed, n.item.kind ≠ k) :
    exec (.noticeHandoff a k) s = .next s := by
  have found : (s.ports.get a).handed.find? (fun n => n.item.kind == k) = none :=
    List.find?_eq_none.mpr fun n mem => by simpa using absent n mem
  simp only [exec, execNoticeHandoff, found]

theorem exec_noticeHandoff_oldest {before later : List HandedNotice} {n : HandedNotice}
    (handed : (s.ports.get a).handed = before ++ n :: later) (others : ∀ m ∈ before, m.item.kind ≠ k)
    (here : n.item.kind = k) :
    exec (.noticeHandoff a k) s =
      .next (withPort s a (({ s.ports.get a with handed := before ++ later } : Port).takeNotice n)) := by
  have others : ∀ m ∈ before, (m.item.kind == k) = false := fun m mem => beq_false_of_ne (others m mem)
  have here : (n.item.kind == k) = true := beq_iff_eq.mpr here
  simp only [exec, execNoticeHandoff, handed, find?_oldest others here, State.updPort, eraseP_oldest others here]
  rfl

end Notice

theorem stopDevice_accepted (run : s.mgmt.running = true) (unused : ∀ w, (s.windows.get w).state.live = false) :
    stopDevice s = ⟨{ s.settleWaits with mgmt := { s.mgmt with running := false } }, .ok, []⟩ := by
  have notLive : s.anyLive = false := by
    rw [← Bool.not_eq_true, anyLive_iff]
    rintro ⟨w, live⟩
    rw [unused w] at live
    cases live
  simp only [stopDevice, run, notLive, Bool.not_true, Bool.false_eq_true, if_false]
  rfl

/-- Settles O49. -/
theorem handoffsJoinOrDiscard : Obligations.HandoffsJoinOrDiscard := by
  refine ⟨fun k s => ⟨exec_attentionHandoff_none, fun before i later handed others here => ?_⟩, fun a s =>
    ⟨exec_responseHandoff_none, fun r later handed => ⟨fun gone => ?_, fun fresh up => ?_⟩⟩, fun a k s =>
    ⟨exec_noticeHandoff_none, fun before n later handed others here => ?_⟩, fun s taken run unused => ?_⟩
  · rw [exec_attentionHandoff_oldest handed others here]
    cases i <;> rfl
  · rw [exec_responseHandoff_oldest handed, Port.takeResponse, if_pos gone]
  · rw [exec_responseHandoff_oldest handed, Port.takeResponse, if_neg (by simp [fresh, up])]
    rfl
  · refine ⟨fun gone => ?_, fun fresh up => ?_⟩
    · rw [exec_noticeHandoff_oldest handed others here, Port.takeNotice, if_pos gone]
    · rw [exec_noticeHandoff_oldest handed others here, Port.takeNotice, if_neg (by simp [fresh, up])]
      cases n.item <;> rfl
  · refine carryOut_of_reply taken ((stopDevice_accepted run unused).trans ?_)
    rw [settleWaits_eq]

end Sys2Proof.Machine
end
